-- ==== Sys2Proof/Word.lean ====
section
/-! DEFINITION. The widths the spec treats as bits: bytes of a frame, 16-bit fields, 32-bit registers and 48-bit
hardware addresses (spec 10_state.md R30, 20_memory.md R83). -/

namespace Sys2Proof

/-- One byte of the frame buffer or of the name buffer (R50, R52). -/
abbrev Byte := BitVec 8

/-- A 16-bit field or checksum word (R141). -/
abbrev Half := BitVec 16

/-- A register of the engine (R30). -/
abbrev Word := BitVec 32

/-- A hardware address, first byte most significant (R39). -/
abbrev HwAddr := BitVec 48

end Sys2Proof
end

