-- ==== Sys2Proof/Config.lean ====
section
/-! DEFINITION. What is fixed for one engine: its parameters (00_scope.md R7), the protocol constants (R8), and the FREE VALUES, the
constants with no body that stand for what the spec leaves open (93_implementation_defined.md U1 to U8). -/

namespace Sys2Proof

/-- The parameters of 00_scope.md R7, all of its table in its order, each an argument of the configuration with R7's value as its
default. The values R7 admits are said by `Params.wf`. -/
structure Params where
  /-- `BUF_SIZE`, the size of the frame buffer in bytes. -/
  bufSize : Nat := 1536
  /-- `NAME_SIZE`, the size of the name buffer in bytes. -/
  nameSize : Nat := 256
  /-- `ENGINE_BASE`, the host address of register offset 0 (open, a platform parameter). -/
  engineBase : Nat := 0
  /-- `ACC_WIDTH`, the bits of the checksum accumulator that exist. -/
  accWidth : Nat := 32
  /-- `DNS_ANSWER_SKIP`, the bytes skipped after the question's zero byte. -/
  dnsAnswerSkip : Nat := 16
  /-- `ETH_HLEN`, the Ethernet header length: no frame of this length or less is looked at. -/
  ethHlen : Nat := 14
  /-- `IP_HLEN`, the IPv4 header length: no smaller total length is accepted. -/
  ipHlen : Nat := 20
  /-- `IP_TTL`, the TTL of every outbound IPv4 header. -/
  ipTtl : Byte := 128
  /-- `DNS_PORT`, the DNS server port. -/
  dnsPort : Half := 53
  deriving DecidableEq, Repr

/-- The values R7 admits: a range for `BUF_SIZE`, one value each for the parameters that R7 and 93_implementation_defined.md P2 and
P5 fix, any `DNS_ANSWER_SKIP`, and an `ENGINE_BASE` on which the register offsets are word aligned (R85).
DEDUCED, notes/assumptions/3.md: the alignment of `ENGINE_BASE`. -/
abbrev Params.wf (p : Params) : Prop :=
  1514 ≤ p.bufSize ∧ p.bufSize ≤ 65536 ∧ p.engineBase % 4 = 0 ∧ p.nameSize = 256 ∧ p.accWidth = 32 ∧
    p.ethHlen = 14 ∧ p.ipHlen = 20 ∧ p.ipTtl = 128 ∧ p.dnsPort = 53

/-- The protocol-constant table of 00_scope.md R8, as the configuration record it asks for. -/
structure Protocol where
  etypeIpv4 : Half := 0x0800
  etypeArp : Half := 0x0806
  arpHtypeEth : Half := 0x0001
  arpPtypeIpv4 : Half := 0x0800
  arpHlen : Byte := 6
  arpPlen : Byte := 4
  arpOpRequest : Half := 1
  arpOpReply : Half := 2
  ipprotoIcmp : Byte := 1
  ipprotoTcp : Byte := 6
  ipprotoUdp : Byte := 17
  icmpEchoRequest : Byte := 8
  icmpEchoReply : Byte := 0
  tcpFin : Byte := 0x01
  tcpSyn : Byte := 0x02
  tcpRst : Byte := 0x04
  tcpPsh : Byte := 0x08
  tcpAck : Byte := 0x10
  dnsTypeA : Half := 1
  dnsClassIn : Half := 1
  dnsFlagsRd : Half := 0x0100
  bcastMac : HwAddr := 0xFFFFFFFFFFFF
  deriving DecidableEq, Repr

/-- The values of R8. -/
def proto : Protocol := {}

/-- The version/header-length byte of an IPv4 header without options (R96). -/
def Config.ipVersionLen : Byte := 0x45

/-- The size of the host register space in bytes: 128 KiB (20_memory.md R80). -/
def Config.windowSize : Nat := 0x20000

/-- Where the FRAME window begins (R31). -/
def Config.frameWindow : Nat := 0x10000

/-- Where the NAME window begins (R31). -/
def Config.nameWindow : Nat := 0x100

/-- FREE VALUE (93 U2): the byte of `B` at an offset that nothing has written since the reset event numbered by the first
argument. notes/assumptions/1.md. -/
opaque Config.frameByte : Nat → Nat → Byte

/-- FREE VALUE (93 U3, U5): the byte of `N` at an index that nothing has written since `N` was last left unspecified; the
first argument numbers those occasions. notes/assumptions/1.md. -/
opaque Config.nameByte : Nat → Nat → Byte

/-- FREE VALUE (93 U7, U8): what the MAC collaborator's `receive` answers once the answers listed in the state are used
up, as the bytes of the frame (empty: nothing pending). notes/assumptions/4.md. -/
opaque Config.macAnswer : Nat → List Byte

/-- FREE VALUE (93 U1, U6): what a host read returns where the spec says the value is unspecified. notes/assumptions/5.md. -/
opaque Config.hostDraw : Nat → Word

/-- FREE VALUE (93 U10): whether the engine moves before the host, where the engine is BUSY, the host has an access to make
and the state lists no choice. notes/assumptions/6.md. -/
opaque Config.engineFirst : Nat → Bool

end Sys2Proof
end

