-- ==== Sys2Proof/Syntax.lean ====
section
/-! DEFINITION. The commands of the engine: one constructor per row of spec/opcode_table.json (30_encoding.md R123). A command word
carries no operand field: the operands are in ARG0 and ARG1 (R120, R121), so no constructor has an argument. -/

namespace Sys2Proof

/-- The ten commands of 30_encoding.md R123. -/
inductive Instr where
  /-- 0x01 `CSUM` (40_checksum.md R143). -/
  | csum
  /-- 0x02 `CSUM_PSEUDO` (R145). -/
  | csumPseudo
  /-- 0x10 `RX_DISPATCH` (41_frame_dispatch.md R174). -/
  | rxDispatch
  /-- 0x11 `POLL` (R175). -/
  | poll
  /-- 0x20 `ARP_RESOLVE` (42_arp.md R204). -/
  | arpResolve
  /-- 0x30 `IP_SEND` (43_ipv4_icmp.md R232). -/
  | ipSend
  /-- 0x31 `PING` (R238). -/
  | ping
  /-- 0x40 `UDP_SEND` (44_udp_tcp.md R272). -/
  | udpSend
  /-- 0x41 `TCP_SEND` (R285). -/
  | tcpSend
  /-- 0x50 `DNS_RESOLVE` (45_dns.md R315). -/
  | dnsResolve
  deriving DecidableEq, Repr

end Sys2Proof
end

