-- ==== Sys2Proof/WellFormed.lean ====
section
/-! DEFINITION. Which command words are legal (30_encoding.md R124), and which operand words a command accepts as to its must-be-zero
bits (R122). Written beside the decoder, not from it. -/

namespace Sys2Proof

/-- The command codes of 30_encoding.md R123. -/
def assignedCodes : List Byte :=
  [0x01, 0x02, 0x10, 0x11, 0x20, 0x30, 0x31, 0x40, 0x41, 0x50]

/-- A command word is legal when its reserved bits are 0 and its code is assigned (R124). -/
def legalWord (w : Word) : Bool :=
  (w >>> 8 == 0) && assignedCodes.contains (w.setWidth 8)

/-- The must-be-zero operand bits of 30_encoding.md R122 are 0. Every other operand bit may have any value (R121). -/
def Instr.operandBitsOk : Instr → Word → Word → Bool
  | .csum, _, _ => true
  | .csumPseudo, _, _ => true
  | .rxDispatch, _, _ => true
  | .poll, _, _ => true
  | .arpResolve, _, _ => true
  | .ipSend, a0, a1 => (a0 >>> 16 == 0) && (a1 >>> 8 == 0)
  | .ping, _, _ => true
  | .udpSend, _, a1 => a1 >>> 16 == 0
  | .tcpSend, _, a1 => a1 >>> 16 == 0
  | .dnsResolve, _, _ => true

/-- A command together with its operand words, as the host issues it, is well formed. -/
def Instr.wellFormed (i : Instr) (a0 a1 : Word) : Bool := i.operandBitsOk a0 a1

end Sys2Proof
end

