-- ==== Sys2Proof/Decode.lean ====
section
/-! DEFINITION. The decoder of a command word (30_encoding.md R120, R123 to R125), total on every 32-bit word and rejecting by name, and
after it the encoder. A word is one 32-bit host write of CMD: it has no byte order of its own (20_memory.md R84). -/

namespace Sys2Proof

/-- Why a command word is illegal (R124). -/
inductive Reject where
  /-- `w[31:8] ≠ 0`. -/
  | reservedBits
  /-- `w[7:0]` is no code of R123. -/
  | unassignedCode
  deriving DecidableEq, Repr

/-- The command code, `OPC` = bits [7:0] (R120). -/
def opcOf (w : Word) : Byte := w.extractLsb' 0 8

/-- The reserved field, bits [31:8] (R120). -/
def rsvOf (w : Word) : BitVec 24 := w.extractLsb' 8 24

/-- The opcode map of R123. -/
def decodeOpc (c : Byte) : Except Reject Instr :=
  match c.toNat with
  | 0x01 => .ok .csum
  | 0x02 => .ok .csumPseudo
  | 0x10 => .ok .rxDispatch
  | 0x11 => .ok .poll
  | 0x20 => .ok .arpResolve
  | 0x30 => .ok .ipSend
  | 0x31 => .ok .ping
  | 0x40 => .ok .udpSend
  | 0x41 => .ok .tcpSend
  | 0x50 => .ok .dnsResolve
  | _ => .error .unassignedCode

/-- The decoder of R120, R123 and R124. -/
def decode (w : Word) : Except Reject Instr :=
  if rsvOf w = 0 then decodeOpc (opcOf w) else .error .reservedBits

/-- The code of each command (R123). -/
def Instr.opc : Instr → Byte
  | .csum => 0x01
  | .csumPseudo => 0x02
  | .rxDispatch => 0x10
  | .poll => 0x11
  | .arpResolve => 0x20
  | .ipSend => 0x30
  | .ping => 0x31
  | .udpSend => 0x40
  | .tcpSend => 0x41
  | .dnsResolve => 0x50

/-- The command word: the code in [7:0], zeros above (R120). -/
def encode (i : Instr) : Word := (0 : BitVec 24) ++ i.opc

/-- What the decoder reads from a command of `nbits` bits whose bits are `w`, numbered as the opcode table numbers them. -/
def decodeTableWord (nbits w : Nat) : Option Instr :=
  (decode (BitVec.ofNat 32 (w % 2 ^ nbits))).toOption

end Sys2Proof
end

