-- ==== Sys2Proof/Machine/State.lean ====
section
/-! DEFINITION. The state of the engine and of what stands around it, as plain data: every register of 10_state.md R31, the hidden
state of R46 to R48, the buffers `B` and `N` (R50, R52), the history of MAC calls (R53), and the inputs still to come: the host's
accesses, the MAC's answers and the order in which host and engine move. -/

namespace Sys2Proof.Machine

/-- A byte memory: the bytes written, addresses strictly rising. An unlisted address holds no written byte; what reading
it gives is said once, by `State.byteB` and `State.byteN` (Machine/Ops.lean). -/
abbrev Memory := List Host.Cell

/-- The canonical form of a memory: addresses strictly rising. No entry can equal what an unlisted address holds, since an
unlisted address holds no written byte. -/
abbrev Memory.wf (m : Memory) : Prop := m.Pairwise (fun c d => c.1 < d.1)

/-- Every listed address lies below `n`. -/
abbrev Memory.within (m : Memory) (n : Nat) : Prop := ∀ c ∈ m, c.1 < n

/-- The control state of 10_state.md R34 with the running command's internal stage. `idle` is IDLE; every other value is
BUSY. Which command runs is read from CMD, which cannot change while BUSY (R35, 20_memory.md R92). -/
inductive Stage where
  /-- IDLE: no command is running. -/
  | idle
  /-- The command in CMD has been taken and has done nothing yet. -/
  | start
  /-- Inside the ARP wait of ARP_RESOLVE, PING or DNS_RESOLVE (42_arp.md R205). -/
  | arpWait
  /-- Inside PING's echo wait (43_ipv4_icmp.md R238). -/
  | echoWait
  /-- Inside DNS_RESOLVE's reply wait (45_dns.md R315). -/
  | replyWait
  /-- Inside POLL's loop (41_frame_dispatch.md R175), `k` frames received so far. -/
  | draining (k : Word)
  deriving DecidableEq, Repr

/-- The two agents that take steps (60_exceptions.md R357); the MAC collaborator only answers the engine's calls. -/
inductive Agent where
  | host
  | engine
  deriving DecidableEq, Repr

/-- One call of the MAC collaborator, with its bytes (10_state.md R53, 60_exceptions.md R353). -/
inductive MacEvent where
  /-- `MacSend(n)`: the bytes `B[0 .. n−1]` at the call. -/
  | sent (bytes : List Byte)
  /-- `MacReceive(max)`: the bytes answered, empty for `0`. -/
  | received (max : Nat) (bytes : List Byte)
  deriving DecidableEq, Repr

/-- One operation of the host (30_encoding.md R127), its addresses absolute. -/
inductive HostOp where
  /-- A host write of `bytes` bytes at host address `addr`. -/
  | write (bytes addr : Nat) (v : Word)
  /-- A host read of `bytes` bytes at host address `addr`. -/
  | read (bytes addr : Nat)
  /-- A host byte write of bits [lsb+7:lsb] of the last value read at register offset `off` (`CSUM_STORE`, R128). -/
  | writeLast (addr off lsb : Nat)
  /-- Repeat `rd STATUS` until BUSY = 0. -/
  | wait
  /-- Compare the last value read at register offset `off` with `v`: a script check, not a host access. -/
  | expect (off : Nat) (v : Word)
  /-- The reset event of 70_reset_and_hazards.md R370, placed among the host's operations. -/
  | reset
  deriving DecidableEq, Repr

/-- What stops the machine for an access to an address that does not exist. The engine itself has no machine fault
(60_exceptions.md R361). -/
inductive Fault where
  /-- Raised by a host access outside the 128 KiB register space (20_memory.md R80). Safe: nothing is claimed about it. -/
  | outsideWindow (addr : Nat)
  deriving DecidableEq, Repr

/-- Why the machine refuses to step. -/
inductive Refusal where
  /-- Raised by exec for an instruction with no meaning yet. Safe. -/
  | notModelled (mnemonic : String)
  /-- Raised by a host access of a wrong width or alignment, to which the spec gives no step (20_memory.md R85,
  60_exceptions.md R361). Safe. -/
  | refusedAccess (bytes addr : Nat)
  /-- Raised by a host operation that uses the value last read at a register offset the host has never read; 30_encoding.md R128
  always reads before it. Safe. -/
  | nothingRead (off : Nat)
  deriving DecidableEq, Repr

/-- The whole state. Registers narrower than 32 bits hold the bits R31 gives them; the reserved bits read as 0 (R30). -/
structure State where
  /-- The parameters of 00_scope.md R7; no step changes them. -/
  cfg : Params
  /-- The control state and STATUS.BUSY (R34, R36). -/
  stage : Stage
  /-- CMD (R35). -/
  cmd : Word
  /-- ARG0 (R32). -/
  arg0 : Word
  /-- ARG1 (R32). -/
  arg1 : Word
  /-- RESULT0 (R33). -/
  result0 : Word
  /-- RESULT1 (R33). -/
  result1 : Word
  /-- STATUS.DONE (R36). -/
  done : Bool
  /-- STATUS.ERR (R36). -/
  err : Bool
  /-- STATUS.OVR (R36). -/
  ovr : Bool
  /-- STATUS.ERRCODE (R36). -/
  errcode : BitVec 4
  /-- MAC_HI[15:0] (R39). -/
  macHi : Half
  /-- MAC_LO (R39). -/
  macLo : Word
  /-- LOCAL_IP (R40). -/
  localIp : Word
  /-- Hidden: MAC_HI has been written since reset (R46). -/
  initMacHi : Bool
  /-- Hidden: MAC_LO has been written since reset (R46). -/
  initMacLo : Bool
  /-- Hidden: LOCAL_IP has been written since reset (R46). -/
  initIp : Bool
  /-- LINE_PORT[15:0] (R41). -/
  linePort : Half
  /-- HTTP_PORT[15:0] (R41). -/
  httpPort : Half
  /-- DNS_ID[15:0] (R42). -/
  dnsId : Half
  /-- DNS_LPORT[15:0] (R43). -/
  dnsLport : Half
  /-- PING_IDSEQ (R44). -/
  pingIdseq : Word
  /-- EVT_KIND[2:0] (R45); STATUS.EVT is `EVT_KIND ≠ 0`. -/
  evtKind : BitVec 3
  /-- EVT_OFF[15:0] (R45). -/
  evtOff : Half
  /-- EVT_LEN[15:0] (R45). -/
  evtLen : Half
  /-- Hidden: ACC, the checksum accumulator (R47). -/
  acc : Word
  /-- Hidden: CNT, the wait counter (R48). -/
  cnt : Word
  /-- `B`, the frame buffer (R50). -/
  frame : Memory
  /-- Numbers the reset events, for the free bytes of `B`. -/
  frameGen : Nat
  /-- `N`, the name buffer (R52). -/
  name : Memory
  /-- Numbers the occasions on which `N` was left unspecified, for its free bytes. -/
  nameGen : Nat
  /-- The TX trace and the receive history since reset, oldest first (R53). -/
  history : List MacEvent
  /-- The MAC calls made before the last reset event: frames already sent stay sent (R370). -/
  priorHistory : List MacEvent
  /-- Input: the MAC's next answers (93 U7, U8). -/
  macIn : List (List Byte)
  /-- Input: the host's operations still to be made, in program order (R357). -/
  script : List HostOp
  /-- The host's record of what it read: register offset and value, newest first. -/
  reads : List (Nat × Word)
  /-- The outcomes of the host's script checks, newest first. -/
  checks : List Bool
  /-- Input: who moves next, where both host and engine could. -/
  sched : List Agent
  /-- Counts the free values drawn so far. -/
  draws : Nat
  deriving DecidableEq, Repr

/-- The state right after reset (70_reset_and_hazards.md R370), of an engine with the default parameters of R7. MAC_HI, MAC_LO,
LOCAL_IP, ACC and CNT have no reset value in the spec: they are 0 here, DESIGN CHOICE, notes/assumptions/2.md. `B` and `N` are
unwritten. The host and the MAC have nothing to do yet, notes/assumptions/7.md. -/
def State.reset : State where
  cfg := {}
  stage := .idle
  cmd := 0
  arg0 := 0
  arg1 := 0
  result0 := 0
  result1 := 0
  done := false
  err := false
  ovr := false
  errcode := 0
  macHi := 0
  macLo := 0
  localIp := 0
  initMacHi := false
  initMacLo := false
  initIp := false
  linePort := 0
  httpPort := 0
  dnsId := 0
  dnsLport := 53
  pingIdseq := 0
  evtKind := 0
  evtOff := 0
  evtLen := 0
  acc := 0
  cnt := 0
  frame := []
  frameGen := 0
  name := []
  nameGen := 0
  history := []
  priorHistory := []
  macIn := []
  script := []
  reads := []
  checks := []
  sched := []
  draws := 0

end Sys2Proof.Machine
end

