-- ==== Sys2Proof/Machine/Flags.lean ====
section
/-! DEFINITION. STATUS, the engine's only flag register: its word (10_state.md R36), the error codes (60_exceptions.md R341), and the
conditions it shows. -/

namespace Sys2Proof.Machine

/-- STATUS.BUSY (R34, R36). -/
def State.busy (s : State) : Bool := s.stage != .idle

/-- STATUS.EVT = (EVT_KIND ≠ 0) (R45). -/
def State.evt (s : State) : Bool := s.evtKind != 0

/-- The STATUS word, reserved bits 0 (R36). -/
def State.statusWord (s : State) : Word :=
  (0 : BitVec 20) ++ s.errcode ++ (0 : BitVec 3) ++ BitVec.ofBool s.evt ++ BitVec.ofBool s.ovr ++
    BitVec.ofBool s.err ++ BitVec.ofBool s.done ++ BitVec.ofBool s.busy

/-- `initialised` (R46). -/
def State.initialised (s : State) : Bool := s.initMacHi && s.initMacLo && s.initIp

/-- The command errors of 60_exceptions.md R341. -/
inductive CmdError where
  | illegal
  | noinit
  | arg
  | bounds
  | name
  deriving DecidableEq, Repr

/-- STATUS.ERRCODE of each error (R341). -/
def CmdError.code : CmdError → BitVec 4
  | .illegal => 1
  | .noinit => 2
  | .arg => 3
  | .bounds => 4
  | .name => 5

/-- EVT_UDP (R45). -/
def evtUdp : BitVec 3 := 1

/-- EVT_TCP_LINE (R45). -/
def evtTcpLine : BitVec 3 := 2

/-- EVT_TCP_HTTP (R45). -/
def evtTcpHttp : BitVec 3 := 3

/-- EVT_TCP_GENERIC (R45). -/
def evtTcpGeneric : BitVec 3 := 4

end Sys2Proof.Machine
end

