-- ==== Sys2Proof/Machine/Ops.lean ====
section
/-! DEFINITION. The named operations over memory and registers: the pseudocode primitives of 00_scope.md R10, byte order (20_memory.md
R83), the MAC calls (60_exceptions.md R353), taking a command and ending it, with or without a CmdError (10_state.md R37). -/

namespace Sys2Proof.Machine

/-! ### Bytes -/

/-- The written byte at an address, none where nothing has been written. -/
def Memory.byteAt : Memory → Nat → Option Byte
  | [], _ => none
  | c :: m, a => if c.1 = a then some c.2 else Memory.byteAt m a

/-- The cells of a run of bytes from address `a` on. -/
def Memory.cells (a : Nat) : List Byte → Memory
  | [] => []
  | b :: bs => (a, b) :: Memory.cells (a + 1) bs

/-- Store a run of bytes from address `a` on; every other address is left alone. -/
def Memory.write (m : Memory) (a : Nat) (bs : List Byte) : Memory :=
  m.filter (fun c => decide (c.1 < a)) ++ Memory.cells a bs ++ m.filter (fun c => decide (a + bs.length ≤ c.1))

/-- The bytes of a 16-bit value in network order (R83). -/
def be16 (v : Half) : List Byte := [v.extractLsb' 8 8, v.extractLsb' 0 8]

/-- The bytes of a 32-bit value in network order. -/
def be32 (v : Word) : List Byte := be16 (v.extractLsb' 16 16) ++ be16 (v.extractLsb' 0 16)

/-- The bytes of a 48-bit value in network order. -/
def be48 (v : HwAddr) : List Byte := be16 (v.extractLsb' 32 16) ++ be32 (v.extractLsb' 0 32)

/-- `B[a]`: the byte written there, or a free value where nothing has been written since reset (R371, 93 U2). -/
def State.byteB (s : State) (a : Nat) : Byte := (s.frame.byteAt a).getD (Config.frameByte s.frameGen a)

/-- `NameRead(i)`: byte `i` of `N`, a free value where nothing has been written (93 U3, U5). -/
def State.byteN (s : State) (i : Nat) : Byte := (s.name.byteAt i).getD (Config.nameByte s.nameGen i)

/-- `B[a .. a+n−1]`. -/
def State.readB (s : State) (a n : Nat) : List Byte := (List.range' a n).map s.byteB

/-- `MemRead(a, 1)` (R10). -/
def State.rd8 (s : State) (a : Nat) : Byte := s.byteB a

/-- `MemRead(a, 2)`, most-significant byte first (R10, R83). -/
def State.rd16 (s : State) (a : Nat) : Half := s.byteB a ++ s.byteB (a + 1)

/-- `MemRead(a, 4)` (R84). -/
def State.rd32 (s : State) (a : Nat) : Word := s.rd16 a ++ s.rd16 (a + 2)

/-- `MemRead(a, 6)`. -/
def State.rd48 (s : State) (a : Nat) : HwAddr := s.rd16 a ++ s.rd32 (a + 2)

/-- Store a run of bytes into `B` from offset `a` on. -/
def State.writeB (s : State) (a : Nat) (bs : List Byte) : State := { s with frame := s.frame.write a bs }

/-- `MemWrite(a, 1, v)` (R10). -/
def State.wr8 (s : State) (a : Nat) (v : Byte) : State := s.writeB a [v]

/-- `MemWrite(a, 2, v)`. -/
def State.wr16 (s : State) (a : Nat) (v : Half) : State := s.writeB a (be16 v)

/-- `MemWrite(a, 4, v)`. -/
def State.wr32 (s : State) (a : Nat) (v : Word) : State := s.writeB a (be32 v)

/-- `MemWrite(a, 6, v)`. -/
def State.wr48 (s : State) (a : Nat) (v : HwAddr) : State := s.writeB a (be48 v)

/-- `MemCopy(dst, src, n)`: as if through a temporary buffer (R10). -/
def State.copyB (s : State) (dst src n : Nat) : State := s.writeB dst (s.readB src n)

/-- The range rule of 20_memory.md R82, in exact arithmetic. -/
def State.inRange (s : State) (a n : Nat) : Bool := decide (a + n ≤ s.cfg.bufSize)

/-- Store one byte of `N`. -/
def State.writeN (s : State) (i : Nat) (b : Byte) : State := { s with name := s.name.write i [b] }

/-- `N` is left unspecified: every byte may hold any value (45_dns.md R318). -/
def State.scrambleN (s : State) : State := { s with name := [], nameGen := s.nameGen + 1 }

/-! ### Registers -/

/-- LOCAL_MAC = {MAC_HI[15:0], MAC_LO} (R39). -/
def State.localMac (s : State) : HwAddr := s.macHi ++ s.macLo

/-- `SetEvent` (41_frame_dispatch.md R177). -/
def State.setEvent (s : State) (kind : BitVec 3) (off len : Half) : State :=
  { s with evtKind := kind, evtOff := off, evtLen := len }

/-- `ClearEvent` (R178). -/
def State.clearEvent (s : State) : State := { s with evtKind := 0, evtOff := 0, evtLen := 0 }

/-- ACC, a register of ACC_WIDTH bits, takes a value (R47). -/
def State.setAcc (s : State) (v : Word) : State := { s with acc := (v.setWidth s.cfg.accWidth).setWidth 32 }

/-- Load CNT and go on in a stage of the running command (42_arp.md R205). -/
def State.beginWait (s : State) (g : Stage) (t : Word) : State := { s with cnt := t, stage := g }

/-- CNT ← CNT − 1 (R205). -/
def State.decCnt (s : State) : State := { s with cnt := s.cnt - 1 }

/-- Go on in a stage of the running command. -/
def State.setStage (s : State) (g : Stage) : State := { s with stage := g }

/-! ### MAC calls (60_exceptions.md R353) -/

/-- `MacSend(n)`: append `B[0 .. n−1]` to the history. -/
def State.macSend (s : State) (n : Nat) : State := { s with history := s.history ++ [.sent (s.readB 0 n)] }

/-- The frame the next `MacReceive` answers with, at most `BUF_SIZE` bytes (R353): the next listed answer, or a free value
where none is listed. -/
def State.nextFrame (s : State) : List Byte := (s.macIn.headD (Config.macAnswer s.draws)).take s.cfg.bufSize

/-- `MacReceive(BUF_SIZE)`: record the call and its answer, and write the answered bytes to `B[0 .. n−1]`. -/
def State.macReceive (s : State) : State :=
  { s with
    frame := s.frame.write 0 s.nextFrame
    history := s.history ++ [.received s.cfg.bufSize s.nextFrame]
    macIn := s.macIn.tail
    draws := s.draws + 1 }

/-! ### Taking and ending a command (10_state.md R37) -/

/-- `finish` with the two results (R37, R33). DESIGN CHOICE, notes/assumptions/13.md: CNT and ACC keep what the command left in
them until the next load (93 U4 allows any value). -/
def State.finish (s : State) (r0 r1 : Word) : State :=
  { s with result0 := r0, result1 := r1, stage := .idle, done := true }

/-- `raise CmdError(c)`: the engine's only exception. It saves nothing and enters no handler: its whole effect is this
update (R37, 60_exceptions.md R344). CNT and ACC are kept, DESIGN CHOICE, notes/assumptions/13.md (93 U4). There is no return
instruction: the next command taken clears it (R345). -/
def State.raise (s : State) (c : CmdError) : State :=
  { s with result0 := 0, result1 := 0, stage := .idle, done := true, err := true, errcode := c.code }

/-- The command written to CMD is accepted: the engine is BUSY with it and the flags of the last command are cleared. -/
def State.accept (s : State) (w : Word) : State :=
  { s with cmd := w, stage := .start, done := false, err := false, errcode := 0 }

/-- CMD takes the written word, even an illegal one (R35). -/
def State.setCmd (s : State) (w : Word) : State := { s with cmd := w }

/-- A CMD write while IDLE (R35, R37, 30_encoding.md R124). -/
def State.takeCommand (s : State) (w : Word) : State :=
  match decode w with
  | .ok _ => s.accept w
  | .error _ => (s.setCmd w).raise .illegal

end Sys2Proof.Machine
end

