-- ==== Sys2Proof/Machine/Operands.lean ====
section
/-! DEFINITION. The operands of each command, read from ARG0 and ARG1 (30_encoding.md R121, R122): unsigned, zero-extended, no other bits. -/

namespace Sys2Proof.Machine

/-- The must-be-zero operand bits of the command are 0 in ARG0 and ARG1 (R121, R122). -/
def State.argBitsOk (s : State) (i : Instr) : Bool := i.operandBitsOk s.arg0 s.arg1

/-- CSUM `off` = ARG0[31:0]. -/
def State.opOff (s : State) : Nat := s.arg0.toNat

/-- CSUM `len` = ARG1[31:0]. -/
def State.opLen (s : State) : Nat := s.arg1.toNat

/-- CSUM_PSEUDO `ipoff` = ARG0[31:0]. -/
def State.opIpoff (s : State) : Nat := s.arg0.toNat

/-- RX_DISPATCH `n` = ARG0[31:0]. -/
def State.opFrameLen (s : State) : Nat := s.arg0.toNat

/-- ARP_RESOLVE and PING `ip`, DNS_RESOLVE `sip` = ARG0[31:0]. -/
def State.opIp (s : State) : Word := s.arg0

/-- ARP_RESOLVE, PING and DNS_RESOLVE `t` = ARG1[31:0]. -/
def State.opBudget (s : State) : Word := s.arg1

/-- IP_SEND `plen` = ARG0[15:0]. -/
def State.opPlen (s : State) : Nat := (s.arg0.extractLsb' 0 16).toNat

/-- IP_SEND `proto` = ARG1[7:0]. -/
def State.opProto (s : State) : Byte := s.arg1.extractLsb' 0 8

/-- UDP_SEND and TCP_SEND `src` = ARG0[31:0]. -/
def State.opSrc (s : State) : Nat := s.arg0.toNat

/-- UDP_SEND and TCP_SEND `len` = ARG1[15:0]. -/
def State.opSendLen (s : State) : Nat := (s.arg1.extractLsb' 0 16).toNat

/-- The padded length `p = len + (len mod 2)` (44_udp_tcp.md R274). -/
def padded (len : Nat) : Nat := len + len % 2

end Sys2Proof.Machine
end

