-- ==== Sys2Proof/Machine/Checksum.lean ====
section
/-! DEFINITION. The checksum engine (40_checksum.md): the adder, the word lists, CSUM and CSUM_PSEUDO, and the write-back functions every
sending stage uses. -/

namespace Sys2Proof.Machine

/-- The first loop of `OcSum` (R140): ACC after adding every word, mod 2^32. -/
def accumulate (ws : List Half) : Word := ws.foldl (fun acc w => acc + w.setWidth 32) 0

/-- The fold of `OcSum` (R140), at most `k` times: while ACC[31:16] is not 0, add it to ACC[15:0]. Two times always suffice
for 32 bits (Laws/Checksum.lean). -/
def foldCarry : Nat → Word → Word
  | 0, a => a
  | k + 1, a =>
    if a.extractLsb' 16 16 = 0 then a
    else foldCarry k ((a.extractLsb' 0 16).setWidth 32 + (a.extractLsb' 16 16).setWidth 32)

/-- `OcSum(ws)`, the folded sum (R140, R142). -/
def ocSum (ws : List Half) : Half := (foldCarry 2 (accumulate ws)).extractLsb' 0 16

/-- The checksum of a folded sum, "the one's complement of the result" (R142). -/
def complement (sum : Half) : Half := ~~~sum

/-- The word list of a byte range (R141): big-endian words, a final odd byte the high byte of a word. -/
def wordsOf : List Byte → List Half
  | [] => []
  | [h] => [h ++ (0 : Byte)]
  | h :: l :: bs => (h ++ l) :: wordsOf bs

/-- The folded sum of `B[a .. a+n−1]` (R142). -/
def State.foldedSum (s : State) (a n : Nat) : Half := ocSum (wordsOf (s.readB a n))

/-- `PseudoWords(ipoff)` (R146). -/
def State.pseudoWords (s : State) (ipoff : Nat) : List Half :=
  [s.rd16 (ipoff + 12), s.rd16 (ipoff + 14), s.rd16 (ipoff + 16), s.rd16 (ipoff + 18),
   (s.rd8 (ipoff + 9)).setWidth 16, s.rd16 (ipoff + 2) - 20]

/-- The folded sum of the pseudo-header and the segment words of the IPv4 packet at `ipoff` (R145, R147). -/
def State.pseudoSum (s : State) (ipoff : Nat) : Half :=
  ocSum (s.pseudoWords ipoff ++ wordsOf (s.readB (ipoff + 20) ((s.rd16 (ipoff + 2)).toNat - 20)))

/-- ACC after a computation with the folded sum `sum` (R47, R140). DESIGN CHOICE, notes/assumptions/13.md: it keeps that value until
the next sum. -/
def State.leaveAcc (s : State) (sum : Half) : State := s.setAcc (sum.setWidth 32)

/-- `CsumStore(f, a, n)` (R147): the field is zeroed before the sum. -/
def State.csumStore (s : State) (f a n : Nat) : State :=
  let z := s.wr16 f 0
  (z.leaveAcc (z.foldedSum a n)).wr16 f (complement (z.foldedSum a n))

/-- `PseudoStore(f, ipoff)` (R147). -/
def State.pseudoStore (s : State) (f ipoff : Nat) : State :=
  let z := s.wr16 f 0
  (z.leaveAcc (z.pseudoSum ipoff)).wr16 f (complement (z.pseudoSum ipoff))

/-- End a checksum command: RESULT0 the checksum, RESULT1 the folded sum (R126). -/
def State.finishSum (s : State) (sum : Half) : State :=
  (s.leaveAcc sum).finish ((complement sum).setWidth 32) (sum.setWidth 32)

/-- CSUM (R143). -/
def execCsum (s : State) : Host.Outcome State Fault Refusal :=
  .next (
    if s.inRange s.opOff s.opLen then s.finishSum (s.foldedSum s.opOff s.opLen)
    else s.raise .bounds)

/-- CSUM_PSEUDO (R145). -/
def execCsumPseudo (s : State) : Host.Outcome State Fault Refusal :=
  .next (
    if s.inRange s.opIpoff 20 then
      if (s.rd16 (s.opIpoff + 2)).toNat < 20 then s.raise .arg
      else if s.inRange s.opIpoff (s.rd16 (s.opIpoff + 2)).toNat then s.finishSum (s.pseudoSum s.opIpoff)
      else s.raise .bounds
    else s.raise .bounds)

end Sys2Proof.Machine
end

