-- ==== Sys2Proof/Machine/Arp.lean ====
section
/-! DEFINITION. The transmit primitive (41_frame_dispatch.md R170, R171), the ARP responder and resolver (42_arp.md), and the bounded wait
that ARP_RESOLVE, PING and DNS_RESOLVE share (R205). -/

namespace Sys2Proof.Machine

/-- The Ethernet header, with LOCAL_MAC as its source (R170, R171). -/
def State.ethHeader (s : State) (dst : HwAddr) (etype : Half) : State :=
  ((s.wr48 0 dst).wr48 6 s.localMac).wr16 12 etype

/-- `ETH_TX(len, etype, REPLY)` (R170): back to the hardware address the staged frame came from. -/
def State.ethReply (s : State) (len : Nat) (etype : Half) : State := (s.ethHeader (s.rd48 6) etype).macSend len

/-- `ETH_TX(len, etype, DIRECT(d))` (R171). -/
def State.ethDirect (s : State) (len : Nat) (etype : Half) (d : HwAddr) : State := (s.ethHeader d etype).macSend len

/-- `ArpAdmit()` (R173). -/
def State.arpAdmit (s : State) : Bool :=
  s.rd16 20 == proto.arpOpRequest && s.rd32 38 == s.localIp &&
    s.rd16 14 == proto.arpHtypeEth && s.rd16 16 == proto.arpPtypeIpv4

/-- Sender and target of the ARP message exchanged (R201). -/
def State.arpSwap (s : State) : State :=
  (((s.wr48 22 (s.rd48 32)).wr32 28 (s.rd32 38)).wr48 32 (s.rd48 22)).wr32 38 (s.rd32 28)

/-- `ARP_ANSWER` (R201): sender and target are exactly swapped, and LOCAL_MAC stands in the Ethernet header only. -/
def State.arpAnswer (s : State) : State := (s.arpSwap.wr16 20 proto.arpOpReply).ethReply 42 proto.etypeArp

/-- The fields of `ArpRequest(ip)` (R203). -/
def State.arpFields (s : State) (ip : Word) : State :=
  let t := s.wr16 14 proto.arpHtypeEth
  let t := t.wr16 16 proto.arpPtypeIpv4
  let t := t.wr8 18 proto.arpHlen
  let t := t.wr8 19 proto.arpPlen
  let t := t.wr16 20 proto.arpOpRequest
  let t := t.wr48 22 s.localMac
  let t := t.wr32 28 s.localIp
  let t := t.wr48 32 0
  t.wr32 38 ip

/-- `ArpRequest(ip)` (R203). -/
def State.arpRequest (s : State) (ip : Word) : State := (s.arpFields ip).ethDirect 42 proto.etypeArp proto.bcastMac

/-- `ArpMatch(ip)` (R206). -/
def State.arpMatch (s : State) (ip : Word) : Bool :=
  s.rd16 12 == proto.etypeArp && s.rd16 20 == proto.arpOpReply && s.rd32 28 == ip

/-- How one turn of the loop of `BoundedWait` ends (R205). -/
inductive WaitEnd where
  /-- CNT was 0: the wait fails. -/
  | failed
  /-- The frame received matches: the wait succeeds. -/
  | matched
  /-- Nothing pending, too short, or no match: the frame is discarded and the loop goes on. -/
  | again
  deriving DecidableEq, Repr

/-- The state after one turn of the loop of `BoundedWait` (R205): one receive call unless CNT is 0. -/
def State.waitTurn (s : State) : State := if s.cnt = 0 then s else s.decCnt.macReceive

/-- How that turn ends. `isMatch` reads `B` as the received frame has left it. -/
def State.waitEnd (s : State) (isMatch : State → Bool) : WaitEnd :=
  if s.cnt = 0 then .failed
  else if decide (s.cfg.ethHlen < s.nextFrame.length) && isMatch s.waitTurn then .matched
  else .again

/-- RESULT0 of ARP_RESOLVE for a found address: bit 31 set, m0 and m1 in [15:0] (R126). -/
def foundWord (mac : HwAddr) : Word := (1 : BitVec 1) ++ (0 : BitVec 15) ++ mac.extractLsb' 32 16

/-- The start of ARP_RESOLVE (R204), up to the wait. -/
def State.arpResolveStart (s : State) : State :=
  if s.initialised then (s.clearEvent.arpRequest s.opIp).beginWait .arpWait s.opBudget
  else s.raise .noinit

/-- One turn of ARP_RESOLVE's wait (R204, R205). -/
def State.arpResolveTurn (s : State) : State :=
  match s.waitEnd (·.arpMatch s.opIp) with
  | .failed => s.finish 0 0
  | .matched => s.waitTurn.finish (foundWord (s.waitTurn.rd48 22)) ((s.waitTurn.rd48 22).extractLsb' 0 32)
  | .again => s.waitTurn

/-- ARP_RESOLVE (R204): one engine step of the command, its start or one turn of its wait. -/
def execArpResolve (s : State) : Host.Outcome State Fault Refusal :=
  .next (match s.stage with
    | .arpWait => s.arpResolveTurn
    | _ => s.arpResolveStart)

end Sys2Proof.Machine
end

