-- ==== Sys2Proof/Machine/Ipv4.lean ====
section
/-! DEFINITION. The IPv4 sender, the ICMP echo responder and PING (43_ipv4_icmp.md). The IPv4 validator, which needs the transports, is in
Dispatcher.lean. -/

namespace Sys2Proof.Machine

/-- Exchange src-ip and dst-ip (R232, R233). -/
def State.swapAddrs (s : State) : State := (s.wr32 26 (s.rd32 30)).wr32 30 (s.rd32 26)

/-- The header fields `IpSend(plen, proto)` writes, up to the checksum (R232). The identifier is not written. -/
def State.ipHeader (s : State) (plen : Nat) (p : Byte) : State :=
  let s := s.wr8 14 Config.ipVersionLen
  let s := s.wr8 15 0
  let s := s.wr16 16 (BitVec.ofNat 16 (20 + plen))
  let s := s.wr16 20 0
  let s := s.wr8 22 s.cfg.ipTtl
  let s := s.wr8 23 p
  s.swapAddrs

/-- The stage `IpSend(plen, proto)` (R232). It returns the frame length `34 + plen`, see `ipFrameLen`. -/
def State.ipSend (s : State) (plen : Nat) (p : Byte) : State :=
  ((s.ipHeader plen p).csumStore 24 14 20).ethReply (34 + plen) proto.etypeIpv4

/-- What `IpSend(plen, proto)` returns, as a result register (R126, R232). -/
def ipFrameLen (plen : Nat) : Word := BitVec.ofNat 32 (34 + plen)

/-- IP_SEND (R232). -/
def execIpSend (s : State) : Host.Outcome State Fault Refusal :=
  .next (
    if s.initialised then
      if s.argBitsOk .ipSend then
        if s.inRange 34 s.opPlen then (s.ipSend s.opPlen s.opProto).finish (ipFrameLen s.opPlen) 0
        else s.raise .bounds
      else s.raise .arg
    else s.raise .noinit)

/-- `ICMP_ECHO(T)` (R235). -/
def State.icmpEcho (s : State) (total : Nat) : State :=
  if total - 20 < 8 then s
  else if s.rd8 34 ≠ proto.icmpEchoRequest then s
  else
    let s := s.wr8 34 proto.icmpEchoReply
    let s := s.csumStore 36 34 (total - 20)
    s.ipSend (total - 20) proto.ipprotoIcmp

/-- PING_IDSEQ[31:16], the echo identifier (R44). -/
def State.pingId (s : State) : Half := s.pingIdseq.extractLsb' 16 16

/-- PING_IDSEQ[15:0], the last echo sequence number (R44). -/
def State.pingSeq (s : State) : Half := s.pingIdseq.extractLsb' 0 16

/-- The sequence number advances mod 2^16, the identifier does not change (R44, R237). -/
def State.nextPing (s : State) : State := { s with pingIdseq := s.pingId ++ (s.pingSeq + 1) }

/-- Address a fresh packet in inbound orientation (R233): the peer as its source, LOCAL_IP as its destination, IP identifier 0
(R237, 45_dns.md R314). -/
def State.stagePeer (s : State) (ip : Word) (mac : HwAddr) : State :=
  (((s.wr48 6 mac).wr32 26 ip).wr32 30 s.localIp).wr16 18 0

/-- The echo request's own fields, up to the checksum (R237). -/
def State.echoFields (s : State) : State :=
  (((s.wr8 34 proto.icmpEchoRequest).wr8 35 0).wr16 38 s.pingId).wr16 40 s.pingSeq

/-- `PingRequest(ip, mac)` (R237). -/
def State.pingRequest (s : State) (ip : Word) (mac : HwAddr) : State :=
  (((s.nextPing.stagePeer ip mac).echoFields).csumStore 36 34 8).ipSend 8 proto.ipprotoIcmp

/-- `PingMatch()` (R239); PING_IDSEQ still holds the identifier and sequence just sent. -/
def State.pingMatch (s : State) : Bool :=
  s.rd16 12 == proto.etypeIpv4 && s.rd8 14 == Config.ipVersionLen && s.rd8 23 == proto.ipprotoIcmp &&
    s.rd8 34 == proto.icmpEchoReply && s.rd16 38 == s.pingId && s.rd16 40 == s.pingSeq

/-- The start of PING (R238), up to the ARP wait. -/
def State.pingStart (s : State) : State :=
  if s.initialised then (s.clearEvent.arpRequest s.opIp).beginWait .arpWait s.opBudget
  else s.raise .noinit

/-- One turn of PING's ARP wait; a match sends the echo request and begins the echo wait with a fresh counter. -/
def State.pingArpTurn (s : State) : State :=
  match s.waitEnd (·.arpMatch s.opIp) with
  | .failed => s.finish 0 0
  | .matched => (s.waitTurn.pingRequest s.opIp (s.waitTurn.rd48 22)).beginWait .echoWait s.opBudget
  | .again => s.waitTurn

/-- One turn of PING's echo wait; a match ends with the elapsed iterations `t − CNT`. -/
def State.pingEchoTurn (s : State) : State :=
  match s.waitEnd State.pingMatch with
  | .failed => s.finish 0 0
  | .matched => s.waitTurn.finish (s.opBudget - s.waitTurn.cnt) 0
  | .again => s.waitTurn

/-- PING (R238): one engine step of the command, its start or one turn of one of its waits. -/
def execPing (s : State) : Host.Outcome State Fault Refusal :=
  .next (match s.stage with
    | .arpWait => s.pingArpTurn
    | .echoWait => s.pingEchoTurn
    | _ => s.pingStart)

end Sys2Proof.Machine
end

