-- ==== Sys2Proof/Machine/Transport.lean ====
section
/-! DEFINITION. The UDP exchange and the TCP responder (44_udp_tcp.md). -/

namespace Sys2Proof.Machine

/-- Exchange the two port fields (R272, R276). -/
def State.swapPorts (s : State) : State :=
  (s.wr16 34 (s.rd16 36)).wr16 36 (s.rd16 34)

/-- Copy a payload of `len` bytes from `src` to `dst` and pad it with one zero byte if `len` is odd (R272, R274, R285). -/
def State.stagePayload (s : State) (dst src len : Nat) : State :=
  let s := s.copyB dst src len
  if len % 2 = 1 then s.wr8 (dst + len) 0 else s

/-- `UDP_READ(T)` (R270, R271); the stage does not look at `T`. -/
def State.udpRead (s : State) : State :=
  let u := (s.rd16 38).toNat
  if u < 8 then s
  else if s.inRange 34 (u + 1) then (s.wr8 (42 + (u - 8)) 0).setEvent evtUdp 42 (BitVec.ofNat 16 (u - 8))
  else s

/-- The body of UDP_SEND after its checks, `UdpSend(src, len)` (R272, 45_dns.md R314). The UDP checksum is zero (R273). -/
def State.udpSendBody (s : State) (src len : Nat) : State :=
  let s := s.stagePayload 42 src len
  let s := s.swapPorts
  let s := s.wr16 38 (BitVec.ofNat 16 (8 + padded len))
  let s := s.wr16 40 0
  s.ipSend (8 + padded len) proto.ipprotoUdp

/-- UDP_SEND (R272). -/
def execUdpSend (s : State) : Host.Outcome State Fault Refusal :=
  .next (
    if s.initialised then
      if s.argBitsOk .udpSend then
        if s.inRange s.opSrc s.opSendLen && s.inRange 42 (padded s.opSendLen) then
          (s.udpSendBody s.opSrc s.opSendLen).finish (ipFrameLen (8 + padded s.opSendLen)) 0
        else s.raise .bounds
      else s.raise .arg
    else s.raise .noinit)

/-- `H`, the header length in bytes from the nibble at offset 46 (20_memory.md R99). -/
def State.tcpHlen (s : State) : Nat := (s.rd8 46 >>> 4).toNat * 4

/-- `TcpRoute(lp)` (R281): a route whose register is 0 is disabled, and the line route has priority. -/
def State.tcpRoute (s : State) (lp : Half) : BitVec 3 :=
  if s.linePort ≠ 0 ∧ lp = s.linePort then evtTcpLine
  else if s.httpPort ≠ 0 ∧ lp = s.httpPort then evtTcpHttp
  else evtTcpGeneric

/-- "if flags are not exactly ACK": advance the swapped acknowledgment by one, mod 2^32 (R278, R282). -/
def State.ackHandshake (s : State) (fl : Byte) : State :=
  if fl ≠ proto.tcpAck then s.wr32 42 (s.rd32 42 + 1) else s

/-- "if SYN is set, also set ACK" (R278). -/
def State.addAck (s : State) (fl : Byte) : State :=
  if fl &&& proto.tcpSyn ≠ 0 then s.wr8 47 (fl ||| proto.tcpAck) else s

/-- `TCP_HANDSHAKE(T, fl)` (R278). -/
def State.tcpHandshake (s : State) (total : Nat) (fl : Byte) : State :=
  let s := s.ackHandshake fl
  let s := s.addAck fl
  let s := s.pseudoStore 50 14
  s.ipSend (total - 20) proto.ipprotoTcp

/-- `TCP_DATA(T, H)` (R280). -/
def State.tcpData (s : State) (total hlen : Nat) : State :=
  s.setEvent (s.tcpRoute (s.rd16 34)) (BitVec.ofNat 16 (34 + hlen)) (BitVec.ofNat 16 (total - 20 - hlen))

/-- Exchange the sequence and acknowledgment fields (R276, step 3). -/
def State.swapSeqAck (s : State) : State :=
  (s.wr32 38 (s.rd32 42)).wr32 42 (s.rd32 38)

/-- `TCP_READ(T)` (R276, R277). -/
def State.tcpRead (s : State) (total : Nat) : State :=
  let hlen := s.tcpHlen
  if hlen < 20 then s
  else if total < 20 + hlen then s
  else
    let s := s.swapPorts
    let s := s.swapSeqAck
    let fl := s.rd8 47
    if fl &&& proto.tcpPsh = 0 then s.tcpHandshake total fl else s.tcpData total hlen

/-- The acknowledgment advance of TCP_SEND (R285): by the padded length, mod 2^32, but not where the local port is the line
port. -/
def State.tcpAdvance (s : State) (p : Nat) : State :=
  if s.linePort ≠ 0 ∧ s.rd16 34 = s.linePort then s
  else s.wr32 42 (s.rd32 42 + BitVec.ofNat 32 p)

/-- The body of TCP_SEND after its checks (R285), for a staged header of `hlen` bytes. -/
def State.tcpSendBody (s : State) (hlen src len : Nat) : State :=
  let s := s.stagePayload (34 + hlen) src len
  let s := s.wr16 16 (BitVec.ofNat 16 (20 + hlen + padded len))
  let s := s.tcpAdvance (padded len)
  let s := s.pseudoStore 50 14
  s.ipSend (hlen + padded len) proto.ipprotoTcp

/-- TCP_SEND (R284, R285). -/
def execTcpSend (s : State) : Host.Outcome State Fault Refusal :=
  .next (
    if s.initialised then
      if s.argBitsOk .tcpSend then
        if s.tcpHlen < 20 then s.raise .arg
        else if s.inRange s.opSrc s.opSendLen && s.inRange (34 + s.tcpHlen) (padded s.opSendLen) then
          (s.tcpSendBody s.tcpHlen s.opSrc s.opSendLen).finish (ipFrameLen (s.tcpHlen + padded s.opSendLen)) 0
        else s.raise .bounds
      else s.raise .arg
    else s.raise .noinit)

end Sys2Proof.Machine
end

