-- ==== Sys2Proof/Machine/Dispatcher.lean ====
section
/-! DEFINITION. The inbound path: the IPv4 validator (43_ipv4_icmp.md R230), the frame classifier, RX_DISPATCH and POLL
(41_frame_dispatch.md). A drop is the state as it stands (60_exceptions.md R346). -/

namespace Sys2Proof.Machine

/-- The dispatch by protocol number at the end of `IP_READ` (R230). -/
def State.ipDeliver (s : State) (total : Nat) : State :=
  if s.rd8 23 = proto.ipprotoIcmp then s.icmpEcho total
  else if s.rd8 23 = proto.ipprotoTcp then s.tcpRead total
  else if s.rd8 23 = proto.ipprotoUdp then s.udpRead
  else s

/-- `IP_READ(n)` (R230). The received length is not looked at; no checksum is verified (R231). The terminator is written
before the dispatch and stays if the frame is then dropped. -/
def State.ipRead (s : State) : State :=
  let total := (s.rd16 16).toNat
  if s.rd8 14 ≠ Config.ipVersionLen then s
  else if s.rd32 30 ≠ s.localIp then s
  else if total < s.cfg.ipHlen then s
  else if s.inRange 14 (total + 1) then (s.wr8 (14 + total) 0).ipDeliver total
  else s

/-- `CLASSIFY(n)` (R172). -/
def State.classify (s : State) (n : Nat) : State :=
  if n ≤ s.cfg.ethHlen then s
  else if s.rd16 12 = proto.etypeArp then
    if s.arpAdmit then s.arpAnswer else s
  else if s.rd16 12 = proto.etypeIpv4 then s.ipRead
  else s

/-- RX_DISPATCH's handling of the frame (R174). -/
def State.rxFrame (s : State) : State := s.clearEvent.classify s.opFrameLen

/-- RX_DISPATCH (R174). -/
def execRxDispatch (s : State) : Host.Outcome State Fault Refusal :=
  .next (
    if s.initialised then
      if s.inRange s.opFrameLen 0 then s.rxFrame.finish (if s.rxFrame.evt then 1 else 0) 0
      else s.raise .bounds
    else s.raise .noinit)

/-- The start of POLL (R175), up to its loop. -/
def State.pollStart (s : State) : State :=
  if s.initialised then s.clearEvent.setStage (.draining 0) else s.raise .noinit

/-- One turn of POLL's loop with `k` frames received before (R175): it ends when `receive` returns 0 or an event is set, and
goes on otherwise, without bound (R179). -/
def State.pollTurn (s : State) (k : Word) : State :=
  if s.nextFrame.length = 0 then s.macReceive.finish 0 k
  else
    let t := s.macReceive.classify s.nextFrame.length
    if t.evt then t.finish 1 (k + 1) else t.setStage (.draining (k + 1))

/-- POLL (R175): one engine step of the command, its start or one turn of its loop. -/
def execPoll (s : State) : Host.Outcome State Fault Refusal :=
  .next (match s.stage with
    | .draining k => s.pollTurn k
    | _ => s.pollStart)

end Sys2Proof.Machine
end

