-- ==== Sys2Proof/Machine/Dns.lean ====
section
/-! DEFINITION. The DNS resolver (45_dns.md). -/

namespace Sys2Proof.Machine

/-- The bytes of `N`, in order. -/
def State.nameBytes (s : State) : List Byte := (List.range s.cfg.nameSize).map s.byteN

/-- Some byte of `N` is 0x00 (R313). -/
def State.nameEnds (s : State) : Bool := s.nameBytes.any (· == 0)

/-- `N[0 .. z−1]`: the name before the first 0x00 (R312). -/
def State.dottedName (s : State) : List Byte := s.nameBytes.takeWhile (· != 0)

/-- The runs between dots, empty runs included. -/
def dotRuns : List Byte → List (List Byte)
  | [] => [[]]
  | b :: bs =>
    if b = 0x2E then [] :: dotRuns bs
    else match dotRuns bs with
      | [] => [[b]]
      | r :: rs => (b :: r) :: rs

/-- `toks` (R312): the maximal runs of bytes other than '.', every empty run omitted. -/
def dnsTokens (nm : List Byte) : List (List Byte) := (dotRuns nm).filter (fun r => !r.isEmpty)

/-- The length byte and the bytes of one label (R312). -/
def dnsLabel (t : List Byte) : List Byte := BitVec.ofNat 8 t.length :: t

/-- `DnsEncode()` of a dotted name (R312). -/
def dnsEncode (nm : List Byte) : List Byte := (dnsTokens nm).flatMap dnsLabel ++ [0]

/-- `DnsDecode(q)` (R313), reading at most `k` labels. -/
def dnsDecode : Nat → List Byte → List (List Byte)
  | 0, _ => []
  | _ + 1, [] => []
  | k + 1, l :: bs => if l = 0 then [] else bs.take l.toNat :: dnsDecode k (bs.drop l.toNat)

/-- DNS_ID takes the next transaction id (R311). -/
def State.nextDnsId (s : State) : State := { s with dnsId := s.dnsId + 1 }

/-- The ports of the query before the send path exchanges them, and its DNS header (R314). -/
def State.dnsHeader (s : State) : State :=
  let t := s.wr16 34 s.cfg.dnsPort
  let t := t.wr16 36 s.dnsLport
  let t := t.wr16 42 s.dnsId
  let t := t.wr16 44 proto.dnsFlagsRd
  let t := t.wr16 46 1
  let t := t.wr16 48 0
  let t := t.wr16 50 0
  t.wr16 52 0

/-- The question with the encoded name `q` (R314). -/
def State.dnsQuestion (s : State) (q : List Byte) : State :=
  ((s.writeB 54 q).wr16 (54 + q.length) proto.dnsTypeA).wr16 (54 + q.length + 2) proto.dnsClassIn

/-- `m`, the length of the DNS message (R314). -/
def State.dnsMessageLen (s : State) : Nat := 12 + (dnsEncode s.dottedName).length + 4

/-- `DnsQuery(sip, mac)` (R314), staged in inbound orientation and sent through the UDP send path. -/
def State.dnsQuery (s : State) (sip : Word) (mac : HwAddr) : State :=
  (((s.nextDnsId.stagePeer sip mac).dnsHeader).dnsQuestion (dnsEncode s.dottedName)).udpSendBody 42 s.dnsMessageLen

/-- `DnsMatch(id)` (R316). -/
def State.dnsMatch (s : State) (id : Half) : Bool :=
  s.rd16 12 == proto.etypeIpv4 && s.rd8 14 == Config.ipVersionLen && s.rd8 23 == proto.ipprotoUdp && s.rd16 42 == id

/-- The byte scan of `AnswerOffset()` for the first 0x00 from offset 54 on (R317). -/
def State.questionEnd (s : State) : Option Nat :=
  (List.range' 54 (s.cfg.bufSize - 54)).find? (fun i => s.byteB i == 0)

/-- `AnswerOffset()` (R317); 0 is none. -/
def State.answerOffset (s : State) : Nat :=
  match s.questionEnd with
  | none => 0
  | some i => if s.inRange (i + 1 + s.cfg.dnsAnswerSkip) 4 then i + 1 + s.cfg.dnsAnswerSkip else 0

/-- End DNS_RESOLVE: `N` is left unspecified (R318). -/
def State.finishDns (s : State) (r0 : Word) : State := s.scrambleN.finish r0 0

/-- The start of DNS_RESOLVE (R315), up to the ARP wait. -/
def State.dnsStart (s : State) : State :=
  if s.initialised then
    if s.nameEnds then (s.clearEvent.arpRequest s.opIp).beginWait .arpWait s.opBudget
    else s.scrambleN.raise .name
  else s.raise .noinit

/-- One turn of DNS_RESOLVE's ARP wait; a match sends the query and begins the reply wait with a fresh counter. -/
def State.dnsArpTurn (s : State) : State :=
  match s.waitEnd (·.arpMatch s.opIp) with
  | .failed => s.finishDns 0
  | .matched => (s.waitTurn.dnsQuery s.opIp (s.waitTurn.rd48 22)).beginWait .replyWait s.opBudget
  | .again => s.waitTurn

/-- One turn of DNS_RESOLVE's reply wait. -/
def State.dnsReplyTurn (s : State) : State :=
  match s.waitEnd (·.dnsMatch s.dnsId) with
  | .failed => s.finishDns 0
  | .matched => s.waitTurn.finishDns (BitVec.ofNat 32 s.waitTurn.answerOffset)
  | .again => s.waitTurn

/-- DNS_RESOLVE (R315): one engine step of the command, its start or one turn of one of its waits. -/
def execDnsResolve (s : State) : Host.Outcome State Fault Refusal :=
  .next (match s.stage with
    | .arpWait => s.dnsArpTurn
    | .replyWait => s.dnsReplyTurn
    | _ => s.dnsStart)

end Sys2Proof.Machine
end

