-- ==== Sys2Proof/Machine/Dispatch.lean ====
section
/-! DEFINITION. One arm per command: exec runs ONE engine step of the command that CMD holds (10_state.md R34). -/

namespace Sys2Proof.Machine

/-- One engine step of a running command. -/
def exec (i : Instr) (s : State) : Host.Outcome State Fault Refusal :=
  match i with
  | .csum => Sys2Proof.Machine.execCsum s
  | .csumPseudo => Sys2Proof.Machine.execCsumPseudo s
  | .rxDispatch => Sys2Proof.Machine.execRxDispatch s
  | .poll => Sys2Proof.Machine.execPoll s
  | .arpResolve => Sys2Proof.Machine.execArpResolve s
  | .ipSend => Sys2Proof.Machine.execIpSend s
  | .ping => Sys2Proof.Machine.execPing s
  | .udpSend => Sys2Proof.Machine.execUdpSend s
  | .tcpSend => Sys2Proof.Machine.execTcpSend s
  | .dnsResolve => Sys2Proof.Machine.execDnsResolve s

end Sys2Proof.Machine
end

