-- ==== Sys2Proof/Machine/HostSide.lean ====
section
/-! DEFINITION. The host agent: the register map (10_state.md R31), host reads and writes in IDLE and BUSY (R35 to R38, R49, 20_memory.md
R85), the reset event (70_reset_and_hazards.md R370), and which agent moves next. -/

namespace Sys2Proof.Machine

/-- The registers of R31. -/
inductive Reg where
  | cmd
  | status
  | arg0
  | arg1
  | result0
  | result1
  | macHi
  | macLo
  | localIp
  | linePort
  | httpPort
  | dnsId
  | dnsLport
  | pingIdseq
  | evtKind
  | evtOff
  | evtLen
  deriving DecidableEq, Repr

/-- The offset of each register (R31). -/
def Reg.offset : Reg → Nat
  | .cmd => 0x000
  | .status => 0x004
  | .arg0 => 0x008
  | .arg1 => 0x00C
  | .result0 => 0x010
  | .result1 => 0x014
  | .macHi => 0x020
  | .macLo => 0x024
  | .localIp => 0x028
  | .linePort => 0x02C
  | .httpPort => 0x030
  | .dnsId => 0x034
  | .dnsLport => 0x038
  | .pingIdseq => 0x03C
  | .evtKind => 0x040
  | .evtOff => 0x044
  | .evtLen => 0x048

/-- The register at an offset (R31); every other offset below 0x100 is reserved. -/
def Reg.ofOffset : Nat → Option Reg
  | 0x000 => some .cmd
  | 0x004 => some .status
  | 0x008 => some .arg0
  | 0x00C => some .arg1
  | 0x010 => some .result0
  | 0x014 => some .result1
  | 0x020 => some .macHi
  | 0x024 => some .macLo
  | 0x028 => some .localIp
  | 0x02C => some .linePort
  | 0x030 => some .httpPort
  | 0x034 => some .dnsId
  | 0x038 => some .dnsLport
  | 0x03C => some .pingIdseq
  | 0x040 => some .evtKind
  | 0x044 => some .evtOff
  | 0x048 => some .evtLen
  | _ => none

/-- What a host access reaches. -/
inductive Target where
  /-- A register, by an aligned 32-bit access. -/
  | reg (r : Reg)
  /-- Byte `k` of `N`, by an 8-bit access of the NAME window. -/
  | nameByte (k : Nat)
  /-- Byte `k` of `B`, by an 8-bit access of the FRAME window. -/
  | frameByte (k : Nat)
  /-- A reserved offset. -/
  | reserved
  /-- An access of a width or alignment that R85 refuses. -/
  | refused
  /-- An address outside the register space (R80). -/
  | outside
  deriving DecidableEq, Repr

/-- What an access of `bytes` bytes at offset `off` of the register space reaches (R31, R81, R85). -/
def targetAt (bufSize nameSize bytes off : Nat) : Target :=
  if Config.frameWindow ≤ off ∧ off < Config.frameWindow + bufSize then
    if bytes = 1 then .frameByte (off - Config.frameWindow) else .refused
  else if Config.nameWindow ≤ off ∧ off < Config.nameWindow + nameSize then
    if bytes = 1 then .nameByte (off - Config.nameWindow) else .refused
  else match Reg.ofOffset (off - off % 4) with
    | some r => if bytes = 4 ∧ off % 4 = 0 then .reg r else .refused
    | none => if bytes = 1 ∨ (bytes = 4 ∧ off % 4 = 0) then .reserved else .refused

/-- What an access of `bytes` bytes at host address `addr` reaches (R80, R81). -/
def target (p : Params) (bytes addr : Nat) : Target :=
  if addr < p.engineBase ∨ p.engineBase + Config.windowSize ≤ addr then .outside
  else targetAt p.bufSize p.nameSize bytes (addr - p.engineBase)

/-! ### Host reads -/

/-- The value a host read of a register returns (R36, R38, R39, R40); `d` is the free value where it is unspecified. DESIGN CHOICE,
notes/assumptions/19.md: while BUSY the current value of DNS_ID, PING_IDSEQ and STATUS.EVT (R38) is the one the running command
has already written, though 20_memory.md R88 says the host sees nothing of a command's intermediate state but BUSY. -/
def State.readReg (s : State) (d : Word) : Reg → Word
  | .cmd => s.cmd
  | .status => s.statusWord
  | .arg0 => s.arg0
  | .arg1 => s.arg1
  | .result0 => if s.busy then d else s.result0
  | .result1 => if s.busy then d else s.result1
  | .macHi => if s.initMacHi then s.macHi.setWidth 32 else (d.setWidth 16).setWidth 32
  | .macLo => if s.initMacLo then s.macLo else d
  | .localIp => if s.initIp then s.localIp else d
  | .linePort => s.linePort.setWidth 32
  | .httpPort => s.httpPort.setWidth 32
  | .dnsId => s.dnsId.setWidth 32
  | .dnsLport => s.dnsLport.setWidth 32
  | .pingIdseq => s.pingIdseq
  | .evtKind => if s.busy then (d.setWidth 3).setWidth 32 else s.evtKind.setWidth 32
  | .evtOff => if s.busy then (d.setWidth 16).setWidth 32 else s.evtOff.setWidth 32
  | .evtLen => if s.busy then (d.setWidth 16).setWidth 32 else s.evtLen.setWidth 32

/-- The value a host read of a target returns, a byte zero-extended (R31, R49); none where the access has no step. -/
def State.readTarget (s : State) (d : Word) : Target → Option Word
  | .reg r => some (s.readReg d r)
  | .nameByte k => some (if s.busy then (d.setWidth 8).setWidth 32 else (s.byteN k).setWidth 32)
  | .frameByte k => some (if s.busy then (d.setWidth 8).setWidth 32 else (s.byteB k).setWidth 32)
  | .reserved => some 0
  | .refused => none
  | .outside => none

/-- The host keeps the value it read, and a free value is used up. No read has any other effect (R87). -/
def State.noteRead (s : State) (off : Nat) (v : Word) : State :=
  { s with reads := (off, v) :: s.reads, draws := s.draws + 1 }

/-- The last value the host read at a register offset. -/
def State.lastRead (s : State) (off : Nat) : Option Word := s.reads.lookup off

/-! ### Host writes -/

/-- A write the engine ignores because it is BUSY (R38). -/
def State.overrun (s : State) : State := { s with ovr := true }

/-- A host write of STATUS: bit 3 clears OVR, in IDLE and in BUSY; every other bit is ignored (R36). -/
def State.writeStatus (s : State) (v : Word) : State := if v.getLsbD 3 then { s with ovr := false } else s

/-- A host write of a register while IDLE (R31, R35, R36, R46); a narrow register keeps its bits of the value (R30). -/
def State.writeRegIdle (s : State) (v : Word) : Reg → State
  | .cmd => s.takeCommand v
  | .status => s.writeStatus v
  | .arg0 => { s with arg0 := v }
  | .arg1 => { s with arg1 := v }
  | .result0 => s
  | .result1 => s
  | .macHi => { s with macHi := v.setWidth 16, initMacHi := true }
  | .macLo => { s with macLo := v, initMacLo := true }
  | .localIp => { s with localIp := v, initIp := true }
  | .linePort => { s with linePort := v.setWidth 16 }
  | .httpPort => { s with httpPort := v.setWidth 16 }
  | .dnsId => { s with dnsId := v.setWidth 16 }
  | .dnsLport => { s with dnsLport := v.setWidth 16 }
  | .pingIdseq => { s with pingIdseq := v }
  | .evtKind => s
  | .evtOff => s
  | .evtLen => s

/-- A host write of a register while BUSY (R38). -/
def State.writeRegBusy (s : State) (v : Word) : Reg → State
  | .cmd => s.overrun
  | .status => s.writeStatus v
  | .arg0 => s.overrun
  | .arg1 => s.overrun
  | .result0 => s
  | .result1 => s
  | .macHi => s.overrun
  | .macLo => s.overrun
  | .localIp => s.overrun
  | .linePort => s.overrun
  | .httpPort => s.overrun
  | .dnsId => s.overrun
  | .dnsLport => s.overrun
  | .pingIdseq => s.overrun
  | .evtKind => s
  | .evtOff => s
  | .evtLen => s

/-- A host write of a target; none where the access has no step. A window access takes the low byte (R31). -/
def State.writeTarget (s : State) (v : Word) : Target → Option State
  | .reg r => some (if s.busy then s.writeRegBusy v r else s.writeRegIdle v r)
  | .nameByte k => some (if s.busy then s.overrun else s.writeN k (v.setWidth 8))
  | .frameByte k => some (if s.busy then s.overrun else s.wr8 k (v.setWidth 8))
  | .reserved => some s
  | .refused => none
  | .outside => none

/-! ### The reset event -/

/-- The reset event (R370), at any time. The host, the MAC and the parameters are not reset; frames already sent stay sent. -/
def State.resetEvent (s : State) : State :=
  { State.reset with
    cfg := s.cfg
    frameGen := s.frameGen + 1
    nameGen := s.nameGen + 1
    priorHistory := s.priorHistory ++ s.history
    macIn := s.macIn
    script := s.script
    reads := s.reads
    checks := s.checks
    sched := s.sched
    draws := s.draws }

/-! ### One operation of the host -/

/-- A host access that has no step: a fault outside the register space, a refusal within it. -/
def noAccess (bytes addr : Nat) : Target → Host.Outcome State Fault Refusal
  | .outside => .fault (.outsideWindow addr)
  | _ => .refused (.refusedAccess bytes addr)

/-- One host write (R352). -/
def State.hostWrite (s : State) (bytes addr : Nat) (v : Word) : Host.Outcome State Fault Refusal :=
  match s.writeTarget v (target s.cfg bytes addr) with
  | some t => .next t
  | none => noAccess bytes addr (target s.cfg bytes addr)

/-- One host read (R352). -/
def State.hostRead (s : State) (bytes addr : Nat) : Host.Outcome State Fault Refusal :=
  match s.readTarget (Config.hostDraw s.draws) (target s.cfg bytes addr) with
  | some v => .next (s.noteRead (addr - s.cfg.engineBase) v)
  | none => noAccess bytes addr (target s.cfg bytes addr)

/-- One turn of `wait`: read STATUS, and repeat while BUSY (30_encoding.md R127). -/
def State.waitStatus (s : State) : State :=
  (if s.busy then { s with script := .wait :: s.script } else s).noteRead Reg.status.offset s.statusWord

/-- One turn of `expect`: the outcome of the check is kept; a register never read does not meet it. -/
def State.checkRead (s : State) (off : Nat) (v : Word) : State :=
  { s with checks := (s.lastRead off == some v) :: s.checks }

/-- A byte write of bits [lsb+7:lsb] of the last value read at a register offset (`CSUM_STORE`, R128). -/
def State.hostWriteLast (s : State) (addr off lsb : Nat) : Host.Outcome State Fault Refusal :=
  match s.lastRead off with
  | some v => s.hostWrite 1 addr (v >>> lsb)
  | none => .refused (.nothingRead off)

/-- One operation of the host, already taken off the script (30_encoding.md R127). -/
def State.hostOp (s : State) : HostOp → Host.Outcome State Fault Refusal
  | .write bytes addr v => s.hostWrite bytes addr v
  | .read bytes addr => s.hostRead bytes addr
  | .writeLast addr off lsb => s.hostWriteLast addr off lsb
  | .wait => .next s.waitStatus
  | .expect off v => .next (s.checkRead off v)
  | .reset => .next s.resetEvent

/-- The host's turn: its next operation, or nothing where the script is at its end. -/
def State.hostTurn (s : State) : Host.Outcome State Fault Refusal :=
  match s.script with
  | [] => .next s
  | op :: ops => { s with script := ops }.hostOp op

/-! ### Whose turn it is (60_exceptions.md R357, 20_memory.md R88) -/

/-- Both agents could move: the engine is BUSY and the host has an operation to make. -/
def State.contended (s : State) : Bool := s.busy && !s.script.isEmpty

/-- Whose turn it is. IDLE: the host's. BUSY with no host operation left: the engine's. Otherwise either may be first: the
next listed choice, or a free value where none is listed. -/
def State.turn (s : State) : Agent :=
  if s.contended then s.sched.headD (if Config.engineFirst s.draws then .engine else .host)
  else if s.busy then .engine
  else .host

/-- The choice made is used up. -/
def State.passTurn (s : State) : State :=
  if s.contended then { s with sched := s.sched.tail, draws := s.draws + 1 } else s

/-! ### The engine's turn -/

/-- The command the engine runs: what CMD holds. -/
def State.command (s : State) : Except Reject Instr := decode s.cmd

end Sys2Proof.Machine
end

