-- ==== Sys2Proof/Machine/Step.lean ====
section
/-! DEFINITION. One step of the whole machine: an operation of the host, or one engine step of the running command
(60_exceptions.md R357, 10_state.md R34). -/

namespace Sys2Proof.Machine

/-- One step. A BUSY engine whose CMD holds no legal word, which no run reaches, ends the command as illegal. -/
def step (s : State) : Host.Outcome State Fault Refusal :=
  match s.turn with
  | .host => s.passTurn.hostTurn
  | .engine =>
    match s.command with
    | .ok i => exec i s.passTurn
    | .error _ => .next (s.passTurn.raise .illegal)

/-- The state in which the next step runs the command whose bits are `w`: the command has been written to CMD of an IDLE
engine, and where the host also has something to do, the engine moves first. -/
def State.withFetchWord (s : State) (nbits w : Nat) : State :=
  let t := { s with stage := .idle }.takeCommand (BitVec.ofNat 32 (w % 2 ^ nbits))
  { t with sched := if t.contended then .engine :: s.sched else s.sched }

end Sys2Proof.Machine
end

