-- ==== Sys2Proof/Machine/Whole.lean ====
section
/-! DEFINITION. A command as one whole: the engine's steps of one command in a row, and the pseudocode of the waiting commands written
out in one piece (42_arp.md R204, R205, 43_ipv4_icmp.md R238, 45_dns.md R315), to state that the steps carry it out. -/

namespace Sys2Proof.Machine

/-- At most `k` engine steps of command `i`, until it has ended. -/
def runCommand (i : Instr) : Nat → State → Host.Outcome State Fault Refusal
  | 0, s => .next s
  | k + 1, s =>
    match exec i s with
    | .next t => if t.busy then runCommand i k t else .next t
    | .fault f => .fault f
    | .refused r => .refused r

/-- The loop of `BoundedWait` (R205) with `k` iterations left, and whether it returned OK. -/
def State.boundedWait (isMatch : State → Bool) : Nat → State → Bool × State
  | 0, s => (false, s)
  | k + 1, s =>
    if decide (s.cfg.ethHlen < s.nextFrame.length) && isMatch s.decCnt.macReceive then (true, s.decCnt.macReceive)
    else State.boundedWait isMatch k s.decCnt.macReceive

/-- `BoundedWait(t, match)` in a stage of the running command: CNT is loaded, then the loop runs. -/
def State.waitFor (s : State) (g : Stage) (t : Word) (isMatch : State → Bool) : Bool × State :=
  (s.beginWait g t).boundedWait isMatch t.toNat

/-- ARP_RESOLVE as R204 writes it. -/
def State.wholeArpResolve (s : State) : State :=
  if s.initialised then
    match (s.clearEvent.arpRequest s.opIp).waitFor .arpWait s.opBudget (·.arpMatch s.opIp) with
    | (true, t) => t.finish (foundWord (t.rd48 22)) ((t.rd48 22).extractLsb' 0 32)
    | (false, t) => t.finish 0 0
  else s.raise .noinit

/-- PING as R238 writes it. -/
def State.wholePing (s : State) : State :=
  if s.initialised then
    match (s.clearEvent.arpRequest s.opIp).waitFor .arpWait s.opBudget (·.arpMatch s.opIp) with
    | (false, t) => t.finish 0 0
    | (true, t) =>
      match (t.pingRequest s.opIp (t.rd48 22)).waitFor .echoWait s.opBudget State.pingMatch with
      | (true, u) => u.finish (s.opBudget - u.cnt) 0
      | (false, u) => u.finish 0 0
  else s.raise .noinit

/-- DNS_RESOLVE as R315 writes it; `N` is unspecified after it (R318). -/
def State.wholeDnsResolve (s : State) : State :=
  if s.initialised then
    if s.nameEnds then
      match (s.clearEvent.arpRequest s.opIp).waitFor .arpWait s.opBudget (·.arpMatch s.opIp) with
      | (false, t) => t.finishDns 0
      | (true, t) =>
        let q := t.dnsQuery s.opIp (t.rd48 22)
        match q.waitFor .replyWait s.opBudget (·.dnsMatch q.dnsId) with
        | (true, u) => u.finishDns (BitVec.ofNat 32 u.answerOffset)
        | (false, u) => u.finishDns 0
    else s.scrambleN.raise .name
  else s.raise .noinit

end Sys2Proof.Machine
end

