-- ==== Sys2Proof/Safety.lean ====
section
/-! DEFINITION. What holds in every state a run reaches, in the terms the statements use. -/

namespace Sys2Proof.Machine

/-- The stage a BUSY engine is in is one of the running command's own (10_state.md R34). -/
def Stage.fits : Stage → Instr → Bool
  | .idle, _ => false
  | .start, _ => true
  | .arpWait, i => i == .arpResolve || i == .ping || i == .dnsResolve
  | .echoWait, i => i == .ping
  | .replyWait, i => i == .dnsResolve
  | .draining _, i => i == .poll

/-- The stage is a bounded wait (42_arp.md R205). -/
def Stage.waiting : Stage → Bool
  | .idle => false
  | .start => false
  | .arpWait => true
  | .echoWait => true
  | .replyWait => true
  | .draining _ => false

/-- A MAC call as 60_exceptions.md R353 allows it: a frame sent has 1 to BUF_SIZE bytes, an answer at most `max` = BUF_SIZE. -/
def MacEvent.legal (bufSize : Nat) : MacEvent → Prop
  | .sent bytes => 1 ≤ bytes.length ∧ bytes.length ≤ bufSize
  | .received max bytes => max = bufSize ∧ bytes.length ≤ bufSize

/-- Some legal command is running and the stage is one of its own. -/
def State.runsCommand (s : State) : Prop := ∃ i, decode s.cmd = .ok i ∧ s.stage.fits i = true

/-- The invariant of the machine: the parameters are those of R7; `B` and `N` are canonical and lie within their sizes (R50, R52,
20_memory.md R82); the event registers hold a kind that is produced and a payload inside `B` (R45); the error flags agree (R36,
R37, 60_exceptions.md R341); a BUSY engine runs a legal command, with clear flags (R34, R37), initialised where it waits or
drains (R46), with CNT not above its budget (R205); every MAC call keeps the contract (60_exceptions.md R353). -/
structure State.Inv (s : State) : Prop where
  params : s.cfg.wf
  frameWf : s.frame.wf
  frameWithin : s.frame.within s.cfg.bufSize
  nameWf : s.name.wf
  nameWithin : s.name.within s.cfg.nameSize
  eventKind : s.evtKind.toNat ≤ 4
  eventNone : s.evtKind = 0 → s.evtOff = 0 ∧ s.evtLen = 0
  eventInside : s.evtOff.toNat + s.evtLen.toNat ≤ s.cfg.bufSize
  errcode : s.errcode.toNat ≤ 5
  errAgrees : s.err = true ↔ s.errcode ≠ 0
  errDone : s.err = true → s.done = true
  busyClear : s.stage ≠ .idle → s.done = false ∧ s.err = false
  busyCommand : s.stage ≠ .idle → s.runsCommand
  busyReady : s.stage ≠ .idle → s.stage ≠ .start → s.initialised = true
  budget : s.stage.waiting = true → s.cnt.toNat ≤ s.arg1.toNat
  macCalls : ∀ e ∈ s.priorHistory ++ s.history, e.legal s.cfg.bufSize

/-- The run has ended: the host has made its last operation and the engine is IDLE (60_exceptions.md R360). -/
def State.runEnded (s : State) : Bool := s.script.isEmpty && !s.busy

/-- The fairness premise `MAC_DRAINS` of 60_exceptions.md R353 for the listed answers: one of them is "nothing pending". -/
def State.macDrains (s : State) : Prop := [] ∈ s.macIn

/-! ### What the registers show -/

/-- The offsets of R31 of the configuration and operand registers, CMD and STATUS, with their current values, narrow ones zero-extended (10_state.md
R30, R31, R36): what a host read returns in IDLE and in BUSY, once the three address registers have been written. -/
def State.steadyRegs (s : State) : List (Nat × Word) :=
  [(0x000, s.cmd), (0x004, s.statusWord), (0x008, s.arg0), (0x00C, s.arg1), (0x020, s.macHi.setWidth 32),
   (0x024, s.macLo), (0x028, s.localIp), (0x02C, s.linePort.setWidth 32), (0x030, s.httpPort.setWidth 32),
   (0x034, s.dnsId.setWidth 32), (0x038, s.dnsLport.setWidth 32), (0x03C, s.pingIdseq)]

/-- The offsets of R31 of the result and event registers, with their current values: what a host read returns in IDLE (R33, R38, R45). -/
def State.endedRegs (s : State) : List (Nat × Word) :=
  [(0x010, s.result0), (0x014, s.result1), (0x040, s.evtKind.setWidth 32), (0x044, s.evtOff.setWidth 32),
   (0x048, s.evtLen.setWidth 32)]

/-- The offset is reserved in the register map of an engine with a buffer of `bufSize` bytes (R31, R49). -/
def reservedOffset (bufSize off : Nat) : Prop :=
  (0x018 ≤ off ∧ off < 0x020) ∨ (0x04C ≤ off ∧ off < 0x100) ∨ (0x200 ≤ off ∧ off < 0x10000) ∨
    (0x10000 + bufSize ≤ off ∧ off < 0x20000)

/-- The state after the host's turn has taken its next operation off the script and done nothing else. -/
def State.hostNext (s : State) (ops : List HostOp) : State := { s.passTurn with script := ops }

/-! ### The checks of a command, and the error it reports (60_exceptions.md R343) -/

/-- The error conditions of a command in the order of the table of R343, each with its error. -/
def State.errorChecks (s : State) : Instr → List (Bool × CmdError)
  | .csum => [(decide (s.cfg.bufSize < s.opOff + s.opLen), .bounds)]
  | .csumPseudo =>
    [(decide (s.cfg.bufSize < s.opIpoff + 20), .bounds),
     (decide ((s.rd16 (s.opIpoff + 2)).toNat < 20), .arg),
     (decide (s.cfg.bufSize < s.opIpoff + (s.rd16 (s.opIpoff + 2)).toNat), .bounds)]
  | .rxDispatch => [(!s.initialised, .noinit), (decide (s.cfg.bufSize < s.opFrameLen), .bounds)]
  | .poll => [(!s.initialised, .noinit)]
  | .arpResolve => [(!s.initialised, .noinit)]
  | .ping => [(!s.initialised, .noinit)]
  | .ipSend =>
    [(!s.initialised, .noinit),
     (decide (s.arg0.extractLsb' 16 16 ≠ 0 ∨ s.arg1.extractLsb' 8 24 ≠ 0), .arg),
     (decide (s.cfg.bufSize < 34 + s.opPlen), .bounds)]
  | .udpSend =>
    [(!s.initialised, .noinit),
     (decide (s.arg1.extractLsb' 16 16 ≠ 0), .arg),
     (decide (s.cfg.bufSize < s.opSrc + s.opSendLen), .bounds),
     (decide (s.cfg.bufSize < 42 + padded s.opSendLen), .bounds)]
  | .tcpSend =>
    [(!s.initialised, .noinit),
     (decide (s.arg1.extractLsb' 16 16 ≠ 0), .arg),
     (decide (s.tcpHlen < 20), .arg),
     (decide (s.cfg.bufSize < s.opSrc + s.opSendLen), .bounds),
     (decide (s.cfg.bufSize < 34 + s.tcpHlen + padded s.opSendLen), .bounds)]
  | .dnsResolve => [(!s.initialised, .noinit), (!s.nameEnds, .name)]

/-- The error R343 makes a command report: that of the first condition that holds. -/
def State.firstError (s : State) (i : Instr) : Option CmdError :=
  ((s.errorChecks i).find? (fun c => c.1)).map (fun c => c.2)

/-! ### Frames sent -/

/-- A frame the engine may send from the hardware address `mac`: `mac` stands in src-hw-addr (41_frame_dispatch.md R170, R171),
and it is a 42-byte ARP frame or an IPv4 frame with a 20-byte header, type of service 0, no fragment bits, ttl 128, a total length
equal to the bytes that follow the Ethernet header, and a header checksum that verifies (43_ipv4_icmp.md R232, 20_memory.md R96,
R102, R103). -/
def goodFrame (mac : HwAddr) (bytes : List Byte) : Prop :=
  (bytes.drop 6).take 6 = be48 mac ∧
  ((bytes.length = 42 ∧ (bytes.drop 12).take 2 = be16 proto.etypeArp) ∨
   ((bytes.drop 12).take 2 = be16 proto.etypeIpv4 ∧ bytes.getD 14 0 = 0x45 ∧ bytes.getD 15 0 = 0 ∧
    (bytes.drop 20).take 2 = be16 0 ∧ bytes.getD 22 0 = 128 ∧
    34 ≤ bytes.length ∧ (bytes.drop 16).take 2 = be16 (BitVec.ofNat 16 (bytes.length - 14)) ∧
    ocSum (wordsOf ((bytes.drop 14).take 20)) = 0xFFFF))

/-- The MAC call is a `receive`. -/
def MacEvent.isReceive : MacEvent → Bool
  | .sent _ => false
  | .received _ _ => true

/-- The number of `receive` calls in a history: the only measure of progress (70_reset_and_hazards.md R383). -/
def receiveCount (h : List MacEvent) : Nat := (h.filter MacEvent.isReceive).length

end Sys2Proof.Machine
end

