-- ==== Sys2Proof/Certificates/Slice0/Obligations.lean ====
section
/-! DEFINITION. The statements about the model, for the provers. Each docstring names the rule of spec/ that it formalises. -/

open Sys2Proof Sys2Proof.Machine

/-! ### Encoding -/

/-- 30_encoding.md R123, R124: words written out from the opcode map decode to their commands, and two illegal words are
rejected by name. -/
def Obligations.AssignedWordsDecode : Prop :=
  decode 0x00000001 = .ok .csum ∧ decode 0x00000011 = .ok .poll ∧ decode 0x00000020 = .ok .arpResolve ∧
  decode 0x00000050 = .ok .dnsResolve ∧ decodeTableWord 32 0x31 = some .ping ∧ decodeTableWord 32 0x41 = some .tcpSend ∧
  decode 0x00000101 = .error .reservedBits ∧ decode 0x00000012 = .error .unassignedCode

/-- R123: decoding and encoding agree on every command and on all 2^32 words, and the words are those of the table. -/
def Obligations.DecodeAndEncodeAgree : Prop :=
  (∀ i : Instr, decode (encode i) = .ok i) ∧
  (∀ (w : Word) (i : Instr), decode w = .ok i → w = encode i) ∧
  (encode .csum = 0x00000001 ∧ encode .csumPseudo = 0x00000002 ∧ encode .rxDispatch = 0x00000010 ∧
   encode .poll = 0x00000011 ∧ encode .arpResolve = 0x00000020 ∧ encode .ipSend = 0x00000030 ∧
   encode .ping = 0x00000031 ∧ encode .udpSend = 0x00000040 ∧ encode .tcpSend = 0x00000041 ∧
   encode .dnsResolve = 0x00000050)

/-- R120, R124: the decoder accepts exactly the words that are legal by R124, and rejects every other word by the reason that
R124 gives. -/
def Obligations.DecoderAcceptsExactlyTheLegalWords : Prop :=
  ∀ w : Word,
    (legalWord w = true ↔ ∃ i, decode w = .ok i) ∧
    (decode w = .error .reservedBits ↔ w.extractLsb' 8 24 ≠ 0) ∧
    (decode w = .error .unassignedCode ↔ w.extractLsb' 8 24 = 0 ∧ w.extractLsb' 0 8 ∉ assignedCodes)

/-! ### The step and the host -/

/-- 10_state.md R34: a BUSY engine whose turn it is runs the command that CMD holds: around `exec` the step only uses up a choice of
who moves. The clauses on that choice (`passTurn`, and whose turn it is with an empty script) and on `withFetchWord`, by which a
command placed from outside is run by the very next step, are the model's own form, notes/assumptions/6.md and 7.md
(DESIGN CHOICE); no rule of the spec states them. -/
def Obligations.StepRunsTheCommand : Prop :=
  (∀ (s : State) (i : Instr), s.stage ≠ .idle → s.turn = .engine → decode s.cmd = .ok i →
    step s = exec i s.passTurn) ∧
  (∀ s : State, s.passTurn = { s with sched := s.passTurn.sched, draws := s.passTurn.draws }) ∧
  (∀ s : State, s.script = [] → s.passTurn = s ∧ (s.stage ≠ .idle → s.turn = .engine)) ∧
  (∀ (s : State) (i : Instr),
    step (s.withFetchWord 32 (encode i).toNat) =
      exec i { s with
        cmd := encode i, stage := .start, done := false, err := false, errcode := 0
        draws := if s.script = [] then s.draws else s.draws + 1 })

/-- 60_exceptions.md R361: a BUSY engine always has an enabled step. That the step of a run which has ended (R360 says when that is) leaves
the state as it is, is the model's own form, notes/assumptions/7.md (DESIGN CHOICE). -/
def Obligations.BusyEngineAlwaysSteps : Prop :=
  (∀ s : State, s.stage ≠ .idle → s.turn = .engine → ∃ t, step s = .next t) ∧
  (∀ s : State, s.runEnded = true → step s = .next s)

/-- 10_state.md R35, R37: a legal word written to CMD while IDLE is taken; the engine is BUSY with it, and nothing else changes. -/
def Obligations.LegalWordStartsACommand : Prop :=
  ∀ (s : State) (ops : List HostOp) (w : Word) (i : Instr),
    s.stage = .idle → s.script = .write 4 s.cfg.engineBase w :: ops → decode w = .ok i →
    step s = .next { s with script := ops, cmd := w, stage := .start, done := false, err := false, errcode := 0 }

/-- 30_encoding.md R124, 10_state.md R35, R37, R38: which words are illegal, what an illegal word does while IDLE, and that it is
ignored while BUSY. That CMD then holds the illegal word is the model's reading of R35 and R37 against the table of R31,
notes/assumptions/18.md (DEDUCED). -/
def Obligations.IllegalWordEndsAtOnce : Prop :=
  (∀ w : Word, legalWord w = false ↔ w.extractLsb' 8 24 ≠ 0 ∨ w.extractLsb' 0 8 ∉ assignedCodes) ∧
  (∀ (s : State) (ops : List HostOp) (w : Word),
    s.stage = .idle → s.script = .write 4 s.cfg.engineBase w :: ops → legalWord w = false →
    step s = .next { s with
      script := ops, cmd := w, result0 := 0, result1 := 0, done := true, err := true, errcode := 1 }) ∧
  (∀ (s : State) (ops : List HostOp) (w : Word),
    s.stage ≠ .idle → s.turn = .host → s.script = .write 4 s.cfg.engineBase w :: ops → legalWord w = false →
    step s = .next { s.hostNext ops with ovr := true })

/-- 10_state.md R38, R36: host writes while BUSY, the registers by their offsets in the map of R31. -/
def Obligations.WritesWhileBusyAreIgnored : Prop :=
  ∀ (s : State) (ops : List HostOp) (v : Word), s.cfg.wf → s.stage ≠ .idle → s.turn = .host →
    (∀ off ∈ [0x000, 0x008, 0x00C, 0x020, 0x024, 0x028, 0x02C, 0x030, 0x034, 0x038, 0x03C],
      s.script = .write 4 (s.cfg.engineBase + off) v :: ops → step s = .next { s.hostNext ops with ovr := true }) ∧
    (∀ k, k < s.cfg.bufSize → s.script = .write 1 (s.cfg.engineBase + 0x10000 + k) v :: ops →
      step s = .next { s.hostNext ops with ovr := true }) ∧
    (∀ k, k < 256 → s.script = .write 1 (s.cfg.engineBase + 0x100 + k) v :: ops →
      step s = .next { s.hostNext ops with ovr := true }) ∧
    (s.script = .write 4 (s.cfg.engineBase + 4) v :: ops →
      step s = .next { s.hostNext ops with ovr := if v.getLsbD 3 then false else s.ovr }) ∧
    (∀ off ∈ [0x010, 0x014, 0x040, 0x044, 0x048],
      s.script = .write 4 (s.cfg.engineBase + off) v :: ops → step s = .next (s.hostNext ops))

/-- R38: host reads while BUSY: the registers R38 names return some value, every other register its current value, of the address
registers once the engine is initialised, the registers by their offsets in the map of R31, and no read has a side effect on the
engine. The last clause gives the bits of STATUS (R36). That the current value of DNS_ID, PING_IDSEQ and STATUS.EVT is the one
the running command has already written is the model's reading of R38 against 20_memory.md R88, notes/assumptions/19.md (DESIGN
CHOICE). -/
def Obligations.ReadsWhileBusy : Prop :=
  ∀ (s : State) (ops : List HostOp), s.cfg.wf → s.stage ≠ .idle → s.turn = .host →
    (∀ p ∈ s.steadyRegs, (p.1 ∈ [0x020, 0x024, 0x028] → s.initialised = true) →
      s.script = .read 4 (s.cfg.engineBase + p.1) :: ops →
      step s = .next ((s.hostNext ops).noteRead p.1 p.2)) ∧
    (∀ p ∈ s.endedRegs, s.script = .read 4 (s.cfg.engineBase + p.1) :: ops →
      ∃ v, step s = .next ((s.hostNext ops).noteRead p.1 v)) ∧
    (∀ k, k < s.cfg.bufSize → s.script = .read 1 (s.cfg.engineBase + 0x10000 + k) :: ops →
      ∃ v, step s = .next ((s.hostNext ops).noteRead (0x10000 + k) v)) ∧
    (∀ k, k < 256 → s.script = .read 1 (s.cfg.engineBase + 0x100 + k) :: ops →
      ∃ v, step s = .next ((s.hostNext ops).noteRead (0x100 + k) v)) ∧
    (s.script = .read 4 (s.cfg.engineBase + 4) :: ops →
      ∃ v : Word, step s = .next ((s.hostNext ops).noteRead 4 v) ∧
        v.getLsbD 0 = true ∧ v.getLsbD 1 = s.done ∧ v.getLsbD 2 = s.err ∧ v.getLsbD 3 = s.ovr ∧
        v.getLsbD 4 = decide (s.evtKind ≠ 0) ∧ v.extractLsb' 5 3 = 0 ∧ v.extractLsb' 8 4 = s.errcode ∧
        v.extractLsb' 12 20 = 0)

/-- R31, R30, R36, R46: what a host write of each register, by its offset in the map of R31, and of each window does while IDLE. Writes
of CMD are the subject of `LegalWordStartsACommand` and `IllegalWordEndsAtOnce`. -/
def Obligations.WritesWhileIdle : Prop :=
  ∀ (s : State) (ops : List HostOp) (v : Word), s.cfg.wf → s.stage = .idle →
    (∀ (off : Nat) (t : State),
      (off, t) ∈ [
        (0x004, { s with ovr := if v.getLsbD 3 then false else s.ovr }),
        (0x008, { s with arg0 := v }), (0x00C, { s with arg1 := v }), (0x010, s), (0x014, s),
        (0x020, { s with macHi := v.extractLsb' 0 16, initMacHi := true }),
        (0x024, { s with macLo := v, initMacLo := true }), (0x028, { s with localIp := v, initIp := true }),
        (0x02C, { s with linePort := v.extractLsb' 0 16 }), (0x030, { s with httpPort := v.extractLsb' 0 16 }),
        (0x034, { s with dnsId := v.extractLsb' 0 16 }), (0x038, { s with dnsLport := v.extractLsb' 0 16 }),
        (0x03C, { s with pingIdseq := v }), (0x040, s), (0x044, s), (0x048, s)] →
      s.script = .write 4 (s.cfg.engineBase + off) v :: ops → step s = .next { t with script := ops }) ∧
    (∀ k, k < s.cfg.bufSize → s.script = .write 1 (s.cfg.engineBase + 0x10000 + k) v :: ops →
      ∃ t, step s = .next t ∧ t = { s with script := ops, frame := t.frame } ∧
        ∀ x, t.byteB x = if x = k then v.extractLsb' 0 8 else s.byteB x) ∧
    (∀ k, k < 256 → s.script = .write 1 (s.cfg.engineBase + 0x100 + k) v :: ops →
      ∃ t, step s = .next t ∧ t = { s with script := ops, name := t.name } ∧
        ∀ x, t.byteN x = if x = k then v.extractLsb' 0 8 else s.byteN x)

/-- R31, R87: host reads while IDLE return the current values, of the address registers once they have been written, the registers by
their offsets in the map of R31, and no read has a side effect on the engine. The last clause gives the bits of STATUS (R36). -/
def Obligations.ReadsWhileIdle : Prop :=
  ∀ (s : State) (ops : List HostOp), s.cfg.wf → s.stage = .idle →
    (∀ p ∈ s.steadyRegs ++ s.endedRegs, (p.1 ∈ [0x020, 0x024, 0x028] → s.initialised = true) →
      s.script = .read 4 (s.cfg.engineBase + p.1) :: ops →
      step s = .next (({ s with script := ops } : State).noteRead p.1 p.2)) ∧
    (∀ k, k < s.cfg.bufSize → s.script = .read 1 (s.cfg.engineBase + 0x10000 + k) :: ops →
      step s = .next (({ s with script := ops } : State).noteRead (0x10000 + k) ((s.byteB k).setWidth 32))) ∧
    (∀ k, k < 256 → s.script = .read 1 (s.cfg.engineBase + 0x100 + k) :: ops →
      step s = .next (({ s with script := ops } : State).noteRead (0x100 + k) ((s.byteN k).setWidth 32))) ∧
    (s.script = .read 4 (s.cfg.engineBase + 4) :: ops →
      ∃ v : Word, step s = .next (({ s with script := ops } : State).noteRead 4 v) ∧
        v.getLsbD 0 = false ∧ v.getLsbD 1 = s.done ∧ v.getLsbD 2 = s.err ∧ v.getLsbD 3 = s.ovr ∧
        v.getLsbD 4 = decide (s.evtKind ≠ 0) ∧ v.extractLsb' 5 3 = 0 ∧ v.extractLsb' 8 4 = s.errcode ∧
        v.extractLsb' 12 20 = 0)

/-- R49: a read of a reserved offset returns 0, a write to one is ignored, and neither has a side effect, in IDLE and in BUSY. That an
8-bit access of 0x018 to 0x01F and 0x04C to 0x0FF is such an access, and not a refused one, is the model's reading of two
overlapping rows of 20_memory.md R85, notes/assumptions/16.md (DEDUCED). -/
def Obligations.ReservedOffsetsReadZeroAndIgnoreWrites : Prop :=
  ∀ (s : State) (ops : List HostOp) (off bytes : Nat) (v : Word), s.cfg.wf → s.turn = .host →
    reservedOffset s.cfg.bufSize off → (bytes = 1 ∨ bytes = 4 ∧ off % 4 = 0) →
    (s.script = .read bytes (s.cfg.engineBase + off) :: ops → step s = .next ((s.hostNext ops).noteRead off 0)) ∧
    (s.script = .write bytes (s.cfg.engineBase + off) v :: ops → step s = .next (s.hostNext ops))

/-- 20_memory.md R85, 60_exceptions.md R361: an access of the wrong width or alignment is refused, of a register (by its offset in the map
of R31), a window and a reserved offset, whether it reads or writes. An address below or beyond the register space is not the
engine's (R80); that the machine stops there with the fault `outsideWindow` is the model's choice, notes/assumptions/12.md
(DESIGN CHOICE), since the spec gives the engine no fault. -/
def Obligations.WrongWidthIsRefused : Prop :=
  (∀ (s : State) (ops : List HostOp) (op : HostOp) (off bytes : Nat) (v : Word), s.cfg.wf → s.turn = .host →
    s.script = op :: ops →
    (op = .read bytes (s.cfg.engineBase + off) ∨ op = .write bytes (s.cfg.engineBase + off) v) →
    ((∃ r ∈ [0x000, 0x004, 0x008, 0x00C, 0x010, 0x014, 0x020, 0x024, 0x028, 0x02C, 0x030, 0x034, 0x038, 0x03C, 0x040, 0x044,
        0x048], r ≤ off ∧ off < r + 4 ∧ ¬ (bytes = 4 ∧ off = r)) →
      step s = .refused (.refusedAccess bytes (s.cfg.engineBase + off))) ∧
    ((0x100 ≤ off ∧ off < 0x200) ∨ (0x10000 ≤ off ∧ off < 0x10000 + s.cfg.bufSize) → bytes ≠ 1 →
      step s = .refused (.refusedAccess bytes (s.cfg.engineBase + off))) ∧
    (reservedOffset s.cfg.bufSize off → ¬ (bytes = 1 ∨ bytes = 4 ∧ off % 4 = 0) →
      step s = .refused (.refusedAccess bytes (s.cfg.engineBase + off)))) ∧
  ∀ (s : State) (ops : List HostOp) (op : HostOp) (addr bytes : Nat) (v : Word), s.turn = .host → s.script = op :: ops →
    (op = .read bytes addr ∨ op = .write bytes addr v) →
    (addr < s.cfg.engineBase ∨ s.cfg.engineBase + 0x20000 ≤ addr) → step s = .fault (.outsideWindow addr)

/-- 70_reset_and_hazards.md R370: the reset event, from any state, in IDLE or BUSY. Every value R370 states; `B`, `N` and the three
address registers are not stated. First the state the machine starts in. That the MAC calls made before are kept in
`priorHistory`, and that the parameters, the MAC's answers and the rest of the script stay, is the model's own form,
notes/assumptions/10.md (DESIGN CHOICE). -/
def Obligations.ResetLeavesTheStatedValues : Prop :=
  (State.reset.stage = .idle ∧ State.reset.statusWord = 0 ∧ State.reset.initialised = false ∧
   State.reset.initMacHi = false ∧ State.reset.initMacLo = false ∧ State.reset.initIp = false ∧
   State.reset.cmd = 0 ∧ State.reset.arg0 = 0 ∧ State.reset.arg1 = 0 ∧ State.reset.result0 = 0 ∧ State.reset.result1 = 0 ∧
   State.reset.linePort = 0 ∧ State.reset.httpPort = 0 ∧ State.reset.dnsId = 0 ∧ State.reset.dnsLport = 53 ∧
   State.reset.pingIdseq = 0 ∧ State.reset.evtKind = 0 ∧ State.reset.evtOff = 0 ∧ State.reset.evtLen = 0 ∧
   State.reset.history = [] ∧ State.reset.priorHistory = []) ∧
  ∀ (s : State) (ops : List HostOp), s.turn = .host → s.script = .reset :: ops →
    ∃ t, step s = .next t ∧
      t.stage = .idle ∧ t.cmd = 0 ∧ t.arg0 = 0 ∧ t.arg1 = 0 ∧ t.result0 = 0 ∧ t.result1 = 0 ∧
      t.done = false ∧ t.err = false ∧ t.ovr = false ∧ t.errcode = 0 ∧ t.statusWord = 0 ∧
      t.initMacHi = false ∧ t.initMacLo = false ∧ t.initIp = false ∧ t.initialised = false ∧
      t.linePort = 0 ∧ t.httpPort = 0 ∧ t.dnsId = 0 ∧ t.dnsLport = 0x0035 ∧ t.pingIdseq = 0 ∧
      t.evtKind = 0 ∧ t.evtOff = 0 ∧ t.evtLen = 0 ∧ t.history = [] ∧
      t.priorHistory = s.priorHistory ++ s.history ∧
      t.cfg = s.cfg ∧ t.macIn = s.macIn ∧ t.script = ops

/-! ### Rules of the whole machine -/

/-- The invariant holds right after reset, whatever the parameters R7 allows. -/
def Obligations.ResetMeetsTheInvariant : Prop :=
  ∀ p : Params, p.wf → ({ State.reset with cfg := p } : State).Inv

/-- Every step keeps the invariant of Safety.lean (R82, R45, R36, R34, R46, R205, R353). -/
def Obligations.EveryStepKeepsTheInvariant : Prop :=
  ∀ s t : State, s.Inv → step s = .next t → t.Inv

/-- 10_state.md R53: the record of MAC calls is append-only over every step. That it stays so over the reset event, after which R370 gives
an empty history, is the model's own form, notes/assumptions/10.md (DESIGN CHOICE): `priorHistory` keeps the calls made before. -/
def Obligations.HistoryIsAppendOnly : Prop :=
  ∀ s t : State, step s = .next t →
    ∃ new, t.priorHistory ++ t.history = (s.priorHistory ++ s.history) ++ new ∧ (s.turn = .host → new = [])

/-- 10_state.md R32, R42, R44, R46, 70_reset_and_hazards.md R381: no engine step of any command writes CMD, an operand register, a
configuration register, the initialisation bits, OVR or what is the host's; DNS_ID is written by DNS_RESOLVE only, the sequence
number by PING only, and the echo identifier by none. -/
def Obligations.CommandsKeepTheConfiguration : Prop :=
  ∀ (i : Instr) (s t : State), exec i s = .next t →
    t.cfg = s.cfg ∧ t.cmd = s.cmd ∧ t.arg0 = s.arg0 ∧ t.arg1 = s.arg1 ∧ t.ovr = s.ovr ∧
    t.macHi = s.macHi ∧ t.macLo = s.macLo ∧ t.localIp = s.localIp ∧
    t.initMacHi = s.initMacHi ∧ t.initMacLo = s.initMacLo ∧ t.initIp = s.initIp ∧
    t.linePort = s.linePort ∧ t.httpPort = s.httpPort ∧ t.dnsLport = s.dnsLport ∧
    t.frameGen = s.frameGen ∧ t.priorHistory = s.priorHistory ∧
    t.script = s.script ∧ t.reads = s.reads ∧ t.checks = s.checks ∧ t.sched = s.sched ∧
    (i ≠ .dnsResolve → t.dnsId = s.dnsId ∧ t.name = s.name ∧ t.nameGen = s.nameGen) ∧
    (i ≠ .ping → t.pingIdseq = s.pingIdseq) ∧
    t.pingIdseq.extractLsb' 16 16 = s.pingIdseq.extractLsb' 16 16

/-- 60_exceptions.md R345, 10_state.md R36, R38: OVR is sticky; only a host write of STATUS with bit 3 set, or the reset event,
clears it. -/
def Obligations.OverrunIsSticky : Prop :=
  ∀ s t : State, step s = .next t → s.ovr = true → t.ovr = false →
    s.turn = .host ∧ ∃ op ops, s.script = op :: ops ∧
      (op = .reset ∨ ∃ v : Word, op = .write 4 (s.cfg.engineBase + 4) v ∧ v.getLsbD 3 = true)

/-- 10_state.md R34: only a host write of a legal word to CMD while IDLE makes the engine BUSY, and only the end of a command or the
reset event makes it IDLE again. -/
def Obligations.OnlyACommandWriteLeavesIdle : Prop :=
  (∀ s t : State, step s = .next t → s.stage = .idle → t.stage ≠ .idle →
    ∃ w ops, s.script = .write 4 s.cfg.engineBase w :: ops ∧ legalWord w = true ∧ t.cmd = w ∧ t.stage = .start) ∧
  (∀ s t : State, step s = .next t → s.stage ≠ .idle → t.stage = .idle →
    (s.turn = .engine ∧ t.done = true) ∨ (s.turn = .host ∧ ∃ ops, s.script = .reset :: ops))

/-- 10_state.md R46, 41_frame_dispatch.md R170, R171, 43_ipv4_icmp.md R232, 20_memory.md R96, R102, R103: every frame any engine step
sends carries LOCAL_MAC as its source and is an ARP frame of 42 bytes or an IPv4 frame with type of service 0, no fragment bits,
ttl 128, a true total length and a header checksum that verifies. -/
def Obligations.EveryFrameSentIsWellFormed : Prop :=
  ∀ (i : Instr) (s t : State), s.cfg.wf → exec i s = .next t →
    ∃ new, t.history = s.history ++ new ∧ ∀ bytes, MacEvent.sent bytes ∈ new → goodFrame s.localMac bytes

/-- 10_state.md R46: an engine that has not been initialised sends no frame and receives none. -/
def Obligations.NoMacCallBeforeInitialisation : Prop :=
  ∀ s t : State, s.Inv → step s = .next t → s.initialised = false →
    t.priorHistory ++ t.history = s.priorHistory ++ s.history

/-! ### Errors -/

/-- 60_exceptions.md R343: the error a command reports, in the order R343 gives, with the whole effect of a CmdError (10_state.md R37);
and where no condition holds, the command reports none. An illegal word is ILLEGAL before anything else is looked at. After a
name error `N` is unspecified (45_dns.md R318). The last clauses say what the names of the model used here stand for: the error
codes (R341), the initialisation state (10_state.md R46) and a terminated name (45_dns.md R313). -/
def Obligations.FirstErrorIsReported : Prop :=
  (∀ (s : State) (w : Word), legalWord w = false →
    (s.takeCommand w).err = true ∧ (s.takeCommand w).errcode = CmdError.illegal.code ∧ (s.takeCommand w).stage = .idle) ∧
  (∀ (i : Instr) (s : State), s.stage = .start →
    (∀ c, s.firstError i = some c →
      ∃ t, exec i s = .next t ∧
        t = { s with
          result0 := 0, result1 := 0, stage := .idle, done := true, err := true, errcode := c.code
          name := t.name, nameGen := t.nameGen } ∧
        (c ≠ .name → t.name = s.name ∧ t.nameGen = s.nameGen)) ∧
    (s.firstError i = none → ∃ t, exec i s = .next t ∧ t.err = s.err ∧ t.errcode = s.errcode)) ∧
  (CmdError.illegal.code = 1 ∧ CmdError.noinit.code = 2 ∧ CmdError.arg.code = 3 ∧ CmdError.bounds.code = 4 ∧
   CmdError.name.code = 5) ∧
  (∀ s : State, s.initialised = true ↔ s.initMacHi = true ∧ s.initMacLo = true ∧ s.initIp = true) ∧
  (∀ s : State, s.nameEnds = true ↔ ∃ k, k < s.cfg.nameSize ∧ s.byteN k = 0)

/-- 60_exceptions.md R342: a command that ends with a CmdError has changed RESULT0, RESULT1 and STATUS only, from whatever stage; for
DNS_RESOLVE `N` is unspecified besides (45_dns.md R318). -/
def Obligations.CommandErrorIsPrecise : Prop :=
  ∀ (i : Instr) (s t : State), exec i s = .next t → s.err = false → t.err = true →
    t = { s with
      result0 := 0, result1 := 0, stage := .idle, done := true, err := true, errcode := t.errcode
      name := t.name, nameGen := t.nameGen } ∧
    (i ≠ .dnsResolve → t.name = s.name ∧ t.nameGen = s.nameGen)

/-! ### Checksums -/

/-- 40_checksum.md R142: the closed form of the folded sum, for every list the engine can sum (R140). -/
def Obligations.FoldedSumClosedForm : Prop :=
  ∀ ws : List Half, ws.length ≤ 65537 →
    (ocSum ws).toNat =
      if (ws.map BitVec.toNat).sum = 0 then 0 else ((ws.map BitVec.toNat).sum - 1) % 65535 + 1

/-- R142: the sum does not depend on the order of the words. -/
def Obligations.FoldedSumIgnoresOrder : Prop :=
  ∀ ws vs : List Half, ws.Perm vs → ocSum ws = ocSum vs

/-- R144: a record whose zeroed checksum field at an even distance is filled with the record's checksum sums to 0xFFFF. -/
def Obligations.StoredChecksumVerifies : Prop :=
  ∀ (s : State) (f a n : Nat), a ≤ f → (f - a) % 2 = 0 → f + 2 ≤ a + n → n ≤ 65536 →
    (s.csumStore f a n).foldedSum a n = 0xFFFF ∧ complement ((s.csumStore f a n).foldedSum a n) = 0

/-- R148: exchanging the two IPv4 addresses of the packet at any offset does not change its pseudo-header sum. -/
def Obligations.PseudoSumIgnoresAddressOrder : Prop :=
  ∀ (s : State) (o : Nat),
    ((s.wr32 (o + 12) (s.rd32 (o + 16))).wr32 (o + 16) (s.rd32 (o + 12))).pseudoSum o = s.pseudoSum o

/-- R143: CSUM, all of it, from any state. What ACC holds afterwards is not stated (10_state.md R47). The last clause is R141: the words of a
byte range, a final odd byte the high byte of its word. -/
def Obligations.CsumResult : Prop :=
  (∀ s : State,
    (s.arg0.toNat + s.arg1.toNat ≤ s.cfg.bufSize →
      ∃ a : Word, exec .csum s = .next { s with
        result0 := (~~~ ocSum (wordsOf (s.readB s.arg0.toNat s.arg1.toNat))).setWidth 32
        result1 := (ocSum (wordsOf (s.readB s.arg0.toNat s.arg1.toNat))).setWidth 32
        acc := a, stage := .idle, done := true }) ∧
    (s.cfg.bufSize < s.arg0.toNat + s.arg1.toNat →
      exec .csum s = .next { s with
        result0 := 0, result1 := 0, stage := .idle, done := true, err := true, errcode := 4 }) ∧
    (s.arg1 = 0 → ocSum (wordsOf (s.readB s.arg0.toNat s.arg1.toNat)) = 0)) ∧
  ∀ (s : State) (a n : Nat),
    wordsOf (s.readB a n) =
      (List.range (n / 2)).map (fun i => s.byteB (a + 2 * i) ++ s.byteB (a + 2 * i + 1)) ++
        (if n % 2 = 1 then [s.byteB (a + n - 1) ++ (0 : Byte)] else [])

/-- R145, R146: CSUM_PSEUDO, all of it, from any state. What ACC holds afterwards is not stated. -/
def Obligations.CsumPseudoResult : Prop :=
  ∀ (s : State) (o total : Nat) (ws : List Half),
    o = s.arg0.toNat → total = (s.rd16 (o + 2)).toNat →
    ws = [s.rd16 (o + 12), s.rd16 (o + 14), s.rd16 (o + 16), s.rd16 (o + 18), (s.rd8 (o + 9)).setWidth 16,
          BitVec.ofNat 16 (total - 20)] ++ wordsOf (s.readB (o + 20) (total - 20)) →
    (o + 20 ≤ s.cfg.bufSize → 20 ≤ total → o + total ≤ s.cfg.bufSize →
      ∃ a : Word, exec .csumPseudo s = .next { s with
        result0 := (~~~ ocSum ws).setWidth 32, result1 := (ocSum ws).setWidth 32, acc := a
        stage := .idle, done := true }) ∧
    (o + 20 ≤ s.cfg.bufSize → total < 20 →
      exec .csumPseudo s = .next { s with
        result0 := 0, result1 := 0, stage := .idle, done := true, err := true, errcode := 3 }) ∧
    (s.cfg.bufSize < o + 20 ∨ (20 ≤ total ∧ s.cfg.bufSize < o + total) →
      exec .csumPseudo s = .next { s with
        result0 := 0, result1 := 0, stage := .idle, done := true, err := true, errcode := 4 })

/-! ### Frame dispatch -/

/-- 60_exceptions.md R346, 41_frame_dispatch.md R172, R173, 43_ipv4_icmp.md R230: the frames dropped before anything is written. RX_DISPATCH
ends normally with no effect but the cleared event, and POLL goes on with the next receive. -/
def Obligations.DroppedFrameHasNoEffect : Prop :=
  ∀ (s : State) (n : Nat), s.cfg.wf →
    (n ≤ 14 ∨ (s.rd16 12 ≠ 0x0806 ∧ s.rd16 12 ≠ 0x0800) ∨
     (s.rd16 12 = 0x0806 ∧
      ¬ (s.rd16 20 = 1 ∧ s.rd32 38 = s.localIp ∧ s.rd16 14 = 1 ∧ s.rd16 16 = 0x0800)) ∨
     (s.rd16 12 = 0x0800 ∧
      (s.rd8 14 ≠ 0x45 ∨ s.rd32 30 ≠ s.localIp ∨ (s.rd16 16).toNat < 20 ∨
       s.cfg.bufSize < 14 + (s.rd16 16).toNat + 1))) →
    s.classify n = s ∧
    (s.initialised = true → n = s.arg0.toNat → n ≤ s.cfg.bufSize →
      exec .rxDispatch s = .next { s with
        evtKind := 0, evtOff := 0, evtLen := 0, result0 := 0, result1 := 0, stage := .idle, done := true }) ∧
    (∀ (r : State) (k : Word), r.stage = .draining k → r.evtKind = 0 → r.macReceive = s → r.nextFrame.length = n →
      n ≠ 0 → exec .poll r = .next { s with stage := .draining (k + 1) })

/-- 43_ipv4_icmp.md R230, R235, 44_udp_tcp.md R271, R277, 60_exceptions.md R346: the IPv4 frames dropped after the terminator has been written: it
stays, and nothing else changes. -/
def Obligations.DroppedPacketKeepsItsTerminator : Prop :=
  ∀ (s u : State) (n total : Nat), s.cfg.wf →
    14 < n → s.rd16 12 = 0x0800 → s.rd8 14 = 0x45 → s.rd32 30 = s.localIp → total = (s.rd16 16).toNat → 20 ≤ total →
    14 + total + 1 ≤ s.cfg.bufSize → u = s.wr8 (14 + total) 0 →
    ((s.rd8 23 ≠ 1 ∧ s.rd8 23 ≠ 6 ∧ s.rd8 23 ≠ 17) ∨
     (s.rd8 23 = 1 ∧ (total < 28 ∨ u.rd8 34 ≠ 8)) ∨
     (s.rd8 23 = 6 ∧ (u.tcpHlen < 20 ∨ total < 20 + u.tcpHlen)) ∨
     (s.rd8 23 = 17 ∧ ((u.rd16 38).toNat < 8 ∨ s.cfg.bufSize < 34 + (u.rd16 38).toNat + 1))) →
    s.classify n = u ∧
    (s.initialised = true → n = s.arg0.toNat → n ≤ s.cfg.bufSize →
      exec .rxDispatch s = .next { u with
        evtKind := 0, evtOff := 0, evtLen := 0, result0 := 0, result1 := 0, stage := .idle, done := true })

/-- 42_arp.md R201, R202, 41_frame_dispatch.md R170, R173, R174: an ARP request for the local address is answered, sender and target exactly
swapped; nothing else of `B` and no other register changes. -/
def Obligations.ArpRequestIsAnswered : Prop :=
  ∀ (s : State) (n : Nat), s.cfg.wf → s.initialised = true → n = s.arg0.toNat → 14 < n →
    n ≤ s.cfg.bufSize → s.rd16 12 = 0x0806 → s.rd16 20 = 1 → s.rd32 38 = s.localIp → s.rd16 14 = 1 → s.rd16 16 = 0x0800 →
    ∃ t, exec .rxDispatch s = .next t ∧
      t = { s with
        frame := t.frame, history := s.history ++ [.sent (t.readB 0 42)], evtKind := 0, evtOff := 0, evtLen := 0
        result0 := 0, result1 := 0, stage := .idle, done := true } ∧
      t.rd48 22 = s.rd48 32 ∧ t.rd32 28 = s.rd32 38 ∧ t.rd48 32 = s.rd48 22 ∧ t.rd32 38 = s.rd32 28 ∧ t.rd16 20 = 2 ∧
      t.rd48 0 = s.rd48 6 ∧ t.rd48 6 = s.localMac ∧ t.rd16 6 = s.macHi ∧ t.rd32 8 = s.macLo ∧ t.rd16 12 = 0x0806 ∧
      (∀ x, (14 ≤ x ∧ x < 20) ∨ 42 ≤ x → t.byteB x = s.byteB x)

/-- 43_ipv4_icmp.md R235, R236, R232: an echo request for the local address is answered in place: type echo-reply, identifier, sequence,
code and payload unchanged, both checksums valid, the addresses exchanged, one frame of `14 + T` bytes sent. -/
def Obligations.EchoRequestIsAnswered : Prop :=
  ∀ (s : State) (n total : Nat), s.cfg.wf → s.initialised = true → n = s.arg0.toNat → 14 < n →
    n ≤ s.cfg.bufSize → s.rd16 12 = 0x0800 → s.rd8 14 = 0x45 → s.rd32 30 = s.localIp → total = (s.rd16 16).toNat → 28 ≤ total →
    14 + total + 1 ≤ s.cfg.bufSize → s.rd8 23 = 1 → s.rd8 34 = 8 →
    ∃ t, exec .rxDispatch s = .next t ∧
      t = { s with
        frame := t.frame, acc := t.acc, history := s.history ++ [.sent (t.readB 0 (14 + total))]
        evtKind := 0, evtOff := 0, evtLen := 0, result0 := 0, result1 := 0, stage := .idle, done := true } ∧
      t.rd8 34 = 0 ∧ (∀ x, 38 ≤ x ∧ x < 14 + total → t.byteB x = s.byteB x) ∧ t.rd8 35 = s.rd8 35 ∧
      t.foldedSum 34 (total - 20) = 0xFFFF ∧ t.foldedSum 14 20 = 0xFFFF ∧
      t.rd32 26 = s.rd32 30 ∧ t.rd32 30 = s.rd32 26 ∧ t.rd16 16 = s.rd16 16 ∧ t.rd16 18 = s.rd16 18 ∧
      t.rd16 20 = 0 ∧ t.rd8 22 = 128 ∧ t.rd8 23 = 1 ∧ t.rd8 15 = 0 ∧ t.rd8 14 = 0x45 ∧
      t.rd48 0 = s.rd48 6 ∧ t.rd48 6 = s.localMac ∧ t.rd16 12 = 0x0800 ∧ t.byteB (14 + total) = 0 ∧
      (∀ x, 14 + total < x → t.byteB x = s.byteB x)

/-- 44_udp_tcp.md R270: a UDP datagram becomes a delivery event; two terminators are written and nothing is sent. The length field is
read after the IP terminator has been written. -/
def Obligations.UdpDatagramIsDelivered : Prop :=
  ∀ (s : State) (n total len : Nat), s.cfg.wf → s.initialised = true → n = s.arg0.toNat → 14 < n →
    n ≤ s.cfg.bufSize → s.rd16 12 = 0x0800 → s.rd8 14 = 0x45 → s.rd32 30 = s.localIp → total = (s.rd16 16).toNat → 20 ≤ total →
    14 + total + 1 ≤ s.cfg.bufSize → s.rd8 23 = 17 → len = ((s.wr8 (14 + total) 0).rd16 38).toNat → 8 ≤ len →
    34 + len + 1 ≤ s.cfg.bufSize →
    ∃ t, exec .rxDispatch s = .next t ∧
      t = { s with
        frame := t.frame, evtKind := 1, evtOff := 42, evtLen := BitVec.ofNat 16 (len - 8)
        result0 := 1, result1 := 0, stage := .idle, done := true } ∧
      t.evtLen.toNat = len - 8 ∧ t.evt = true ∧ t.byteB (14 + total) = 0 ∧ t.byteB (42 + (len - 8)) = 0 ∧
      (∀ x, x ≠ 14 + total → x ≠ 42 + (len - 8) → t.byteB x = s.byteB x)

/-- R276, R278, R279, R283: a TCP segment without PSH is answered with itself, ports and numbers exchanged, the acknowledgment advanced
unless the flags are exactly ACK, ACK added to SYN, the checksum valid; window, urgent pointer, header length, options and
data stay. -/
def Obligations.TcpHandshakeIsAnswered : Prop :=
  ∀ (s : State) (n total : Nat), s.cfg.wf → s.initialised = true → n = s.arg0.toNat → 14 < n →
    n ≤ s.cfg.bufSize → s.rd16 12 = 0x0800 → s.rd8 14 = 0x45 → s.rd32 30 = s.localIp → total = (s.rd16 16).toNat →
    14 + total + 1 ≤ s.cfg.bufSize → s.rd8 23 = 6 → 20 ≤ (s.rd8 46 >>> 4).toNat * 4 →
    20 + (s.rd8 46 >>> 4).toNat * 4 ≤ total → s.rd8 47 &&& 0x08 = 0 →
    ∃ t, exec .rxDispatch s = .next t ∧
      t = { s with
        frame := t.frame, acc := t.acc, history := s.history ++ [.sent (t.readB 0 (14 + total))]
        evtKind := 0, evtOff := 0, evtLen := 0, result0 := 0, result1 := 0, stage := .idle, done := true } ∧
      t.rd16 34 = s.rd16 36 ∧ t.rd16 36 = s.rd16 34 ∧ t.rd32 38 = s.rd32 42 ∧
      t.rd32 42 = (if s.rd8 47 = 0x10 then s.rd32 38 else s.rd32 38 + 1) ∧
      t.rd8 47 = (if s.rd8 47 &&& 0x02 = 0 then s.rd8 47 else s.rd8 47 ||| 0x10) ∧
      t.rd8 46 = s.rd8 46 ∧ t.rd16 48 = s.rd16 48 ∧ (∀ x, 52 ≤ x ∧ x < 14 + total → t.byteB x = s.byteB x) ∧
      t.pseudoSum 14 = 0xFFFF ∧ t.foldedSum 14 20 = 0xFFFF ∧ t.rd16 16 = s.rd16 16 ∧ t.rd16 18 = s.rd16 18 ∧
      t.rd8 14 = 0x45 ∧ t.rd8 15 = 0 ∧ t.rd16 20 = 0 ∧ t.rd8 22 = 128 ∧ t.rd8 23 = 6 ∧ t.rd16 12 = 0x0800 ∧
      t.rd32 26 = s.rd32 30 ∧ t.rd32 30 = s.rd32 26 ∧ t.rd48 0 = s.rd48 6 ∧ t.rd48 6 = s.localMac ∧
      t.byteB (14 + total) = 0 ∧ (∀ x, 14 + total < x → t.byteB x = s.byteB x)

/-- R276, R280, R281: a TCP segment with PSH becomes a delivery event of the route of its local port; ports and numbers are already
exchanged, the checksum is as received and nothing is sent. -/
def Obligations.TcpDataIsDelivered : Prop :=
  ∀ (s : State) (n total hlen : Nat), s.cfg.wf → s.initialised = true → n = s.arg0.toNat → 14 < n →
    n ≤ s.cfg.bufSize → s.rd16 12 = 0x0800 → s.rd8 14 = 0x45 → s.rd32 30 = s.localIp → total = (s.rd16 16).toNat →
    14 + total + 1 ≤ s.cfg.bufSize → s.rd8 23 = 6 → hlen = (s.rd8 46 >>> 4).toNat * 4 → 20 ≤ hlen →
    20 + hlen ≤ total → s.rd8 47 &&& 0x08 ≠ 0 →
    ∃ t, exec .rxDispatch s = .next t ∧
      t = { s with
        frame := t.frame
        evtKind :=
          if s.linePort ≠ 0 ∧ s.rd16 36 = s.linePort then 2
          else if s.httpPort ≠ 0 ∧ s.rd16 36 = s.httpPort then 3 else 4
        evtOff := BitVec.ofNat 16 (34 + hlen), evtLen := BitVec.ofNat 16 (total - 20 - hlen)
        result0 := 1, result1 := 0, stage := .idle, done := true } ∧
      t.evtLen.toNat = total - 20 - hlen ∧
      t.rd16 34 = s.rd16 36 ∧ t.rd16 36 = s.rd16 34 ∧ t.rd32 38 = s.rd32 42 ∧ t.rd32 42 = s.rd32 38 ∧
      t.byteB (14 + total) = 0 ∧
      (∀ x, ¬ (34 ≤ x ∧ x < 46) → x ≠ 14 + total → t.byteB x = s.byteB x)

/-- 41_frame_dispatch.md R175: POLL, its start and each turn of its loop. -/
def Obligations.PollDrainsFrames : Prop :=
  (∀ s : State, s.stage = .start → s.initialised = true →
    exec .poll s = .next { s with evtKind := 0, evtOff := 0, evtLen := 0, stage := .draining 0 }) ∧
  (∀ (s : State) (k : Word), s.stage = .draining k → s.nextFrame = [] →
    ∃ t, exec .poll s = .next t ∧
      t = { s with
        result0 := 0, result1 := k, stage := .idle, done := true, frame := t.frame
        history := s.history ++ [.received s.cfg.bufSize []], macIn := s.macIn.tail, draws := s.draws + 1 } ∧
      ∀ x, t.byteB x = s.byteB x) ∧
  (∀ (s : State) (k : Word), s.stage = .draining k → s.nextFrame ≠ [] →
    (s.macReceive.classify s.nextFrame.length).evtKind ≠ 0 →
    exec .poll s = .next { s.macReceive.classify s.nextFrame.length with
      result0 := 1, result1 := k + 1, stage := .idle, done := true }) ∧
  (∀ (s : State) (k : Word), s.stage = .draining k → s.nextFrame ≠ [] →
    (s.macReceive.classify s.nextFrame.length).evtKind = 0 →
    exec .poll s = .next { s.macReceive.classify s.nextFrame.length with stage := .draining (k + 1) })

/-- 41_frame_dispatch.md R175, R178, 44_udp_tcp.md R270, R276: the frame of a POLL that stops at an event: what a classified frame changes
at all. Registers other than ACC and the event registers stay, and outside the named offsets `B` stays. -/
def Obligations.ClassifyFrame : Prop :=
  ∀ (s : State) (n : Nat),
    s.classify n = { s with
      frame := (s.classify n).frame, history := (s.classify n).history, acc := (s.classify n).acc
      evtKind := (s.classify n).evtKind, evtOff := (s.classify n).evtOff, evtLen := (s.classify n).evtLen } ∧
    (∀ x, 54 ≤ x → x ≠ 14 + (s.rd16 16).toNat →
      x ≠ 34 + ((s.wr8 (14 + (s.rd16 16).toNat) 0).rd16 38).toNat → (s.classify n).byteB x = s.byteB x)

/-- 41_frame_dispatch.md R179, 60_exceptions.md R353, R361: where the listed answers hold a `0`, POLL ends, after at most one turn per listed
answer up to it; so it ends under the premise `MAC_DRAINS`.The list of the MAC's answers
is the model's form of that input, notes/assumptions/4.md (DESIGN CHOICE). -/
def Obligations.PollEndsOnceNothingIsPending : Prop :=
  (∀ (s : State) (fs rest : List (List Byte)), s.stage = .start → s.macIn = fs ++ [] :: rest →
    ∃ t, runCommand .poll (fs.length + 2) s = .next t ∧ t.stage = .idle ∧ t.done = true) ∧
  (∀ s : State, s.stage = .start → s.macDrains →
    ∃ t, runCommand .poll (s.macIn.length + 1) s = .next t ∧ t.stage = .idle ∧ t.done = true)

/-- R179: POLL has no iteration bound: whatever the number of steps, if the MAC keeps answering with frames that give no event, the
engine is still BUSY.The list of the MAC's answers
is the model's form of that input, notes/assumptions/4.md (DESIGN CHOICE). -/
def Obligations.PollMayRunForever : Prop :=
  ∀ (k : Nat) (s : State), s.cfg.wf → s.stage = .start → s.initialised = true → k ≤ s.macIn.length →
    (∀ f ∈ s.macIn, 1 ≤ f.length ∧ f.length ≤ 14) →
    ∃ t, runCommand .poll (k + 1) s = .next t ∧ t.stage ≠ .idle ∧ receiveCount t.history = receiveCount s.history + k

/-- R353, 10_state.md R51: one `MacReceive`: the answer is recorded, has at most BUF_SIZE bytes, overwrites `B[0 .. n−1]` and leaves
the rest.The list of the MAC's answers
is the model's form of that input, notes/assumptions/4.md (DESIGN CHOICE). -/
def Obligations.ReceiveKeepsTheContract : Prop :=
  ∀ s : State,
    s.nextFrame.length ≤ s.cfg.bufSize ∧
    s.macReceive = { s with
      frame := s.macReceive.frame, history := s.history ++ [.received s.cfg.bufSize s.nextFrame]
      macIn := s.macIn.tail, draws := s.draws + 1 } ∧
    s.macReceive.readB 0 s.nextFrame.length = s.nextFrame ∧
    (∀ x, s.nextFrame.length ≤ x → s.macReceive.byteB x = s.byteB x) ∧
    (∀ f fs, s.macIn = f :: fs → f.length ≤ s.cfg.bufSize → s.nextFrame = f)

/-! ### Byte order -/

/-- 20_memory.md R83, R84, 00_scope.md R10: fields are stored most-significant byte first, at any alignment; a read gives back the value stored;
a wide read is its halves; and a store leaves every other byte alone. -/
def Obligations.FieldsAreInNetworkOrder : Prop :=
  (∀ (s : State) (a : Nat) (v : Half), (s.wr16 a v).byteB a = v.extractLsb' 8 8 ∧
    (s.wr16 a v).byteB (a + 1) = v.extractLsb' 0 8 ∧ (s.wr16 a v).rd16 a = v) ∧
  (∀ (s : State) (a : Nat) (v : Word), (s.wr32 a v).rd16 a = v.extractLsb' 16 16 ∧
    (s.wr32 a v).rd16 (a + 2) = v.extractLsb' 0 16 ∧ (s.wr32 a v).rd32 a = v) ∧
  (∀ (s : State) (a : Nat) (v : HwAddr), (s.wr48 a v).rd16 a = v.extractLsb' 32 16 ∧
    (s.wr48 a v).rd32 (a + 2) = v.extractLsb' 0 32 ∧ (s.wr48 a v).rd48 a = v) ∧
  (∀ (s : State) (a : Nat), s.rd16 a = s.byteB a ++ s.byteB (a + 1) ∧ s.rd32 a = s.rd16 a ++ s.rd16 (a + 2)) ∧
  (∀ (s : State) (a x : Nat) (bs : List Byte), x < a ∨ a + bs.length ≤ x → (s.writeB a bs).byteB x = s.byteB x)

/-! ### ARP_RESOLVE -/

/-- 42_arp.md R203, R204, 41_frame_dispatch.md R171: the start of ARP_RESOLVE, and of PING and DNS_RESOLVE, which begin alike (43_ipv4_icmp.md R238,
45_dns.md R315): the event is cleared, the broadcast request is sent, and the wait begins with CNT = t. -/
def Obligations.ArpRequestIsSent : Prop :=
  ∀ (i : Instr) (s : State), i ∈ [Instr.arpResolve, .ping, .dnsResolve] → s.stage = .start → s.initialised = true →
    (i = .dnsResolve → ∃ k, k < s.cfg.nameSize ∧ s.byteN k = 0) →
    ∃ t, exec i s = .next t ∧
      t = { s with
        frame := t.frame, history := s.history ++ [.sent (t.readB 0 42)], evtKind := 0, evtOff := 0, evtLen := 0
        cnt := s.arg1, stage := .arpWait } ∧
      t.rd48 0 = 0xFFFFFFFFFFFF ∧ t.rd48 6 = s.localMac ∧ t.rd16 6 = s.macHi ∧ t.rd32 8 = s.macLo ∧ t.rd16 12 = 0x0806 ∧
      t.rd16 14 = 1 ∧ t.rd16 16 = 0x0800 ∧
      t.rd8 18 = 6 ∧ t.rd8 19 = 4 ∧ t.rd16 20 = 1 ∧ t.rd48 22 = s.localMac ∧ t.rd32 28 = s.localIp ∧ t.rd48 32 = 0 ∧
      t.rd32 38 = s.arg0 ∧ (∀ x, 42 ≤ x → t.byteB x = s.byteB x)

/-- R204, R205, R206, 30_encoding.md R126: each turn of ARP_RESOLVE's wait: the budget is used up, or one frame is received and either
matches, which ends the command with the sender's hardware address, or is discarded. -/
def Obligations.ArpResolveWaitTurn : Prop :=
  ∀ s r : State, s.cfg.wf → s.stage = .arpWait → r = ({ s with cnt := s.cnt - 1 } : State).macReceive →
    (s.cnt = 0 →
      exec .arpResolve s = .next { s with result0 := 0, result1 := 0, stage := .idle, done := true }) ∧
    (s.cnt ≠ 0 → 14 < s.nextFrame.length → r.rd16 12 = 0x0806 → r.rd16 20 = 2 → r.rd32 28 = s.arg0 →
      exec .arpResolve s = .next { r with
        result0 := (1 : BitVec 1) ++ (0 : BitVec 15) ++ r.rd16 22, result1 := r.rd32 24, stage := .idle, done := true }) ∧
    (s.cnt ≠ 0 → ¬ (14 < s.nextFrame.length ∧ r.rd16 12 = 0x0806 ∧ r.rd16 20 = 2 ∧ r.rd32 28 = s.arg0) →
      exec .arpResolve s = .next r)

/-- R204, R205: the steps of ARP_RESOLVE carry out the pseudocode of R204 as one piece, in at most `t + 2` steps. -/
def Obligations.ArpResolveMeetsItsPseudocode : Prop :=
  ∀ (s : State) (k : Nat), s.stage = .start → s.arg1.toNat + 2 ≤ k →
    runCommand .arpResolve k s = .next s.wholeArpResolve

/-- 60_exceptions.md R361, R351: the waiting commands end, with at most `t` receive calls for ARP_RESOLVE and `2t` for PING and DNS_RESOLVE. -/
def Obligations.WaitsAreBounded : Prop :=
  ∀ (i : Instr) (s : State), i ∈ [Instr.arpResolve, .ping, .dnsResolve] → s.stage = .start →
    ∃ t, runCommand i (2 * s.arg1.toNat + 3) s = .next t ∧ t.stage = .idle ∧ t.done = true ∧
      receiveCount t.history ≤
        receiveCount s.history + (if i = .arpResolve then s.arg1.toNat else 2 * s.arg1.toNat)

/-! ### IP_SEND -/

/-- 43_ipv4_icmp.md R232, R233: IP_SEND, all of it. Where its checks pass: the header fields, the exchanged addresses, a valid header
checksum, one frame of `34 + plen` bytes; the identifier and the payload stay. Otherwise the error of the first check that fails. -/
def Obligations.IpSendResult : Prop :=
  (∀ (s : State) (c : BitVec 4),
    (s.initialised = false ∧ c = 2) ∨
    (s.initialised = true ∧ (s.arg0.extractLsb' 16 16 ≠ 0 ∨ s.arg1.extractLsb' 8 24 ≠ 0) ∧ c = 3) ∨
    (s.initialised = true ∧ s.arg0.extractLsb' 16 16 = 0 ∧ s.arg1.extractLsb' 8 24 = 0 ∧
      s.cfg.bufSize < 34 + s.arg0.toNat ∧ c = 4) →
    exec .ipSend s = .next { s with
      result0 := 0, result1 := 0, stage := .idle, done := true, err := true, errcode := c }) ∧
  ∀ (s : State) (plen : Nat), s.cfg.wf → s.initialised = true → s.arg0.extractLsb' 16 16 = 0 → s.arg1.extractLsb' 8 24 = 0 →
    plen = s.arg0.toNat → 34 + plen ≤ s.cfg.bufSize →
    ∃ t, exec .ipSend s = .next t ∧
      t = { s with
        frame := t.frame, acc := t.acc, history := s.history ++ [.sent (t.readB 0 (34 + plen))]
        result0 := BitVec.ofNat 32 (34 + plen), result1 := 0, stage := .idle, done := true } ∧
      t.rd8 14 = 0x45 ∧ t.rd8 15 = 0 ∧ t.rd16 16 = BitVec.ofNat 16 (20 + plen) ∧ t.rd16 18 = s.rd16 18 ∧ t.rd16 20 = 0 ∧
      t.rd8 22 = 128 ∧ t.rd8 23 = s.arg1.extractLsb' 0 8 ∧ t.rd32 26 = s.rd32 30 ∧ t.rd32 30 = s.rd32 26 ∧
      t.foldedSum 14 20 = 0xFFFF ∧ t.rd48 0 = s.rd48 6 ∧ t.rd48 6 = s.localMac ∧ t.rd16 12 = 0x0800 ∧
      (∀ x, 34 ≤ x → t.byteB x = s.byteB x)

/-! ### PING -/

/-- R237, R238: a turn of PING's ARP wait: the budget is used up, or the frame does not match, or it matches, and the echo request is
built and sent and the echo wait begins with a fresh counter. -/
def Obligations.PingSendsItsEchoRequest : Prop :=
  ∀ s r : State, s.cfg.wf → s.stage = .arpWait → r = ({ s with cnt := s.cnt - 1 } : State).macReceive →
    (s.cnt = 0 → exec .ping s = .next { s with result0 := 0, result1 := 0, stage := .idle, done := true }) ∧
    (s.cnt ≠ 0 → ¬ (14 < s.nextFrame.length ∧ r.rd16 12 = 0x0806 ∧ r.rd16 20 = 2 ∧ r.rd32 28 = s.arg0) →
      exec .ping s = .next r) ∧
    (s.cnt ≠ 0 → 14 < s.nextFrame.length → r.rd16 12 = 0x0806 → r.rd16 20 = 2 → r.rd32 28 = s.arg0 →
      ∃ t, exec .ping s = .next t ∧
        t = { r with
          frame := t.frame, acc := t.acc, history := r.history ++ [.sent (t.readB 0 42)]
          pingIdseq := s.pingIdseq.extractLsb' 16 16 ++ (s.pingIdseq.extractLsb' 0 16 + 1)
          cnt := s.arg1, stage := .echoWait } ∧
        t.rd48 0 = r.rd48 22 ∧ t.rd48 6 = s.localMac ∧ t.rd16 12 = 0x0800 ∧ t.rd8 14 = 0x45 ∧ t.rd8 15 = 0 ∧ t.rd16 16 = 28 ∧
        t.rd16 18 = 0 ∧ t.rd16 20 = 0 ∧ t.rd8 22 = 128 ∧ t.rd8 23 = 1 ∧ t.rd32 26 = s.localIp ∧ t.rd32 30 = s.arg0 ∧
        t.rd8 34 = 8 ∧ t.rd8 35 = 0 ∧ t.rd16 38 = s.pingIdseq.extractLsb' 16 16 ∧
        t.rd16 40 = s.pingIdseq.extractLsb' 0 16 + 1 ∧ t.foldedSum 34 8 = 0xFFFF ∧ t.foldedSum 14 20 = 0xFFFF ∧
        (∀ x, 42 ≤ x → t.byteB x = r.byteB x))

/-- R238, R239: a turn of PING's echo wait: a match ends with the elapsed iterations, which are at least 1. -/
def Obligations.PingReturnsElapsedIterations : Prop :=
  ∀ s r : State, s.cfg.wf → s.stage = .echoWait → s.cnt.toNat ≤ s.arg1.toNat →
    r = ({ s with cnt := s.cnt - 1 } : State).macReceive →
    (s.cnt = 0 → exec .ping s = .next { s with result0 := 0, result1 := 0, stage := .idle, done := true }) ∧
    (s.cnt ≠ 0 → 14 < s.nextFrame.length → r.rd16 12 = 0x0800 → r.rd8 14 = 0x45 → r.rd8 23 = 1 → r.rd8 34 = 0 →
      r.rd16 38 = s.pingIdseq.extractLsb' 16 16 → r.rd16 40 = s.pingIdseq.extractLsb' 0 16 →
      ∃ t, exec .ping s = .next t ∧
        t = { r with result0 := t.result0, result1 := 0, stage := .idle, done := true } ∧
        t.result0.toNat = s.arg1.toNat - (s.cnt.toNat - 1) ∧ 1 ≤ t.result0.toNat) ∧
    (s.cnt ≠ 0 →
      ¬ (14 < s.nextFrame.length ∧ r.rd16 12 = 0x0800 ∧ r.rd8 14 = 0x45 ∧ r.rd8 23 = 1 ∧ r.rd8 34 = 0 ∧
         r.rd16 38 = s.pingIdseq.extractLsb' 16 16 ∧ r.rd16 40 = s.pingIdseq.extractLsb' 0 16) →
      exec .ping s = .next r)

/-- R238: the steps of PING carry out the pseudocode of R238 as one piece, in at most `2t + 3` steps. -/
def Obligations.PingMeetsItsPseudocode : Prop :=
  ∀ (s : State) (k : Nat), s.stage = .start → 2 * s.arg1.toNat + 3 ≤ k → runCommand .ping k s = .next s.wholePing

/-! ### UDP_SEND and TCP_SEND -/

/-- 44_udp_tcp.md R272, R273, R274: UDP_SEND, all of it: where its checks pass, and the error of the first check that fails. -/
def Obligations.UdpSendResult : Prop :=
  (∀ (s : State) (c : BitVec 4),
    (s.initialised = false ∧ c = 2) ∨
    (s.initialised = true ∧ s.arg1.extractLsb' 16 16 ≠ 0 ∧ c = 3) ∨
    (s.initialised = true ∧ s.arg1.extractLsb' 16 16 = 0 ∧
      (s.cfg.bufSize < s.arg0.toNat + s.arg1.toNat ∨ s.cfg.bufSize < 42 + (s.arg1.toNat + s.arg1.toNat % 2)) ∧ c = 4) →
    exec .udpSend s = .next { s with
      result0 := 0, result1 := 0, stage := .idle, done := true, err := true, errcode := c }) ∧
  ∀ (s : State) (src len p : Nat), s.cfg.wf → s.initialised = true → s.arg1.extractLsb' 16 16 = 0 →
    src = s.arg0.toNat → len = s.arg1.toNat → p = len + len % 2 → src + len ≤ s.cfg.bufSize → 42 + p ≤ s.cfg.bufSize →
    ∃ t, exec .udpSend s = .next t ∧
      t = { s with
        frame := t.frame, acc := t.acc, history := s.history ++ [.sent (t.readB 0 (42 + p))]
        result0 := BitVec.ofNat 32 (42 + p), result1 := 0, stage := .idle, done := true } ∧
      t.rd16 34 = s.rd16 36 ∧ t.rd16 36 = s.rd16 34 ∧ t.rd16 38 = BitVec.ofNat 16 (8 + p) ∧ t.rd16 40 = 0 ∧
      (∀ j, j < len → t.byteB (42 + j) = s.byteB (src + j)) ∧ (len % 2 = 1 → t.byteB (42 + len) = 0) ∧
      t.rd16 16 = BitVec.ofNat 16 (28 + p) ∧ t.rd16 18 = s.rd16 18 ∧ t.rd8 14 = 0x45 ∧ t.rd8 15 = 0 ∧ t.rd16 20 = 0 ∧
      t.rd8 23 = 17 ∧ t.rd8 22 = 128 ∧
      t.rd32 26 = s.rd32 30 ∧ t.rd32 30 = s.rd32 26 ∧ t.foldedSum 14 20 = 0xFFFF ∧
      t.rd48 0 = s.rd48 6 ∧ t.rd48 6 = s.localMac ∧ t.rd16 12 = 0x0800 ∧
      (∀ x, 42 + p ≤ x → t.byteB x = s.byteB x)

/-- R275, 43_ipv4_icmp.md R233: two UDP_SENDs on one staged frame restore the order of the ports and of the addresses, whatever the
operands of the second. -/
def Obligations.TwoUdpSendsRestoreTheOrder : Prop :=
  ∀ (s t u : State) (a0 a1 : Word), s.err = false → exec .udpSend s = .next t → t.err = false →
    exec .udpSend { t with arg0 := a0, arg1 := a1, stage := .start } = .next u → u.err = false →
    u.rd16 34 = s.rd16 34 ∧ u.rd16 36 = s.rd16 36 ∧ u.rd32 26 = s.rd32 26 ∧ u.rd32 30 = s.rd32 30

/-- R284, R285, R283, R274: TCP_SEND, all of it where its checks pass: the payload, the lengths, the acknowledgment advance with its
line-port exception, the checksum; ports, sequence, flags, window, urgent pointer and options stay. The checksum is that of
the staged protocol byte (40_checksum.md R146), so the segment sent verifies where a TCP packet was staged. -/
def Obligations.TcpSendResult : Prop :=
  ∀ (s : State) (src len p hlen : Nat), s.cfg.wf → s.initialised = true → s.arg1.extractLsb' 16 16 = 0 →
    src = s.arg0.toNat → len = s.arg1.toNat → p = len + len % 2 → hlen = (s.rd8 46 >>> 4).toNat * 4 → 20 ≤ hlen →
    src + len ≤ s.cfg.bufSize → 34 + hlen + p ≤ s.cfg.bufSize →
    ∃ t, exec .tcpSend s = .next t ∧
      t = { s with
        frame := t.frame, acc := t.acc, history := s.history ++ [.sent (t.readB 0 (34 + hlen + p))]
        result0 := BitVec.ofNat 32 (34 + hlen + p), result1 := 0, stage := .idle, done := true } ∧
      (∀ j, j < len → t.byteB (34 + hlen + j) = s.byteB (src + j)) ∧
      (len % 2 = 1 → t.byteB (34 + hlen + len) = 0) ∧
      t.rd32 42 = (if s.linePort ≠ 0 ∧ s.rd16 34 = s.linePort then s.rd32 42 else s.rd32 42 + BitVec.ofNat 32 p) ∧
      t.rd16 34 = s.rd16 34 ∧ t.rd16 36 = s.rd16 36 ∧ t.rd32 38 = s.rd32 38 ∧ t.rd32 46 = s.rd32 46 ∧
      (∀ x, 52 ≤ x ∧ x < 34 + hlen → t.byteB x = s.byteB x) ∧
      ocSum ([t.rd16 26, t.rd16 28, t.rd16 30, t.rd16 32, (s.rd8 23).setWidth 16, BitVec.ofNat 16 (hlen + p)] ++
        wordsOf (t.readB 34 (hlen + p))) = 0xFFFF ∧
      (s.rd8 23 = 6 → t.pseudoSum 14 = 0xFFFF) ∧
      t.rd16 16 = BitVec.ofNat 16 (20 + hlen + p) ∧ t.rd16 18 = s.rd16 18 ∧ t.rd8 14 = 0x45 ∧ t.rd8 15 = 0 ∧ t.rd16 20 = 0 ∧
      t.rd8 22 = 128 ∧ t.rd8 23 = 6 ∧
      t.rd32 26 = s.rd32 30 ∧ t.rd32 30 = s.rd32 26 ∧ t.foldedSum 14 20 = 0xFFFF ∧
      t.rd48 0 = s.rd48 6 ∧ t.rd48 6 = s.localMac ∧ t.rd16 12 = 0x0800 ∧
      (∀ x, 34 + hlen + p ≤ x → t.byteB x = s.byteB x)

/-! ### DNS_RESOLVE -/

/-- 45_dns.md R312, R313: the label encoding reads back as the labels, its length is bounded, no label is empty or holds a dot, and a name
with no empty run is its labels joined by dots. -/
def Obligations.LabelEncodingRoundTrips : Prop :=
  ∀ nm : List Byte, nm.length ≤ 255 →
    (∀ k, (dnsTokens nm).length < k → dnsDecode k (dnsEncode nm) = dnsTokens nm) ∧
    (dnsEncode nm).length ≤ nm.length + 2 ∧
    (∀ t ∈ dnsTokens nm, t ≠ [] ∧ (0x2E : Byte) ∉ t) ∧
    ([] ∉ dotRuns nm → [(0x2E : Byte)].intercalate (dnsTokens nm) = nm)

/-- R311, R312, R314, R315: a turn of DNS_RESOLVE's ARP wait: the budget is used up, or the frame does not match, or it matches, and the
query is built and sent and the reply wait begins with a fresh counter. The first clause says what `dottedName` is: the bytes of
`N` before the first 0x00. Where the turn ends the command, `N` is a fresh free value: R318 allows a model to keep `N` or not,
and that it does not is the model's choice, notes/assumptions/9.md (DESIGN CHOICE). -/
def Obligations.DnsSendsItsQuery : Prop :=
  (∀ (s : State) (nm : List Byte), nm.length < s.cfg.nameSize → s.byteN nm.length = 0 →
    (∀ k, k < nm.length → nm[k]? = some (s.byteN k) ∧ s.byteN k ≠ 0) → s.dottedName = nm) ∧
  ∀ (s r : State) (q : List Byte) (m p : Nat), s.cfg.wf → s.stage = .arpWait →
    r = ({ s with cnt := s.cnt - 1 } : State).macReceive →
    q = dnsEncode s.dottedName → m = 12 + q.length + 4 → p = m + m % 2 →
    (s.cnt = 0 →
      exec .dnsResolve s = .next { s with
        result0 := 0, result1 := 0, stage := .idle, done := true, name := [], nameGen := s.nameGen + 1 }) ∧
    (s.cnt ≠ 0 → ¬ (14 < s.nextFrame.length ∧ r.rd16 12 = 0x0806 ∧ r.rd16 20 = 2 ∧ r.rd32 28 = s.arg0) →
      exec .dnsResolve s = .next r) ∧
    (s.cnt ≠ 0 → 14 < s.nextFrame.length → r.rd16 12 = 0x0806 → r.rd16 20 = 2 → r.rd32 28 = s.arg0 →
      ∃ t, exec .dnsResolve s = .next t ∧
        t = { r with
          frame := t.frame, acc := t.acc, history := r.history ++ [.sent (t.readB 0 (42 + p))]
          dnsId := s.dnsId + 1, cnt := s.arg1, stage := .replyWait } ∧
        t.rd48 0 = r.rd48 22 ∧ t.rd48 6 = s.localMac ∧ t.rd16 12 = 0x0800 ∧ t.rd8 14 = 0x45 ∧ t.rd8 15 = 0 ∧
        t.rd16 16 = BitVec.ofNat 16 (28 + p) ∧ t.rd16 18 = 0 ∧ t.rd16 20 = 0 ∧ t.rd8 22 = 128 ∧
        t.rd8 23 = 17 ∧ t.rd32 26 = s.localIp ∧ t.rd32 30 = s.arg0 ∧ t.foldedSum 14 20 = 0xFFFF ∧
        t.rd16 34 = s.dnsLport ∧ t.rd16 36 = 53 ∧ t.rd16 38 = BitVec.ofNat 16 (8 + p) ∧ t.rd16 40 = 0 ∧
        t.rd16 42 = s.dnsId + 1 ∧ t.rd16 44 = 0x0100 ∧ t.rd16 46 = 1 ∧ t.rd16 48 = 0 ∧ t.rd16 50 = 0 ∧ t.rd16 52 = 0 ∧
        t.readB 54 q.length = q ∧ t.rd16 (54 + q.length) = 1 ∧ t.rd16 (56 + q.length) = 1 ∧
        (m % 2 = 1 → t.byteB (42 + m) = 0) ∧
        (∀ x, 42 + p ≤ x → t.byteB x = r.byteB x))

/-- R315, R316, R317: a turn of DNS_RESOLVE's reply wait: a match ends with the answer offset. Where the turn ends the command, `N` is a
fresh free value: R318 allows a model to keep `N` or not, and that it does not is the model's choice, notes/assumptions/9.md
(DESIGN CHOICE). -/
def Obligations.DnsReturnsTheAnswerOffset : Prop :=
  ∀ s r : State, s.cfg.wf → s.stage = .replyWait → r = ({ s with cnt := s.cnt - 1 } : State).macReceive →
    (s.cnt = 0 →
      exec .dnsResolve s = .next { s with
        result0 := 0, result1 := 0, stage := .idle, done := true, name := [], nameGen := s.nameGen + 1 }) ∧
    (s.cnt ≠ 0 → 14 < s.nextFrame.length → r.rd16 12 = 0x0800 → r.rd8 14 = 0x45 → r.rd8 23 = 17 →
      r.rd16 42 = s.dnsId →
      exec .dnsResolve s = .next { r with
        result0 := BitVec.ofNat 32 r.answerOffset, result1 := 0, stage := .idle, done := true
        name := [], nameGen := s.nameGen + 1 }) ∧
    (s.cnt ≠ 0 →
      ¬ (14 < s.nextFrame.length ∧ r.rd16 12 = 0x0800 ∧ r.rd8 14 = 0x45 ∧ r.rd8 23 = 17 ∧ r.rd16 42 = s.dnsId) →
      exec .dnsResolve s = .next r)

/-- R317: the answer offset: `i + 1 + DNS_ANSWER_SKIP` for the first 0x00 at `i ≥ 54`, if the four address bytes lie in `B`, and
otherwise 0. -/
def Obligations.AnswerOffsetFollowsTheQuestion : Prop :=
  ∀ s : State,
    (∀ i, 54 ≤ i → i < s.cfg.bufSize → s.byteB i = 0 → (∀ j, 54 ≤ j → j < i → s.byteB j ≠ 0) →
      (i + 1 + s.cfg.dnsAnswerSkip + 4 ≤ s.cfg.bufSize → s.answerOffset = i + 1 + s.cfg.dnsAnswerSkip) ∧
      (s.cfg.bufSize < i + 1 + s.cfg.dnsAnswerSkip + 4 → s.answerOffset = 0)) ∧
    ((∀ i, 54 ≤ i → i < s.cfg.bufSize → s.byteB i ≠ 0) → s.answerOffset = 0) ∧
    (s.answerOffset ≠ 0 → 55 + s.cfg.dnsAnswerSkip ≤ s.answerOffset ∧ s.answerOffset + 4 ≤ s.cfg.bufSize)

/-- R315: the steps of DNS_RESOLVE carry out the pseudocode of R315 as one piece, in at most `2t + 3` steps. What the end state holds for
`N` is the model's choice between the two that R318 allows, notes/assumptions/9.md (DESIGN CHOICE). -/
def Obligations.DnsResolveMeetsItsPseudocode : Prop :=
  ∀ (s : State) (k : Nat), s.stage = .start → 2 * s.arg1.toNat + 3 ≤ k →
    runCommand .dnsResolve k s = .next s.wholeDnsResolve

/-- R318, 93 U5 let a model keep `N` after a DNS_RESOLVE or leave it unspecified. The model's choice, notes/assumptions/9.md (DESIGN
CHOICE): once a DNS_RESOLVE that passed the NOINIT check has ended, every byte of `N` is a fresh free value, and until then `N` is
kept. -/
def Obligations.NameIsUnspecifiedAfterDnsResolve : Prop :=
  ∀ s t : State, exec .dnsResolve s = .next t → s.initialised = true →
    (t.stage = .idle → ∀ k, t.byteN k = Config.nameByte (s.nameGen + 1) k) ∧
    (t.stage ≠ .idle → t.name = s.name ∧ t.nameGen = s.nameGen)
end

