-- ==== Sys2Proof/Laws/Checksum.lean ====
section
/-! SUPPORT. The arithmetic of the checksum engine (40_checksum.md R140, R142): what the fold leaves, and what the accumulator holds. -/

namespace Sys2Proof.Machine

/-- The value the fold tends to, as a number: 0 for 0, otherwise the residue in 1 .. 65535 (R142). -/
def foldValue (n : Nat) : Nat := if n = 0 then 0 else (n - 1) % 65535 + 1

theorem foldCarry_zero (a : Word) : foldCarry 0 a = a := rfl

/-- One turn of the fold, as numbers. -/
theorem foldCarry_succ_toNat (k : Nat) (a : Word) :
    foldCarry (k + 1) a =
      if a.toNat < 65536 then a else foldCarry k (BitVec.ofNat 32 (a.toNat % 65536 + a.toNat / 65536)) := by
  have hlt := a.isLt
  have hhi : (a.extractLsb' 16 16).toNat = a.toNat / 65536 := by
    simp only [BitVec.extractLsb'_toNat, Nat.shiftRight_eq_div_pow]
    omega
  have hlo : (a.extractLsb' 0 16).toNat = a.toNat % 65536 := by
    simp only [BitVec.extractLsb'_toNat, Nat.shiftRight_zero]
  simp only [foldCarry]
  by_cases h : a.toNat < 65536
  · rw [if_pos (by apply BitVec.eq_of_toNat_eq; rw [hhi]; simp; omega), if_pos h]
  · rw [if_neg (by intro e; have := congrArg BitVec.toNat e; rw [hhi] at this; simp at this; omega), if_neg h]
    congr 1
    apply BitVec.eq_of_toNat_eq
    simp only [BitVec.toNat_add, BitVec.toNat_setWidth, hhi, hlo, BitVec.toNat_ofNat]
    omega

/-- Adding the upper half to the lower half keeps the residue. -/
theorem foldValue_fold (n : Nat) : foldValue (n % 65536 + n / 65536) = foldValue n := by
  simp only [foldValue]
  by_cases h : n = 0
  · simp [h]
  · rw [if_neg h, if_neg (by omega)]
    have : n - 1 = (n % 65536 + n / 65536 - 1) + n / 65536 * 65535 := by omega
    rw [this, Nat.add_mul_mod_self_right]

theorem foldValue_small {n : Nat} (h : n < 65536) : foldValue n = n := by
  simp only [foldValue]
  split
  · omega
  · rw [Nat.mod_eq_of_lt (by omega)]; omega

/-- Two turns of the fold are enough: the result fits in 16 bits and is the residue of R142. -/
theorem foldCarry_two (a : Word) : (foldCarry 2 a).toNat = foldValue a.toNat := by
  have hlt := a.isLt
  rw [foldCarry_succ_toNat]
  split
  · next h => exact (foldValue_small h).symm
  · have h1 : (BitVec.ofNat 32 (a.toNat % 65536 + a.toNat / 65536)).toNat = a.toNat % 65536 + a.toNat / 65536 := by
      rw [BitVec.toNat_ofNat, Nat.mod_eq_of_lt (by omega)]
    rw [foldCarry_succ_toNat, h1, ← foldValue_fold a.toNat]
    split
    · next h => rw [h1, foldValue_small h]
    · next h =>
      rw [foldCarry_zero, BitVec.toNat_ofNat, Nat.mod_eq_of_lt (by omega), ← foldValue_fold, foldValue_small (by omega)]

theorem foldValue_lt (n : Nat) : foldValue n < 65536 := by
  simp only [foldValue]; split <;> omega

/-- The folded sum is the residue of the accumulator. -/
theorem ocSum_toNat (ws : List Half) : (ocSum ws).toNat = foldValue (accumulate ws).toNat := by
  have h := foldCarry_two (accumulate ws)
  have hl := foldValue_lt (accumulate ws).toNat
  simp only [ocSum, BitVec.extractLsb'_toNat, Nat.shiftRight_zero, h]
  omega

/-- The accumulator holds the sum of the words, mod 2^32. -/
theorem accumulate_toNat (ws : List Half) : (accumulate ws).toNat = (ws.map BitVec.toNat).sum % 2 ^ 32 := by
  have key : ∀ (ws : List Half) (a : Word),
      (ws.foldl (fun acc w => acc + w.setWidth 32) a).toNat = (a.toNat + (ws.map BitVec.toNat).sum) % 2 ^ 32 := by
    intro ws
    induction ws with
    | nil => intro a; have := a.isLt; simp; omega
    | cons w ws ih =>
      intro a
      have hw := w.isLt
      rw [List.foldl_cons, ih, List.map_cons, List.sum_cons, BitVec.toNat_add, BitVec.toNat_setWidth]
      omega
  exact (key ws 0).trans (by simp)

/-- The words of a byte range: one for every two bytes, rounded up (R141). -/
theorem wordsOf_length : ∀ bs : List Byte, (wordsOf bs).length = (bs.length + 1) / 2
  | [] => by simp [wordsOf]
  | [_] => by simp [wordsOf]
  | _ :: _ :: bs => by simp only [wordsOf, List.length_cons, wordsOf_length bs]; omega

/-- The words of a run of even length followed by another. -/
theorem wordsOf_append : ∀ (as bs : List Byte), as.length % 2 = 0 → wordsOf (as ++ bs) = wordsOf as ++ wordsOf bs
  | [], _, _ => by simp [wordsOf]
  | [_], _, h => by simp at h
  | _ :: _ :: as, bs, h => by
    simp only [List.length_cons] at h
    simp only [List.cons_append, wordsOf, wordsOf_append as bs (by omega)]

end Sys2Proof.Machine
end

