-- ==== Sys2Proof/Laws/Host.lean ====
section
/-! SUPPORT. What one access of the host reaches, and what one turn of the host is: proved once, for the statements about the register
map. -/

namespace Sys2Proof.Machine

/-! ### What an access reaches -/

/-- Inside the register space only the offset matters. -/
theorem target_inside (p : Params) (bytes : Nat) {off : Nat} (h : off < 0x20000) :
    target p bytes (p.engineBase + off) = targetAt p.bufSize p.nameSize bytes off := by
  rw [target, if_neg (by rw [Config.windowSize]; omega), Nat.add_sub_cancel_left]

theorem target_outside (p : Params) (bytes : Nat) {addr : Nat}
    (h : addr < p.engineBase ∨ p.engineBase + 0x20000 ≤ addr) : target p bytes addr = .outside := by
  rw [target, if_pos (by rw [Config.windowSize]; exact h)]

theorem targetAt_frame (bufSize nameSize bytes : Nat) {k : Nat} (h : k < bufSize) :
    targetAt bufSize nameSize bytes (0x10000 + k) = if bytes = 1 then .frameByte k else .refused := by
  rw [targetAt, if_pos (by rw [Config.frameWindow]; omega), Config.frameWindow, Nat.add_sub_cancel_left]

theorem targetAt_name (bufSize bytes : Nat) {k : Nat} (h : k < 256) :
    targetAt bufSize 256 bytes (0x100 + k) = if bytes = 1 then .nameByte k else .refused := by
  rw [targetAt, if_neg (by rw [Config.frameWindow]; omega), if_pos (by rw [Config.nameWindow]; omega), Config.nameWindow,
    Nat.add_sub_cancel_left]

theorem targetAt_register (bufSize bytes : Nat) {off : Nat} {r : Reg} (h : off < 0x100)
    (hr : Reg.ofOffset (off - off % 4) = some r) :
    targetAt bufSize 256 bytes off = if bytes = 4 ∧ off % 4 = 0 then .reg r else .refused := by
  rw [targetAt, if_neg (by rw [Config.frameWindow]; omega), if_neg (by rw [Config.nameWindow]; omega), hr]

/-- No register stands at a reserved offset, nor in the word around it. -/
theorem ofOffset_reserved {bufSize off : Nat} (h : reservedOffset bufSize off) : Reg.ofOffset (off - off % 4) = none := by
  simp only [reservedOffset] at h
  rw [Reg.ofOffset.eq_def]; split <;> first | omega | rfl

theorem targetAt_reserved {bufSize off : Nat} (bytes : Nat) (h : reservedOffset bufSize off) :
    targetAt bufSize 256 bytes off = if bytes = 1 ∨ (bytes = 4 ∧ off % 4 = 0) then .reserved else .refused := by
  have hr := ofOffset_reserved h
  simp only [reservedOffset] at h
  rw [targetAt, if_neg (by rw [Config.frameWindow]; omega), if_neg (by rw [Config.nameWindow]; omega), hr]

/-- The aligned 32-bit access of a register (R31). -/
theorem target_reg (p : Params) (h : p.nameSize = 256) (r : Reg) : target p 4 (p.engineBase + r.offset) = .reg r := by
  cases r <;> (rw [target_inside p 4 (by decide), h]; exact targetAt_register p.bufSize 4 (by decide) (by decide))

/-- The 8-bit access of the FRAME window (R31). -/
theorem target_frameByte (p : Params) (hb : p.bufSize ≤ 65536) {k : Nat} (h : k < p.bufSize) :
    target p 1 (p.engineBase + 0x10000 + k) = .frameByte k := by
  rw [Nat.add_assoc, target_inside p 1 (by omega), targetAt_frame _ _ _ h, if_pos rfl]

/-- The 8-bit access of the NAME window (R31). -/
theorem target_nameByte (p : Params) (hn : p.nameSize = 256) {k : Nat} (h : k < 256) :
    target p 1 (p.engineBase + 0x100 + k) = .nameByte k := by
  rw [Nat.add_assoc, target_inside p 1 (by omega), hn, targetAt_name _ _ h, if_pos rfl]

/-! ### A turn of the host -/

theorem State.passTurn_eq (s : State) : s.passTurn = { s with sched := s.passTurn.sched, draws := s.passTurn.draws } := by
  simp only [State.passTurn]; split <;> rfl

theorem State.hostNext_eq (s : State) (ops : List HostOp) :
    s.hostNext ops = { s with sched := s.passTurn.sched, draws := s.passTurn.draws, script := ops } := by
  rw [State.hostNext, State.passTurn_eq]

/-- While IDLE it is the host's turn, and no choice is used up. -/
theorem State.turn_idle {s : State} (h : s.stage = .idle) : s.turn = .host ∧ s.passTurn = s := by
  simp [State.turn, State.passTurn, State.contended, State.busy, h]

theorem State.hostNext_idle {s : State} (h : s.stage = .idle) (ops : List HostOp) :
    s.hostNext ops = { s with script := ops } := by
  rw [State.hostNext, (State.turn_idle h).2]

/-- A step of the host is the next operation of its script. -/
theorem step_host {s : State} {op : HostOp} {ops : List HostOp} (h : s.turn = .host) (hs : s.script = op :: ops) :
    step s = (s.hostNext ops).hostOp op := by
  have : s.passTurn.script = op :: ops := by rw [State.passTurn_eq]; exact hs
  simp only [step, h, State.hostTurn, this]; rfl

/-- The bits of STATUS (R36). -/
theorem State.statusWord_bits (s : State) :
    s.statusWord.getLsbD 0 = s.busy ∧ s.statusWord.getLsbD 1 = s.done ∧ s.statusWord.getLsbD 2 = s.err ∧
    s.statusWord.getLsbD 3 = s.ovr ∧ s.statusWord.getLsbD 4 = s.evt ∧ s.statusWord.extractLsb' 5 3 = 0 ∧
    s.statusWord.extractLsb' 8 4 = s.errcode ∧ s.statusWord.extractLsb' 12 20 = 0 := by
  simp only [State.statusWord]
  generalize s.busy = b; generalize s.evt = v; generalize s.errcode = c
  generalize s.done = d; generalize s.err = x; generalize s.ovr = o
  revert c
  cases b <;> cases v <;> cases d <;> cases x <;> cases o <;> decide

end Sys2Proof.Machine
end

