-- ==== Sys2Proof/Laws/State.lean ====
section
/-! SUPPORT. One lemma per field and update of State: what each primitive update writes, and that it leaves the rest alone. -/

namespace Sys2Proof.Machine

/-! ### `writeB` -/

@[simp] theorem State.writeB_cfg (s : State) (a : Nat) (bs : List Byte) : (s.writeB a bs).cfg = s.cfg := rfl
@[simp] theorem State.writeB_stage (s : State) (a : Nat) (bs : List Byte) : (s.writeB a bs).stage = s.stage := rfl
@[simp] theorem State.writeB_cmd (s : State) (a : Nat) (bs : List Byte) : (s.writeB a bs).cmd = s.cmd := rfl
@[simp] theorem State.writeB_arg0 (s : State) (a : Nat) (bs : List Byte) : (s.writeB a bs).arg0 = s.arg0 := rfl
@[simp] theorem State.writeB_arg1 (s : State) (a : Nat) (bs : List Byte) : (s.writeB a bs).arg1 = s.arg1 := rfl
@[simp] theorem State.writeB_result0 (s : State) (a : Nat) (bs : List Byte) : (s.writeB a bs).result0 = s.result0 := rfl
@[simp] theorem State.writeB_result1 (s : State) (a : Nat) (bs : List Byte) : (s.writeB a bs).result1 = s.result1 := rfl
@[simp] theorem State.writeB_done (s : State) (a : Nat) (bs : List Byte) : (s.writeB a bs).done = s.done := rfl
@[simp] theorem State.writeB_err (s : State) (a : Nat) (bs : List Byte) : (s.writeB a bs).err = s.err := rfl
@[simp] theorem State.writeB_ovr (s : State) (a : Nat) (bs : List Byte) : (s.writeB a bs).ovr = s.ovr := rfl
@[simp] theorem State.writeB_errcode (s : State) (a : Nat) (bs : List Byte) : (s.writeB a bs).errcode = s.errcode := rfl
@[simp] theorem State.writeB_macHi (s : State) (a : Nat) (bs : List Byte) : (s.writeB a bs).macHi = s.macHi := rfl
@[simp] theorem State.writeB_macLo (s : State) (a : Nat) (bs : List Byte) : (s.writeB a bs).macLo = s.macLo := rfl
@[simp] theorem State.writeB_localIp (s : State) (a : Nat) (bs : List Byte) : (s.writeB a bs).localIp = s.localIp := rfl
@[simp] theorem State.writeB_initMacHi (s : State) (a : Nat) (bs : List Byte) : (s.writeB a bs).initMacHi = s.initMacHi := rfl
@[simp] theorem State.writeB_initMacLo (s : State) (a : Nat) (bs : List Byte) : (s.writeB a bs).initMacLo = s.initMacLo := rfl
@[simp] theorem State.writeB_initIp (s : State) (a : Nat) (bs : List Byte) : (s.writeB a bs).initIp = s.initIp := rfl
@[simp] theorem State.writeB_linePort (s : State) (a : Nat) (bs : List Byte) : (s.writeB a bs).linePort = s.linePort := rfl
@[simp] theorem State.writeB_httpPort (s : State) (a : Nat) (bs : List Byte) : (s.writeB a bs).httpPort = s.httpPort := rfl
@[simp] theorem State.writeB_dnsId (s : State) (a : Nat) (bs : List Byte) : (s.writeB a bs).dnsId = s.dnsId := rfl
@[simp] theorem State.writeB_dnsLport (s : State) (a : Nat) (bs : List Byte) : (s.writeB a bs).dnsLport = s.dnsLport := rfl
@[simp] theorem State.writeB_pingIdseq (s : State) (a : Nat) (bs : List Byte) : (s.writeB a bs).pingIdseq = s.pingIdseq := rfl
@[simp] theorem State.writeB_evtKind (s : State) (a : Nat) (bs : List Byte) : (s.writeB a bs).evtKind = s.evtKind := rfl
@[simp] theorem State.writeB_evtOff (s : State) (a : Nat) (bs : List Byte) : (s.writeB a bs).evtOff = s.evtOff := rfl
@[simp] theorem State.writeB_evtLen (s : State) (a : Nat) (bs : List Byte) : (s.writeB a bs).evtLen = s.evtLen := rfl
@[simp] theorem State.writeB_acc (s : State) (a : Nat) (bs : List Byte) : (s.writeB a bs).acc = s.acc := rfl
@[simp] theorem State.writeB_cnt (s : State) (a : Nat) (bs : List Byte) : (s.writeB a bs).cnt = s.cnt := rfl
@[simp] theorem State.writeB_frame (s : State) (a : Nat) (bs : List Byte) : (s.writeB a bs).frame = s.frame.write a bs := rfl
@[simp] theorem State.writeB_frameGen (s : State) (a : Nat) (bs : List Byte) : (s.writeB a bs).frameGen = s.frameGen := rfl
@[simp] theorem State.writeB_name (s : State) (a : Nat) (bs : List Byte) : (s.writeB a bs).name = s.name := rfl
@[simp] theorem State.writeB_nameGen (s : State) (a : Nat) (bs : List Byte) : (s.writeB a bs).nameGen = s.nameGen := rfl
@[simp] theorem State.writeB_history (s : State) (a : Nat) (bs : List Byte) : (s.writeB a bs).history = s.history := rfl
@[simp] theorem State.writeB_priorHistory (s : State) (a : Nat) (bs : List Byte) : (s.writeB a bs).priorHistory = s.priorHistory := rfl
@[simp] theorem State.writeB_macIn (s : State) (a : Nat) (bs : List Byte) : (s.writeB a bs).macIn = s.macIn := rfl
@[simp] theorem State.writeB_script (s : State) (a : Nat) (bs : List Byte) : (s.writeB a bs).script = s.script := rfl
@[simp] theorem State.writeB_reads (s : State) (a : Nat) (bs : List Byte) : (s.writeB a bs).reads = s.reads := rfl
@[simp] theorem State.writeB_checks (s : State) (a : Nat) (bs : List Byte) : (s.writeB a bs).checks = s.checks := rfl
@[simp] theorem State.writeB_sched (s : State) (a : Nat) (bs : List Byte) : (s.writeB a bs).sched = s.sched := rfl
@[simp] theorem State.writeB_draws (s : State) (a : Nat) (bs : List Byte) : (s.writeB a bs).draws = s.draws := rfl

/-! ### `writeN` -/

@[simp] theorem State.writeN_cfg (s : State) (k : Nat) (b : Byte) : (s.writeN k b).cfg = s.cfg := rfl
@[simp] theorem State.writeN_stage (s : State) (k : Nat) (b : Byte) : (s.writeN k b).stage = s.stage := rfl
@[simp] theorem State.writeN_cmd (s : State) (k : Nat) (b : Byte) : (s.writeN k b).cmd = s.cmd := rfl
@[simp] theorem State.writeN_arg0 (s : State) (k : Nat) (b : Byte) : (s.writeN k b).arg0 = s.arg0 := rfl
@[simp] theorem State.writeN_arg1 (s : State) (k : Nat) (b : Byte) : (s.writeN k b).arg1 = s.arg1 := rfl
@[simp] theorem State.writeN_result0 (s : State) (k : Nat) (b : Byte) : (s.writeN k b).result0 = s.result0 := rfl
@[simp] theorem State.writeN_result1 (s : State) (k : Nat) (b : Byte) : (s.writeN k b).result1 = s.result1 := rfl
@[simp] theorem State.writeN_done (s : State) (k : Nat) (b : Byte) : (s.writeN k b).done = s.done := rfl
@[simp] theorem State.writeN_err (s : State) (k : Nat) (b : Byte) : (s.writeN k b).err = s.err := rfl
@[simp] theorem State.writeN_ovr (s : State) (k : Nat) (b : Byte) : (s.writeN k b).ovr = s.ovr := rfl
@[simp] theorem State.writeN_errcode (s : State) (k : Nat) (b : Byte) : (s.writeN k b).errcode = s.errcode := rfl
@[simp] theorem State.writeN_macHi (s : State) (k : Nat) (b : Byte) : (s.writeN k b).macHi = s.macHi := rfl
@[simp] theorem State.writeN_macLo (s : State) (k : Nat) (b : Byte) : (s.writeN k b).macLo = s.macLo := rfl
@[simp] theorem State.writeN_localIp (s : State) (k : Nat) (b : Byte) : (s.writeN k b).localIp = s.localIp := rfl
@[simp] theorem State.writeN_initMacHi (s : State) (k : Nat) (b : Byte) : (s.writeN k b).initMacHi = s.initMacHi := rfl
@[simp] theorem State.writeN_initMacLo (s : State) (k : Nat) (b : Byte) : (s.writeN k b).initMacLo = s.initMacLo := rfl
@[simp] theorem State.writeN_initIp (s : State) (k : Nat) (b : Byte) : (s.writeN k b).initIp = s.initIp := rfl
@[simp] theorem State.writeN_linePort (s : State) (k : Nat) (b : Byte) : (s.writeN k b).linePort = s.linePort := rfl
@[simp] theorem State.writeN_httpPort (s : State) (k : Nat) (b : Byte) : (s.writeN k b).httpPort = s.httpPort := rfl
@[simp] theorem State.writeN_dnsId (s : State) (k : Nat) (b : Byte) : (s.writeN k b).dnsId = s.dnsId := rfl
@[simp] theorem State.writeN_dnsLport (s : State) (k : Nat) (b : Byte) : (s.writeN k b).dnsLport = s.dnsLport := rfl
@[simp] theorem State.writeN_pingIdseq (s : State) (k : Nat) (b : Byte) : (s.writeN k b).pingIdseq = s.pingIdseq := rfl
@[simp] theorem State.writeN_evtKind (s : State) (k : Nat) (b : Byte) : (s.writeN k b).evtKind = s.evtKind := rfl
@[simp] theorem State.writeN_evtOff (s : State) (k : Nat) (b : Byte) : (s.writeN k b).evtOff = s.evtOff := rfl
@[simp] theorem State.writeN_evtLen (s : State) (k : Nat) (b : Byte) : (s.writeN k b).evtLen = s.evtLen := rfl
@[simp] theorem State.writeN_acc (s : State) (k : Nat) (b : Byte) : (s.writeN k b).acc = s.acc := rfl
@[simp] theorem State.writeN_cnt (s : State) (k : Nat) (b : Byte) : (s.writeN k b).cnt = s.cnt := rfl
@[simp] theorem State.writeN_frame (s : State) (k : Nat) (b : Byte) : (s.writeN k b).frame = s.frame := rfl
@[simp] theorem State.writeN_frameGen (s : State) (k : Nat) (b : Byte) : (s.writeN k b).frameGen = s.frameGen := rfl
@[simp] theorem State.writeN_name (s : State) (k : Nat) (b : Byte) : (s.writeN k b).name = s.name.write k [b] := rfl
@[simp] theorem State.writeN_nameGen (s : State) (k : Nat) (b : Byte) : (s.writeN k b).nameGen = s.nameGen := rfl
@[simp] theorem State.writeN_history (s : State) (k : Nat) (b : Byte) : (s.writeN k b).history = s.history := rfl
@[simp] theorem State.writeN_priorHistory (s : State) (k : Nat) (b : Byte) : (s.writeN k b).priorHistory = s.priorHistory := rfl
@[simp] theorem State.writeN_macIn (s : State) (k : Nat) (b : Byte) : (s.writeN k b).macIn = s.macIn := rfl
@[simp] theorem State.writeN_script (s : State) (k : Nat) (b : Byte) : (s.writeN k b).script = s.script := rfl
@[simp] theorem State.writeN_reads (s : State) (k : Nat) (b : Byte) : (s.writeN k b).reads = s.reads := rfl
@[simp] theorem State.writeN_checks (s : State) (k : Nat) (b : Byte) : (s.writeN k b).checks = s.checks := rfl
@[simp] theorem State.writeN_sched (s : State) (k : Nat) (b : Byte) : (s.writeN k b).sched = s.sched := rfl
@[simp] theorem State.writeN_draws (s : State) (k : Nat) (b : Byte) : (s.writeN k b).draws = s.draws := rfl

/-! ### `scrambleN` -/

@[simp] theorem State.scrambleN_cfg (s : State) : s.scrambleN.cfg = s.cfg := rfl
@[simp] theorem State.scrambleN_stage (s : State) : s.scrambleN.stage = s.stage := rfl
@[simp] theorem State.scrambleN_cmd (s : State) : s.scrambleN.cmd = s.cmd := rfl
@[simp] theorem State.scrambleN_arg0 (s : State) : s.scrambleN.arg0 = s.arg0 := rfl
@[simp] theorem State.scrambleN_arg1 (s : State) : s.scrambleN.arg1 = s.arg1 := rfl
@[simp] theorem State.scrambleN_result0 (s : State) : s.scrambleN.result0 = s.result0 := rfl
@[simp] theorem State.scrambleN_result1 (s : State) : s.scrambleN.result1 = s.result1 := rfl
@[simp] theorem State.scrambleN_done (s : State) : s.scrambleN.done = s.done := rfl
@[simp] theorem State.scrambleN_err (s : State) : s.scrambleN.err = s.err := rfl
@[simp] theorem State.scrambleN_ovr (s : State) : s.scrambleN.ovr = s.ovr := rfl
@[simp] theorem State.scrambleN_errcode (s : State) : s.scrambleN.errcode = s.errcode := rfl
@[simp] theorem State.scrambleN_macHi (s : State) : s.scrambleN.macHi = s.macHi := rfl
@[simp] theorem State.scrambleN_macLo (s : State) : s.scrambleN.macLo = s.macLo := rfl
@[simp] theorem State.scrambleN_localIp (s : State) : s.scrambleN.localIp = s.localIp := rfl
@[simp] theorem State.scrambleN_initMacHi (s : State) : s.scrambleN.initMacHi = s.initMacHi := rfl
@[simp] theorem State.scrambleN_initMacLo (s : State) : s.scrambleN.initMacLo = s.initMacLo := rfl
@[simp] theorem State.scrambleN_initIp (s : State) : s.scrambleN.initIp = s.initIp := rfl
@[simp] theorem State.scrambleN_linePort (s : State) : s.scrambleN.linePort = s.linePort := rfl
@[simp] theorem State.scrambleN_httpPort (s : State) : s.scrambleN.httpPort = s.httpPort := rfl
@[simp] theorem State.scrambleN_dnsId (s : State) : s.scrambleN.dnsId = s.dnsId := rfl
@[simp] theorem State.scrambleN_dnsLport (s : State) : s.scrambleN.dnsLport = s.dnsLport := rfl
@[simp] theorem State.scrambleN_pingIdseq (s : State) : s.scrambleN.pingIdseq = s.pingIdseq := rfl
@[simp] theorem State.scrambleN_evtKind (s : State) : s.scrambleN.evtKind = s.evtKind := rfl
@[simp] theorem State.scrambleN_evtOff (s : State) : s.scrambleN.evtOff = s.evtOff := rfl
@[simp] theorem State.scrambleN_evtLen (s : State) : s.scrambleN.evtLen = s.evtLen := rfl
@[simp] theorem State.scrambleN_acc (s : State) : s.scrambleN.acc = s.acc := rfl
@[simp] theorem State.scrambleN_cnt (s : State) : s.scrambleN.cnt = s.cnt := rfl
@[simp] theorem State.scrambleN_frame (s : State) : s.scrambleN.frame = s.frame := rfl
@[simp] theorem State.scrambleN_frameGen (s : State) : s.scrambleN.frameGen = s.frameGen := rfl
@[simp] theorem State.scrambleN_name (s : State) : s.scrambleN.name = [] := rfl
@[simp] theorem State.scrambleN_nameGen (s : State) : s.scrambleN.nameGen = s.nameGen + 1 := rfl
@[simp] theorem State.scrambleN_history (s : State) : s.scrambleN.history = s.history := rfl
@[simp] theorem State.scrambleN_priorHistory (s : State) : s.scrambleN.priorHistory = s.priorHistory := rfl
@[simp] theorem State.scrambleN_macIn (s : State) : s.scrambleN.macIn = s.macIn := rfl
@[simp] theorem State.scrambleN_script (s : State) : s.scrambleN.script = s.script := rfl
@[simp] theorem State.scrambleN_reads (s : State) : s.scrambleN.reads = s.reads := rfl
@[simp] theorem State.scrambleN_checks (s : State) : s.scrambleN.checks = s.checks := rfl
@[simp] theorem State.scrambleN_sched (s : State) : s.scrambleN.sched = s.sched := rfl
@[simp] theorem State.scrambleN_draws (s : State) : s.scrambleN.draws = s.draws := rfl

/-! ### `setEvent` -/

@[simp] theorem State.setEvent_cfg (s : State) (e : BitVec 3) (off len : Half) : (s.setEvent e off len).cfg = s.cfg := rfl
@[simp] theorem State.setEvent_stage (s : State) (e : BitVec 3) (off len : Half) : (s.setEvent e off len).stage = s.stage := rfl
@[simp] theorem State.setEvent_cmd (s : State) (e : BitVec 3) (off len : Half) : (s.setEvent e off len).cmd = s.cmd := rfl
@[simp] theorem State.setEvent_arg0 (s : State) (e : BitVec 3) (off len : Half) : (s.setEvent e off len).arg0 = s.arg0 := rfl
@[simp] theorem State.setEvent_arg1 (s : State) (e : BitVec 3) (off len : Half) : (s.setEvent e off len).arg1 = s.arg1 := rfl
@[simp] theorem State.setEvent_result0 (s : State) (e : BitVec 3) (off len : Half) : (s.setEvent e off len).result0 = s.result0 := rfl
@[simp] theorem State.setEvent_result1 (s : State) (e : BitVec 3) (off len : Half) : (s.setEvent e off len).result1 = s.result1 := rfl
@[simp] theorem State.setEvent_done (s : State) (e : BitVec 3) (off len : Half) : (s.setEvent e off len).done = s.done := rfl
@[simp] theorem State.setEvent_err (s : State) (e : BitVec 3) (off len : Half) : (s.setEvent e off len).err = s.err := rfl
@[simp] theorem State.setEvent_ovr (s : State) (e : BitVec 3) (off len : Half) : (s.setEvent e off len).ovr = s.ovr := rfl
@[simp] theorem State.setEvent_errcode (s : State) (e : BitVec 3) (off len : Half) : (s.setEvent e off len).errcode = s.errcode := rfl
@[simp] theorem State.setEvent_macHi (s : State) (e : BitVec 3) (off len : Half) : (s.setEvent e off len).macHi = s.macHi := rfl
@[simp] theorem State.setEvent_macLo (s : State) (e : BitVec 3) (off len : Half) : (s.setEvent e off len).macLo = s.macLo := rfl
@[simp] theorem State.setEvent_localIp (s : State) (e : BitVec 3) (off len : Half) : (s.setEvent e off len).localIp = s.localIp := rfl
@[simp] theorem State.setEvent_initMacHi (s : State) (e : BitVec 3) (off len : Half) : (s.setEvent e off len).initMacHi = s.initMacHi := rfl
@[simp] theorem State.setEvent_initMacLo (s : State) (e : BitVec 3) (off len : Half) : (s.setEvent e off len).initMacLo = s.initMacLo := rfl
@[simp] theorem State.setEvent_initIp (s : State) (e : BitVec 3) (off len : Half) : (s.setEvent e off len).initIp = s.initIp := rfl
@[simp] theorem State.setEvent_linePort (s : State) (e : BitVec 3) (off len : Half) : (s.setEvent e off len).linePort = s.linePort := rfl
@[simp] theorem State.setEvent_httpPort (s : State) (e : BitVec 3) (off len : Half) : (s.setEvent e off len).httpPort = s.httpPort := rfl
@[simp] theorem State.setEvent_dnsId (s : State) (e : BitVec 3) (off len : Half) : (s.setEvent e off len).dnsId = s.dnsId := rfl
@[simp] theorem State.setEvent_dnsLport (s : State) (e : BitVec 3) (off len : Half) : (s.setEvent e off len).dnsLport = s.dnsLport := rfl
@[simp] theorem State.setEvent_pingIdseq (s : State) (e : BitVec 3) (off len : Half) : (s.setEvent e off len).pingIdseq = s.pingIdseq := rfl
@[simp] theorem State.setEvent_evtKind (s : State) (e : BitVec 3) (off len : Half) : (s.setEvent e off len).evtKind = e := rfl
@[simp] theorem State.setEvent_evtOff (s : State) (e : BitVec 3) (off len : Half) : (s.setEvent e off len).evtOff = off := rfl
@[simp] theorem State.setEvent_evtLen (s : State) (e : BitVec 3) (off len : Half) : (s.setEvent e off len).evtLen = len := rfl
@[simp] theorem State.setEvent_acc (s : State) (e : BitVec 3) (off len : Half) : (s.setEvent e off len).acc = s.acc := rfl
@[simp] theorem State.setEvent_cnt (s : State) (e : BitVec 3) (off len : Half) : (s.setEvent e off len).cnt = s.cnt := rfl
@[simp] theorem State.setEvent_frame (s : State) (e : BitVec 3) (off len : Half) : (s.setEvent e off len).frame = s.frame := rfl
@[simp] theorem State.setEvent_frameGen (s : State) (e : BitVec 3) (off len : Half) : (s.setEvent e off len).frameGen = s.frameGen := rfl
@[simp] theorem State.setEvent_name (s : State) (e : BitVec 3) (off len : Half) : (s.setEvent e off len).name = s.name := rfl
@[simp] theorem State.setEvent_nameGen (s : State) (e : BitVec 3) (off len : Half) : (s.setEvent e off len).nameGen = s.nameGen := rfl
@[simp] theorem State.setEvent_history (s : State) (e : BitVec 3) (off len : Half) : (s.setEvent e off len).history = s.history := rfl
@[simp] theorem State.setEvent_priorHistory (s : State) (e : BitVec 3) (off len : Half) : (s.setEvent e off len).priorHistory = s.priorHistory := rfl
@[simp] theorem State.setEvent_macIn (s : State) (e : BitVec 3) (off len : Half) : (s.setEvent e off len).macIn = s.macIn := rfl
@[simp] theorem State.setEvent_script (s : State) (e : BitVec 3) (off len : Half) : (s.setEvent e off len).script = s.script := rfl
@[simp] theorem State.setEvent_reads (s : State) (e : BitVec 3) (off len : Half) : (s.setEvent e off len).reads = s.reads := rfl
@[simp] theorem State.setEvent_checks (s : State) (e : BitVec 3) (off len : Half) : (s.setEvent e off len).checks = s.checks := rfl
@[simp] theorem State.setEvent_sched (s : State) (e : BitVec 3) (off len : Half) : (s.setEvent e off len).sched = s.sched := rfl
@[simp] theorem State.setEvent_draws (s : State) (e : BitVec 3) (off len : Half) : (s.setEvent e off len).draws = s.draws := rfl

/-! ### `clearEvent` -/

@[simp] theorem State.clearEvent_cfg (s : State) : s.clearEvent.cfg = s.cfg := rfl
@[simp] theorem State.clearEvent_stage (s : State) : s.clearEvent.stage = s.stage := rfl
@[simp] theorem State.clearEvent_cmd (s : State) : s.clearEvent.cmd = s.cmd := rfl
@[simp] theorem State.clearEvent_arg0 (s : State) : s.clearEvent.arg0 = s.arg0 := rfl
@[simp] theorem State.clearEvent_arg1 (s : State) : s.clearEvent.arg1 = s.arg1 := rfl
@[simp] theorem State.clearEvent_result0 (s : State) : s.clearEvent.result0 = s.result0 := rfl
@[simp] theorem State.clearEvent_result1 (s : State) : s.clearEvent.result1 = s.result1 := rfl
@[simp] theorem State.clearEvent_done (s : State) : s.clearEvent.done = s.done := rfl
@[simp] theorem State.clearEvent_err (s : State) : s.clearEvent.err = s.err := rfl
@[simp] theorem State.clearEvent_ovr (s : State) : s.clearEvent.ovr = s.ovr := rfl
@[simp] theorem State.clearEvent_errcode (s : State) : s.clearEvent.errcode = s.errcode := rfl
@[simp] theorem State.clearEvent_macHi (s : State) : s.clearEvent.macHi = s.macHi := rfl
@[simp] theorem State.clearEvent_macLo (s : State) : s.clearEvent.macLo = s.macLo := rfl
@[simp] theorem State.clearEvent_localIp (s : State) : s.clearEvent.localIp = s.localIp := rfl
@[simp] theorem State.clearEvent_initMacHi (s : State) : s.clearEvent.initMacHi = s.initMacHi := rfl
@[simp] theorem State.clearEvent_initMacLo (s : State) : s.clearEvent.initMacLo = s.initMacLo := rfl
@[simp] theorem State.clearEvent_initIp (s : State) : s.clearEvent.initIp = s.initIp := rfl
@[simp] theorem State.clearEvent_linePort (s : State) : s.clearEvent.linePort = s.linePort := rfl
@[simp] theorem State.clearEvent_httpPort (s : State) : s.clearEvent.httpPort = s.httpPort := rfl
@[simp] theorem State.clearEvent_dnsId (s : State) : s.clearEvent.dnsId = s.dnsId := rfl
@[simp] theorem State.clearEvent_dnsLport (s : State) : s.clearEvent.dnsLport = s.dnsLport := rfl
@[simp] theorem State.clearEvent_pingIdseq (s : State) : s.clearEvent.pingIdseq = s.pingIdseq := rfl
@[simp] theorem State.clearEvent_evtKind (s : State) : s.clearEvent.evtKind = 0 := rfl
@[simp] theorem State.clearEvent_evtOff (s : State) : s.clearEvent.evtOff = 0 := rfl
@[simp] theorem State.clearEvent_evtLen (s : State) : s.clearEvent.evtLen = 0 := rfl
@[simp] theorem State.clearEvent_acc (s : State) : s.clearEvent.acc = s.acc := rfl
@[simp] theorem State.clearEvent_cnt (s : State) : s.clearEvent.cnt = s.cnt := rfl
@[simp] theorem State.clearEvent_frame (s : State) : s.clearEvent.frame = s.frame := rfl
@[simp] theorem State.clearEvent_frameGen (s : State) : s.clearEvent.frameGen = s.frameGen := rfl
@[simp] theorem State.clearEvent_name (s : State) : s.clearEvent.name = s.name := rfl
@[simp] theorem State.clearEvent_nameGen (s : State) : s.clearEvent.nameGen = s.nameGen := rfl
@[simp] theorem State.clearEvent_history (s : State) : s.clearEvent.history = s.history := rfl
@[simp] theorem State.clearEvent_priorHistory (s : State) : s.clearEvent.priorHistory = s.priorHistory := rfl
@[simp] theorem State.clearEvent_macIn (s : State) : s.clearEvent.macIn = s.macIn := rfl
@[simp] theorem State.clearEvent_script (s : State) : s.clearEvent.script = s.script := rfl
@[simp] theorem State.clearEvent_reads (s : State) : s.clearEvent.reads = s.reads := rfl
@[simp] theorem State.clearEvent_checks (s : State) : s.clearEvent.checks = s.checks := rfl
@[simp] theorem State.clearEvent_sched (s : State) : s.clearEvent.sched = s.sched := rfl
@[simp] theorem State.clearEvent_draws (s : State) : s.clearEvent.draws = s.draws := rfl

/-! ### `setAcc` -/

@[simp] theorem State.setAcc_cfg (s : State) (v : Word) : (s.setAcc v).cfg = s.cfg := rfl
@[simp] theorem State.setAcc_stage (s : State) (v : Word) : (s.setAcc v).stage = s.stage := rfl
@[simp] theorem State.setAcc_cmd (s : State) (v : Word) : (s.setAcc v).cmd = s.cmd := rfl
@[simp] theorem State.setAcc_arg0 (s : State) (v : Word) : (s.setAcc v).arg0 = s.arg0 := rfl
@[simp] theorem State.setAcc_arg1 (s : State) (v : Word) : (s.setAcc v).arg1 = s.arg1 := rfl
@[simp] theorem State.setAcc_result0 (s : State) (v : Word) : (s.setAcc v).result0 = s.result0 := rfl
@[simp] theorem State.setAcc_result1 (s : State) (v : Word) : (s.setAcc v).result1 = s.result1 := rfl
@[simp] theorem State.setAcc_done (s : State) (v : Word) : (s.setAcc v).done = s.done := rfl
@[simp] theorem State.setAcc_err (s : State) (v : Word) : (s.setAcc v).err = s.err := rfl
@[simp] theorem State.setAcc_ovr (s : State) (v : Word) : (s.setAcc v).ovr = s.ovr := rfl
@[simp] theorem State.setAcc_errcode (s : State) (v : Word) : (s.setAcc v).errcode = s.errcode := rfl
@[simp] theorem State.setAcc_macHi (s : State) (v : Word) : (s.setAcc v).macHi = s.macHi := rfl
@[simp] theorem State.setAcc_macLo (s : State) (v : Word) : (s.setAcc v).macLo = s.macLo := rfl
@[simp] theorem State.setAcc_localIp (s : State) (v : Word) : (s.setAcc v).localIp = s.localIp := rfl
@[simp] theorem State.setAcc_initMacHi (s : State) (v : Word) : (s.setAcc v).initMacHi = s.initMacHi := rfl
@[simp] theorem State.setAcc_initMacLo (s : State) (v : Word) : (s.setAcc v).initMacLo = s.initMacLo := rfl
@[simp] theorem State.setAcc_initIp (s : State) (v : Word) : (s.setAcc v).initIp = s.initIp := rfl
@[simp] theorem State.setAcc_linePort (s : State) (v : Word) : (s.setAcc v).linePort = s.linePort := rfl
@[simp] theorem State.setAcc_httpPort (s : State) (v : Word) : (s.setAcc v).httpPort = s.httpPort := rfl
@[simp] theorem State.setAcc_dnsId (s : State) (v : Word) : (s.setAcc v).dnsId = s.dnsId := rfl
@[simp] theorem State.setAcc_dnsLport (s : State) (v : Word) : (s.setAcc v).dnsLport = s.dnsLport := rfl
@[simp] theorem State.setAcc_pingIdseq (s : State) (v : Word) : (s.setAcc v).pingIdseq = s.pingIdseq := rfl
@[simp] theorem State.setAcc_evtKind (s : State) (v : Word) : (s.setAcc v).evtKind = s.evtKind := rfl
@[simp] theorem State.setAcc_evtOff (s : State) (v : Word) : (s.setAcc v).evtOff = s.evtOff := rfl
@[simp] theorem State.setAcc_evtLen (s : State) (v : Word) : (s.setAcc v).evtLen = s.evtLen := rfl
@[simp] theorem State.setAcc_acc (s : State) (v : Word) : (s.setAcc v).acc = (v.setWidth s.cfg.accWidth).setWidth 32 := rfl
@[simp] theorem State.setAcc_cnt (s : State) (v : Word) : (s.setAcc v).cnt = s.cnt := rfl
@[simp] theorem State.setAcc_frame (s : State) (v : Word) : (s.setAcc v).frame = s.frame := rfl
@[simp] theorem State.setAcc_frameGen (s : State) (v : Word) : (s.setAcc v).frameGen = s.frameGen := rfl
@[simp] theorem State.setAcc_name (s : State) (v : Word) : (s.setAcc v).name = s.name := rfl
@[simp] theorem State.setAcc_nameGen (s : State) (v : Word) : (s.setAcc v).nameGen = s.nameGen := rfl
@[simp] theorem State.setAcc_history (s : State) (v : Word) : (s.setAcc v).history = s.history := rfl
@[simp] theorem State.setAcc_priorHistory (s : State) (v : Word) : (s.setAcc v).priorHistory = s.priorHistory := rfl
@[simp] theorem State.setAcc_macIn (s : State) (v : Word) : (s.setAcc v).macIn = s.macIn := rfl
@[simp] theorem State.setAcc_script (s : State) (v : Word) : (s.setAcc v).script = s.script := rfl
@[simp] theorem State.setAcc_reads (s : State) (v : Word) : (s.setAcc v).reads = s.reads := rfl
@[simp] theorem State.setAcc_checks (s : State) (v : Word) : (s.setAcc v).checks = s.checks := rfl
@[simp] theorem State.setAcc_sched (s : State) (v : Word) : (s.setAcc v).sched = s.sched := rfl
@[simp] theorem State.setAcc_draws (s : State) (v : Word) : (s.setAcc v).draws = s.draws := rfl

/-! ### `beginWait` -/

@[simp] theorem State.beginWait_cfg (s : State) (g : Stage) (t : Word) : (s.beginWait g t).cfg = s.cfg := rfl
@[simp] theorem State.beginWait_stage (s : State) (g : Stage) (t : Word) : (s.beginWait g t).stage = g := rfl
@[simp] theorem State.beginWait_cmd (s : State) (g : Stage) (t : Word) : (s.beginWait g t).cmd = s.cmd := rfl
@[simp] theorem State.beginWait_arg0 (s : State) (g : Stage) (t : Word) : (s.beginWait g t).arg0 = s.arg0 := rfl
@[simp] theorem State.beginWait_arg1 (s : State) (g : Stage) (t : Word) : (s.beginWait g t).arg1 = s.arg1 := rfl
@[simp] theorem State.beginWait_result0 (s : State) (g : Stage) (t : Word) : (s.beginWait g t).result0 = s.result0 := rfl
@[simp] theorem State.beginWait_result1 (s : State) (g : Stage) (t : Word) : (s.beginWait g t).result1 = s.result1 := rfl
@[simp] theorem State.beginWait_done (s : State) (g : Stage) (t : Word) : (s.beginWait g t).done = s.done := rfl
@[simp] theorem State.beginWait_err (s : State) (g : Stage) (t : Word) : (s.beginWait g t).err = s.err := rfl
@[simp] theorem State.beginWait_ovr (s : State) (g : Stage) (t : Word) : (s.beginWait g t).ovr = s.ovr := rfl
@[simp] theorem State.beginWait_errcode (s : State) (g : Stage) (t : Word) : (s.beginWait g t).errcode = s.errcode := rfl
@[simp] theorem State.beginWait_macHi (s : State) (g : Stage) (t : Word) : (s.beginWait g t).macHi = s.macHi := rfl
@[simp] theorem State.beginWait_macLo (s : State) (g : Stage) (t : Word) : (s.beginWait g t).macLo = s.macLo := rfl
@[simp] theorem State.beginWait_localIp (s : State) (g : Stage) (t : Word) : (s.beginWait g t).localIp = s.localIp := rfl
@[simp] theorem State.beginWait_initMacHi (s : State) (g : Stage) (t : Word) : (s.beginWait g t).initMacHi = s.initMacHi := rfl
@[simp] theorem State.beginWait_initMacLo (s : State) (g : Stage) (t : Word) : (s.beginWait g t).initMacLo = s.initMacLo := rfl
@[simp] theorem State.beginWait_initIp (s : State) (g : Stage) (t : Word) : (s.beginWait g t).initIp = s.initIp := rfl
@[simp] theorem State.beginWait_linePort (s : State) (g : Stage) (t : Word) : (s.beginWait g t).linePort = s.linePort := rfl
@[simp] theorem State.beginWait_httpPort (s : State) (g : Stage) (t : Word) : (s.beginWait g t).httpPort = s.httpPort := rfl
@[simp] theorem State.beginWait_dnsId (s : State) (g : Stage) (t : Word) : (s.beginWait g t).dnsId = s.dnsId := rfl
@[simp] theorem State.beginWait_dnsLport (s : State) (g : Stage) (t : Word) : (s.beginWait g t).dnsLport = s.dnsLport := rfl
@[simp] theorem State.beginWait_pingIdseq (s : State) (g : Stage) (t : Word) : (s.beginWait g t).pingIdseq = s.pingIdseq := rfl
@[simp] theorem State.beginWait_evtKind (s : State) (g : Stage) (t : Word) : (s.beginWait g t).evtKind = s.evtKind := rfl
@[simp] theorem State.beginWait_evtOff (s : State) (g : Stage) (t : Word) : (s.beginWait g t).evtOff = s.evtOff := rfl
@[simp] theorem State.beginWait_evtLen (s : State) (g : Stage) (t : Word) : (s.beginWait g t).evtLen = s.evtLen := rfl
@[simp] theorem State.beginWait_acc (s : State) (g : Stage) (t : Word) : (s.beginWait g t).acc = s.acc := rfl
@[simp] theorem State.beginWait_cnt (s : State) (g : Stage) (t : Word) : (s.beginWait g t).cnt = t := rfl
@[simp] theorem State.beginWait_frame (s : State) (g : Stage) (t : Word) : (s.beginWait g t).frame = s.frame := rfl
@[simp] theorem State.beginWait_frameGen (s : State) (g : Stage) (t : Word) : (s.beginWait g t).frameGen = s.frameGen := rfl
@[simp] theorem State.beginWait_name (s : State) (g : Stage) (t : Word) : (s.beginWait g t).name = s.name := rfl
@[simp] theorem State.beginWait_nameGen (s : State) (g : Stage) (t : Word) : (s.beginWait g t).nameGen = s.nameGen := rfl
@[simp] theorem State.beginWait_history (s : State) (g : Stage) (t : Word) : (s.beginWait g t).history = s.history := rfl
@[simp] theorem State.beginWait_priorHistory (s : State) (g : Stage) (t : Word) : (s.beginWait g t).priorHistory = s.priorHistory := rfl
@[simp] theorem State.beginWait_macIn (s : State) (g : Stage) (t : Word) : (s.beginWait g t).macIn = s.macIn := rfl
@[simp] theorem State.beginWait_script (s : State) (g : Stage) (t : Word) : (s.beginWait g t).script = s.script := rfl
@[simp] theorem State.beginWait_reads (s : State) (g : Stage) (t : Word) : (s.beginWait g t).reads = s.reads := rfl
@[simp] theorem State.beginWait_checks (s : State) (g : Stage) (t : Word) : (s.beginWait g t).checks = s.checks := rfl
@[simp] theorem State.beginWait_sched (s : State) (g : Stage) (t : Word) : (s.beginWait g t).sched = s.sched := rfl
@[simp] theorem State.beginWait_draws (s : State) (g : Stage) (t : Word) : (s.beginWait g t).draws = s.draws := rfl

/-! ### `decCnt` -/

@[simp] theorem State.decCnt_cfg (s : State) : s.decCnt.cfg = s.cfg := rfl
@[simp] theorem State.decCnt_stage (s : State) : s.decCnt.stage = s.stage := rfl
@[simp] theorem State.decCnt_cmd (s : State) : s.decCnt.cmd = s.cmd := rfl
@[simp] theorem State.decCnt_arg0 (s : State) : s.decCnt.arg0 = s.arg0 := rfl
@[simp] theorem State.decCnt_arg1 (s : State) : s.decCnt.arg1 = s.arg1 := rfl
@[simp] theorem State.decCnt_result0 (s : State) : s.decCnt.result0 = s.result0 := rfl
@[simp] theorem State.decCnt_result1 (s : State) : s.decCnt.result1 = s.result1 := rfl
@[simp] theorem State.decCnt_done (s : State) : s.decCnt.done = s.done := rfl
@[simp] theorem State.decCnt_err (s : State) : s.decCnt.err = s.err := rfl
@[simp] theorem State.decCnt_ovr (s : State) : s.decCnt.ovr = s.ovr := rfl
@[simp] theorem State.decCnt_errcode (s : State) : s.decCnt.errcode = s.errcode := rfl
@[simp] theorem State.decCnt_macHi (s : State) : s.decCnt.macHi = s.macHi := rfl
@[simp] theorem State.decCnt_macLo (s : State) : s.decCnt.macLo = s.macLo := rfl
@[simp] theorem State.decCnt_localIp (s : State) : s.decCnt.localIp = s.localIp := rfl
@[simp] theorem State.decCnt_initMacHi (s : State) : s.decCnt.initMacHi = s.initMacHi := rfl
@[simp] theorem State.decCnt_initMacLo (s : State) : s.decCnt.initMacLo = s.initMacLo := rfl
@[simp] theorem State.decCnt_initIp (s : State) : s.decCnt.initIp = s.initIp := rfl
@[simp] theorem State.decCnt_linePort (s : State) : s.decCnt.linePort = s.linePort := rfl
@[simp] theorem State.decCnt_httpPort (s : State) : s.decCnt.httpPort = s.httpPort := rfl
@[simp] theorem State.decCnt_dnsId (s : State) : s.decCnt.dnsId = s.dnsId := rfl
@[simp] theorem State.decCnt_dnsLport (s : State) : s.decCnt.dnsLport = s.dnsLport := rfl
@[simp] theorem State.decCnt_pingIdseq (s : State) : s.decCnt.pingIdseq = s.pingIdseq := rfl
@[simp] theorem State.decCnt_evtKind (s : State) : s.decCnt.evtKind = s.evtKind := rfl
@[simp] theorem State.decCnt_evtOff (s : State) : s.decCnt.evtOff = s.evtOff := rfl
@[simp] theorem State.decCnt_evtLen (s : State) : s.decCnt.evtLen = s.evtLen := rfl
@[simp] theorem State.decCnt_acc (s : State) : s.decCnt.acc = s.acc := rfl
@[simp] theorem State.decCnt_cnt (s : State) : s.decCnt.cnt = s.cnt - 1 := rfl
@[simp] theorem State.decCnt_frame (s : State) : s.decCnt.frame = s.frame := rfl
@[simp] theorem State.decCnt_frameGen (s : State) : s.decCnt.frameGen = s.frameGen := rfl
@[simp] theorem State.decCnt_name (s : State) : s.decCnt.name = s.name := rfl
@[simp] theorem State.decCnt_nameGen (s : State) : s.decCnt.nameGen = s.nameGen := rfl
@[simp] theorem State.decCnt_history (s : State) : s.decCnt.history = s.history := rfl
@[simp] theorem State.decCnt_priorHistory (s : State) : s.decCnt.priorHistory = s.priorHistory := rfl
@[simp] theorem State.decCnt_macIn (s : State) : s.decCnt.macIn = s.macIn := rfl
@[simp] theorem State.decCnt_script (s : State) : s.decCnt.script = s.script := rfl
@[simp] theorem State.decCnt_reads (s : State) : s.decCnt.reads = s.reads := rfl
@[simp] theorem State.decCnt_checks (s : State) : s.decCnt.checks = s.checks := rfl
@[simp] theorem State.decCnt_sched (s : State) : s.decCnt.sched = s.sched := rfl
@[simp] theorem State.decCnt_draws (s : State) : s.decCnt.draws = s.draws := rfl

/-! ### `setStage` -/

@[simp] theorem State.setStage_cfg (s : State) (g : Stage) : (s.setStage g).cfg = s.cfg := rfl
@[simp] theorem State.setStage_stage (s : State) (g : Stage) : (s.setStage g).stage = g := rfl
@[simp] theorem State.setStage_cmd (s : State) (g : Stage) : (s.setStage g).cmd = s.cmd := rfl
@[simp] theorem State.setStage_arg0 (s : State) (g : Stage) : (s.setStage g).arg0 = s.arg0 := rfl
@[simp] theorem State.setStage_arg1 (s : State) (g : Stage) : (s.setStage g).arg1 = s.arg1 := rfl
@[simp] theorem State.setStage_result0 (s : State) (g : Stage) : (s.setStage g).result0 = s.result0 := rfl
@[simp] theorem State.setStage_result1 (s : State) (g : Stage) : (s.setStage g).result1 = s.result1 := rfl
@[simp] theorem State.setStage_done (s : State) (g : Stage) : (s.setStage g).done = s.done := rfl
@[simp] theorem State.setStage_err (s : State) (g : Stage) : (s.setStage g).err = s.err := rfl
@[simp] theorem State.setStage_ovr (s : State) (g : Stage) : (s.setStage g).ovr = s.ovr := rfl
@[simp] theorem State.setStage_errcode (s : State) (g : Stage) : (s.setStage g).errcode = s.errcode := rfl
@[simp] theorem State.setStage_macHi (s : State) (g : Stage) : (s.setStage g).macHi = s.macHi := rfl
@[simp] theorem State.setStage_macLo (s : State) (g : Stage) : (s.setStage g).macLo = s.macLo := rfl
@[simp] theorem State.setStage_localIp (s : State) (g : Stage) : (s.setStage g).localIp = s.localIp := rfl
@[simp] theorem State.setStage_initMacHi (s : State) (g : Stage) : (s.setStage g).initMacHi = s.initMacHi := rfl
@[simp] theorem State.setStage_initMacLo (s : State) (g : Stage) : (s.setStage g).initMacLo = s.initMacLo := rfl
@[simp] theorem State.setStage_initIp (s : State) (g : Stage) : (s.setStage g).initIp = s.initIp := rfl
@[simp] theorem State.setStage_linePort (s : State) (g : Stage) : (s.setStage g).linePort = s.linePort := rfl
@[simp] theorem State.setStage_httpPort (s : State) (g : Stage) : (s.setStage g).httpPort = s.httpPort := rfl
@[simp] theorem State.setStage_dnsId (s : State) (g : Stage) : (s.setStage g).dnsId = s.dnsId := rfl
@[simp] theorem State.setStage_dnsLport (s : State) (g : Stage) : (s.setStage g).dnsLport = s.dnsLport := rfl
@[simp] theorem State.setStage_pingIdseq (s : State) (g : Stage) : (s.setStage g).pingIdseq = s.pingIdseq := rfl
@[simp] theorem State.setStage_evtKind (s : State) (g : Stage) : (s.setStage g).evtKind = s.evtKind := rfl
@[simp] theorem State.setStage_evtOff (s : State) (g : Stage) : (s.setStage g).evtOff = s.evtOff := rfl
@[simp] theorem State.setStage_evtLen (s : State) (g : Stage) : (s.setStage g).evtLen = s.evtLen := rfl
@[simp] theorem State.setStage_acc (s : State) (g : Stage) : (s.setStage g).acc = s.acc := rfl
@[simp] theorem State.setStage_cnt (s : State) (g : Stage) : (s.setStage g).cnt = s.cnt := rfl
@[simp] theorem State.setStage_frame (s : State) (g : Stage) : (s.setStage g).frame = s.frame := rfl
@[simp] theorem State.setStage_frameGen (s : State) (g : Stage) : (s.setStage g).frameGen = s.frameGen := rfl
@[simp] theorem State.setStage_name (s : State) (g : Stage) : (s.setStage g).name = s.name := rfl
@[simp] theorem State.setStage_nameGen (s : State) (g : Stage) : (s.setStage g).nameGen = s.nameGen := rfl
@[simp] theorem State.setStage_history (s : State) (g : Stage) : (s.setStage g).history = s.history := rfl
@[simp] theorem State.setStage_priorHistory (s : State) (g : Stage) : (s.setStage g).priorHistory = s.priorHistory := rfl
@[simp] theorem State.setStage_macIn (s : State) (g : Stage) : (s.setStage g).macIn = s.macIn := rfl
@[simp] theorem State.setStage_script (s : State) (g : Stage) : (s.setStage g).script = s.script := rfl
@[simp] theorem State.setStage_reads (s : State) (g : Stage) : (s.setStage g).reads = s.reads := rfl
@[simp] theorem State.setStage_checks (s : State) (g : Stage) : (s.setStage g).checks = s.checks := rfl
@[simp] theorem State.setStage_sched (s : State) (g : Stage) : (s.setStage g).sched = s.sched := rfl
@[simp] theorem State.setStage_draws (s : State) (g : Stage) : (s.setStage g).draws = s.draws := rfl

/-! ### `macSend` -/

@[simp] theorem State.macSend_cfg (s : State) (n : Nat) : (s.macSend n).cfg = s.cfg := rfl
@[simp] theorem State.macSend_stage (s : State) (n : Nat) : (s.macSend n).stage = s.stage := rfl
@[simp] theorem State.macSend_cmd (s : State) (n : Nat) : (s.macSend n).cmd = s.cmd := rfl
@[simp] theorem State.macSend_arg0 (s : State) (n : Nat) : (s.macSend n).arg0 = s.arg0 := rfl
@[simp] theorem State.macSend_arg1 (s : State) (n : Nat) : (s.macSend n).arg1 = s.arg1 := rfl
@[simp] theorem State.macSend_result0 (s : State) (n : Nat) : (s.macSend n).result0 = s.result0 := rfl
@[simp] theorem State.macSend_result1 (s : State) (n : Nat) : (s.macSend n).result1 = s.result1 := rfl
@[simp] theorem State.macSend_done (s : State) (n : Nat) : (s.macSend n).done = s.done := rfl
@[simp] theorem State.macSend_err (s : State) (n : Nat) : (s.macSend n).err = s.err := rfl
@[simp] theorem State.macSend_ovr (s : State) (n : Nat) : (s.macSend n).ovr = s.ovr := rfl
@[simp] theorem State.macSend_errcode (s : State) (n : Nat) : (s.macSend n).errcode = s.errcode := rfl
@[simp] theorem State.macSend_macHi (s : State) (n : Nat) : (s.macSend n).macHi = s.macHi := rfl
@[simp] theorem State.macSend_macLo (s : State) (n : Nat) : (s.macSend n).macLo = s.macLo := rfl
@[simp] theorem State.macSend_localIp (s : State) (n : Nat) : (s.macSend n).localIp = s.localIp := rfl
@[simp] theorem State.macSend_initMacHi (s : State) (n : Nat) : (s.macSend n).initMacHi = s.initMacHi := rfl
@[simp] theorem State.macSend_initMacLo (s : State) (n : Nat) : (s.macSend n).initMacLo = s.initMacLo := rfl
@[simp] theorem State.macSend_initIp (s : State) (n : Nat) : (s.macSend n).initIp = s.initIp := rfl
@[simp] theorem State.macSend_linePort (s : State) (n : Nat) : (s.macSend n).linePort = s.linePort := rfl
@[simp] theorem State.macSend_httpPort (s : State) (n : Nat) : (s.macSend n).httpPort = s.httpPort := rfl
@[simp] theorem State.macSend_dnsId (s : State) (n : Nat) : (s.macSend n).dnsId = s.dnsId := rfl
@[simp] theorem State.macSend_dnsLport (s : State) (n : Nat) : (s.macSend n).dnsLport = s.dnsLport := rfl
@[simp] theorem State.macSend_pingIdseq (s : State) (n : Nat) : (s.macSend n).pingIdseq = s.pingIdseq := rfl
@[simp] theorem State.macSend_evtKind (s : State) (n : Nat) : (s.macSend n).evtKind = s.evtKind := rfl
@[simp] theorem State.macSend_evtOff (s : State) (n : Nat) : (s.macSend n).evtOff = s.evtOff := rfl
@[simp] theorem State.macSend_evtLen (s : State) (n : Nat) : (s.macSend n).evtLen = s.evtLen := rfl
@[simp] theorem State.macSend_acc (s : State) (n : Nat) : (s.macSend n).acc = s.acc := rfl
@[simp] theorem State.macSend_cnt (s : State) (n : Nat) : (s.macSend n).cnt = s.cnt := rfl
@[simp] theorem State.macSend_frame (s : State) (n : Nat) : (s.macSend n).frame = s.frame := rfl
@[simp] theorem State.macSend_frameGen (s : State) (n : Nat) : (s.macSend n).frameGen = s.frameGen := rfl
@[simp] theorem State.macSend_name (s : State) (n : Nat) : (s.macSend n).name = s.name := rfl
@[simp] theorem State.macSend_nameGen (s : State) (n : Nat) : (s.macSend n).nameGen = s.nameGen := rfl
@[simp] theorem State.macSend_history (s : State) (n : Nat) : (s.macSend n).history = s.history ++ [.sent (s.readB 0 n)] := rfl
@[simp] theorem State.macSend_priorHistory (s : State) (n : Nat) : (s.macSend n).priorHistory = s.priorHistory := rfl
@[simp] theorem State.macSend_macIn (s : State) (n : Nat) : (s.macSend n).macIn = s.macIn := rfl
@[simp] theorem State.macSend_script (s : State) (n : Nat) : (s.macSend n).script = s.script := rfl
@[simp] theorem State.macSend_reads (s : State) (n : Nat) : (s.macSend n).reads = s.reads := rfl
@[simp] theorem State.macSend_checks (s : State) (n : Nat) : (s.macSend n).checks = s.checks := rfl
@[simp] theorem State.macSend_sched (s : State) (n : Nat) : (s.macSend n).sched = s.sched := rfl
@[simp] theorem State.macSend_draws (s : State) (n : Nat) : (s.macSend n).draws = s.draws := rfl

/-! ### `macReceive` -/

@[simp] theorem State.macReceive_cfg (s : State) : s.macReceive.cfg = s.cfg := rfl
@[simp] theorem State.macReceive_stage (s : State) : s.macReceive.stage = s.stage := rfl
@[simp] theorem State.macReceive_cmd (s : State) : s.macReceive.cmd = s.cmd := rfl
@[simp] theorem State.macReceive_arg0 (s : State) : s.macReceive.arg0 = s.arg0 := rfl
@[simp] theorem State.macReceive_arg1 (s : State) : s.macReceive.arg1 = s.arg1 := rfl
@[simp] theorem State.macReceive_result0 (s : State) : s.macReceive.result0 = s.result0 := rfl
@[simp] theorem State.macReceive_result1 (s : State) : s.macReceive.result1 = s.result1 := rfl
@[simp] theorem State.macReceive_done (s : State) : s.macReceive.done = s.done := rfl
@[simp] theorem State.macReceive_err (s : State) : s.macReceive.err = s.err := rfl
@[simp] theorem State.macReceive_ovr (s : State) : s.macReceive.ovr = s.ovr := rfl
@[simp] theorem State.macReceive_errcode (s : State) : s.macReceive.errcode = s.errcode := rfl
@[simp] theorem State.macReceive_macHi (s : State) : s.macReceive.macHi = s.macHi := rfl
@[simp] theorem State.macReceive_macLo (s : State) : s.macReceive.macLo = s.macLo := rfl
@[simp] theorem State.macReceive_localIp (s : State) : s.macReceive.localIp = s.localIp := rfl
@[simp] theorem State.macReceive_initMacHi (s : State) : s.macReceive.initMacHi = s.initMacHi := rfl
@[simp] theorem State.macReceive_initMacLo (s : State) : s.macReceive.initMacLo = s.initMacLo := rfl
@[simp] theorem State.macReceive_initIp (s : State) : s.macReceive.initIp = s.initIp := rfl
@[simp] theorem State.macReceive_linePort (s : State) : s.macReceive.linePort = s.linePort := rfl
@[simp] theorem State.macReceive_httpPort (s : State) : s.macReceive.httpPort = s.httpPort := rfl
@[simp] theorem State.macReceive_dnsId (s : State) : s.macReceive.dnsId = s.dnsId := rfl
@[simp] theorem State.macReceive_dnsLport (s : State) : s.macReceive.dnsLport = s.dnsLport := rfl
@[simp] theorem State.macReceive_pingIdseq (s : State) : s.macReceive.pingIdseq = s.pingIdseq := rfl
@[simp] theorem State.macReceive_evtKind (s : State) : s.macReceive.evtKind = s.evtKind := rfl
@[simp] theorem State.macReceive_evtOff (s : State) : s.macReceive.evtOff = s.evtOff := rfl
@[simp] theorem State.macReceive_evtLen (s : State) : s.macReceive.evtLen = s.evtLen := rfl
@[simp] theorem State.macReceive_acc (s : State) : s.macReceive.acc = s.acc := rfl
@[simp] theorem State.macReceive_cnt (s : State) : s.macReceive.cnt = s.cnt := rfl
@[simp] theorem State.macReceive_frame (s : State) : s.macReceive.frame = s.frame.write 0 s.nextFrame := rfl
@[simp] theorem State.macReceive_frameGen (s : State) : s.macReceive.frameGen = s.frameGen := rfl
@[simp] theorem State.macReceive_name (s : State) : s.macReceive.name = s.name := rfl
@[simp] theorem State.macReceive_nameGen (s : State) : s.macReceive.nameGen = s.nameGen := rfl
@[simp] theorem State.macReceive_history (s : State) : s.macReceive.history = s.history ++ [.received s.cfg.bufSize s.nextFrame] := rfl
@[simp] theorem State.macReceive_priorHistory (s : State) : s.macReceive.priorHistory = s.priorHistory := rfl
@[simp] theorem State.macReceive_macIn (s : State) : s.macReceive.macIn = s.macIn.tail := rfl
@[simp] theorem State.macReceive_script (s : State) : s.macReceive.script = s.script := rfl
@[simp] theorem State.macReceive_reads (s : State) : s.macReceive.reads = s.reads := rfl
@[simp] theorem State.macReceive_checks (s : State) : s.macReceive.checks = s.checks := rfl
@[simp] theorem State.macReceive_sched (s : State) : s.macReceive.sched = s.sched := rfl
@[simp] theorem State.macReceive_draws (s : State) : s.macReceive.draws = s.draws + 1 := rfl

/-! ### `finish` -/

@[simp] theorem State.finish_cfg (s : State) (r0 r1 : Word) : (s.finish r0 r1).cfg = s.cfg := rfl
@[simp] theorem State.finish_stage (s : State) (r0 r1 : Word) : (s.finish r0 r1).stage = .idle := rfl
@[simp] theorem State.finish_cmd (s : State) (r0 r1 : Word) : (s.finish r0 r1).cmd = s.cmd := rfl
@[simp] theorem State.finish_arg0 (s : State) (r0 r1 : Word) : (s.finish r0 r1).arg0 = s.arg0 := rfl
@[simp] theorem State.finish_arg1 (s : State) (r0 r1 : Word) : (s.finish r0 r1).arg1 = s.arg1 := rfl
@[simp] theorem State.finish_result0 (s : State) (r0 r1 : Word) : (s.finish r0 r1).result0 = r0 := rfl
@[simp] theorem State.finish_result1 (s : State) (r0 r1 : Word) : (s.finish r0 r1).result1 = r1 := rfl
@[simp] theorem State.finish_done (s : State) (r0 r1 : Word) : (s.finish r0 r1).done = true := rfl
@[simp] theorem State.finish_err (s : State) (r0 r1 : Word) : (s.finish r0 r1).err = s.err := rfl
@[simp] theorem State.finish_ovr (s : State) (r0 r1 : Word) : (s.finish r0 r1).ovr = s.ovr := rfl
@[simp] theorem State.finish_errcode (s : State) (r0 r1 : Word) : (s.finish r0 r1).errcode = s.errcode := rfl
@[simp] theorem State.finish_macHi (s : State) (r0 r1 : Word) : (s.finish r0 r1).macHi = s.macHi := rfl
@[simp] theorem State.finish_macLo (s : State) (r0 r1 : Word) : (s.finish r0 r1).macLo = s.macLo := rfl
@[simp] theorem State.finish_localIp (s : State) (r0 r1 : Word) : (s.finish r0 r1).localIp = s.localIp := rfl
@[simp] theorem State.finish_initMacHi (s : State) (r0 r1 : Word) : (s.finish r0 r1).initMacHi = s.initMacHi := rfl
@[simp] theorem State.finish_initMacLo (s : State) (r0 r1 : Word) : (s.finish r0 r1).initMacLo = s.initMacLo := rfl
@[simp] theorem State.finish_initIp (s : State) (r0 r1 : Word) : (s.finish r0 r1).initIp = s.initIp := rfl
@[simp] theorem State.finish_linePort (s : State) (r0 r1 : Word) : (s.finish r0 r1).linePort = s.linePort := rfl
@[simp] theorem State.finish_httpPort (s : State) (r0 r1 : Word) : (s.finish r0 r1).httpPort = s.httpPort := rfl
@[simp] theorem State.finish_dnsId (s : State) (r0 r1 : Word) : (s.finish r0 r1).dnsId = s.dnsId := rfl
@[simp] theorem State.finish_dnsLport (s : State) (r0 r1 : Word) : (s.finish r0 r1).dnsLport = s.dnsLport := rfl
@[simp] theorem State.finish_pingIdseq (s : State) (r0 r1 : Word) : (s.finish r0 r1).pingIdseq = s.pingIdseq := rfl
@[simp] theorem State.finish_evtKind (s : State) (r0 r1 : Word) : (s.finish r0 r1).evtKind = s.evtKind := rfl
@[simp] theorem State.finish_evtOff (s : State) (r0 r1 : Word) : (s.finish r0 r1).evtOff = s.evtOff := rfl
@[simp] theorem State.finish_evtLen (s : State) (r0 r1 : Word) : (s.finish r0 r1).evtLen = s.evtLen := rfl
@[simp] theorem State.finish_acc (s : State) (r0 r1 : Word) : (s.finish r0 r1).acc = s.acc := rfl
@[simp] theorem State.finish_cnt (s : State) (r0 r1 : Word) : (s.finish r0 r1).cnt = s.cnt := rfl
@[simp] theorem State.finish_frame (s : State) (r0 r1 : Word) : (s.finish r0 r1).frame = s.frame := rfl
@[simp] theorem State.finish_frameGen (s : State) (r0 r1 : Word) : (s.finish r0 r1).frameGen = s.frameGen := rfl
@[simp] theorem State.finish_name (s : State) (r0 r1 : Word) : (s.finish r0 r1).name = s.name := rfl
@[simp] theorem State.finish_nameGen (s : State) (r0 r1 : Word) : (s.finish r0 r1).nameGen = s.nameGen := rfl
@[simp] theorem State.finish_history (s : State) (r0 r1 : Word) : (s.finish r0 r1).history = s.history := rfl
@[simp] theorem State.finish_priorHistory (s : State) (r0 r1 : Word) : (s.finish r0 r1).priorHistory = s.priorHistory := rfl
@[simp] theorem State.finish_macIn (s : State) (r0 r1 : Word) : (s.finish r0 r1).macIn = s.macIn := rfl
@[simp] theorem State.finish_script (s : State) (r0 r1 : Word) : (s.finish r0 r1).script = s.script := rfl
@[simp] theorem State.finish_reads (s : State) (r0 r1 : Word) : (s.finish r0 r1).reads = s.reads := rfl
@[simp] theorem State.finish_checks (s : State) (r0 r1 : Word) : (s.finish r0 r1).checks = s.checks := rfl
@[simp] theorem State.finish_sched (s : State) (r0 r1 : Word) : (s.finish r0 r1).sched = s.sched := rfl
@[simp] theorem State.finish_draws (s : State) (r0 r1 : Word) : (s.finish r0 r1).draws = s.draws := rfl

/-! ### `raise` -/

@[simp] theorem State.raise_cfg (s : State) (c : CmdError) : (s.raise c).cfg = s.cfg := rfl
@[simp] theorem State.raise_stage (s : State) (c : CmdError) : (s.raise c).stage = .idle := rfl
@[simp] theorem State.raise_cmd (s : State) (c : CmdError) : (s.raise c).cmd = s.cmd := rfl
@[simp] theorem State.raise_arg0 (s : State) (c : CmdError) : (s.raise c).arg0 = s.arg0 := rfl
@[simp] theorem State.raise_arg1 (s : State) (c : CmdError) : (s.raise c).arg1 = s.arg1 := rfl
@[simp] theorem State.raise_result0 (s : State) (c : CmdError) : (s.raise c).result0 = 0 := rfl
@[simp] theorem State.raise_result1 (s : State) (c : CmdError) : (s.raise c).result1 = 0 := rfl
@[simp] theorem State.raise_done (s : State) (c : CmdError) : (s.raise c).done = true := rfl
@[simp] theorem State.raise_err (s : State) (c : CmdError) : (s.raise c).err = true := rfl
@[simp] theorem State.raise_ovr (s : State) (c : CmdError) : (s.raise c).ovr = s.ovr := rfl
@[simp] theorem State.raise_errcode (s : State) (c : CmdError) : (s.raise c).errcode = c.code := rfl
@[simp] theorem State.raise_macHi (s : State) (c : CmdError) : (s.raise c).macHi = s.macHi := rfl
@[simp] theorem State.raise_macLo (s : State) (c : CmdError) : (s.raise c).macLo = s.macLo := rfl
@[simp] theorem State.raise_localIp (s : State) (c : CmdError) : (s.raise c).localIp = s.localIp := rfl
@[simp] theorem State.raise_initMacHi (s : State) (c : CmdError) : (s.raise c).initMacHi = s.initMacHi := rfl
@[simp] theorem State.raise_initMacLo (s : State) (c : CmdError) : (s.raise c).initMacLo = s.initMacLo := rfl
@[simp] theorem State.raise_initIp (s : State) (c : CmdError) : (s.raise c).initIp = s.initIp := rfl
@[simp] theorem State.raise_linePort (s : State) (c : CmdError) : (s.raise c).linePort = s.linePort := rfl
@[simp] theorem State.raise_httpPort (s : State) (c : CmdError) : (s.raise c).httpPort = s.httpPort := rfl
@[simp] theorem State.raise_dnsId (s : State) (c : CmdError) : (s.raise c).dnsId = s.dnsId := rfl
@[simp] theorem State.raise_dnsLport (s : State) (c : CmdError) : (s.raise c).dnsLport = s.dnsLport := rfl
@[simp] theorem State.raise_pingIdseq (s : State) (c : CmdError) : (s.raise c).pingIdseq = s.pingIdseq := rfl
@[simp] theorem State.raise_evtKind (s : State) (c : CmdError) : (s.raise c).evtKind = s.evtKind := rfl
@[simp] theorem State.raise_evtOff (s : State) (c : CmdError) : (s.raise c).evtOff = s.evtOff := rfl
@[simp] theorem State.raise_evtLen (s : State) (c : CmdError) : (s.raise c).evtLen = s.evtLen := rfl
@[simp] theorem State.raise_acc (s : State) (c : CmdError) : (s.raise c).acc = s.acc := rfl
@[simp] theorem State.raise_cnt (s : State) (c : CmdError) : (s.raise c).cnt = s.cnt := rfl
@[simp] theorem State.raise_frame (s : State) (c : CmdError) : (s.raise c).frame = s.frame := rfl
@[simp] theorem State.raise_frameGen (s : State) (c : CmdError) : (s.raise c).frameGen = s.frameGen := rfl
@[simp] theorem State.raise_name (s : State) (c : CmdError) : (s.raise c).name = s.name := rfl
@[simp] theorem State.raise_nameGen (s : State) (c : CmdError) : (s.raise c).nameGen = s.nameGen := rfl
@[simp] theorem State.raise_history (s : State) (c : CmdError) : (s.raise c).history = s.history := rfl
@[simp] theorem State.raise_priorHistory (s : State) (c : CmdError) : (s.raise c).priorHistory = s.priorHistory := rfl
@[simp] theorem State.raise_macIn (s : State) (c : CmdError) : (s.raise c).macIn = s.macIn := rfl
@[simp] theorem State.raise_script (s : State) (c : CmdError) : (s.raise c).script = s.script := rfl
@[simp] theorem State.raise_reads (s : State) (c : CmdError) : (s.raise c).reads = s.reads := rfl
@[simp] theorem State.raise_checks (s : State) (c : CmdError) : (s.raise c).checks = s.checks := rfl
@[simp] theorem State.raise_sched (s : State) (c : CmdError) : (s.raise c).sched = s.sched := rfl
@[simp] theorem State.raise_draws (s : State) (c : CmdError) : (s.raise c).draws = s.draws := rfl

/-! ### `accept` -/

@[simp] theorem State.accept_cfg (s : State) (w : Word) : (s.accept w).cfg = s.cfg := rfl
@[simp] theorem State.accept_stage (s : State) (w : Word) : (s.accept w).stage = .start := rfl
@[simp] theorem State.accept_cmd (s : State) (w : Word) : (s.accept w).cmd = w := rfl
@[simp] theorem State.accept_arg0 (s : State) (w : Word) : (s.accept w).arg0 = s.arg0 := rfl
@[simp] theorem State.accept_arg1 (s : State) (w : Word) : (s.accept w).arg1 = s.arg1 := rfl
@[simp] theorem State.accept_result0 (s : State) (w : Word) : (s.accept w).result0 = s.result0 := rfl
@[simp] theorem State.accept_result1 (s : State) (w : Word) : (s.accept w).result1 = s.result1 := rfl
@[simp] theorem State.accept_done (s : State) (w : Word) : (s.accept w).done = false := rfl
@[simp] theorem State.accept_err (s : State) (w : Word) : (s.accept w).err = false := rfl
@[simp] theorem State.accept_ovr (s : State) (w : Word) : (s.accept w).ovr = s.ovr := rfl
@[simp] theorem State.accept_errcode (s : State) (w : Word) : (s.accept w).errcode = 0 := rfl
@[simp] theorem State.accept_macHi (s : State) (w : Word) : (s.accept w).macHi = s.macHi := rfl
@[simp] theorem State.accept_macLo (s : State) (w : Word) : (s.accept w).macLo = s.macLo := rfl
@[simp] theorem State.accept_localIp (s : State) (w : Word) : (s.accept w).localIp = s.localIp := rfl
@[simp] theorem State.accept_initMacHi (s : State) (w : Word) : (s.accept w).initMacHi = s.initMacHi := rfl
@[simp] theorem State.accept_initMacLo (s : State) (w : Word) : (s.accept w).initMacLo = s.initMacLo := rfl
@[simp] theorem State.accept_initIp (s : State) (w : Word) : (s.accept w).initIp = s.initIp := rfl
@[simp] theorem State.accept_linePort (s : State) (w : Word) : (s.accept w).linePort = s.linePort := rfl
@[simp] theorem State.accept_httpPort (s : State) (w : Word) : (s.accept w).httpPort = s.httpPort := rfl
@[simp] theorem State.accept_dnsId (s : State) (w : Word) : (s.accept w).dnsId = s.dnsId := rfl
@[simp] theorem State.accept_dnsLport (s : State) (w : Word) : (s.accept w).dnsLport = s.dnsLport := rfl
@[simp] theorem State.accept_pingIdseq (s : State) (w : Word) : (s.accept w).pingIdseq = s.pingIdseq := rfl
@[simp] theorem State.accept_evtKind (s : State) (w : Word) : (s.accept w).evtKind = s.evtKind := rfl
@[simp] theorem State.accept_evtOff (s : State) (w : Word) : (s.accept w).evtOff = s.evtOff := rfl
@[simp] theorem State.accept_evtLen (s : State) (w : Word) : (s.accept w).evtLen = s.evtLen := rfl
@[simp] theorem State.accept_acc (s : State) (w : Word) : (s.accept w).acc = s.acc := rfl
@[simp] theorem State.accept_cnt (s : State) (w : Word) : (s.accept w).cnt = s.cnt := rfl
@[simp] theorem State.accept_frame (s : State) (w : Word) : (s.accept w).frame = s.frame := rfl
@[simp] theorem State.accept_frameGen (s : State) (w : Word) : (s.accept w).frameGen = s.frameGen := rfl
@[simp] theorem State.accept_name (s : State) (w : Word) : (s.accept w).name = s.name := rfl
@[simp] theorem State.accept_nameGen (s : State) (w : Word) : (s.accept w).nameGen = s.nameGen := rfl
@[simp] theorem State.accept_history (s : State) (w : Word) : (s.accept w).history = s.history := rfl
@[simp] theorem State.accept_priorHistory (s : State) (w : Word) : (s.accept w).priorHistory = s.priorHistory := rfl
@[simp] theorem State.accept_macIn (s : State) (w : Word) : (s.accept w).macIn = s.macIn := rfl
@[simp] theorem State.accept_script (s : State) (w : Word) : (s.accept w).script = s.script := rfl
@[simp] theorem State.accept_reads (s : State) (w : Word) : (s.accept w).reads = s.reads := rfl
@[simp] theorem State.accept_checks (s : State) (w : Word) : (s.accept w).checks = s.checks := rfl
@[simp] theorem State.accept_sched (s : State) (w : Word) : (s.accept w).sched = s.sched := rfl
@[simp] theorem State.accept_draws (s : State) (w : Word) : (s.accept w).draws = s.draws := rfl

/-! ### `setCmd` -/

@[simp] theorem State.setCmd_cfg (s : State) (w : Word) : (s.setCmd w).cfg = s.cfg := rfl
@[simp] theorem State.setCmd_stage (s : State) (w : Word) : (s.setCmd w).stage = s.stage := rfl
@[simp] theorem State.setCmd_cmd (s : State) (w : Word) : (s.setCmd w).cmd = w := rfl
@[simp] theorem State.setCmd_arg0 (s : State) (w : Word) : (s.setCmd w).arg0 = s.arg0 := rfl
@[simp] theorem State.setCmd_arg1 (s : State) (w : Word) : (s.setCmd w).arg1 = s.arg1 := rfl
@[simp] theorem State.setCmd_result0 (s : State) (w : Word) : (s.setCmd w).result0 = s.result0 := rfl
@[simp] theorem State.setCmd_result1 (s : State) (w : Word) : (s.setCmd w).result1 = s.result1 := rfl
@[simp] theorem State.setCmd_done (s : State) (w : Word) : (s.setCmd w).done = s.done := rfl
@[simp] theorem State.setCmd_err (s : State) (w : Word) : (s.setCmd w).err = s.err := rfl
@[simp] theorem State.setCmd_ovr (s : State) (w : Word) : (s.setCmd w).ovr = s.ovr := rfl
@[simp] theorem State.setCmd_errcode (s : State) (w : Word) : (s.setCmd w).errcode = s.errcode := rfl
@[simp] theorem State.setCmd_macHi (s : State) (w : Word) : (s.setCmd w).macHi = s.macHi := rfl
@[simp] theorem State.setCmd_macLo (s : State) (w : Word) : (s.setCmd w).macLo = s.macLo := rfl
@[simp] theorem State.setCmd_localIp (s : State) (w : Word) : (s.setCmd w).localIp = s.localIp := rfl
@[simp] theorem State.setCmd_initMacHi (s : State) (w : Word) : (s.setCmd w).initMacHi = s.initMacHi := rfl
@[simp] theorem State.setCmd_initMacLo (s : State) (w : Word) : (s.setCmd w).initMacLo = s.initMacLo := rfl
@[simp] theorem State.setCmd_initIp (s : State) (w : Word) : (s.setCmd w).initIp = s.initIp := rfl
@[simp] theorem State.setCmd_linePort (s : State) (w : Word) : (s.setCmd w).linePort = s.linePort := rfl
@[simp] theorem State.setCmd_httpPort (s : State) (w : Word) : (s.setCmd w).httpPort = s.httpPort := rfl
@[simp] theorem State.setCmd_dnsId (s : State) (w : Word) : (s.setCmd w).dnsId = s.dnsId := rfl
@[simp] theorem State.setCmd_dnsLport (s : State) (w : Word) : (s.setCmd w).dnsLport = s.dnsLport := rfl
@[simp] theorem State.setCmd_pingIdseq (s : State) (w : Word) : (s.setCmd w).pingIdseq = s.pingIdseq := rfl
@[simp] theorem State.setCmd_evtKind (s : State) (w : Word) : (s.setCmd w).evtKind = s.evtKind := rfl
@[simp] theorem State.setCmd_evtOff (s : State) (w : Word) : (s.setCmd w).evtOff = s.evtOff := rfl
@[simp] theorem State.setCmd_evtLen (s : State) (w : Word) : (s.setCmd w).evtLen = s.evtLen := rfl
@[simp] theorem State.setCmd_acc (s : State) (w : Word) : (s.setCmd w).acc = s.acc := rfl
@[simp] theorem State.setCmd_cnt (s : State) (w : Word) : (s.setCmd w).cnt = s.cnt := rfl
@[simp] theorem State.setCmd_frame (s : State) (w : Word) : (s.setCmd w).frame = s.frame := rfl
@[simp] theorem State.setCmd_frameGen (s : State) (w : Word) : (s.setCmd w).frameGen = s.frameGen := rfl
@[simp] theorem State.setCmd_name (s : State) (w : Word) : (s.setCmd w).name = s.name := rfl
@[simp] theorem State.setCmd_nameGen (s : State) (w : Word) : (s.setCmd w).nameGen = s.nameGen := rfl
@[simp] theorem State.setCmd_history (s : State) (w : Word) : (s.setCmd w).history = s.history := rfl
@[simp] theorem State.setCmd_priorHistory (s : State) (w : Word) : (s.setCmd w).priorHistory = s.priorHistory := rfl
@[simp] theorem State.setCmd_macIn (s : State) (w : Word) : (s.setCmd w).macIn = s.macIn := rfl
@[simp] theorem State.setCmd_script (s : State) (w : Word) : (s.setCmd w).script = s.script := rfl
@[simp] theorem State.setCmd_reads (s : State) (w : Word) : (s.setCmd w).reads = s.reads := rfl
@[simp] theorem State.setCmd_checks (s : State) (w : Word) : (s.setCmd w).checks = s.checks := rfl
@[simp] theorem State.setCmd_sched (s : State) (w : Word) : (s.setCmd w).sched = s.sched := rfl
@[simp] theorem State.setCmd_draws (s : State) (w : Word) : (s.setCmd w).draws = s.draws := rfl

/-! ### `nextPing` -/

@[simp] theorem State.nextPing_cfg (s : State) : s.nextPing.cfg = s.cfg := rfl
@[simp] theorem State.nextPing_stage (s : State) : s.nextPing.stage = s.stage := rfl
@[simp] theorem State.nextPing_cmd (s : State) : s.nextPing.cmd = s.cmd := rfl
@[simp] theorem State.nextPing_arg0 (s : State) : s.nextPing.arg0 = s.arg0 := rfl
@[simp] theorem State.nextPing_arg1 (s : State) : s.nextPing.arg1 = s.arg1 := rfl
@[simp] theorem State.nextPing_result0 (s : State) : s.nextPing.result0 = s.result0 := rfl
@[simp] theorem State.nextPing_result1 (s : State) : s.nextPing.result1 = s.result1 := rfl
@[simp] theorem State.nextPing_done (s : State) : s.nextPing.done = s.done := rfl
@[simp] theorem State.nextPing_err (s : State) : s.nextPing.err = s.err := rfl
@[simp] theorem State.nextPing_ovr (s : State) : s.nextPing.ovr = s.ovr := rfl
@[simp] theorem State.nextPing_errcode (s : State) : s.nextPing.errcode = s.errcode := rfl
@[simp] theorem State.nextPing_macHi (s : State) : s.nextPing.macHi = s.macHi := rfl
@[simp] theorem State.nextPing_macLo (s : State) : s.nextPing.macLo = s.macLo := rfl
@[simp] theorem State.nextPing_localIp (s : State) : s.nextPing.localIp = s.localIp := rfl
@[simp] theorem State.nextPing_initMacHi (s : State) : s.nextPing.initMacHi = s.initMacHi := rfl
@[simp] theorem State.nextPing_initMacLo (s : State) : s.nextPing.initMacLo = s.initMacLo := rfl
@[simp] theorem State.nextPing_initIp (s : State) : s.nextPing.initIp = s.initIp := rfl
@[simp] theorem State.nextPing_linePort (s : State) : s.nextPing.linePort = s.linePort := rfl
@[simp] theorem State.nextPing_httpPort (s : State) : s.nextPing.httpPort = s.httpPort := rfl
@[simp] theorem State.nextPing_dnsId (s : State) : s.nextPing.dnsId = s.dnsId := rfl
@[simp] theorem State.nextPing_dnsLport (s : State) : s.nextPing.dnsLport = s.dnsLport := rfl
@[simp] theorem State.nextPing_pingIdseq (s : State) : s.nextPing.pingIdseq = s.pingId ++ (s.pingSeq + 1) := rfl
@[simp] theorem State.nextPing_evtKind (s : State) : s.nextPing.evtKind = s.evtKind := rfl
@[simp] theorem State.nextPing_evtOff (s : State) : s.nextPing.evtOff = s.evtOff := rfl
@[simp] theorem State.nextPing_evtLen (s : State) : s.nextPing.evtLen = s.evtLen := rfl
@[simp] theorem State.nextPing_acc (s : State) : s.nextPing.acc = s.acc := rfl
@[simp] theorem State.nextPing_cnt (s : State) : s.nextPing.cnt = s.cnt := rfl
@[simp] theorem State.nextPing_frame (s : State) : s.nextPing.frame = s.frame := rfl
@[simp] theorem State.nextPing_frameGen (s : State) : s.nextPing.frameGen = s.frameGen := rfl
@[simp] theorem State.nextPing_name (s : State) : s.nextPing.name = s.name := rfl
@[simp] theorem State.nextPing_nameGen (s : State) : s.nextPing.nameGen = s.nameGen := rfl
@[simp] theorem State.nextPing_history (s : State) : s.nextPing.history = s.history := rfl
@[simp] theorem State.nextPing_priorHistory (s : State) : s.nextPing.priorHistory = s.priorHistory := rfl
@[simp] theorem State.nextPing_macIn (s : State) : s.nextPing.macIn = s.macIn := rfl
@[simp] theorem State.nextPing_script (s : State) : s.nextPing.script = s.script := rfl
@[simp] theorem State.nextPing_reads (s : State) : s.nextPing.reads = s.reads := rfl
@[simp] theorem State.nextPing_checks (s : State) : s.nextPing.checks = s.checks := rfl
@[simp] theorem State.nextPing_sched (s : State) : s.nextPing.sched = s.sched := rfl
@[simp] theorem State.nextPing_draws (s : State) : s.nextPing.draws = s.draws := rfl

/-! ### `nextDnsId` -/

@[simp] theorem State.nextDnsId_cfg (s : State) : s.nextDnsId.cfg = s.cfg := rfl
@[simp] theorem State.nextDnsId_stage (s : State) : s.nextDnsId.stage = s.stage := rfl
@[simp] theorem State.nextDnsId_cmd (s : State) : s.nextDnsId.cmd = s.cmd := rfl
@[simp] theorem State.nextDnsId_arg0 (s : State) : s.nextDnsId.arg0 = s.arg0 := rfl
@[simp] theorem State.nextDnsId_arg1 (s : State) : s.nextDnsId.arg1 = s.arg1 := rfl
@[simp] theorem State.nextDnsId_result0 (s : State) : s.nextDnsId.result0 = s.result0 := rfl
@[simp] theorem State.nextDnsId_result1 (s : State) : s.nextDnsId.result1 = s.result1 := rfl
@[simp] theorem State.nextDnsId_done (s : State) : s.nextDnsId.done = s.done := rfl
@[simp] theorem State.nextDnsId_err (s : State) : s.nextDnsId.err = s.err := rfl
@[simp] theorem State.nextDnsId_ovr (s : State) : s.nextDnsId.ovr = s.ovr := rfl
@[simp] theorem State.nextDnsId_errcode (s : State) : s.nextDnsId.errcode = s.errcode := rfl
@[simp] theorem State.nextDnsId_macHi (s : State) : s.nextDnsId.macHi = s.macHi := rfl
@[simp] theorem State.nextDnsId_macLo (s : State) : s.nextDnsId.macLo = s.macLo := rfl
@[simp] theorem State.nextDnsId_localIp (s : State) : s.nextDnsId.localIp = s.localIp := rfl
@[simp] theorem State.nextDnsId_initMacHi (s : State) : s.nextDnsId.initMacHi = s.initMacHi := rfl
@[simp] theorem State.nextDnsId_initMacLo (s : State) : s.nextDnsId.initMacLo = s.initMacLo := rfl
@[simp] theorem State.nextDnsId_initIp (s : State) : s.nextDnsId.initIp = s.initIp := rfl
@[simp] theorem State.nextDnsId_linePort (s : State) : s.nextDnsId.linePort = s.linePort := rfl
@[simp] theorem State.nextDnsId_httpPort (s : State) : s.nextDnsId.httpPort = s.httpPort := rfl
@[simp] theorem State.nextDnsId_dnsId (s : State) : s.nextDnsId.dnsId = s.dnsId + 1 := rfl
@[simp] theorem State.nextDnsId_dnsLport (s : State) : s.nextDnsId.dnsLport = s.dnsLport := rfl
@[simp] theorem State.nextDnsId_pingIdseq (s : State) : s.nextDnsId.pingIdseq = s.pingIdseq := rfl
@[simp] theorem State.nextDnsId_evtKind (s : State) : s.nextDnsId.evtKind = s.evtKind := rfl
@[simp] theorem State.nextDnsId_evtOff (s : State) : s.nextDnsId.evtOff = s.evtOff := rfl
@[simp] theorem State.nextDnsId_evtLen (s : State) : s.nextDnsId.evtLen = s.evtLen := rfl
@[simp] theorem State.nextDnsId_acc (s : State) : s.nextDnsId.acc = s.acc := rfl
@[simp] theorem State.nextDnsId_cnt (s : State) : s.nextDnsId.cnt = s.cnt := rfl
@[simp] theorem State.nextDnsId_frame (s : State) : s.nextDnsId.frame = s.frame := rfl
@[simp] theorem State.nextDnsId_frameGen (s : State) : s.nextDnsId.frameGen = s.frameGen := rfl
@[simp] theorem State.nextDnsId_name (s : State) : s.nextDnsId.name = s.name := rfl
@[simp] theorem State.nextDnsId_nameGen (s : State) : s.nextDnsId.nameGen = s.nameGen := rfl
@[simp] theorem State.nextDnsId_history (s : State) : s.nextDnsId.history = s.history := rfl
@[simp] theorem State.nextDnsId_priorHistory (s : State) : s.nextDnsId.priorHistory = s.priorHistory := rfl
@[simp] theorem State.nextDnsId_macIn (s : State) : s.nextDnsId.macIn = s.macIn := rfl
@[simp] theorem State.nextDnsId_script (s : State) : s.nextDnsId.script = s.script := rfl
@[simp] theorem State.nextDnsId_reads (s : State) : s.nextDnsId.reads = s.reads := rfl
@[simp] theorem State.nextDnsId_checks (s : State) : s.nextDnsId.checks = s.checks := rfl
@[simp] theorem State.nextDnsId_sched (s : State) : s.nextDnsId.sched = s.sched := rfl
@[simp] theorem State.nextDnsId_draws (s : State) : s.nextDnsId.draws = s.draws := rfl

/-! ### `overrun` -/

@[simp] theorem State.overrun_cfg (s : State) : s.overrun.cfg = s.cfg := rfl
@[simp] theorem State.overrun_stage (s : State) : s.overrun.stage = s.stage := rfl
@[simp] theorem State.overrun_cmd (s : State) : s.overrun.cmd = s.cmd := rfl
@[simp] theorem State.overrun_arg0 (s : State) : s.overrun.arg0 = s.arg0 := rfl
@[simp] theorem State.overrun_arg1 (s : State) : s.overrun.arg1 = s.arg1 := rfl
@[simp] theorem State.overrun_result0 (s : State) : s.overrun.result0 = s.result0 := rfl
@[simp] theorem State.overrun_result1 (s : State) : s.overrun.result1 = s.result1 := rfl
@[simp] theorem State.overrun_done (s : State) : s.overrun.done = s.done := rfl
@[simp] theorem State.overrun_err (s : State) : s.overrun.err = s.err := rfl
@[simp] theorem State.overrun_ovr (s : State) : s.overrun.ovr = true := rfl
@[simp] theorem State.overrun_errcode (s : State) : s.overrun.errcode = s.errcode := rfl
@[simp] theorem State.overrun_macHi (s : State) : s.overrun.macHi = s.macHi := rfl
@[simp] theorem State.overrun_macLo (s : State) : s.overrun.macLo = s.macLo := rfl
@[simp] theorem State.overrun_localIp (s : State) : s.overrun.localIp = s.localIp := rfl
@[simp] theorem State.overrun_initMacHi (s : State) : s.overrun.initMacHi = s.initMacHi := rfl
@[simp] theorem State.overrun_initMacLo (s : State) : s.overrun.initMacLo = s.initMacLo := rfl
@[simp] theorem State.overrun_initIp (s : State) : s.overrun.initIp = s.initIp := rfl
@[simp] theorem State.overrun_linePort (s : State) : s.overrun.linePort = s.linePort := rfl
@[simp] theorem State.overrun_httpPort (s : State) : s.overrun.httpPort = s.httpPort := rfl
@[simp] theorem State.overrun_dnsId (s : State) : s.overrun.dnsId = s.dnsId := rfl
@[simp] theorem State.overrun_dnsLport (s : State) : s.overrun.dnsLport = s.dnsLport := rfl
@[simp] theorem State.overrun_pingIdseq (s : State) : s.overrun.pingIdseq = s.pingIdseq := rfl
@[simp] theorem State.overrun_evtKind (s : State) : s.overrun.evtKind = s.evtKind := rfl
@[simp] theorem State.overrun_evtOff (s : State) : s.overrun.evtOff = s.evtOff := rfl
@[simp] theorem State.overrun_evtLen (s : State) : s.overrun.evtLen = s.evtLen := rfl
@[simp] theorem State.overrun_acc (s : State) : s.overrun.acc = s.acc := rfl
@[simp] theorem State.overrun_cnt (s : State) : s.overrun.cnt = s.cnt := rfl
@[simp] theorem State.overrun_frame (s : State) : s.overrun.frame = s.frame := rfl
@[simp] theorem State.overrun_frameGen (s : State) : s.overrun.frameGen = s.frameGen := rfl
@[simp] theorem State.overrun_name (s : State) : s.overrun.name = s.name := rfl
@[simp] theorem State.overrun_nameGen (s : State) : s.overrun.nameGen = s.nameGen := rfl
@[simp] theorem State.overrun_history (s : State) : s.overrun.history = s.history := rfl
@[simp] theorem State.overrun_priorHistory (s : State) : s.overrun.priorHistory = s.priorHistory := rfl
@[simp] theorem State.overrun_macIn (s : State) : s.overrun.macIn = s.macIn := rfl
@[simp] theorem State.overrun_script (s : State) : s.overrun.script = s.script := rfl
@[simp] theorem State.overrun_reads (s : State) : s.overrun.reads = s.reads := rfl
@[simp] theorem State.overrun_checks (s : State) : s.overrun.checks = s.checks := rfl
@[simp] theorem State.overrun_sched (s : State) : s.overrun.sched = s.sched := rfl
@[simp] theorem State.overrun_draws (s : State) : s.overrun.draws = s.draws := rfl

/-! ### `noteRead` -/

@[simp] theorem State.noteRead_cfg (s : State) (off : Nat) (v : Word) : (s.noteRead off v).cfg = s.cfg := rfl
@[simp] theorem State.noteRead_stage (s : State) (off : Nat) (v : Word) : (s.noteRead off v).stage = s.stage := rfl
@[simp] theorem State.noteRead_cmd (s : State) (off : Nat) (v : Word) : (s.noteRead off v).cmd = s.cmd := rfl
@[simp] theorem State.noteRead_arg0 (s : State) (off : Nat) (v : Word) : (s.noteRead off v).arg0 = s.arg0 := rfl
@[simp] theorem State.noteRead_arg1 (s : State) (off : Nat) (v : Word) : (s.noteRead off v).arg1 = s.arg1 := rfl
@[simp] theorem State.noteRead_result0 (s : State) (off : Nat) (v : Word) : (s.noteRead off v).result0 = s.result0 := rfl
@[simp] theorem State.noteRead_result1 (s : State) (off : Nat) (v : Word) : (s.noteRead off v).result1 = s.result1 := rfl
@[simp] theorem State.noteRead_done (s : State) (off : Nat) (v : Word) : (s.noteRead off v).done = s.done := rfl
@[simp] theorem State.noteRead_err (s : State) (off : Nat) (v : Word) : (s.noteRead off v).err = s.err := rfl
@[simp] theorem State.noteRead_ovr (s : State) (off : Nat) (v : Word) : (s.noteRead off v).ovr = s.ovr := rfl
@[simp] theorem State.noteRead_errcode (s : State) (off : Nat) (v : Word) : (s.noteRead off v).errcode = s.errcode := rfl
@[simp] theorem State.noteRead_macHi (s : State) (off : Nat) (v : Word) : (s.noteRead off v).macHi = s.macHi := rfl
@[simp] theorem State.noteRead_macLo (s : State) (off : Nat) (v : Word) : (s.noteRead off v).macLo = s.macLo := rfl
@[simp] theorem State.noteRead_localIp (s : State) (off : Nat) (v : Word) : (s.noteRead off v).localIp = s.localIp := rfl
@[simp] theorem State.noteRead_initMacHi (s : State) (off : Nat) (v : Word) : (s.noteRead off v).initMacHi = s.initMacHi := rfl
@[simp] theorem State.noteRead_initMacLo (s : State) (off : Nat) (v : Word) : (s.noteRead off v).initMacLo = s.initMacLo := rfl
@[simp] theorem State.noteRead_initIp (s : State) (off : Nat) (v : Word) : (s.noteRead off v).initIp = s.initIp := rfl
@[simp] theorem State.noteRead_linePort (s : State) (off : Nat) (v : Word) : (s.noteRead off v).linePort = s.linePort := rfl
@[simp] theorem State.noteRead_httpPort (s : State) (off : Nat) (v : Word) : (s.noteRead off v).httpPort = s.httpPort := rfl
@[simp] theorem State.noteRead_dnsId (s : State) (off : Nat) (v : Word) : (s.noteRead off v).dnsId = s.dnsId := rfl
@[simp] theorem State.noteRead_dnsLport (s : State) (off : Nat) (v : Word) : (s.noteRead off v).dnsLport = s.dnsLport := rfl
@[simp] theorem State.noteRead_pingIdseq (s : State) (off : Nat) (v : Word) : (s.noteRead off v).pingIdseq = s.pingIdseq := rfl
@[simp] theorem State.noteRead_evtKind (s : State) (off : Nat) (v : Word) : (s.noteRead off v).evtKind = s.evtKind := rfl
@[simp] theorem State.noteRead_evtOff (s : State) (off : Nat) (v : Word) : (s.noteRead off v).evtOff = s.evtOff := rfl
@[simp] theorem State.noteRead_evtLen (s : State) (off : Nat) (v : Word) : (s.noteRead off v).evtLen = s.evtLen := rfl
@[simp] theorem State.noteRead_acc (s : State) (off : Nat) (v : Word) : (s.noteRead off v).acc = s.acc := rfl
@[simp] theorem State.noteRead_cnt (s : State) (off : Nat) (v : Word) : (s.noteRead off v).cnt = s.cnt := rfl
@[simp] theorem State.noteRead_frame (s : State) (off : Nat) (v : Word) : (s.noteRead off v).frame = s.frame := rfl
@[simp] theorem State.noteRead_frameGen (s : State) (off : Nat) (v : Word) : (s.noteRead off v).frameGen = s.frameGen := rfl
@[simp] theorem State.noteRead_name (s : State) (off : Nat) (v : Word) : (s.noteRead off v).name = s.name := rfl
@[simp] theorem State.noteRead_nameGen (s : State) (off : Nat) (v : Word) : (s.noteRead off v).nameGen = s.nameGen := rfl
@[simp] theorem State.noteRead_history (s : State) (off : Nat) (v : Word) : (s.noteRead off v).history = s.history := rfl
@[simp] theorem State.noteRead_priorHistory (s : State) (off : Nat) (v : Word) : (s.noteRead off v).priorHistory = s.priorHistory := rfl
@[simp] theorem State.noteRead_macIn (s : State) (off : Nat) (v : Word) : (s.noteRead off v).macIn = s.macIn := rfl
@[simp] theorem State.noteRead_script (s : State) (off : Nat) (v : Word) : (s.noteRead off v).script = s.script := rfl
@[simp] theorem State.noteRead_reads (s : State) (off : Nat) (v : Word) : (s.noteRead off v).reads = (off, v) :: s.reads := rfl
@[simp] theorem State.noteRead_checks (s : State) (off : Nat) (v : Word) : (s.noteRead off v).checks = s.checks := rfl
@[simp] theorem State.noteRead_sched (s : State) (off : Nat) (v : Word) : (s.noteRead off v).sched = s.sched := rfl
@[simp] theorem State.noteRead_draws (s : State) (off : Nat) (v : Word) : (s.noteRead off v).draws = s.draws + 1 := rfl

end Sys2Proof.Machine
end

