-- ==== Sys2Proof/Laws/Memory.lean ====
section
/-! SUPPORT. Memories: what a store changes and that it keeps the canonical form; and the frame buffer read after a store
(20_memory.md R82 to R84). -/

namespace Sys2Proof.Machine

/-! ### A memory by itself -/

theorem Memory.byteAt_append (m n : Memory) (x : Nat) :
    Memory.byteAt (m ++ n) x = (m.byteAt x).or (n.byteAt x) := by
  induction m with
  | nil => simp [Memory.byteAt]
  | cons c m ih => by_cases h : c.1 = x <;> simp [Memory.byteAt, h, ih]

theorem Memory.byteAt_filter (m : Memory) (p : Nat → Bool) (x : Nat) :
    Memory.byteAt (m.filter fun c => p c.1) x = if p x then m.byteAt x else none := by
  induction m with
  | nil => simp [Memory.byteAt]
  | cons c m ih =>
    by_cases hp : p c.1 <;> by_cases hx : c.1 = x <;> simp_all [Memory.byteAt]

theorem Memory.byteAt_cells (a : Nat) (bs : List Byte) (x : Nat) :
    Memory.byteAt (Memory.cells a bs) x = if a ≤ x then bs[x - a]? else none := by
  induction bs generalizing a with
  | nil => simp [Memory.cells, Memory.byteAt]
  | cons b bs ih =>
    simp only [Memory.cells, Memory.byteAt, ih]
    rcases Nat.lt_trichotomy x a with h | h | h
    · simp [Nat.not_le.2 h, show ¬ a + 1 ≤ x by omega, show a ≠ x by omega]
    · simp [h]
    · obtain ⟨k, rfl⟩ : ∃ k, x = a + 1 + k := ⟨x - (a + 1), by omega⟩
      simp [show a + 1 + k - a = k + 1 by omega, show a ≤ a + 1 + k by omega, show a ≠ a + 1 + k by omega]

/-- A read after a store: the stored byte inside the stored run, the old byte outside it. -/
theorem Memory.byteAt_write (m : Memory) (a : Nat) (bs : List Byte) (x : Nat) :
    (m.write a bs).byteAt x = if a ≤ x ∧ x < a + bs.length then bs[x - a]? else m.byteAt x := by
  have h1 := Memory.byteAt_filter m (fun y => decide (y < a)) x
  have h2 := Memory.byteAt_filter m (fun y => decide (a + bs.length ≤ y)) x
  simp only [Memory.write, Memory.byteAt_append, h1, h2, Memory.byteAt_cells]
  rcases Nat.lt_or_ge x a with h | h
  · simp [h, Nat.not_le.2 h, show ¬ a + bs.length ≤ x by omega]
  · rcases Nat.lt_or_ge x (a + bs.length) with h' | h'
    · have : x - a < bs.length := by omega
      simp [h, h', Nat.not_lt.2 h, Nat.not_le.2 h', List.getElem?_eq_getElem this]
    · have : bs.length ≤ x - a := by omega
      simp [h, h', Nat.not_lt.2 h, Nat.not_lt.2 h', List.getElem?_eq_none this]

theorem Memory.cells_mem (a : Nat) (bs : List Byte) : ∀ c ∈ Memory.cells a bs, a ≤ c.1 ∧ c.1 < a + bs.length := by
  induction bs generalizing a with
  | nil => simp [Memory.cells]
  | cons b bs ih =>
    intro c hc
    rcases List.mem_cons.1 hc with rfl | hc
    · simp
    · have := ih (a + 1) c hc
      simp only [List.length_cons]; omega

theorem Memory.cells_wf (a : Nat) (bs : List Byte) : (Memory.cells a bs).wf := by
  induction bs generalizing a with
  | nil => exact List.Pairwise.nil
  | cons b bs ih =>
    refine List.Pairwise.cons (fun c hc => ?_) (ih (a + 1))
    have := Memory.cells_mem (a + 1) bs c hc
    simp only; omega

/-- Every store keeps the canonical form. -/
theorem Memory.write_wf {m : Memory} (h : m.wf) (a : Nat) (bs : List Byte) : (m.write a bs).wf := by
  unfold Memory.write
  refine List.pairwise_append.2 ⟨List.pairwise_append.2 ⟨h.filter _, Memory.cells_wf a bs, ?_⟩, h.filter _, ?_⟩
  · intro c hc d hd
    have h1 := (List.mem_filter.1 hc).2
    have h2 := Memory.cells_mem a bs d hd
    simp only [decide_eq_true_eq] at h1
    omega
  · intro c hc d hd
    have h3 := (List.mem_filter.1 hd).2
    simp only [decide_eq_true_eq] at h3
    rcases List.mem_append.1 hc with hc | hc
    · have h1 := (List.mem_filter.1 hc).2
      simp only [decide_eq_true_eq] at h1
      omega
    · have h2 := Memory.cells_mem a bs c hc
      omega

/-- A store inside the bound keeps every address inside it. -/
theorem Memory.write_within {m : Memory} {n : Nat} (h : m.within n) {a : Nat} {bs : List Byte}
    (hb : a + bs.length ≤ n) : (m.write a bs).within n := by
  intro c hc
  rcases List.mem_append.1 hc with hc | hc
  · rcases List.mem_append.1 hc with hc | hc
    · exact h c (List.mem_filter.1 hc).1
    · have := Memory.cells_mem a bs c hc
      omega
  · exact h c (List.mem_filter.1 hc).1

/-! ### The bytes of a value -/

@[simp] theorem be16_length (v : Half) : (be16 v).length = 2 := by simp [be16]
@[simp] theorem be32_length (v : Word) : (be32 v).length = 4 := by simp [be32]
@[simp] theorem be48_length (v : HwAddr) : (be48 v).length = 6 := by simp [be48]

/-! ### The frame buffer -/

@[simp] theorem State.wr8_eq (s : State) (a : Nat) (v : Byte) : s.wr8 a v = s.writeB a [v] := rfl
@[simp] theorem State.wr16_eq (s : State) (a : Nat) (v : Half) : s.wr16 a v = s.writeB a (be16 v) := rfl
@[simp] theorem State.wr32_eq (s : State) (a : Nat) (v : Word) : s.wr32 a v = s.writeB a (be32 v) := rfl
@[simp] theorem State.wr48_eq (s : State) (a : Nat) (v : HwAddr) : s.wr48 a v = s.writeB a (be48 v) := rfl

@[simp] theorem State.readB_length (s : State) (a n : Nat) : (s.readB a n).length = n := by simp [State.readB]

theorem State.readB_getElem (s : State) (a n i : Nat) (h : i < (s.readB a n).length) :
    (s.readB a n)[i] = s.byteB (a + i) := by simp [State.readB]

/-- A byte of `B` after a store: the stored byte inside the stored run, the old byte outside it. -/
theorem State.byteB_writeB (s : State) (a : Nat) (bs : List Byte) (x : Nat) :
    (s.writeB a bs).byteB x = if a ≤ x ∧ x < a + bs.length then bs.getD (x - a) 0 else s.byteB x := by
  simp only [State.byteB, State.writeB_frame, State.writeB_frameGen, Memory.byteAt_write]
  split
  · next h =>
    have : x - a < bs.length := by omega
    simp [List.getElem?_eq_getElem this]
  · rfl

/-- A store leaves every byte outside the stored run alone. -/
theorem State.byteB_writeB_outside (s : State) {a : Nat} {bs : List Byte} {x : Nat}
    (h : x < a ∨ a + bs.length ≤ x) : (s.writeB a bs).byteB x = s.byteB x := by
  rw [State.byteB_writeB, if_neg (by omega)]

/-- Two states with the same `B` read the same bytes. -/
theorem State.byteB_congr {s t : State} (h : t.frame = s.frame) (hg : t.frameGen = s.frameGen) (x : Nat) :
    t.byteB x = s.byteB x := by simp [State.byteB, h, hg]

theorem State.rd16_congr {s t : State} {a : Nat} (h0 : t.byteB a = s.byteB a) (h1 : t.byteB (a + 1) = s.byteB (a + 1)) :
    t.rd16 a = s.rd16 a := by simp [State.rd16, h0, h1]

/-- A value is its high part followed by its low part. -/
theorem extract_append (k w : Nat) (v : BitVec (k + w)) : v.extractLsb' w k ++ v.extractLsb' 0 w = v := by
  apply BitVec.eq_of_getLsbD_eq
  intro i hi
  rw [BitVec.getLsbD_append]
  by_cases h : i < w
  · simp [h]
  · simp only [h, decide_false, BitVec.getLsbD_extractLsb']
    simp [show i - w < k by omega, show w + (i - w) = i by omega]

/-- Reading a 16-bit field just stored gives the value (R83). -/
@[simp] theorem State.rd16_writeB_be16 (s : State) (a : Nat) (v : Half) : (s.writeB a (be16 v)).rd16 a = v := by
  have := extract_append 8 8 v
  simpa [State.rd16, State.byteB_writeB, be16] using this

/-- A 16-bit field inside a stored run. -/
theorem State.rd16_writeB_inside (s : State) (a : Nat) (bs : List Byte) (k x : Nat) (hx : x = a + k)
    (h : k + 1 < bs.length) : (s.writeB a bs).rd16 x = bs.getD k 0 ++ bs.getD (k + 1) 0 := by
  subst hx
  simp only [State.rd16, State.byteB_writeB]
  rw [if_pos (by omega), if_pos (by omega), show a + k - a = k by omega, show a + k + 1 - a = k + 1 by omega]

/-- Reading a 32-bit field just stored gives the value (R83, R84). -/
@[simp] theorem State.rd32_writeB_be32 (s : State) (a : Nat) (v : Word) : (s.writeB a (be32 v)).rd32 a = v := by
  rw [State.rd32, State.rd16_writeB_inside s a _ 0 a (by omega) (by simp),
    State.rd16_writeB_inside s a _ 2 (a + 2) (by omega) (by simp)]
  exact (congrArg₂ (· ++ ·) (extract_append 8 8 (v.extractLsb' 16 16)) (extract_append 8 8 (v.extractLsb' 0 16))).trans
    (extract_append 16 16 v)

/-- Reading a 48-bit field just stored gives the value. -/
@[simp] theorem State.rd48_writeB_be48 (s : State) (a : Nat) (v : HwAddr) : (s.writeB a (be48 v)).rd48 a = v := by
  rw [State.rd48, State.rd32, State.rd16_writeB_inside s a _ 0 a (by omega) (by simp),
    State.rd16_writeB_inside s a _ 2 (a + 2) (by omega) (by simp),
    State.rd16_writeB_inside s a _ 4 (a + 2 + 2) (by omega) (by simp)]
  exact (congrArg₂ (· ++ ·) (extract_append 8 8 (v.extractLsb' 32 16))
    ((congrArg₂ (· ++ ·) (extract_append 8 8 ((v.extractLsb' 0 32).extractLsb' 16 16))
      (extract_append 8 8 ((v.extractLsb' 0 32).extractLsb' 0 16))).trans
        (extract_append 16 16 (v.extractLsb' 0 32)))).trans (extract_append 16 32 v)

/-- Reading a byte just stored gives it. -/
@[simp] theorem State.rd8_writeB_singleton (s : State) (a : Nat) (v : Byte) : (s.writeB a [v]).rd8 a = v := by
  simp [State.rd8, State.byteB_writeB]

/-! Fields outside a store read as before. -/

theorem State.rd8_writeB_outside (s : State) {a x : Nat} {bs : List Byte} (h : x + 1 ≤ a ∨ a + bs.length ≤ x) :
    (s.writeB a bs).rd8 x = s.rd8 x := State.byteB_writeB_outside s (by omega)

theorem State.rd16_writeB_outside (s : State) {a x : Nat} {bs : List Byte} (h : x + 2 ≤ a ∨ a + bs.length ≤ x) :
    (s.writeB a bs).rd16 x = s.rd16 x := by
  simp only [State.rd16]
  rw [State.byteB_writeB_outside s (by omega), State.byteB_writeB_outside s (by omega)]

theorem State.rd32_writeB_outside (s : State) {a x : Nat} {bs : List Byte} (h : x + 4 ≤ a ∨ a + bs.length ≤ x) :
    (s.writeB a bs).rd32 x = s.rd32 x := by
  simp only [State.rd32]
  rw [State.rd16_writeB_outside s (by omega), State.rd16_writeB_outside s (by omega)]

theorem State.rd48_writeB_outside (s : State) {a x : Nat} {bs : List Byte} (h : x + 6 ≤ a ∨ a + bs.length ≤ x) :
    (s.writeB a bs).rd48 x = s.rd48 x := by
  simp only [State.rd48]
  rw [State.rd16_writeB_outside s (by omega), State.rd32_writeB_outside s (by omega)]

theorem State.readB_writeB_outside (s : State) {a x n : Nat} {bs : List Byte} (h : x + n ≤ a ∨ a + bs.length ≤ x) :
    (s.writeB a bs).readB x n = s.readB x n := by
  apply List.ext_getElem
  · simp
  · intro i h1 h2
    simp only [State.readB_length] at h1
    rw [State.readB_getElem, State.readB_getElem]
    exact State.byteB_writeB_outside s (by omega)

/-- Storing what a run of `B` already holds changes no byte. -/
theorem State.byteB_copyB_self (s : State) (a n x : Nat) : (s.copyB a a n).byteB x = s.byteB x := by
  simp only [State.copyB, State.byteB_writeB, State.readB_length]
  split
  · next h =>
    have : x - a < (s.readB a n).length := by simp; omega
    rw [List.getD_eq_getElem _ _ this, State.readB_getElem]
    congr 1; omega
  · rfl

/-! ### Updates that leave `B` alone read the same bytes -/

@[simp] theorem State.byteB_setAcc (s : State) (v : Word) (x : Nat) : (s.setAcc v).byteB x = s.byteB x := rfl
@[simp] theorem State.byteB_macSend (s : State) (n x : Nat) : (s.macSend n).byteB x = s.byteB x := rfl
@[simp] theorem State.byteB_finish (s : State) (r0 r1 : Word) (x : Nat) : (s.finish r0 r1).byteB x = s.byteB x := rfl
@[simp] theorem State.byteB_raise (s : State) (c : CmdError) (x : Nat) : (s.raise c).byteB x = s.byteB x := rfl
@[simp] theorem State.byteB_clearEvent (s : State) (x : Nat) : s.clearEvent.byteB x = s.byteB x := rfl
@[simp] theorem State.byteB_setEvent (s : State) (e : BitVec 3) (o l : Half) (x : Nat) :
    (s.setEvent e o l).byteB x = s.byteB x := rfl
@[simp] theorem State.byteB_beginWait (s : State) (g : Stage) (t : Word) (x : Nat) :
    (s.beginWait g t).byteB x = s.byteB x := rfl
@[simp] theorem State.byteB_setStage (s : State) (g : Stage) (x : Nat) : (s.setStage g).byteB x = s.byteB x := rfl
@[simp] theorem State.byteB_scrambleN (s : State) (x : Nat) : s.scrambleN.byteB x = s.byteB x := rfl
@[simp] theorem State.byteB_nextPing (s : State) (x : Nat) : s.nextPing.byteB x = s.byteB x := rfl
@[simp] theorem State.byteB_nextDnsId (s : State) (x : Nat) : s.nextDnsId.byteB x = s.byteB x := rfl

/-- A received frame overwrites `B[0 .. n−1]` and nothing else (10_state.md R51, 60_exceptions.md R353). -/
theorem State.byteB_macReceive (s : State) (x : Nat) :
    s.macReceive.byteB x = if x < s.nextFrame.length then s.nextFrame.getD x 0 else s.byteB x := by
  have := State.byteB_writeB s 0 s.nextFrame x
  simpa [State.byteB] using this

theorem State.nextFrame_length_le (s : State) : s.nextFrame.length ≤ s.cfg.bufSize := by
  simp only [State.nextFrame, List.length_take]; omega

end Sys2Proof.Machine
end

