-- ==== Sys2Proof/Laws/Ops.lean ====
section
/-! SUPPORT. For each shared operation, once, everything it can do: which fields of State it may change, which bytes of `B` it writes, and
what they hold afterwards. -/

namespace Sys2Proof.Machine

/-! ### Reads of `B` through updates that leave it alone -/

theorem State.rd8_of_byteB {s t : State} {a : Nat} (h : t.byteB a = s.byteB a) : t.rd8 a = s.rd8 a := h

theorem State.rd16_of_byteB {s t : State} {a : Nat} (h : ∀ x, a ≤ x → x < a + 2 → t.byteB x = s.byteB x) :
    t.rd16 a = s.rd16 a := by simp only [State.rd16]; rw [h a (by omega) (by omega), h (a + 1) (by omega) (by omega)]

theorem State.rd32_of_byteB {s t : State} {a : Nat} (h : ∀ x, a ≤ x → x < a + 4 → t.byteB x = s.byteB x) :
    t.rd32 a = s.rd32 a := by
  simp only [State.rd32]
  rw [State.rd16_of_byteB fun x h1 h2 => h x (by omega) (by omega), State.rd16_of_byteB fun x h1 h2 => h x (by omega) (by omega)]

theorem State.rd48_of_byteB {s t : State} {a : Nat} (h : ∀ x, a ≤ x → x < a + 6 → t.byteB x = s.byteB x) :
    t.rd48 a = s.rd48 a := by
  simp only [State.rd48]
  rw [State.rd16_of_byteB fun x h1 h2 => h x (by omega) (by omega), State.rd32_of_byteB fun x h1 h2 => h x (by omega) (by omega)]

theorem State.readB_of_byteB {s t : State} {a n : Nat} (h : ∀ x, a ≤ x → x < a + n → t.byteB x = s.byteB x) :
    t.readB a n = s.readB a n := by
  apply List.map_congr_left
  intro x hx
  have := List.mem_range'_1.1 hx
  exact h x this.1 this.2

/-- Two states with the same `B` agree on every read of it. -/
theorem State.reads_congr {s t : State} (h : t.frame = s.frame) (hg : t.frameGen = s.frameGen) :
    (∀ a, t.rd8 a = s.rd8 a) ∧ (∀ a, t.rd16 a = s.rd16 a) ∧ (∀ a, t.rd32 a = s.rd32 a) ∧ (∀ a, t.rd48 a = s.rd48 a) ∧
      (∀ a n, t.readB a n = s.readB a n) := by
  have hb := State.byteB_congr h hg
  exact ⟨fun a => hb a, fun a => State.rd16_of_byteB fun x _ _ => hb x, fun a => State.rd32_of_byteB fun x _ _ => hb x,
    fun a => State.rd48_of_byteB fun x _ _ => hb x, fun a n => State.readB_of_byteB fun x _ _ => hb x⟩

/-! Reads of `B` through the updates that leave it alone. -/

@[simp] theorem State.rd8_setAcc (s : State) (v : Word) (a : Nat) : (s.setAcc v).rd8 a = s.rd8 a := rfl
@[simp] theorem State.rd16_setAcc (s : State) (v : Word) (a : Nat) : (s.setAcc v).rd16 a = s.rd16 a := rfl
@[simp] theorem State.rd32_setAcc (s : State) (v : Word) (a : Nat) : (s.setAcc v).rd32 a = s.rd32 a := rfl
@[simp] theorem State.rd48_setAcc (s : State) (v : Word) (a : Nat) : (s.setAcc v).rd48 a = s.rd48 a := rfl
@[simp] theorem State.readB_setAcc (s : State) (v : Word) (a n : Nat) : (s.setAcc v).readB a n = s.readB a n := rfl
@[simp] theorem State.rd8_macSend (s : State) (k : Nat) (a : Nat) : (s.macSend k).rd8 a = s.rd8 a := rfl
@[simp] theorem State.rd16_macSend (s : State) (k : Nat) (a : Nat) : (s.macSend k).rd16 a = s.rd16 a := rfl
@[simp] theorem State.rd32_macSend (s : State) (k : Nat) (a : Nat) : (s.macSend k).rd32 a = s.rd32 a := rfl
@[simp] theorem State.rd48_macSend (s : State) (k : Nat) (a : Nat) : (s.macSend k).rd48 a = s.rd48 a := rfl
@[simp] theorem State.readB_macSend (s : State) (k : Nat) (a n : Nat) : (s.macSend k).readB a n = s.readB a n := rfl
@[simp] theorem State.rd8_finish (s : State) (r0 r1 : Word) (a : Nat) : (s.finish r0 r1).rd8 a = s.rd8 a := rfl
@[simp] theorem State.rd16_finish (s : State) (r0 r1 : Word) (a : Nat) : (s.finish r0 r1).rd16 a = s.rd16 a := rfl
@[simp] theorem State.rd32_finish (s : State) (r0 r1 : Word) (a : Nat) : (s.finish r0 r1).rd32 a = s.rd32 a := rfl
@[simp] theorem State.rd48_finish (s : State) (r0 r1 : Word) (a : Nat) : (s.finish r0 r1).rd48 a = s.rd48 a := rfl
@[simp] theorem State.readB_finish (s : State) (r0 r1 : Word) (a n : Nat) : (s.finish r0 r1).readB a n = s.readB a n := rfl
@[simp] theorem State.rd8_raise (s : State) (c : CmdError) (a : Nat) : (s.raise c).rd8 a = s.rd8 a := rfl
@[simp] theorem State.rd16_raise (s : State) (c : CmdError) (a : Nat) : (s.raise c).rd16 a = s.rd16 a := rfl
@[simp] theorem State.rd32_raise (s : State) (c : CmdError) (a : Nat) : (s.raise c).rd32 a = s.rd32 a := rfl
@[simp] theorem State.rd48_raise (s : State) (c : CmdError) (a : Nat) : (s.raise c).rd48 a = s.rd48 a := rfl
@[simp] theorem State.readB_raise (s : State) (c : CmdError) (a n : Nat) : (s.raise c).readB a n = s.readB a n := rfl
@[simp] theorem State.rd8_clearEvent (s : State) (a : Nat) : s.clearEvent.rd8 a = s.rd8 a := rfl
@[simp] theorem State.rd16_clearEvent (s : State) (a : Nat) : s.clearEvent.rd16 a = s.rd16 a := rfl
@[simp] theorem State.rd32_clearEvent (s : State) (a : Nat) : s.clearEvent.rd32 a = s.rd32 a := rfl
@[simp] theorem State.rd48_clearEvent (s : State) (a : Nat) : s.clearEvent.rd48 a = s.rd48 a := rfl
@[simp] theorem State.readB_clearEvent (s : State) (a n : Nat) : s.clearEvent.readB a n = s.readB a n := rfl
@[simp] theorem State.rd8_setEvent (s : State) (e : BitVec 3) (o l : Half) (a : Nat) : (s.setEvent e o l).rd8 a = s.rd8 a := rfl
@[simp] theorem State.rd16_setEvent (s : State) (e : BitVec 3) (o l : Half) (a : Nat) : (s.setEvent e o l).rd16 a = s.rd16 a := rfl
@[simp] theorem State.rd32_setEvent (s : State) (e : BitVec 3) (o l : Half) (a : Nat) : (s.setEvent e o l).rd32 a = s.rd32 a := rfl
@[simp] theorem State.rd48_setEvent (s : State) (e : BitVec 3) (o l : Half) (a : Nat) : (s.setEvent e o l).rd48 a = s.rd48 a := rfl
@[simp] theorem State.readB_setEvent (s : State) (e : BitVec 3) (o l : Half) (a n : Nat) : (s.setEvent e o l).readB a n = s.readB a n := rfl
@[simp] theorem State.rd8_beginWait (s : State) (g : Stage) (w : Word) (a : Nat) : (s.beginWait g w).rd8 a = s.rd8 a := rfl
@[simp] theorem State.rd16_beginWait (s : State) (g : Stage) (w : Word) (a : Nat) : (s.beginWait g w).rd16 a = s.rd16 a := rfl
@[simp] theorem State.rd32_beginWait (s : State) (g : Stage) (w : Word) (a : Nat) : (s.beginWait g w).rd32 a = s.rd32 a := rfl
@[simp] theorem State.rd48_beginWait (s : State) (g : Stage) (w : Word) (a : Nat) : (s.beginWait g w).rd48 a = s.rd48 a := rfl
@[simp] theorem State.readB_beginWait (s : State) (g : Stage) (w : Word) (a n : Nat) : (s.beginWait g w).readB a n = s.readB a n := rfl
@[simp] theorem State.rd8_setStage (s : State) (g : Stage) (a : Nat) : (s.setStage g).rd8 a = s.rd8 a := rfl
@[simp] theorem State.rd16_setStage (s : State) (g : Stage) (a : Nat) : (s.setStage g).rd16 a = s.rd16 a := rfl
@[simp] theorem State.rd32_setStage (s : State) (g : Stage) (a : Nat) : (s.setStage g).rd32 a = s.rd32 a := rfl
@[simp] theorem State.rd48_setStage (s : State) (g : Stage) (a : Nat) : (s.setStage g).rd48 a = s.rd48 a := rfl
@[simp] theorem State.readB_setStage (s : State) (g : Stage) (a n : Nat) : (s.setStage g).readB a n = s.readB a n := rfl
@[simp] theorem State.rd8_decCnt (s : State) (a : Nat) : s.decCnt.rd8 a = s.rd8 a := rfl
@[simp] theorem State.rd16_decCnt (s : State) (a : Nat) : s.decCnt.rd16 a = s.rd16 a := rfl
@[simp] theorem State.rd32_decCnt (s : State) (a : Nat) : s.decCnt.rd32 a = s.rd32 a := rfl
@[simp] theorem State.rd48_decCnt (s : State) (a : Nat) : s.decCnt.rd48 a = s.rd48 a := rfl
@[simp] theorem State.readB_decCnt (s : State) (a n : Nat) : s.decCnt.readB a n = s.readB a n := rfl
@[simp] theorem State.rd8_scrambleN (s : State) (a : Nat) : s.scrambleN.rd8 a = s.rd8 a := rfl
@[simp] theorem State.rd16_scrambleN (s : State) (a : Nat) : s.scrambleN.rd16 a = s.rd16 a := rfl
@[simp] theorem State.rd32_scrambleN (s : State) (a : Nat) : s.scrambleN.rd32 a = s.rd32 a := rfl
@[simp] theorem State.rd48_scrambleN (s : State) (a : Nat) : s.scrambleN.rd48 a = s.rd48 a := rfl
@[simp] theorem State.readB_scrambleN (s : State) (a n : Nat) : s.scrambleN.readB a n = s.readB a n := rfl
@[simp] theorem State.rd8_nextPing (s : State) (a : Nat) : s.nextPing.rd8 a = s.rd8 a := rfl
@[simp] theorem State.rd16_nextPing (s : State) (a : Nat) : s.nextPing.rd16 a = s.rd16 a := rfl
@[simp] theorem State.rd32_nextPing (s : State) (a : Nat) : s.nextPing.rd32 a = s.rd32 a := rfl
@[simp] theorem State.rd48_nextPing (s : State) (a : Nat) : s.nextPing.rd48 a = s.rd48 a := rfl
@[simp] theorem State.readB_nextPing (s : State) (a n : Nat) : s.nextPing.readB a n = s.readB a n := rfl
@[simp] theorem State.rd8_nextDnsId (s : State) (a : Nat) : s.nextDnsId.rd8 a = s.rd8 a := rfl
@[simp] theorem State.rd16_nextDnsId (s : State) (a : Nat) : s.nextDnsId.rd16 a = s.rd16 a := rfl
@[simp] theorem State.rd32_nextDnsId (s : State) (a : Nat) : s.nextDnsId.rd32 a = s.rd32 a := rfl
@[simp] theorem State.rd48_nextDnsId (s : State) (a : Nat) : s.nextDnsId.rd48 a = s.rd48 a := rfl
@[simp] theorem State.readB_nextDnsId (s : State) (a n : Nat) : s.nextDnsId.readB a n = s.readB a n := rfl
@[simp] theorem State.byteB_decCnt (s : State) (x : Nat) : s.decCnt.byteB x = s.byteB x := rfl

/-! ### What an operation may change -/

/-- `t` differs from `s` in `B` only. -/
def State.OnlyFrame (s t : State) : Prop := t = { s with frame := t.frame }

/-- `t` differs from `s` in `B` and ACC, and its history has grown by `h`. -/
def State.Emits (s t : State) (h : List MacEvent) : Prop :=
  t = { s with frame := t.frame, acc := t.acc, history := s.history ++ h }

theorem State.OnlyFrame.refl (s : State) : s.OnlyFrame s := rfl

theorem State.OnlyFrame.trans {s t u : State} (h : s.OnlyFrame t) (h' : t.OnlyFrame u) : s.OnlyFrame u := by
  obtain ⟨f, rfl⟩ : ∃ f, t = { s with frame := f } := ⟨_, h⟩
  exact h'

theorem State.writeB_onlyFrame (s : State) (a : Nat) (bs : List Byte) : s.OnlyFrame (s.writeB a bs) := rfl

theorem State.OnlyFrame.writeB {s t : State} (h : s.OnlyFrame t) (a : Nat) (bs : List Byte) : s.OnlyFrame (t.writeB a bs) :=
  h.trans (t.writeB_onlyFrame a bs)

theorem State.OnlyFrame.localMac {s t : State} (h : s.OnlyFrame t) : t.localMac = s.localMac := by rw [h]; rfl

theorem State.OnlyFrame.emits {s t : State} (h : s.OnlyFrame t) : s.Emits t [] := by
  obtain ⟨f, rfl⟩ : ∃ f, t = { s with frame := f } := ⟨_, h⟩
  simp [State.Emits]

theorem State.Emits.trans {s t u : State} {h h' : List MacEvent} (e : s.Emits t h) (e' : t.Emits u h') :
    s.Emits u (h ++ h') := by
  obtain ⟨f, a, rfl⟩ : ∃ f a, t = { s with frame := f, acc := a, history := s.history ++ h } := ⟨_, _, e⟩
  rw [State.Emits] at e' ⊢
  simpa [List.append_assoc] using e'

theorem State.setAcc_emits (s : State) (v : Word) : s.Emits (s.setAcc v) [] := by simp [State.Emits, State.setAcc]

theorem State.Emits.setAcc {s t : State} {h : List MacEvent} (e : s.Emits t h) (v : Word) : s.Emits (t.setAcc v) h := by
  simpa using e.trans (t.setAcc_emits v)

theorem State.Emits.writeB {s t : State} {h : List MacEvent} (e : s.Emits t h) (a : Nat) (bs : List Byte) :
    s.Emits (t.writeB a bs) h := by simpa using e.trans (t.writeB_onlyFrame a bs).emits

theorem State.Emits.localMac {s t : State} {h : List MacEvent} (e : s.Emits t h) : t.localMac = s.localMac := by rw [e]; rfl

/-! The fields such an operation leaves alone. -/

theorem State.Emits.cfg_eq {s t : State} {h : List MacEvent} (e : s.Emits t h) : t.cfg = s.cfg := by rw [e]
theorem State.Emits.stage_eq {s t : State} {h : List MacEvent} (e : s.Emits t h) : t.stage = s.stage := by rw [e]
theorem State.Emits.cmd_eq {s t : State} {h : List MacEvent} (e : s.Emits t h) : t.cmd = s.cmd := by rw [e]
theorem State.Emits.arg0_eq {s t : State} {h : List MacEvent} (e : s.Emits t h) : t.arg0 = s.arg0 := by rw [e]
theorem State.Emits.arg1_eq {s t : State} {h : List MacEvent} (e : s.Emits t h) : t.arg1 = s.arg1 := by rw [e]
theorem State.Emits.macHi_eq {s t : State} {h : List MacEvent} (e : s.Emits t h) : t.macHi = s.macHi := by rw [e]
theorem State.Emits.macLo_eq {s t : State} {h : List MacEvent} (e : s.Emits t h) : t.macLo = s.macLo := by rw [e]
theorem State.Emits.localIp_eq {s t : State} {h : List MacEvent} (e : s.Emits t h) : t.localIp = s.localIp := by rw [e]
theorem State.Emits.initMacHi_eq {s t : State} {h : List MacEvent} (e : s.Emits t h) : t.initMacHi = s.initMacHi := by rw [e]
theorem State.Emits.initMacLo_eq {s t : State} {h : List MacEvent} (e : s.Emits t h) : t.initMacLo = s.initMacLo := by rw [e]
theorem State.Emits.initIp_eq {s t : State} {h : List MacEvent} (e : s.Emits t h) : t.initIp = s.initIp := by rw [e]
theorem State.Emits.linePort_eq {s t : State} {h : List MacEvent} (e : s.Emits t h) : t.linePort = s.linePort := by rw [e]
theorem State.Emits.httpPort_eq {s t : State} {h : List MacEvent} (e : s.Emits t h) : t.httpPort = s.httpPort := by rw [e]
theorem State.Emits.dnsId_eq {s t : State} {h : List MacEvent} (e : s.Emits t h) : t.dnsId = s.dnsId := by rw [e]
theorem State.Emits.dnsLport_eq {s t : State} {h : List MacEvent} (e : s.Emits t h) : t.dnsLport = s.dnsLport := by rw [e]
theorem State.Emits.pingIdseq_eq {s t : State} {h : List MacEvent} (e : s.Emits t h) : t.pingIdseq = s.pingIdseq := by rw [e]
theorem State.Emits.evtKind_eq {s t : State} {h : List MacEvent} (e : s.Emits t h) : t.evtKind = s.evtKind := by rw [e]
theorem State.Emits.evtOff_eq {s t : State} {h : List MacEvent} (e : s.Emits t h) : t.evtOff = s.evtOff := by rw [e]
theorem State.Emits.evtLen_eq {s t : State} {h : List MacEvent} (e : s.Emits t h) : t.evtLen = s.evtLen := by rw [e]
theorem State.Emits.cnt_eq {s t : State} {h : List MacEvent} (e : s.Emits t h) : t.cnt = s.cnt := by rw [e]
theorem State.Emits.frameGen_eq {s t : State} {h : List MacEvent} (e : s.Emits t h) : t.frameGen = s.frameGen := by rw [e]
theorem State.Emits.name_eq {s t : State} {h : List MacEvent} (e : s.Emits t h) : t.name = s.name := by rw [e]
theorem State.Emits.nameGen_eq {s t : State} {h : List MacEvent} (e : s.Emits t h) : t.nameGen = s.nameGen := by rw [e]
theorem State.Emits.macIn_eq {s t : State} {h : List MacEvent} (e : s.Emits t h) : t.macIn = s.macIn := by rw [e]
theorem State.Emits.draws_eq {s t : State} {h : List MacEvent} (e : s.Emits t h) : t.draws = s.draws := by rw [e]
theorem State.Emits.err_eq {s t : State} {h : List MacEvent} (e : s.Emits t h) : t.err = s.err := by rw [e]
theorem State.Emits.errcode_eq {s t : State} {h : List MacEvent} (e : s.Emits t h) : t.errcode = s.errcode := by rw [e]
theorem State.Emits.history_eq {s t : State} {h : List MacEvent} (e : s.Emits t h) : t.history = s.history ++ h := by rw [e]

/-- A frame sent: nothing but the history changes. -/
theorem State.macSend_emits (s : State) (n : Nat) : s.Emits (s.macSend n) [.sent ((s.macSend n).readB 0 n)] := rfl

@[simp] theorem State.localMac_writeB (s : State) (a : Nat) (bs : List Byte) : (s.writeB a bs).localMac = s.localMac := rfl
@[simp] theorem State.localMac_setAcc (s : State) (v : Word) : (s.setAcc v).localMac = s.localMac := rfl
@[simp] theorem State.localMac_macSend (s : State) (n : Nat) : (s.macSend n).localMac = s.localMac := rfl
@[simp] theorem State.localMac_macReceive (s : State) : s.macReceive.localMac = s.localMac := rfl
@[simp] theorem State.localMac_clearEvent (s : State) : s.clearEvent.localMac = s.localMac := rfl
@[simp] theorem State.localMac_nextPing (s : State) : s.nextPing.localMac = s.localMac := rfl
@[simp] theorem State.localMac_nextDnsId (s : State) : s.nextDnsId.localMac = s.localMac := rfl

/-! ### The Ethernet header and the transmit primitive (R170, R171) -/

theorem State.ethHeader_onlyFrame (s : State) (d : HwAddr) (e : Half) : s.OnlyFrame (s.ethHeader d e) := ((State.OnlyFrame.refl s).writeB _ _ |>.writeB _ _).writeB _ _

theorem State.ethHeader_byteB_ge (s : State) (d : HwAddr) (e : Half) {x : Nat} (h : 14 ≤ x) :
    (s.ethHeader d e).byteB x = s.byteB x := by
  simp only [State.ethHeader, State.wr16_eq, State.wr48_eq]
  rw [State.byteB_writeB_outside _ (by simp; omega), State.byteB_writeB_outside _ (by simp; omega),
    State.byteB_writeB_outside _ (by simp; omega)]

theorem State.ethHeader_dst (s : State) (d : HwAddr) (e : Half) : (s.ethHeader d e).rd48 0 = d := by
  simp only [State.ethHeader, State.wr16_eq, State.wr48_eq]
  rw [State.rd48_writeB_outside _ (by simp), State.rd48_writeB_outside _ (by simp), State.rd48_writeB_be48]

theorem State.ethHeader_src (s : State) (d : HwAddr) (e : Half) : (s.ethHeader d e).rd48 6 = s.localMac := by
  simp only [State.ethHeader, State.wr16_eq, State.wr48_eq]
  rw [State.rd48_writeB_outside _ (by simp), State.rd48_writeB_be48]

theorem State.ethHeader_etype (s : State) (d : HwAddr) (e : Half) : (s.ethHeader d e).rd16 12 = e := by
  simp only [State.ethHeader, State.wr16_eq, State.wr48_eq, State.rd16_writeB_be16]

theorem State.ethReply_emits (s : State) (n : Nat) (e : Half) :
    s.Emits (s.ethReply n e) [.sent ((s.ethReply n e).readB 0 n)] :=
  (State.ethHeader_onlyFrame s (s.rd48 6) e).emits.trans (State.macSend_emits _ n)

theorem State.ethReply_byteB_ge (s : State) (n : Nat) (e : Half) {x : Nat} (h : 14 ≤ x) :
    (s.ethReply n e).byteB x = s.byteB x := by
  rw [State.ethReply, State.byteB_macSend]; exact State.ethHeader_byteB_ge s _ e h

theorem State.ethReply_fields (s : State) (n : Nat) (e : Half) :
    (s.ethReply n e).rd48 0 = s.rd48 6 ∧ (s.ethReply n e).rd48 6 = s.localMac ∧ (s.ethReply n e).rd16 12 = e := by
  rw [State.ethReply, State.rd48_macSend, State.rd48_macSend, State.rd16_macSend]
  exact ⟨State.ethHeader_dst s _ e, State.ethHeader_src s _ e, State.ethHeader_etype s _ e⟩

theorem State.ethDirect_emits (s : State) (n : Nat) (e : Half) (d : HwAddr) :
    s.Emits (s.ethDirect n e d) [.sent ((s.ethDirect n e d).readB 0 n)] :=
  (State.ethHeader_onlyFrame s d e).emits.trans (State.macSend_emits _ n)

theorem State.ethDirect_byteB_ge (s : State) (n : Nat) (e : Half) (d : HwAddr) {x : Nat} (h : 14 ≤ x) :
    (s.ethDirect n e d).byteB x = s.byteB x := by
  rw [State.ethDirect, State.byteB_macSend]; exact State.ethHeader_byteB_ge s d e h

theorem State.ethDirect_fields (s : State) (n : Nat) (e : Half) (d : HwAddr) :
    (s.ethDirect n e d).rd48 0 = d ∧ (s.ethDirect n e d).rd48 6 = s.localMac ∧ (s.ethDirect n e d).rd16 12 = e := by
  rw [State.ethDirect, State.rd48_macSend, State.rd48_macSend, State.rd16_macSend]
  exact ⟨State.ethHeader_dst s d e, State.ethHeader_src s d e, State.ethHeader_etype s d e⟩

/-! ### ARP (R201, R203) -/

theorem State.arpSwap_onlyFrame (s : State) : s.OnlyFrame s.arpSwap := ((((State.OnlyFrame.refl s).writeB _ _).writeB _ _).writeB _ _).writeB _ _

theorem State.arpSwap_byteB_outside (s : State) {x : Nat} (h : x < 22 ∨ 42 ≤ x) : s.arpSwap.byteB x = s.byteB x := by
  simp only [State.arpSwap, State.wr32_eq, State.wr48_eq]
  rw [State.byteB_writeB_outside _ (by simp; omega), State.byteB_writeB_outside _ (by simp; omega),
    State.byteB_writeB_outside _ (by simp; omega), State.byteB_writeB_outside _ (by simp; omega)]

theorem State.arpSwap_fields (s : State) :
    s.arpSwap.rd48 22 = s.rd48 32 ∧ s.arpSwap.rd32 28 = s.rd32 38 ∧ s.arpSwap.rd48 32 = s.rd48 22 ∧
      s.arpSwap.rd32 38 = s.rd32 28 := by
  simp only [State.arpSwap, State.wr32_eq, State.wr48_eq]
  refine ⟨?_, ?_, ?_, ?_⟩
  · rw [State.rd48_writeB_outside _ (by simp), State.rd48_writeB_outside _ (by simp), State.rd48_writeB_outside _ (by simp),
      State.rd48_writeB_be48]
  · rw [State.rd32_writeB_outside _ (by simp), State.rd32_writeB_outside _ (by simp), State.rd32_writeB_be32]
  · rw [State.rd48_writeB_outside _ (by simp), State.rd48_writeB_be48]
  · rw [State.rd32_writeB_be32]

theorem State.arpFields_onlyFrame (s : State) (ip : Word) : s.OnlyFrame (s.arpFields ip) := by
  simp only [State.arpFields, State.wr8_eq, State.wr16_eq, State.wr32_eq, State.wr48_eq]
  repeat' apply State.OnlyFrame.writeB
  exact .refl s

theorem State.arpFields_byteB_outside (s : State) (ip : Word) {x : Nat} (h : x < 14 ∨ 42 ≤ x) :
    (s.arpFields ip).byteB x = s.byteB x := by
  simp only [State.arpFields, State.wr8_eq, State.wr16_eq, State.wr32_eq, State.wr48_eq]
  simp (disch := simp <;> omega) only [State.byteB_writeB_outside]

theorem State.arpFields_fields (s : State) (ip : Word) :
    (s.arpFields ip).rd16 14 = 1 ∧ (s.arpFields ip).rd16 16 = 0x0800 ∧ (s.arpFields ip).rd8 18 = 6 ∧
    (s.arpFields ip).rd8 19 = 4 ∧ (s.arpFields ip).rd16 20 = 1 ∧ (s.arpFields ip).rd48 22 = s.localMac ∧
    (s.arpFields ip).rd32 28 = s.localIp ∧ (s.arpFields ip).rd48 32 = 0 ∧ (s.arpFields ip).rd32 38 = ip := by
  simp only [State.arpFields, State.wr8_eq, State.wr16_eq, State.wr32_eq, State.wr48_eq]
  simp (disch := simp) only [State.rd8_writeB_outside, State.rd16_writeB_outside, State.rd32_writeB_outside,
    State.rd48_writeB_outside, State.rd8_writeB_singleton, State.rd16_writeB_be16, State.rd32_writeB_be32,
    State.rd48_writeB_be48]
  simp [proto]

theorem State.arpRequest_emits (s : State) (ip : Word) :
    s.Emits (s.arpRequest ip) [.sent ((s.arpRequest ip).readB 0 42)] :=
  (State.arpFields_onlyFrame s ip).emits.trans (State.ethDirect_emits _ _ _ _)

/-- ACC is not touched by a request. -/
theorem State.arpRequest_acc (s : State) (ip : Word) : (s.arpRequest ip).acc = s.acc := by
  have h := (State.arpFields_onlyFrame s ip).trans (State.ethHeader_onlyFrame _ proto.bcastMac proto.etypeArp)
  rw [State.arpRequest, State.ethDirect, State.macSend_acc, h]

theorem State.arpRequest_byteB_ge (s : State) (ip : Word) {x : Nat} (h : 42 ≤ x) :
    (s.arpRequest ip).byteB x = s.byteB x := by
  rw [State.arpRequest, State.ethDirect_byteB_ge _ _ _ _ (by omega), State.arpFields_byteB_outside _ _ (by omega)]

theorem State.arpAnswer_emits (s : State) : s.Emits s.arpAnswer [.sent (s.arpAnswer.readB 0 42)] :=
  ((State.arpSwap_onlyFrame s).writeB 20 (be16 proto.arpOpReply)).emits.trans (State.ethReply_emits _ _ _)

theorem State.arpAnswer_acc (s : State) : s.arpAnswer.acc = s.acc := by
  have h := ((State.arpSwap_onlyFrame s).writeB 20 (be16 proto.arpOpReply)).trans
    (State.ethHeader_onlyFrame _ ((s.arpSwap.writeB 20 (be16 proto.arpOpReply)).rd48 6) proto.etypeArp)
  rw [State.arpAnswer, State.ethReply, State.macSend_acc, State.wr16_eq, h]

theorem State.arpAnswer_byteB_outside (s : State) {x : Nat} (h : (14 ≤ x ∧ x < 20) ∨ 42 ≤ x) :
    s.arpAnswer.byteB x = s.byteB x := by
  rw [State.arpAnswer, State.ethReply_byteB_ge _ _ _ (by omega), State.wr16_eq,
    State.byteB_writeB_outside _ (by simp; omega), State.arpSwap_byteB_outside _ (by omega)]

/-! ### Checksum stores (R147) -/

theorem State.csumStore_emits (s : State) (f a n : Nat) : s.Emits (s.csumStore f a n) [] := by
  simp only [State.csumStore, State.leaveAcc, State.wr16_eq]
  exact ((s.writeB_onlyFrame _ _).emits.setAcc _).writeB _ _

theorem State.csumStore_byteB_outside (s : State) (f a n : Nat) {x : Nat} (h : x < f ∨ f + 2 ≤ x) :
    (s.csumStore f a n).byteB x = s.byteB x := by
  simp only [State.csumStore, State.leaveAcc, State.wr16_eq]
  rw [State.byteB_writeB_outside _ (by simp; omega), State.byteB_setAcc, State.byteB_writeB_outside _ (by simp; omega)]

theorem State.pseudoStore_emits (s : State) (f o : Nat) : s.Emits (s.pseudoStore f o) [] := by
  simp only [State.pseudoStore, State.leaveAcc, State.wr16_eq]
  exact ((s.writeB_onlyFrame _ _).emits.setAcc _).writeB _ _

theorem State.pseudoStore_byteB_outside (s : State) (f o : Nat) {x : Nat} (h : x < f ∨ f + 2 ≤ x) :
    (s.pseudoStore f o).byteB x = s.byteB x := by
  simp only [State.pseudoStore, State.leaveAcc, State.wr16_eq]
  rw [State.byteB_writeB_outside _ (by simp; omega), State.byteB_setAcc, State.byteB_writeB_outside _ (by simp; omega)]

/-! ### The IPv4 sender (R232) -/

theorem State.swapAddrs_onlyFrame (s : State) : s.OnlyFrame s.swapAddrs := ((State.OnlyFrame.refl s).writeB _ _).writeB _ _

theorem State.swapAddrs_byteB_outside (s : State) {x : Nat} (h : x < 26 ∨ 34 ≤ x) : s.swapAddrs.byteB x = s.byteB x := by
  simp only [State.swapAddrs, State.wr32_eq]
  rw [State.byteB_writeB_outside _ (by simp; omega), State.byteB_writeB_outside _ (by simp; omega)]

theorem State.swapAddrs_fields (s : State) : s.swapAddrs.rd32 26 = s.rd32 30 ∧ s.swapAddrs.rd32 30 = s.rd32 26 := by
  simp only [State.swapAddrs, State.wr32_eq]
  refine ⟨?_, ?_⟩
  · rw [State.rd32_writeB_outside _ (by simp), State.rd32_writeB_be32]
  · rw [State.rd32_writeB_be32]

theorem State.ipHeader_onlyFrame (s : State) (plen : Nat) (p : Byte) : s.OnlyFrame (s.ipHeader plen p) := by
  refine State.OnlyFrame.trans ?_ (State.swapAddrs_onlyFrame _)
  simp only [State.wr8_eq, State.wr16_eq]
  repeat' apply State.OnlyFrame.writeB
  exact .refl s

theorem State.ipHeader_byteB_outside (s : State) (plen : Nat) (p : Byte) {x : Nat}
    (h : x < 14 ∨ x = 18 ∨ x = 19 ∨ 34 ≤ x) : (s.ipHeader plen p).byteB x = s.byteB x := by
  simp only [State.ipHeader, State.wr8_eq, State.wr16_eq]
  rw [State.swapAddrs_byteB_outside _ (by omega)]
  simp (disch := simp <;> omega) only [State.byteB_writeB_outside]

theorem State.ipHeader_fields (s : State) (plen : Nat) (p : Byte) :
    (s.ipHeader plen p).rd8 14 = 0x45 ∧ (s.ipHeader plen p).rd8 15 = 0 ∧
    (s.ipHeader plen p).rd16 16 = BitVec.ofNat 16 (20 + plen) ∧ (s.ipHeader plen p).rd16 20 = 0 ∧
    (s.ipHeader plen p).rd8 22 = s.cfg.ipTtl ∧ (s.ipHeader plen p).rd8 23 = p ∧
    (s.ipHeader plen p).rd32 26 = s.rd32 30 ∧ (s.ipHeader plen p).rd32 30 = s.rd32 26 := by
  simp only [State.ipHeader, State.swapAddrs, State.wr8_eq, State.wr16_eq, State.wr32_eq]
  simp (disch := simp) only [State.rd8_writeB_outside, State.rd16_writeB_outside, State.rd32_writeB_outside,
    State.rd8_writeB_singleton, State.rd16_writeB_be16, State.rd32_writeB_be32]
  simp [Config.ipVersionLen]

theorem State.ipSend_emits (s : State) (plen : Nat) (p : Byte) :
    s.Emits (s.ipSend plen p) [.sent ((s.ipSend plen p).readB 0 (34 + plen))] :=
  ((State.ipHeader_onlyFrame s plen p).emits.trans (State.csumStore_emits _ _ _ _)).trans (State.ethReply_emits _ _ _)

/-- The payload and the identifier stay. -/
theorem State.ipSend_byteB_outside (s : State) (plen : Nat) (p : Byte) {x : Nat} (h : x = 18 ∨ x = 19 ∨ 34 ≤ x) :
    (s.ipSend plen p).byteB x = s.byteB x := by
  rw [State.ipSend, State.ethReply_byteB_ge _ _ _ (by omega), State.csumStore_byteB_outside _ _ _ _ (by omega),
    State.ipHeader_byteB_outside _ _ _ (by omega)]

/-- Above the checksum field and below it, what `ipSend` sends is what `ipHeader` wrote. -/
theorem State.ipSend_byteB_header (s : State) (plen : Nat) (p : Byte) {x : Nat} (h : 14 ≤ x) (hx : x < 24 ∨ 26 ≤ x) :
    (s.ipSend plen p).byteB x = (s.ipHeader plen p).byteB x := by
  rw [State.ipSend, State.ethReply_byteB_ge _ _ _ h, State.csumStore_byteB_outside _ _ _ _ (by omega)]

theorem State.ipSend_fields (s : State) (plen : Nat) (p : Byte) :
    (s.ipSend plen p).rd8 14 = 0x45 ∧ (s.ipSend plen p).rd8 15 = 0 ∧
    (s.ipSend plen p).rd16 16 = BitVec.ofNat 16 (20 + plen) ∧ (s.ipSend plen p).rd16 18 = s.rd16 18 ∧
    (s.ipSend plen p).rd16 20 = 0 ∧ (s.ipSend plen p).rd8 22 = s.cfg.ipTtl ∧ (s.ipSend plen p).rd8 23 = p ∧
    (s.ipSend plen p).rd32 26 = s.rd32 30 ∧ (s.ipSend plen p).rd32 30 = s.rd32 26 ∧
    (s.ipSend plen p).rd48 0 = s.rd48 6 ∧ (s.ipSend plen p).rd48 6 = s.localMac ∧
    (s.ipSend plen p).rd16 12 = 0x0800 := by
  obtain ⟨h1, h2, h3, h4, h5, h6, h7, h8⟩ := State.ipHeader_fields s plen p
  have hb : ∀ x, 14 ≤ x → x < 24 ∨ 26 ≤ x → (s.ipSend plen p).byteB x = (s.ipHeader plen p).byteB x :=
    fun x => State.ipSend_byteB_header s plen p
  obtain ⟨e1, e2, e3⟩ := State.ethReply_fields ((s.ipHeader plen p).csumStore 24 14 20) (34 + plen) proto.etypeIpv4
  refine ⟨?_, ?_, ?_, ?_, ?_, ?_, ?_, ?_, ?_, ?_, ?_, e3⟩
  · exact (State.rd8_of_byteB (hb 14 (by omega) (by omega))).trans h1
  · exact (State.rd8_of_byteB (hb 15 (by omega) (by omega))).trans h2
  · exact (State.rd16_of_byteB fun x _ _ => hb x (by omega) (by omega)).trans h3
  · exact State.rd16_of_byteB fun x _ _ => State.ipSend_byteB_outside s plen p (by omega)
  · exact (State.rd16_of_byteB fun x _ _ => hb x (by omega) (by omega)).trans h4
  · exact (State.rd8_of_byteB (hb 22 (by omega) (by omega))).trans h5
  · exact (State.rd8_of_byteB (hb 23 (by omega) (by omega))).trans h6
  · exact (State.rd32_of_byteB fun x _ _ => hb x (by omega) (by omega)).trans h7
  · exact (State.rd32_of_byteB fun x _ _ => hb x (by omega) (by omega)).trans h8
  · refine e1.trans (State.rd48_of_byteB fun x _ _ => ?_)
    rw [State.csumStore_byteB_outside _ _ _ _ (by omega), State.ipHeader_byteB_outside _ _ _ (by omega)]
  · refine e2.trans ?_
    rw [((State.ipHeader_onlyFrame s plen p).emits.trans (State.csumStore_emits _ _ _ _)).localMac]

/-! ### The transports -/

theorem State.swapPorts_onlyFrame (s : State) : s.OnlyFrame s.swapPorts := ((State.OnlyFrame.refl s).writeB _ _).writeB _ _

theorem State.swapPorts_byteB_outside (s : State) {x : Nat} (h : x < 34 ∨ 38 ≤ x) : s.swapPorts.byteB x = s.byteB x := by
  simp only [State.swapPorts, State.wr16_eq]
  rw [State.byteB_writeB_outside _ (by simp; omega), State.byteB_writeB_outside _ (by simp; omega)]

theorem State.swapPorts_fields (s : State) : s.swapPorts.rd16 34 = s.rd16 36 ∧ s.swapPorts.rd16 36 = s.rd16 34 := by
  simp only [State.swapPorts, State.wr16_eq]
  refine ⟨?_, ?_⟩
  · rw [State.rd16_writeB_outside _ (by simp), State.rd16_writeB_be16]
  · rw [State.rd16_writeB_be16]

theorem State.swapSeqAck_onlyFrame (s : State) : s.OnlyFrame s.swapSeqAck := ((State.OnlyFrame.refl s).writeB _ _).writeB _ _

theorem State.swapSeqAck_byteB_outside (s : State) {x : Nat} (h : x < 38 ∨ 46 ≤ x) : s.swapSeqAck.byteB x = s.byteB x := by
  simp only [State.swapSeqAck, State.wr32_eq]
  rw [State.byteB_writeB_outside _ (by simp; omega), State.byteB_writeB_outside _ (by simp; omega)]

theorem State.swapSeqAck_fields (s : State) : s.swapSeqAck.rd32 38 = s.rd32 42 ∧ s.swapSeqAck.rd32 42 = s.rd32 38 := by
  simp only [State.swapSeqAck, State.wr32_eq]
  refine ⟨?_, ?_⟩
  · rw [State.rd32_writeB_outside _ (by simp), State.rd32_writeB_be32]
  · rw [State.rd32_writeB_be32]

theorem State.stagePayload_onlyFrame (s : State) (d src len : Nat) : s.OnlyFrame (s.stagePayload d src len) := by
  simp only [State.stagePayload, State.copyB, State.wr8_eq]
  split
  · exact ((State.OnlyFrame.refl s).writeB _ _).writeB _ _
  · exact (State.OnlyFrame.refl s).writeB _ _

theorem State.stagePayload_byteB_outside (s : State) (d src len : Nat) {x : Nat} (h : x < d ∨ d + padded len ≤ x) :
    (s.stagePayload d src len).byteB x = s.byteB x := by
  simp only [padded] at h
  simp only [State.stagePayload, State.copyB, State.wr8_eq]
  split
  · rw [State.byteB_writeB_outside _ (by simp; omega), State.byteB_writeB_outside _ (by simp; omega)]
  · rw [State.byteB_writeB_outside _ (by simp; omega)]

/-- The payload is what stood at the source before the copy, overlap or not. -/
theorem State.stagePayload_payload (s : State) (d src len : Nat) {j : Nat} (h : j < len) :
    (s.stagePayload d src len).byteB (d + j) = s.byteB (src + j) := by
  have key : (s.copyB d src len).byteB (d + j) = s.byteB (src + j) := by
    have hl : d + j - d < (s.readB src len).length := by simp; omega
    rw [State.copyB, State.byteB_writeB, if_pos (by simp; omega), List.getD_eq_getElem _ _ hl, State.readB_getElem]
    congr 1; omega
  simp only [State.stagePayload, State.wr8_eq]
  split
  · rw [State.byteB_writeB_outside _ (by omega), key]
  · exact key

theorem State.stagePayload_pad (s : State) (d src len : Nat) (h : len % 2 = 1) :
    (s.stagePayload d src len).byteB (d + len) = 0 := by
  simp [State.stagePayload, h, State.byteB_writeB]

theorem State.udpSendBody_emits (s : State) (src len : Nat) :
    s.Emits (s.udpSendBody src len) [.sent ((s.udpSendBody src len).readB 0 (34 + (8 + padded len)))] :=
  ((((State.stagePayload_onlyFrame s 42 src len).trans (State.swapPorts_onlyFrame _)).writeB _ _).writeB _ _).emits.trans
    (State.ipSend_emits _ _ _)

theorem State.tcpAdvance_onlyFrame (s : State) (p : Nat) : s.OnlyFrame (s.tcpAdvance p) := by
  simp only [State.tcpAdvance, State.wr32_eq]
  split
  · exact .refl s
  · exact s.writeB_onlyFrame _ _

theorem State.tcpAdvance_byteB_outside (s : State) (p : Nat) {x : Nat} (h : x < 42 ∨ 46 ≤ x) :
    (s.tcpAdvance p).byteB x = s.byteB x := by
  simp only [State.tcpAdvance, State.wr32_eq]
  split
  · rfl
  · rw [State.byteB_writeB_outside _ (by simp; omega)]

theorem State.ackHandshake_onlyFrame (s : State) (fl : Byte) : s.OnlyFrame (s.ackHandshake fl) := by
  simp only [State.ackHandshake, State.wr32_eq]
  split
  · exact s.writeB_onlyFrame _ _
  · exact .refl s

theorem State.ackHandshake_byteB_outside (s : State) (fl : Byte) {x : Nat} (h : x < 42 ∨ 46 ≤ x) :
    (s.ackHandshake fl).byteB x = s.byteB x := by
  simp only [State.ackHandshake, State.wr32_eq]
  split
  · rw [State.byteB_writeB_outside _ (by simp; omega)]
  · rfl

theorem State.addAck_onlyFrame (s : State) (fl : Byte) : s.OnlyFrame (s.addAck fl) := by
  simp only [State.addAck, State.wr8_eq]
  split
  · exact s.writeB_onlyFrame _ _
  · exact .refl s

theorem State.addAck_byteB_outside (s : State) (fl : Byte) {x : Nat} (h : x ≠ 47) : (s.addAck fl).byteB x = s.byteB x := by
  simp only [State.addAck, State.wr8_eq]
  split
  · rw [State.byteB_writeB_outside _ (by simp; omega)]
  · rfl

/-! ### Staging a fresh packet (R233) -/

theorem State.stagePeer_onlyFrame (s : State) (ip : Word) (mac : HwAddr) : s.OnlyFrame (s.stagePeer ip mac) := ((((State.OnlyFrame.refl s).writeB _ _).writeB _ _).writeB _ _).writeB _ _

theorem State.stagePeer_byteB_ge (s : State) (ip : Word) (mac : HwAddr) {x : Nat} (h : 34 ≤ x) :
    (s.stagePeer ip mac).byteB x = s.byteB x := by
  simp only [State.stagePeer, State.wr16_eq, State.wr32_eq, State.wr48_eq]
  simp (disch := simp <;> omega) only [State.byteB_writeB_outside]

theorem State.stagePeer_fields (s : State) (ip : Word) (mac : HwAddr) :
    (s.stagePeer ip mac).rd48 6 = mac ∧ (s.stagePeer ip mac).rd32 26 = ip ∧
    (s.stagePeer ip mac).rd32 30 = s.localIp ∧ (s.stagePeer ip mac).rd16 18 = 0 := by
  simp only [State.stagePeer, State.wr16_eq, State.wr32_eq, State.wr48_eq]
  simp (disch := simp) only [State.rd32_writeB_outside, State.rd48_writeB_outside,
    State.rd16_writeB_be16, State.rd32_writeB_be32, State.rd48_writeB_be48]
  simp

/-! ### The bounded wait (R205) -/

theorem State.waitTurn_zero (s : State) (h : s.cnt = 0) : s.waitTurn = s := by simp [State.waitTurn, h]

theorem State.waitTurn_pos (s : State) (h : s.cnt ≠ 0) : s.waitTurn = s.decCnt.macReceive := by
  simp only [State.waitTurn]; rw [if_neg h]

theorem State.waitEnd_failed (s : State) (f : State → Bool) : s.waitEnd f = .failed ↔ s.cnt = 0 := by
  simp only [State.waitEnd]
  split
  · simp_all
  · split <;> simp_all

theorem State.waitEnd_matched (s : State) (f : State → Bool) :
    s.waitEnd f = .matched ↔ s.cnt ≠ 0 ∧ s.cfg.ethHlen < s.nextFrame.length ∧ f s.decCnt.macReceive = true := by
  simp only [State.waitEnd]
  split
  · simp_all
  · next h => rw [State.waitTurn_pos s h]; split <;> simp_all

/-! ### The end of a command -/

theorem State.finish_idle (s : State) (r0 r1 : Word) : (s.finish r0 r1).busy = false := rfl

theorem State.raise_idle (s : State) (c : CmdError) : (s.raise c).busy = false := rfl

end Sys2Proof.Machine
end

