-- ==== Sys2Proof/Laws/PerInstr.lean ====
section
/-! SUPPORT. The statement of the round trip, one command at a time. -/

/-- The word of the command is legal (30_encoding.md R124) and decodes to the command it stands for (R123). -/
def Sys2Proof.Laws.RoundTrip.Statement (i : Sys2Proof.Instr) : Prop :=
  Sys2Proof.legalWord (Sys2Proof.encode i) = true ∧ Sys2Proof.decode (Sys2Proof.encode i) = .ok i

namespace Sys2Proof.Laws.RoundTrip

theorem csum : Statement .csum := ⟨by decide, by rfl⟩
theorem csumPseudo : Statement .csumPseudo := ⟨by decide, by rfl⟩
theorem rxDispatch : Statement .rxDispatch := ⟨by decide, by rfl⟩
theorem poll : Statement .poll := ⟨by decide, by rfl⟩
theorem arpResolve : Statement .arpResolve := ⟨by decide, by rfl⟩
theorem ipSend : Statement .ipSend := ⟨by decide, by rfl⟩
theorem ping : Statement .ping := ⟨by decide, by rfl⟩
theorem udpSend : Statement .udpSend := ⟨by decide, by rfl⟩
theorem tcpSend : Statement .tcpSend := ⟨by decide, by rfl⟩
theorem dnsResolve : Statement .dnsResolve := ⟨by decide, by rfl⟩

end Sys2Proof.Laws.RoundTrip
end

