-- ==== Sys2Proof/Laws/Words.lean ====
section
/-! SUPPORT. Byte runs, words and fields of the frame buffer: how a run splits, what a stored word does to the word list of a range
around it, and how the parts of a joined value come back. -/

namespace Sys2Proof.Machine

/-- The two memories are canonical right after reset. -/
theorem reset_memories_wf : State.reset.frame.wf ∧ State.reset.name.wf := ⟨List.Pairwise.nil, List.Pairwise.nil⟩

theorem State.readB_add (s : State) (a m n : Nat) : s.readB a (m + n) = s.readB a m ++ s.readB (a + m) n := by
  simp only [State.readB, ← List.map_append, List.range'_append_1]

/-- The word list of a range, split around the aligned word at `f`. -/
theorem State.wordsOf_readB_split (s : State) (f a n : Nat) (h1 : a ≤ f) (h2 : (f - a) % 2 = 0) (h3 : f + 2 ≤ a + n) :
    wordsOf (s.readB a n) =
      wordsOf (s.readB a (f - a)) ++ s.rd16 f :: wordsOf (s.readB (f + 2) (a + n - (f + 2))) := by
  have e : n = (f - a) + (2 + (a + n - (f + 2))) := by omega
  conv_lhs => rw [e]
  rw [State.readB_add, State.readB_add, wordsOf_append _ _ (by simpa using h2)]
  have : a + (f - a) = f := by omega
  rw [this]
  congr 1

/-- Storing an aligned word of a range replaces that one word of its list. -/
theorem State.wordsOf_readB_wr16 (s : State) (f a n : Nat) (v : Half) (h1 : a ≤ f) (h2 : (f - a) % 2 = 0)
    (h3 : f + 2 ≤ a + n) :
    wordsOf ((s.wr16 f v).readB a n) =
      wordsOf (s.readB a (f - a)) ++ v :: wordsOf (s.readB (f + 2) (a + n - (f + 2))) := by
  rw [State.wordsOf_readB_split _ f a n h1 h2 h3, State.wr16_eq, State.readB_writeB_outside _ (by simp; omega),
    State.readB_writeB_outside _ (by simp), State.rd16_writeB_be16]

/-- The folded sum of a range depends on its bytes only. -/
theorem State.foldedSum_of_byteB {s t : State} {a n : Nat} (h : ∀ x, a ≤ x → x < a + n → t.byteB x = s.byteB x) :
    t.foldedSum a n = s.foldedSum a n := by
  simp only [State.foldedSum]; rw [State.readB_of_byteB h]

/-- The pseudo-header sum depends on the bytes of `B` only. -/
theorem State.pseudoSum_of_byteB {s t : State} (o : Nat) (h : ∀ x, t.byteB x = s.byteB x) :
    t.pseudoSum o = s.pseudoSum o := by
  have r16 : ∀ a, t.rd16 a = s.rd16 a := fun a => State.rd16_of_byteB fun x _ _ => h x
  have rb : ∀ a n, t.readB a n = s.readB a n := fun a n => State.readB_of_byteB fun x _ _ => h x
  simp only [State.pseudoSum, State.pseudoWords, r16, rb, State.rd8, h]

/-- A store behind the IPv4 header leaves the pseudo-header words alone. -/
theorem State.pseudoWords_writeB_outside (s : State) (o f : Nat) (bs : List Byte) (h : o + 20 ≤ f) :
    (s.writeB f bs).pseudoWords o = s.pseudoWords o := by
  simp only [State.pseudoWords]
  rw [State.rd16_writeB_outside _ (by omega), State.rd16_writeB_outside _ (by omega),
    State.rd16_writeB_outside _ (by omega), State.rd16_writeB_outside _ (by omega),
    State.rd8_writeB_outside _ (by omega), State.rd16_writeB_outside _ (by omega)]

/-! ### Joined values -/

theorem half_append_inj {a b c d : Half} (h : a ++ b = c ++ d) : a = c ∧ b = d := by
  have h0 := a.isLt; have h1 := b.isLt; have h2 := c.isLt; have h3 := d.isLt
  have := congrArg BitVec.toNat h
  rw [BitVec.toNat_append, BitVec.toNat_append, ← Nat.shiftLeft_add_eq_or_of_lt b.isLt,
    ← Nat.shiftLeft_add_eq_or_of_lt d.isLt] at this
  simp only [Nat.shiftLeft_eq] at this
  constructor <;> apply BitVec.eq_of_toNat_eq <;> omega

theorem byte_append_inj {a b c d : Byte} (h : a ++ b = c ++ d) : a = c ∧ b = d := by
  have h0 := a.isLt; have h1 := b.isLt; have h2 := c.isLt; have h3 := d.isLt
  have := congrArg BitVec.toNat h
  rw [BitVec.toNat_append, BitVec.toNat_append, ← Nat.shiftLeft_add_eq_or_of_lt b.isLt,
    ← Nat.shiftLeft_add_eq_or_of_lt d.isLt] at this
  simp only [Nat.shiftLeft_eq] at this
  constructor <;> apply BitVec.eq_of_toNat_eq <;> omega

theorem hwAddr_append_parts (a : Half) (b : Word) :
    (a ++ b).extractLsb' 32 16 = a ∧ (a ++ b).extractLsb' 0 32 = b := by
  have h0 := a.isLt; have h1 := b.isLt
  have e : (a ++ b).toNat = a.toNat * 2 ^ 32 + b.toNat := by
    rw [BitVec.toNat_append, ← Nat.shiftLeft_add_eq_or_of_lt b.isLt, Nat.shiftLeft_eq]
  constructor <;> apply BitVec.eq_of_toNat_eq <;>
    simp only [BitVec.extractLsb'_toNat, e, Nat.shiftRight_eq_div_pow] <;> omega

theorem half_append_parts (a b : Half) : (a ++ b).extractLsb' 16 16 = a ∧ (a ++ b).extractLsb' 0 16 = b := by
  have h0 := a.isLt; have h1 := b.isLt
  have e : (a ++ b).toNat = a.toNat * 2 ^ 16 + b.toNat := by
    rw [BitVec.toNat_append, ← Nat.shiftLeft_add_eq_or_of_lt b.isLt, Nat.shiftLeft_eq]
  constructor <;> apply BitVec.eq_of_toNat_eq <;>
    simp only [BitVec.extractLsb'_toNat, e, Nat.shiftRight_eq_div_pow] <;> omega

theorem byte_append_parts (a b : Byte) : (a ++ b).extractLsb' 8 8 = a ∧ (a ++ b).extractLsb' 0 8 = b := by
  have h0 := a.isLt; have h1 := b.isLt
  have e : (a ++ b).toNat = a.toNat * 2 ^ 8 + b.toNat := by
    rw [BitVec.toNat_append, ← Nat.shiftLeft_add_eq_or_of_lt b.isLt, Nat.shiftLeft_eq]
  constructor <;> apply BitVec.eq_of_toNat_eq <;>
    simp only [BitVec.extractLsb'_toNat, e, Nat.shiftRight_eq_div_pow] <;> omega

/-! ### A field as a run of bytes -/

theorem be16_rd16 (s : State) (a : Nat) : be16 (s.rd16 a) = s.readB a 2 := by
  simp only [be16, State.rd16, byte_append_parts]; rfl

theorem be32_rd32 (s : State) (a : Nat) : be32 (s.rd32 a) = s.readB a 4 := by
  simp only [be32, State.rd32, half_append_parts, be16_rd16]; rfl

theorem be48_rd48 (s : State) (a : Nat) : be48 (s.rd48 a) = s.readB a 6 := by
  simp only [be48, State.rd48, hwAddr_append_parts, be16_rd16, be32_rd32]; rfl

/-- A run of bytes inside a longer run from offset 0. -/
theorem State.readB_drop_take (s : State) (n a k : Nat) (h : a + k ≤ n) :
    ((s.readB 0 n).drop a).take k = s.readB a k := by
  have e : n = a + (k + (n - a - k)) := by omega
  rw [e, State.readB_add, State.readB_add, List.drop_left' (by simp), List.take_left' (by simp)]; simp

/-! ### The bounded wait -/

theorem State.waitEnd_again (s : State) (f : State → Bool) (h : s.cnt ≠ 0)
    (h2 : ¬ (s.cfg.ethHlen < s.nextFrame.length ∧ f s.decCnt.macReceive = true)) : s.waitEnd f = .again := by
  simp only [State.waitEnd]; rw [if_neg h, State.waitTurn_pos s h, if_neg]; simpa using h2

theorem State.arpMatch_iff (r : State) (ip : Word) :
    r.arpMatch ip = true ↔ r.rd16 12 = 0x0806 ∧ r.rd16 20 = 2 ∧ r.rd32 28 = ip := by
  simp [State.arpMatch, proto, and_assoc]

theorem State.pingMatch_iff (r : State) :
    r.pingMatch = true ↔ r.rd16 12 = 0x0800 ∧ r.rd8 14 = 0x45 ∧ r.rd8 23 = 1 ∧ r.rd8 34 = 0 ∧
      r.rd16 38 = r.pingId ∧ r.rd16 40 = r.pingSeq := by
  simp [State.pingMatch, proto, Config.ipVersionLen, and_assoc]

theorem State.dnsMatch_iff (r : State) (id : Half) :
    r.dnsMatch id = true ↔ r.rd16 12 = 0x0800 ∧ r.rd8 14 = 0x45 ∧ r.rd8 23 = 17 ∧ r.rd16 42 = id := by
  simp [State.dnsMatch, proto, Config.ipVersionLen, and_assoc]

end Sys2Proof.Machine
end

