-- ==== Sys2Proof/Machine/Script.lean ====
section
/-! DEFINITION. The host-script operations and pseudo-instructions of 30_encoding.md R127 and R128, and their expansion into host
accesses. -/

namespace Sys2Proof.Machine

/-- One line of a host script (R127, R128). -/
inductive ScriptLine where
  | wr (r : Reg) (v : Word)
  | rd (r : Reg)
  | wrb (off : Nat) (bs : List Byte)
  /-- The ASCII bytes of the text. -/
  | wrn (text : List Byte)
  | rdb (off k : Nat)
  | wait
  | expect (r : Reg) (v : Word)
  | csum (off len : Word)
  | csumPseudo (ipoff : Word)
  | rxDispatch (n : Word)
  | poll
  /-- Also spelt `RESOLVE`. -/
  | arpResolve (ip t : Word)
  | ipSend (plen p : Word)
  | ping (ip t : Word)
  | udpSend (src len : Word)
  | tcpSend (src len : Word)
  /-- Also spelt `RESOLVE_NAME`. -/
  | dnsResolve (sip t : Word)
  | init (m : HwAddr) (ip : Word)
  | csumStore (off len : Word) (f : Nat)
  | csumVerify (off len : Word)
  | clrOvr
  deriving DecidableEq, Repr

/-- `wr REG, v`: one 32-bit write. -/
def wrOp (base : Nat) (r : Reg) (v : Word) : HostOp := .write 4 (base + r.offset) v

/-- `rd REG`: one 32-bit read. -/
def rdOp (base : Nat) (r : Reg) : HostOp := .read 4 (base + r.offset)

/-- Byte writes at successive addresses. -/
def byteOps (addr : Nat) : List Byte → List HostOp
  | [] => []
  | b :: bs => .write 1 addr (b.setWidth 32) :: byteOps (addr + 1) bs

/-- The CMD write of a command and the wait for its end (R128). -/
def issueOps (base : Nat) (i : Instr) : List HostOp := [wrOp base .cmd (encode i), .wait]

/-- A command with two operands (R128). -/
def issue2 (base : Nat) (i : Instr) (a0 a1 : Word) : List HostOp :=
  [wrOp base .arg0 a0, wrOp base .arg1 a1] ++ issueOps base i

/-- A command with one operand; an operand marked "—" is not written (R128). -/
def issue1 (base : Nat) (i : Instr) (a0 : Word) : List HostOp := wrOp base .arg0 a0 :: issueOps base i

/-- The host accesses of one script line (R127, R128), for an engine at `base`. -/
def expandLine (base : Nat) : ScriptLine → List HostOp
  | .wr r v => [wrOp base r v]
  | .rd r => [rdOp base r]
  | .wrb off bs => byteOps (base + Config.frameWindow + off) bs
  | .wrn text => byteOps (base + Config.nameWindow) (text ++ [0])
  | .rdb off k => (List.range' (base + Config.frameWindow + off) k).map (HostOp.read 1)
  | .wait => [.wait]
  | .expect r v => [.expect r.offset v]
  | .csum off len => issue2 base .csum off len
  | .csumPseudo ipoff => issue1 base .csumPseudo ipoff
  | .rxDispatch n => issue1 base .rxDispatch n
  | .poll => issueOps base .poll
  | .arpResolve ip t => issue2 base .arpResolve ip t
  | .ipSend plen p => issue2 base .ipSend plen p
  | .ping ip t => issue2 base .ping ip t
  | .udpSend src len => issue2 base .udpSend src len
  | .tcpSend src len => issue2 base .tcpSend src len
  | .dnsResolve sip t => issue2 base .dnsResolve sip t
  | .init m ip =>
    [wrOp base .macHi ((m.extractLsb' 32 16).setWidth 32), wrOp base .macLo (m.extractLsb' 0 32), wrOp base .localIp ip]
  | .csumStore off len f =>
    byteOps (base + Config.frameWindow + f) [0, 0] ++ issue2 base .csum off len ++
      [rdOp base .result0, .writeLast (base + Config.frameWindow + f) Reg.result0.offset 8,
       .writeLast (base + Config.frameWindow + f + 1) Reg.result0.offset 0]
  | .csumVerify off len =>
    issue2 base .csum off len ++ [rdOp base .result1, .expect Reg.result1.offset 0xFFFF]
  | .clrOvr => [wrOp base .status 8]

/-- The host accesses of a whole script. -/
def expandScript (base : Nat) (ls : List ScriptLine) : List HostOp := ls.flatMap (expandLine base)

/-- The host's script is loaded: what it will do, from outside the machine. -/
def State.loadScript (s : State) (ls : List ScriptLine) : State :=
  { s with script := expandScript s.cfg.engineBase ls }

end Sys2Proof.Machine
end

