-- ==== Sys2Proof/Tests/Slice0.lean ====
section
/-! SUPPORT. The model's own tests. Expected results come from spec/95_test_vectors.md and spec/30_encoding.md, named at each test; none
was taken from the model. The witnesses, last, show for each obligation that something meets its hypotheses. -/

namespace Sys2Proof.Tests

open Sys2Proof.Machine

/-! ### Helpers -/

/-- The next state of an outcome, the given state where there is none. -/
def got (s : State) : Host.Outcome State Fault Refusal → State
  | .next t => t
  | .fault _ => s
  | .refused _ => s

/-- The outcome is a next state. -/
def isNext : Host.Outcome State Fault Refusal → Bool
  | .next _ => true
  | .fault _ => false
  | .refused _ => false

theorem isNext_iff {o : Host.Outcome State Fault Refusal} (h : isNext o = true) : ∃ t, o = .next t := by
  cases o with
  | next t => exact ⟨t, rfl⟩
  | fault _ => exact absurd h Bool.false_ne_true
  | refused _ => exact absurd h Bool.false_ne_true

/-- One engine step of a command. -/
def run1 (i : Instr) (s : State) : State := got s (exec i s)

/-- The start state S0 of spec/95_test_vectors.md, section 0, with a command about to start. -/
def ready : State :=
  { State.reset with
    macHi := 0x0200, macLo := 1, localIp := 0xC0A8010A, initMacHi := true, initMacLo := true, initIp := true
    stage := .start }

/-- `ready` with the operand words and the bytes of a frame at the start of `B`. -/
def staged (bs : List Byte) (a0 a1 : Word) : State := { ready with frame := Memory.cells 0 bs, arg0 := a0, arg1 := a1 }

/-- A state in a wait with CNT = `c` left, whose next MAC answer is `f`. -/
def waitingFor (g : Stage) (c : Word) (f : List Byte) (a0 a1 : Word) : State :=
  { ready with stage := g, cnt := c, macIn := [f], arg0 := a0, arg1 := a1 }

/-- V-ARP-1, in. -/
def arp1In : List Byte :=
  [0xFF, 0xFF, 0xFF, 0xFF, 0xFF, 0xFF, 0x02, 0x00, 0x00, 0x00, 0x00, 0x02, 0x08, 0x06, 0x00, 0x01, 0x08, 0x00,
   0x06, 0x04, 0x00, 0x01, 0x02, 0x00, 0x00, 0x00, 0x00, 0x02, 0xC0, 0xA8, 0x01, 0x14, 0x00, 0x00, 0x00, 0x00,
   0x00, 0x00, 0xC0, 0xA8, 0x01, 0x0A]

/-- V-ARP-1, TX. -/
def arp1Out : List Byte :=
  [0x02, 0x00, 0x00, 0x00, 0x00, 0x02, 0x02, 0x00, 0x00, 0x00, 0x00, 0x01, 0x08, 0x06, 0x00, 0x01, 0x08, 0x00,
   0x06, 0x04, 0x00, 0x02, 0x00, 0x00, 0x00, 0x00, 0x00, 0x00, 0xC0, 0xA8, 0x01, 0x0A, 0x02, 0x00, 0x00, 0x00,
   0x00, 0x02, 0xC0, 0xA8, 0x01, 0x14]

/-- V-ARP-3, the peer's reply. -/
def peerReply : List Byte :=
  [0x02, 0x00, 0x00, 0x00, 0x00, 0x01, 0x02, 0x00, 0x00, 0x00, 0x00, 0x02, 0x08, 0x06, 0x00, 0x01, 0x08, 0x00,
   0x06, 0x04, 0x00, 0x02, 0x02, 0x00, 0x00, 0x00, 0x00, 0x02, 0xC0, 0xA8, 0x01, 0x14, 0x02, 0x00, 0x00, 0x00,
   0x00, 0x01, 0xC0, 0xA8, 0x01, 0x0A]

/-- V-ARP-3, TX. -/
def arp3Out : List Byte :=
  [0xFF, 0xFF, 0xFF, 0xFF, 0xFF, 0xFF, 0x02, 0x00, 0x00, 0x00, 0x00, 0x01, 0x08, 0x06, 0x00, 0x01, 0x08, 0x00,
   0x06, 0x04, 0x00, 0x01, 0x02, 0x00, 0x00, 0x00, 0x00, 0x01, 0xC0, 0xA8, 0x01, 0x0A, 0x00, 0x00, 0x00, 0x00,
   0x00, 0x00, 0xC0, 0xA8, 0x01, 0x14]

/-- V-ICMP-1, in. -/
def icmp1In : List Byte :=
  [0x02, 0x00, 0x00, 0x00, 0x00, 0x01, 0x02, 0x00, 0x00, 0x00, 0x00, 0x02, 0x08, 0x00, 0x45, 0x00, 0x00, 0x20,
   0x12, 0x34, 0x40, 0x00, 0x40, 0x01, 0xA5, 0x3A, 0xC0, 0xA8, 0x01, 0x14, 0xC0, 0xA8, 0x01, 0x0A, 0x08, 0x00,
   0xC2, 0xA6, 0xAB, 0xCD, 0x00, 0x01, 0x68, 0x69, 0x21, 0x21]

/-- V-ICMP-1, TX. -/
def icmp1Out : List Byte :=
  [0x02, 0x00, 0x00, 0x00, 0x00, 0x02, 0x02, 0x00, 0x00, 0x00, 0x00, 0x01, 0x08, 0x00, 0x45, 0x00, 0x00, 0x20,
   0x12, 0x34, 0x00, 0x00, 0x80, 0x01, 0xA5, 0x3A, 0xC0, 0xA8, 0x01, 0x0A, 0xC0, 0xA8, 0x01, 0x14, 0x00, 0x00,
   0xCA, 0xA6, 0xAB, 0xCD, 0x00, 0x01, 0x68, 0x69, 0x21, 0x21]

/-- V-ICMP-2, in. -/
def icmp2In : List Byte :=
  [0x02, 0x00, 0x00, 0x00, 0x00, 0x01, 0x02, 0x00, 0x00, 0x00, 0x00, 0x02, 0x08, 0x00, 0x45, 0x00, 0x00, 0x1F,
   0x12, 0x34, 0x40, 0x00, 0x40, 0x01, 0xA5, 0x3B, 0xC0, 0xA8, 0x01, 0x14, 0xC0, 0xA8, 0x01, 0x0A, 0x08, 0x00,
   0xC2, 0xC7, 0xAB, 0xCD, 0x00, 0x01, 0x68, 0x69, 0x21]

/-- V-ICMP-2, TX. -/
def icmp2Out : List Byte :=
  [0x02, 0x00, 0x00, 0x00, 0x00, 0x02, 0x02, 0x00, 0x00, 0x00, 0x00, 0x01, 0x08, 0x00, 0x45, 0x00, 0x00, 0x1F,
   0x12, 0x34, 0x00, 0x00, 0x80, 0x01, 0xA5, 0x3B, 0xC0, 0xA8, 0x01, 0x0A, 0xC0, 0xA8, 0x01, 0x14, 0x00, 0x00,
   0xCA, 0xC7, 0xAB, 0xCD, 0x00, 0x01, 0x68, 0x69, 0x21]

/-- V-IPSEND-1, TX. -/
def ipSendOut : List Byte :=
  [0x02, 0x00, 0x00, 0x00, 0x00, 0x02, 0x02, 0x00, 0x00, 0x00, 0x00, 0x01, 0x08, 0x00, 0x45, 0x00, 0x00, 0x1F,
   0x12, 0x34, 0x00, 0x00, 0x80, 0x11, 0xA5, 0x2B, 0xC0, 0xA8, 0x01, 0x0A, 0xC0, 0xA8, 0x01, 0x14, 0x13, 0x88,
   0x00, 0x07, 0x00, 0x0B, 0x00, 0x00, 0x41, 0x42, 0x43]

/-- V-PING-1, TX 2. -/
def pingOut : List Byte :=
  [0x02, 0x00, 0x00, 0x00, 0x00, 0x02, 0x02, 0x00, 0x00, 0x00, 0x00, 0x01, 0x08, 0x00, 0x45, 0x00, 0x00, 0x1C,
   0x00, 0x00, 0x00, 0x00, 0x80, 0x01, 0xB7, 0x72, 0xC0, 0xA8, 0x01, 0x0A, 0xC0, 0xA8, 0x01, 0x14, 0x08, 0x00,
   0xE5, 0xCA, 0x12, 0x34, 0x00, 0x01]

/-- V-PING-1, the echo reply. -/
def echoReply : List Byte :=
  [0x02, 0x00, 0x00, 0x00, 0x00, 0x01, 0x02, 0x00, 0x00, 0x00, 0x00, 0x02, 0x08, 0x00, 0x45, 0x00, 0x00, 0x1C,
   0x00, 0x00, 0x00, 0x00, 0x80, 0x01, 0xB7, 0x72, 0xC0, 0xA8, 0x01, 0x14, 0xC0, 0xA8, 0x01, 0x0A, 0x00, 0x00,
   0xED, 0xCA, 0x12, 0x34, 0x00, 0x01]

/-- V-UDP-1, in. -/
def udp1In : List Byte :=
  [0x02, 0x00, 0x00, 0x00, 0x00, 0x01, 0x02, 0x00, 0x00, 0x00, 0x00, 0x02, 0x08, 0x00, 0x45, 0x00, 0x00, 0x1F,
   0x12, 0x34, 0x40, 0x00, 0x40, 0x11, 0xA5, 0x2B, 0xC0, 0xA8, 0x01, 0x14, 0xC0, 0xA8, 0x01, 0x0A, 0x13, 0x88,
   0x00, 0x07, 0x00, 0x0B, 0x00, 0x00, 0x41, 0x42, 0x43]

/-- V-UDP-1, TX. -/
def udp1Out : List Byte :=
  [0x02, 0x00, 0x00, 0x00, 0x00, 0x02, 0x02, 0x00, 0x00, 0x00, 0x00, 0x01, 0x08, 0x00, 0x45, 0x00, 0x00, 0x20,
   0x12, 0x34, 0x00, 0x00, 0x80, 0x11, 0xA5, 0x2A, 0xC0, 0xA8, 0x01, 0x0A, 0xC0, 0xA8, 0x01, 0x14, 0x00, 0x07,
   0x13, 0x88, 0x00, 0x0C, 0x00, 0x00, 0x41, 0x42, 0x43, 0x00]

/-- V-UDP-2, TX. -/
def udp2Out : List Byte :=
  [0x02, 0x00, 0x00, 0x00, 0x00, 0x01, 0x02, 0x00, 0x00, 0x00, 0x00, 0x01, 0x08, 0x00, 0x45, 0x00, 0x00, 0x20,
   0x12, 0x34, 0x00, 0x00, 0x80, 0x11, 0xA5, 0x2A, 0xC0, 0xA8, 0x01, 0x14, 0xC0, 0xA8, 0x01, 0x0A, 0x13, 0x88,
   0x00, 0x07, 0x00, 0x0C, 0x00, 0x00, 0x41, 0x42, 0x43, 0x00]

/-- V-TCP-1, in. -/
def tcp1In : List Byte :=
  [0x02, 0x00, 0x00, 0x00, 0x00, 0x01, 0x02, 0x00, 0x00, 0x00, 0x00, 0x02, 0x08, 0x00, 0x45, 0x00, 0x00, 0x28,
   0x12, 0x34, 0x40, 0x00, 0x40, 0x06, 0xA5, 0x2D, 0xC0, 0xA8, 0x01, 0x14, 0xC0, 0xA8, 0x01, 0x0A, 0x9C, 0x40,
   0x00, 0x50, 0x11, 0x22, 0x33, 0x44, 0x00, 0x00, 0x00, 0x00, 0x50, 0x02, 0x10, 0x00, 0x3B, 0x7D, 0x00, 0x00]

/-- V-TCP-1, TX. -/
def tcp1Out : List Byte :=
  [0x02, 0x00, 0x00, 0x00, 0x00, 0x02, 0x02, 0x00, 0x00, 0x00, 0x00, 0x01, 0x08, 0x00, 0x45, 0x00, 0x00, 0x28,
   0x12, 0x34, 0x00, 0x00, 0x80, 0x06, 0xA5, 0x2D, 0xC0, 0xA8, 0x01, 0x0A, 0xC0, 0xA8, 0x01, 0x14, 0x00, 0x50,
   0x9C, 0x40, 0x00, 0x00, 0x00, 0x00, 0x11, 0x22, 0x33, 0x45, 0x50, 0x12, 0x10, 0x00, 0x3B, 0x6C, 0x00, 0x00]

/-- V-TCP-2, in. -/
def tcp2In : List Byte :=
  [0x02, 0x00, 0x00, 0x00, 0x00, 0x01, 0x02, 0x00, 0x00, 0x00, 0x00, 0x02, 0x08, 0x00, 0x45, 0x00, 0x00, 0x2D,
   0x12, 0x34, 0x40, 0x00, 0x40, 0x06, 0xA5, 0x28, 0xC0, 0xA8, 0x01, 0x14, 0xC0, 0xA8, 0x01, 0x0A, 0x9C, 0x40,
   0x00, 0x50, 0x11, 0x22, 0x33, 0x45, 0x00, 0x00, 0x00, 0x01, 0x50, 0x18, 0x10, 0x00, 0x70, 0xFA, 0x00, 0x00,
   0x47, 0x45, 0x54, 0x20, 0x2F]

/-- V-TCP-2, TX. -/
def tcp2Out : List Byte :=
  [0x02, 0x00, 0x00, 0x00, 0x00, 0x02, 0x02, 0x00, 0x00, 0x00, 0x00, 0x01, 0x08, 0x00, 0x45, 0x00, 0x00, 0x2A,
   0x12, 0x34, 0x00, 0x00, 0x80, 0x06, 0xA5, 0x2B, 0xC0, 0xA8, 0x01, 0x0A, 0xC0, 0xA8, 0x01, 0x14, 0x00, 0x50,
   0x9C, 0x40, 0x00, 0x00, 0x00, 0x01, 0x11, 0x22, 0x33, 0x47, 0x50, 0x18, 0x10, 0x00, 0xEC, 0x15, 0x00, 0x00,
   0x4F, 0x4B]

/-- V-DNS-1, the server's ARP reply. -/
def serverReply : List Byte :=
  [0x02, 0x00, 0x00, 0x00, 0x00, 0x01, 0x02, 0x00, 0x00, 0x00, 0x00, 0x03, 0x08, 0x06, 0x00, 0x01, 0x08, 0x00,
   0x06, 0x04, 0x00, 0x02, 0x02, 0x00, 0x00, 0x00, 0x00, 0x03, 0xC0, 0xA8, 0x01, 0x01, 0x02, 0x00, 0x00, 0x00,
   0x00, 0x01, 0xC0, 0xA8, 0x01, 0x0A]

/-- V-DNS-1, TX 2. -/
def dns1Out : List Byte :=
  [0x02, 0x00, 0x00, 0x00, 0x00, 0x03, 0x02, 0x00, 0x00, 0x00, 0x00, 0x01, 0x08, 0x00, 0x45, 0x00, 0x00, 0x3A,
   0x00, 0x00, 0x00, 0x00, 0x80, 0x11, 0xB7, 0x57, 0xC0, 0xA8, 0x01, 0x0A, 0xC0, 0xA8, 0x01, 0x01, 0x00, 0x35,
   0x00, 0x35, 0x00, 0x26, 0x00, 0x00, 0x00, 0x01, 0x01, 0x00, 0x00, 0x01, 0x00, 0x00, 0x00, 0x00, 0x00, 0x00,
   0x01, 0x61, 0x02, 0x62, 0x63, 0x07, 0x65, 0x78, 0x61, 0x6D, 0x70, 0x6C, 0x65, 0x00, 0x00, 0x01, 0x00, 0x01]

/-- V-DNS-3, the reply. -/
def dns3Reply : List Byte :=
  [0x02, 0x00, 0x00, 0x00, 0x00, 0x01, 0x02, 0x00, 0x00, 0x00, 0x00, 0x03, 0x08, 0x00, 0x45, 0x00, 0x00, 0x4A,
   0x00, 0x00, 0x00, 0x00, 0x40, 0x11, 0xF7, 0x47, 0xC0, 0xA8, 0x01, 0x01, 0xC0, 0xA8, 0x01, 0x0A, 0x00, 0x35,
   0x00, 0x35, 0x00, 0x36, 0x00, 0x00, 0x00, 0x01, 0x81, 0x80, 0x00, 0x01, 0x00, 0x01, 0x00, 0x00, 0x00, 0x00,
   0x01, 0x61, 0x02, 0x62, 0x63, 0x07, 0x65, 0x78, 0x61, 0x6D, 0x70, 0x6C, 0x65, 0x00, 0x00, 0x01, 0x00, 0x01,
   0xC0, 0x0C, 0x00, 0x01, 0x00, 0x01, 0x00, 0x00, 0x01, 0x2C, 0x00, 0x04, 0x5D, 0xB8, 0xD8, 0x22]

/-- The name of W6 as `wrn` writes it, its 0x00 included. -/
def nameText : List Byte :=
  [0x61, 0x2E, 0x62, 0x63, 0x2E, 0x65, 0x78, 0x61, 0x6D, 0x70, 0x6C, 0x65, 0x00]

/-- W6, the encoded name. -/
def nameCoded : List Byte :=
  [0x01, 0x61, 0x02, 0x62, 0x63, 0x07, 0x65, 0x78, 0x61, 0x6D, 0x70, 0x6C, 0x65, 0x00]

/-- V-CSUM-10. -/
def csum10 : List Byte :=
  [0x45, 0x00, 0x00, 0x73, 0x00, 0x00, 0x40, 0x00, 0x40, 0x11, 0x00, 0x00, 0xC0, 0xA8, 0x00, 0x01, 0xC0, 0xA8,
   0x00, 0xC7]

/-! ### Decoding: words written out from 30_encoding.md R120 and R123, `RSV[31:8] = 0 ++ OPC[7:0]` -/

theorem test_decode_csum : decode 0b00000000_00000000_00000000_00000001 = .ok .csum := by rfl
theorem test_decode_csumPseudo : decode 0b00000000_00000000_00000000_00000010 = .ok .csumPseudo := by rfl
theorem test_decode_rxDispatch : decode 0b00000000_00000000_00000000_00010000 = .ok .rxDispatch := by rfl
theorem test_decode_poll : decode 0b00000000_00000000_00000000_00010001 = .ok .poll := by rfl
theorem test_decode_arpResolve : decode 0b00000000_00000000_00000000_00100000 = .ok .arpResolve := by rfl
theorem test_decode_ipSend : decode 0b00000000_00000000_00000000_00110000 = .ok .ipSend := by rfl
theorem test_decode_ping : decode 0b00000000_00000000_00000000_00110001 = .ok .ping := by rfl
theorem test_decode_udpSend : decode 0b00000000_00000000_00000000_01000000 = .ok .udpSend := by rfl
theorem test_decode_tcpSend : decode 0b00000000_00000000_00000000_01000001 = .ok .tcpSend := by rfl
theorem test_decode_dnsResolve : decode 0b00000000_00000000_00000000_01010000 = .ok .dnsResolve := by rfl

/-- V-DEC-1, V-DEC-2, V-DEC-4: words that name no command. -/
theorem test_decode_rejects :
    decode 0x00000000 = .error .unassignedCode ∧ decode 0x00000101 = .error .reservedBits ∧
    decode 0x00000012 = .error .unassignedCode ∧ decodeTableWord 32 0x80000001 = none := by decide

/-! ### Ill-formed terms, one for each check of WellFormed -/

/-- R124: reserved bits, an unassigned code; the last word is legal. -/
theorem test_illegal_words_refused :
    legalWord 0x00000100 = false ∧ legalWord 0x80000001 = false ∧ legalWord 0x00000003 = false ∧
    legalWord 0x000000FF = false ∧ legalWord 0x00000050 = true := by decide

/-- V-IPSEND-E, V-UDP-E, V-TCP-E: must-be-zero operand bits (R122); the same bits of UDP_SEND's ARG0 are free. -/
theorem test_illFormed_operands_refused :
    Instr.wellFormed .ipSend 0x10000 17 = false ∧ Instr.wellFormed .ipSend 8 0x100 = false ∧
    Instr.wellFormed .udpSend 42 0x10000 = false ∧ Instr.wellFormed .tcpSend 100 0x10000 = false ∧
    Instr.wellFormed .udpSend 0x10000 0xFFFF = true ∧ Instr.wellFormed .csum 0xFFFFFFFF 0xFFFFFFFF = true := by decide

/-! ### One step of each command -/

/-- V-CSUM-10. -/
theorem test_csum_header :
    (run1 .csum (staged csum10 0 20)).result0 = 0xB861 ∧ (run1 .csum (staged csum10 0 20)).result1 = 0x479E := by decide

/-- V-CSUM-7, V-CSUM-5, V-CSUM-8: an odd length, and end-around carries. -/
theorem test_csum_odd_and_carry :
    (run1 .csum (staged [0x12, 0x34, 0x56] 0 3)).result0 = 0x97CB ∧
    (run1 .csum (staged [0xFF, 0xFF, 0xFF, 0xFF] 0 4)).result0 = 0 ∧
    (run1 .csum (staged [0x80, 0x00, 0x80, 0x00] 0 4)).result1 = 1 := by decide

/-- V-CSUM-PS-1, in and out. -/
theorem test_csumPseudo_valid :
    (run1 .csumPseudo (staged tcp1In 14 0)).result1 = 0xFFFF ∧
    (run1 .csumPseudo (staged tcp1Out 14 0)).result0 = 0 := by decide

/-- V-CSUM-PS-2. -/
theorem test_csumPseudo_errors :
    (run1 .csumPseudo { staged tcp1In 14 0 with frame := [(16, 0), (17, 0x13)] }).statusWord = 0x306 ∧
    (run1 .csumPseudo (staged [] 1517 0)).statusWord = 0x406 := by decide

/-- V-ARP-1. -/
theorem test_rxDispatch_arp : (run1 .rxDispatch (staged arp1In 42 0)).history = [.sent arp1Out] := by decide

/-- V-TCP-1, a handshake through the whole inbound path. -/
theorem test_rxDispatch_tcp_syn : (run1 .rxDispatch (staged tcp1In 54 0)).history = [.sent tcp1Out] := by decide

/-- V-ICMP-2: an odd length; V-ICMP-1's terminator. -/
theorem test_icmp_echo :
    (run1 .rxDispatch (staged icmp2In 45 0)).history = [.sent icmp2Out] ∧
    (run1 .rxDispatch (staged icmp1In 46 0)).byteB 46 = 0 := by decide

/-- V-UDP-1: the event, and the status word that shows it. -/
theorem test_udp_event :
    (run1 .rxDispatch (staged udp1In 45 0)).evtKind = 1 ∧ (run1 .rxDispatch (staged udp1In 45 0)).evtOff = 42 ∧
    (run1 .rxDispatch (staged udp1In 45 0)).evtLen = 3 ∧ (run1 .rxDispatch (staged udp1In 45 0)).statusWord = 0x12 := by
  decide

/-- V-TCP-2: the HTTP route. -/
theorem test_tcp_event :
    (run1 .rxDispatch { staged tcp2In 59 0 with httpPort := 80 }).evtKind = 3 ∧
    (run1 .rxDispatch { staged tcp2In 59 0 with httpPort := 80 }).evtOff = 54 ∧
    (run1 .rxDispatch { staged tcp2In 59 0 with httpPort := 80 }).evtLen = 5 ∧
    (run1 .rxDispatch { staged tcp2In 59 0 with httpPort := 80 }).rd32 42 = 0x11223345 := by decide

/-- V-POLL-1, its second turn: the frame is answered before the next receive. -/
theorem test_poll_answers :
    (run1 .poll { staged [] 0 0 with stage := .draining 1, macIn := [icmp1In, []] }).history =
      [.received 1536 icmp1In, .sent icmp1Out] ∧
    (run1 .poll { staged [] 0 0 with stage := .draining 1, macIn := [icmp1In, []] }).stage = .draining 2 := by decide

/-- V-POLL-3, its only turn. -/
theorem test_poll_drained :
    (run1 .poll { staged [] 0 0 with stage := .draining 0, macIn := [[]] }).result1 = 0 ∧
    (run1 .poll { staged [] 0 0 with stage := .draining 0, macIn := [[]] }).statusWord = 2 := by decide

/-- V-ARP-3: the request. -/
theorem test_arpResolve_request :
    (run1 .arpResolve (staged [] 0xC0A80114 5)).history = [.sent arp3Out] := by decide

/-- V-ARP-3: the match on the second call, CNT = 3. -/
theorem test_arpResolve_match :
    (run1 .arpResolve (waitingFor .arpWait 4 peerReply 0xC0A80114 5)).result0 = 0x80000200 ∧
    (run1 .arpResolve (waitingFor .arpWait 4 peerReply 0xC0A80114 5)).result1 = 2 ∧
    (run1 .arpResolve (waitingFor .arpWait 4 peerReply 0xC0A80114 5)).cnt = 3 := by decide

/-- V-IPSEND-1. -/
theorem test_ipSend : (run1 .ipSend (staged udp1In 11 17)).history = [.sent ipSendOut] := by decide

/-- V-IPSEND-E. -/
theorem test_ipSend_errors :
    (run1 .ipSend (staged [] 0x10000 17)).statusWord = 0x306 ∧ (run1 .ipSend (staged [] 1503 6)).statusWord = 0x406 ∧
    (run1 .ipSend { staged [] 0x10000 17 with initIp := false }).statusWord = 0x206 := by decide

/-- V-PING-1: TX 2, and the sequence number sent. -/
theorem test_ping_request :
    (run1 .ping { waitingFor .arpWait 1000 peerReply 0xC0A80114 1000 with pingIdseq := 0x12340000 }).history =
      [.received 1536 peerReply, .sent pingOut] ∧
    (run1 .ping { waitingFor .arpWait 1000 peerReply 0xC0A80114 1000 with pingIdseq := 0x12340000 }).pingIdseq =
      0x12340001 := by decide

/-- V-PING-1: the echo reply on the third call of the echo phase. -/
theorem test_ping_elapsed :
    (run1 .ping { waitingFor .echoWait 998 echoReply 0xC0A80114 1000 with pingIdseq := 0x12340001 }).result0 = 3 := by
  decide

/-- V-UDP-1, the reply; the received frame's terminator at 45 is the pad. -/
theorem test_udpSend : (run1 .udpSend (staged (udp1In ++ [0]) 42 3)).history = [.sent udp1Out] := by decide

/-- V-UDP-2, the reply to the reply. -/
theorem test_udpSend_again : (run1 .udpSend (staged udp1Out 42 4)).history = [.sent udp2Out] := by decide

/-- V-TCP-2: `B[0..58]` after TCP_READ, the ports and numbers exchanged. -/
def tcp2Read : List Byte :=
  tcp2In.take 34 ++ [0x00, 0x50, 0x9C, 0x40, 0x00, 0x00, 0x00, 0x01, 0x11, 0x22, 0x33, 0x45] ++ tcp2In.drop 46

/-- V-TCP-2: the reply. -/
theorem test_tcpSend :
    (run1 .tcpSend { staged [] 100 2 with
      frame := Memory.cells 0 tcp2Read ++ [(59, 0), (100, 0x4F), (101, 0x4B)] }).history = [.sent tcp2Out] := by decide

/-- V-TCP-E. -/
theorem test_tcpSend_errors :
    (run1 .tcpSend (staged [] 100 0x10000)).statusWord = 0x306 ∧
    (run1 .tcpSend { staged [] 100 2 with frame := [(46, 0x40)] }).statusWord = 0x306 ∧
    (run1 .tcpSend { staged [] 0 1483 with frame := [(46, 0x50)] }).statusWord = 0x406 := by decide

/-- V-DNS-1: TX 2. -/
theorem test_dnsResolve_query :
    (run1 .dnsResolve { waitingFor .arpWait 5 serverReply 0xC0A80101 5 with name := Memory.cells 0 nameText }).history =
      [.received 1536 serverReply, .sent dns1Out] := by decide

/-- V-DNS-3: the answer offset. -/
theorem test_dnsResolve_answer :
    (run1 .dnsResolve { waitingFor .replyWait 4 dns3Reply 0xC0A80101 5 with dnsId := 1 }).result0 = 84 := by decide

/-- W6, V-DNS-E2, V-DNS-E3. -/
theorem test_dns_labels :
    dnsEncode (nameText.take 12) = nameCoded ∧ dnsEncode [0x2E, 0x61, 0x2E, 0x2E, 0x62, 0x2E] = [1, 0x61, 1, 0x62, 0] ∧
    dnsEncode [] = [0] := by decide

/-! ### The host -/

/-- V-DEC-1, V-DEC-2 and V-DEC-5: illegal words; the event registers stay. -/
theorem test_illegal_command :
    (State.reset.takeCommand 0).statusWord = 0x106 ∧ (State.reset.takeCommand 0x101).statusWord = 0x106 ∧
    ({ ready with stage := .idle, evtKind := 1, evtOff := 42, evtLen := 3 }.takeCommand 0xFF).statusWord = 0x116 := by
  decide

/-- V-OVR-1, V-OVR-2, V-OVR-3: writes while BUSY, the host's turn first. -/
theorem test_overrun :
    (got ready (step { ready with script := [.write 4 8 5], sched := [.host] })).arg0 = 0 ∧
    (got ready (step { ready with script := [.write 4 8 5], sched := [.host] })).ovr = true ∧
    (got ready (step { ready with script := [.write 4 0 1], sched := [.host] })).ovr = true ∧
    (got ready (step { ready with ovr := true, script := [.write 4 4 8], sched := [.host] })).ovr = false := by decide

/-- P1, line 2: `CSUM_STORE 14, 20, 24` is these accesses. -/
theorem test_script_csumStore :
    expandLine 0 (.csumStore 14 20 24) =
      [.write 1 0x10018 0, .write 1 0x10019 0, .write 4 8 14, .write 4 12 20, .write 4 0 1, .wait, .read 4 0x10,
       .writeLast 0x10018 0x10 8, .writeLast 0x10019 0x10 0] := by decide

/-- P2, line 1: `INIT` is these accesses. -/
theorem test_script_init :
    expandLine 0 (.init 0x020000000001 0xC0A8010A) =
      [.write 4 0x20 0x200, .write 4 0x24 1, .write 4 0x28 0xC0A8010A] := by decide

/-! ### Witnesses: for each obligation, values that meet its hypotheses together -/

/-- An IDLE engine whose host is about to make the given operation. -/
def idleHost (op : HostOp) : State := { ready with stage := .idle, script := [op] }

/-- A BUSY engine, running POLL, whose host is about to make the given operation and moves first. -/
def busyHost (op : HostOp) : State := { ready with cmd := 0x11, script := [op], sched := [.host] }

/-- A BUSY engine, running POLL, with nothing for the host to do. -/
def polling : State := { ready with cmd := 0x11, macIn := [arp1In, []] }

theorem witness_DecodeAndEncodeAgree : decode 0x41 = .ok .tcpSend := by decide

theorem witness_StepRunsTheCommand :
    polling.stage ≠ .idle ∧ polling.turn = .engine ∧ decode polling.cmd = .ok .poll ∧ polling.script = [] := by decide

theorem witness_BusyEngineAlwaysSteps :
    polling.stage ≠ .idle ∧ polling.turn = .engine ∧ State.reset.runEnded = true := by decide

theorem witness_LegalWordStartsACommand :
    (idleHost (.write 4 0 0x50)).stage = .idle ∧
    (idleHost (.write 4 0 0x50)).script = .write 4 (idleHost (.write 4 0 0x50)).cfg.engineBase 0x50 :: [] ∧
    decode 0x50 = .ok .dnsResolve := by decide

theorem witness_IllegalWordEndsAtOnce :
    ((idleHost (.write 4 0 0)).stage = .idle ∧ (idleHost (.write 4 0 0)).script = [.write 4 0 0] ∧ legalWord 0 = false) ∧
    ((busyHost (.write 4 0 0x51)).stage ≠ .idle ∧ (busyHost (.write 4 0 0x51)).turn = .host ∧
      (busyHost (.write 4 0 0x51)).script = [.write 4 0 0x51] ∧ legalWord 0x51 = false) := by decide

theorem witness_WritesWhileBusyAreIgnored :
    ∀ op ∈ [HostOp.write 4 (0 + 0x000) 1, .write 4 (0 + 0x03C) 1, .write 1 (0 + 0x10000 + 1535) 1,
        .write 1 (0 + 0x100 + 255) 1, .write 4 (0 + 4) 8, .write 4 (0 + 0x048) 0],
      (busyHost op).cfg.wf ∧ (busyHost op).stage ≠ .idle ∧ (busyHost op).turn = .host ∧ (busyHost op).script = [op] ∧
      1535 < (busyHost op).cfg.bufSize := by decide

theorem witness_ReadsWhileBusy :
    ∀ op ∈ [HostOp.read 4 (0 + 0x004), .read 4 (0 + 0x010), .read 1 (0 + 0x10000 + 1535),
        .read 1 (0 + 0x100 + 255)],
      (busyHost op).cfg.wf ∧ (busyHost op).stage ≠ .idle ∧ (busyHost op).turn = .host ∧
      (busyHost op).initialised = true ∧ (busyHost op).script = [op] ∧
      ({ busyHost op with initIp := false }).initialised = false ∧ ({ busyHost op with initIp := false }).turn = .host ∧
      (0x004, (busyHost op).statusWord) ∈ (busyHost op).steadyRegs ∧ (0x010, 0) ∈ (busyHost op).endedRegs := by
  decide

theorem witness_WritesWhileIdle :
    ∀ op ∈ [HostOp.write 4 (0 + 0x020) 0xFFFF0200, .write 4 (0 + 0x040) 1,
        .write 1 (0 + 0x10000 + 1535) 1, .write 1 (0 + 0x100 + 255) 1],
      (idleHost op).cfg.wf ∧ (idleHost op).stage = .idle ∧ (idleHost op).script = [op] := by decide

theorem witness_ReadsWhileIdle :
    ∀ op ∈ [HostOp.read 4 (0 + 0x028), .read 4 (0 + 0x004), .read 1 (0 + 0x10000 + 1535), .read 1 (0 + 0x100 + 255)],
      (idleHost op).cfg.wf ∧ (idleHost op).stage = .idle ∧ (idleHost op).initialised = true ∧ (idleHost op).script = [op] ∧
      (0x028, 0xC0A8010A) ∈ (idleHost op).steadyRegs := by decide

/-- The first and the last offset of each reserved range, by both widths. -/
theorem witness_ReservedOffsetsReadZeroAndIgnoreWrites :
    (∀ off ∈ [0x18, 0x1F, 0x4C, 0xFF, 0x200, 0xFFFF, 0x10600, 0x1FFFF], reservedOffset 1536 off) ∧
    (idleHost (.read 4 (0 + 0x18))).turn = .host ∧ (idleHost (.read 4 (0 + 0x18))).cfg.wf ∧
    (busyHost (.write 1 (0 + 0x1FFFF) 7)).turn = .host := by simp only [reservedOffset]; decide

/-- Boundary offsets of each clause of the first part. -/
theorem witness_WrongWidthIsRefused :
    (idleHost (.read 2 0)).cfg.wf ∧ (idleHost (.read 2 0)).turn = .host ∧
    (∃ r ∈ [0x040, 0x044, 0x048], r ≤ 0x4B ∧ 0x4B < r + 4 ∧ ¬ (4 = 4 ∧ 0x4B = r)) ∧
    (∃ r ∈ [0x000, 0x004], r ≤ 0 ∧ 0 < r + 4 ∧ ¬ (2 = 4 ∧ 0 = r)) ∧
    ((0x100 ≤ 0x1FF ∧ 0x1FF < 0x200) ∨ (0x10000 ≤ 0x1FF ∧ 0x1FF < 0x10000 + 1536)) ∧
    reservedOffset 1536 0x200 ∧ ¬ (2 = 1 ∨ 2 = 4 ∧ 0x200 % 4 = 0) := by simp only [reservedOffset]; decide

/-- An engine above address 0: the last address below its register space, and the first beyond it. -/
theorem witness_WrongWidthIsRefused_outside :
    ∀ addr ∈ [0x3FFFFFFF, 0x40020000],
      ({ idleHost (.read 4 addr) with cfg := { engineBase := 0x40000000 } }).turn = .host ∧
      ({ idleHost (.read 4 addr) with cfg := { engineBase := 0x40000000 } }).script = .read 4 addr :: [] ∧
      (addr < 0x40000000 ∨ 0x40000000 + 0x20000 ≤ addr) := by decide

theorem witness_ResetLeavesTheStatedValues :
    (busyHost .reset).turn = .host ∧ (busyHost .reset).script = .reset :: [] ∧ (idleHost .reset).turn = .host := by decide

theorem witness_ResetMeetsTheInvariant :
    ({ bufSize := 1514 } : Params).wf ∧ ({ bufSize := 65536, engineBase := 0x40000000 } : Params).wf := by decide

theorem witness_invariant_busy : polling.Inv where
  params := by decide
  frameWf := by decide
  frameWithin := by decide
  nameWf := by decide
  nameWithin := by decide
  eventKind := by decide
  eventNone := by decide
  eventInside := by decide
  errcode := by decide
  errAgrees := by decide
  errDone := by decide
  busyClear := by decide
  busyCommand := fun _ => ⟨.poll, by decide, by decide⟩
  busyReady := by decide
  budget := by decide
  macCalls := fun _ h => absurd h (List.not_mem_nil)

theorem witness_invariant_reset : State.reset.Inv where
  params := by decide
  frameWf := by decide
  frameWithin := by decide
  nameWf := by decide
  nameWithin := by decide
  eventKind := by decide
  eventNone := by decide
  eventInside := by decide
  errcode := by decide
  errAgrees := by decide
  errDone := by decide
  busyClear := by decide
  busyCommand := fun h => absurd rfl h
  busyReady := by decide
  budget := by decide
  macCalls := fun _ h => absurd h (List.not_mem_nil)

theorem witness_EveryStepKeepsTheInvariant : polling.Inv ∧ ∃ t, step polling = .next t :=
  ⟨witness_invariant_busy, isNext_iff (by decide)⟩

theorem witness_HistoryIsAppendOnly :
    (∃ t, step { polling with stage := .draining 0 } = .next t) ∧
    (∃ t, step (busyHost .reset) = .next t) ∧ (busyHost .reset).turn = .host :=
  ⟨isNext_iff (by decide), isNext_iff (by decide), by decide⟩

theorem witness_CommandsKeepTheConfiguration : ∃ t, exec .rxDispatch (staged tcp1In 54 0) = .next t :=
  isNext_iff (by decide)

theorem witness_OverrunIsSticky :
    (∃ t, step { busyHost (.write 4 4 8) with ovr := true } = .next t ∧ t.ovr = false) ∧
    (∃ t, step { busyHost .reset with ovr := true } = .next t ∧ t.ovr = false) := ⟨⟨_, rfl, rfl⟩, ⟨_, rfl, rfl⟩⟩

theorem witness_OnlyACommandWriteLeavesIdle :
    (∃ t, step (idleHost (.write 4 0 0x11)) = .next t ∧ (idleHost (.write 4 0 0x11)).stage = .idle ∧ t.stage ≠ .idle) ∧
    (∃ t, step { ready with cmd := 1 } = .next t ∧ t.stage = .idle) ∧
    (∃ t, step (busyHost .reset) = .next t ∧ t.stage = .idle) :=
  ⟨⟨_, rfl, by decide⟩, ⟨_, rfl, by decide⟩, ⟨_, rfl, by decide⟩⟩

theorem witness_EveryFrameSentIsWellFormed :
    (staged arp1In 42 0).cfg.wf ∧ ∃ t, exec .rxDispatch (staged arp1In 42 0) = .next t ∧ .sent arp1Out ∈ t.history :=
  ⟨by decide, _, rfl, by decide⟩

theorem witness_NoMacCallBeforeInitialisation :
    State.reset.Inv ∧ (∃ t, step State.reset = .next t) ∧ State.reset.initialised = false :=
  ⟨witness_invariant_reset, isNext_iff (by decide), by decide⟩

set_option maxRecDepth 4000 in
/-- A state for each kind of error, and one with none. -/
theorem witness_FirstErrorIsReported :
    legalWord 0x12 = false ∧ ready.stage = .start ∧ (staged [] 1537 0).firstError .csum = some .bounds ∧
    ({ ready with initIp := false }).firstError .poll = some .noinit ∧ (staged [] 0x10000 0).firstError .ipSend = some .arg ∧
    ({ ready with name := Memory.cells 0 (List.replicate 256 1) }).firstError .dnsResolve = some .name ∧
    ready.firstError .arpResolve = none ∧
    (0 < ready.cfg.nameSize ∧ ({ ready with name := [(0, 0)] }).byteN 0 = 0) := by decide

theorem witness_CommandErrorIsPrecise :
    ∃ t, exec .poll { ready with initIp := false } = .next t ∧ ready.err = false ∧ t.err = true := ⟨_, rfl, by decide⟩

theorem witness_FoldedSumClosedForm : ([0xFFFF, 0xFFFF] : List Half).length ≤ 65537 := by decide

theorem witness_FoldedSumIgnoresOrder : ([1, 2] : List Half).Perm [2, 1] := by decide

theorem witness_StoredChecksumVerifies :
    14 ≤ 24 ∧ (24 - 14) % 2 = 0 ∧ 24 + 2 ≤ 14 + 20 ∧ 20 ≤ 65536 ∧ (0 ≤ 65534 ∧ 65534 % 2 = 0 ∧ 65534 + 2 ≤ 0 + 65536) := by decide

theorem witness_CsumResult :
    ((staged [] 1536 0).arg0.toNat + (staged [] 1536 0).arg1.toNat ≤ (staged [] 1536 0).cfg.bufSize) ∧
    ((staged [] 1537 0).cfg.bufSize < (staged [] 1537 0).arg0.toNat + (staged [] 1537 0).arg1.toNat) ∧
    (staged [] 1536 0).arg1 = 0 := by decide

/-- One state for each clause, at its bound. -/
theorem witness_CsumPseudoResult :
    (14 + 20 ≤ 1536 ∧ ((staged tcp1In 14 0).rd16 (14 + 2)).toNat = 40 ∧ 14 + 40 ≤ 1536) ∧
    (({ staged [] 14 0 with frame := [(16, 0), (17, 0x13)] }).rd16 (14 + 2)).toNat < 20 ∧
    1536 < 1517 + 20 ∧
    (({ staged [] 14 0 with frame := [(16, 6), (17, 0)] }).rd16 (14 + 2)).toNat = 1536 := by decide

/-- One frame for each of the four reasons. -/
theorem witness_DroppedFrameHasNoEffect :
    (staged icmp1In 14 0).cfg.wf ∧
    (staged (icmp1In.set 12 0x86) 46 0).cfg.wf ∧ (staged peerReply 42 0).cfg.wf ∧
    (14 ≤ 14 ∧ (staged icmp1In 14 0).initialised = true ∧ 14 = (staged icmp1In 14 0).arg0.toNat) ∧
    ((staged (icmp1In.set 12 0x86) 46 0).rd16 12 ≠ 0x0806 ∧ (staged (icmp1In.set 12 0x86) 46 0).rd16 12 ≠ 0x0800) ∧
    ((staged peerReply 42 0).rd16 12 = 0x0806 ∧ (staged peerReply 42 0).rd16 20 ≠ 1) ∧
    ((staged (icmp1In.set 14 0x46) 46 0).rd16 12 = 0x0800 ∧ (staged (icmp1In.set 14 0x46) 46 0).rd8 14 ≠ 0x45) ∧
    46 ≤ (staged [] 46 0).cfg.bufSize := by decide

/-- The third clause: a POLL that receives a frame with an unknown ethertype. -/
theorem witness_DroppedFrameHasNoEffect_poll :
    ({ ready with stage := .draining 3, macIn := [icmp1In.set 12 0x86] }).macReceive.cfg.wf ∧
    ({ ready with stage := .draining 3, macIn := [icmp1In.set 12 0x86] }).evtKind = 0 ∧
    ({ ready with stage := .draining 3, macIn := [icmp1In.set 12 0x86] }).nextFrame.length = 46 ∧
    ({ ready with stage := .draining 3, macIn := [icmp1In.set 12 0x86] }).macReceive.rd16 12 = 0x8600 := by decide

/-- V-DROP-8, V-DROP-9, V-TCP-1e and V-DROP-10: one frame for each of the four reasons. -/
theorem witness_DroppedPacketKeepsItsTerminator :
    (staged (tcp1In.set 46 0x40) 54 0).cfg.wf ∧ (staged (udp1In.set 39 7) 45 0).cfg.wf ∧
    (∀ f ∈ [icmp1In.set 23 2, icmp1In.set 34 0x0D],
      (staged f 46 0).cfg.wf ∧ (staged f 46 0).rd16 12 = 0x0800 ∧ (staged f 46 0).rd8 14 = 0x45 ∧ (staged f 46 0).rd32 30 = (staged f 46 0).localIp ∧
      (staged f 46 0).rd16 16 = 32 ∧ 14 + 32 + 1 ≤ (staged f 46 0).cfg.bufSize) ∧
    (staged (icmp1In.set 23 2) 46 0).rd8 23 = 2 ∧ ((staged (icmp1In.set 34 0x0D) 46 0).wr8 46 0).rd8 34 ≠ 8 ∧
    ((staged (tcp1In.set 46 0x40) 54 0).wr8 54 0).tcpHlen < 20 ∧ (staged (tcp1In.set 46 0x40) 54 0).rd8 23 = 6 ∧
    (((staged (udp1In.set 39 7) 45 0).wr8 45 0).rd16 38).toNat < 8 := by decide

theorem witness_ArpRequestIsAnswered :
    (staged arp1In 42 0).cfg.wf ∧
    (staged arp1In 42 0).initialised = true ∧ 42 = (staged arp1In 42 0).arg0.toNat ∧ 42 ≤ (staged arp1In 42 0).cfg.bufSize ∧
    (staged arp1In 42 0).rd16 12 = 0x0806 ∧ (staged arp1In 42 0).rd16 20 = 1 ∧
    (staged arp1In 42 0).rd32 38 = (staged arp1In 42 0).localIp ∧ (staged arp1In 42 0).rd16 14 = 1 ∧
    (staged arp1In 42 0).rd16 16 = 0x0800 := by decide

/-- What the inbound statements ask of an IPv4 frame of `n` bytes for the local address. -/
theorem witness_EchoRequestIsAnswered :
    (staged icmp1In 46 0).cfg.wf ∧
    (staged icmp1In 46 0).initialised = true ∧ 46 = (staged icmp1In 46 0).arg0.toNat ∧
    (staged icmp1In 46 0).rd16 12 = 0x0800 ∧ (staged icmp1In 46 0).rd8 14 = 0x45 ∧
    (staged icmp1In 46 0).rd32 30 = (staged icmp1In 46 0).localIp ∧ 32 = ((staged icmp1In 46 0).rd16 16).toNat ∧ 28 ≤ 32 ∧
    14 + 32 + 1 ≤ (staged icmp1In 46 0).cfg.bufSize ∧ (staged icmp1In 46 0).rd8 23 = 1 ∧ (staged icmp1In 46 0).rd8 34 = 8 := by
  decide

theorem witness_UdpDatagramIsDelivered :
    (staged udp1In 45 0).cfg.wf ∧
    (staged udp1In 45 0).initialised = true ∧ 45 = (staged udp1In 45 0).arg0.toNat ∧
    (staged udp1In 45 0).rd16 12 = 0x0800 ∧ (staged udp1In 45 0).rd8 14 = 0x45 ∧
    (staged udp1In 45 0).rd32 30 = (staged udp1In 45 0).localIp ∧ 31 = ((staged udp1In 45 0).rd16 16).toNat ∧
    14 + 31 + 1 ≤ (staged udp1In 45 0).cfg.bufSize ∧ (staged udp1In 45 0).rd8 23 = 17 ∧
    11 = (((staged udp1In 45 0).wr8 (14 + 31) 0).rd16 38).toNat ∧ 34 + 11 + 1 ≤ (staged udp1In 45 0).cfg.bufSize := by decide

theorem witness_TcpHandshakeIsAnswered :
    (staged tcp1In 54 0).cfg.wf ∧
    (staged tcp1In 54 0).initialised = true ∧ 54 = (staged tcp1In 54 0).arg0.toNat ∧
    (staged tcp1In 54 0).rd16 12 = 0x0800 ∧ (staged tcp1In 54 0).rd8 14 = 0x45 ∧
    (staged tcp1In 54 0).rd32 30 = (staged tcp1In 54 0).localIp ∧ 40 = ((staged tcp1In 54 0).rd16 16).toNat ∧
    (staged tcp1In 54 0).rd8 23 = 6 ∧ 20 = ((staged tcp1In 54 0).rd8 46 >>> 4).toNat * 4 ∧
    (staged tcp1In 54 0).rd8 47 &&& 0x08 = 0 := by decide

theorem witness_TcpDataIsDelivered :
    (staged tcp2In 59 0).cfg.wf ∧
    (staged tcp2In 59 0).initialised = true ∧ 59 = (staged tcp2In 59 0).arg0.toNat ∧
    (staged tcp2In 59 0).rd16 12 = 0x0800 ∧ (staged tcp2In 59 0).rd8 14 = 0x45 ∧
    (staged tcp2In 59 0).rd32 30 = (staged tcp2In 59 0).localIp ∧ 45 = ((staged tcp2In 59 0).rd16 16).toNat ∧
    (staged tcp2In 59 0).rd8 23 = 6 ∧ 20 = ((staged tcp2In 59 0).rd8 46 >>> 4).toNat * 4 ∧
    (staged tcp2In 59 0).rd8 47 &&& 0x08 ≠ 0 := by decide

/-- One state for each clause: the start, nothing pending, an event, no event. -/
theorem witness_PollDrainsFrames :
    (polling.stage = .start ∧ polling.initialised = true) ∧
    ({ ready with stage := .draining 0, macIn := [[]] }).nextFrame = [] ∧
    ({ ready with stage := .draining 0, macIn := [udp1In] }).nextFrame ≠ [] ∧
    (({ ready with stage := .draining 0, macIn := [udp1In] }).macReceive.classify 45).evtKind ≠ 0 ∧
    (({ ready with stage := .draining 0, macIn := [icmp1In] }).macReceive.classify 46).evtKind = 0 := by decide

/-- An offset that the second clause speaks of, beside the two it does not. -/
theorem witness_ClassifyFrame :
    54 ≤ 54 ∧ 54 ≠ 14 + ((staged udp1In 45 0).rd16 16).toNat ∧
    54 ≠ 34 + (((staged udp1In 45 0).wr8 (14 + 31) 0).rd16 38).toNat := by decide

theorem witness_PollEndsOnceNothingIsPending : polling.stage = .start ∧ polling.macIn = [arp1In] ++ [] :: [] ∧
    polling.macDrains := by unfold State.macDrains; decide

theorem witness_PollMayRunForever :
    ({ ready with macIn := [[1], icmp1In.take 14] }).cfg.wf ∧ ready.stage = .start ∧ ready.initialised = true ∧
    2 ≤ ({ ready with macIn := [[1], icmp1In.take 14] }).macIn.length ∧
    (∀ f ∈ [[1], icmp1In.take 14], 1 ≤ f.length ∧ f.length ≤ 14) := by decide

theorem witness_ReceiveKeepsTheContract :
    polling.macIn = arp1In :: [[]] ∧ arp1In.length ≤ polling.cfg.bufSize ∧ polling.nextFrame.length ≤ 1535 := by decide

theorem witness_FieldsAreInNetworkOrder : 9 < 10 ∧ 10 + (be16 0x1234).length ≤ 12 := by decide

theorem witness_ArpRequestIsSent :
    (∀ i ∈ [Instr.arpResolve, .ping, .dnsResolve], i = .arpResolve ∨ i = .ping ∨ i = .dnsResolve) ∧ ready.stage = .start ∧
    ready.initialised = true ∧ 12 < ready.cfg.nameSize ∧ ({ ready with name := Memory.cells 0 nameText }).byteN 12 = 0 := by decide

/-- One state for each turn: used up, matching, not matching. -/
theorem witness_ArpResolveWaitTurn :
    (waitingFor .arpWait 0 [] 0xC0A80114 5).cfg.wf ∧ (waitingFor .arpWait 1 peerReply 0xC0A80114 5).cfg.wf ∧ (waitingFor .arpWait 1 arp1In 0xC0A80114 5).cfg.wf ∧
    (waitingFor .arpWait 0 [] 0xC0A80114 5).cnt = 0 ∧
    ((waitingFor .arpWait 1 peerReply 0xC0A80114 5).cnt ≠ 0 ∧
      14 < (waitingFor .arpWait 1 peerReply 0xC0A80114 5).nextFrame.length ∧
      (waitingFor .arpWait 1 peerReply 0xC0A80114 5).decCnt.macReceive.rd16 12 = 0x0806 ∧
      (waitingFor .arpWait 1 peerReply 0xC0A80114 5).decCnt.macReceive.rd16 20 = 2 ∧
      (waitingFor .arpWait 1 peerReply 0xC0A80114 5).decCnt.macReceive.rd32 28 = 0xC0A80114) ∧
    (waitingFor .arpWait 1 arp1In 0xC0A80114 5).decCnt.macReceive.rd16 20 ≠ 2 := by decide

theorem witness_ArpResolveMeetsItsPseudocode :
    (staged [] 0xC0A80114 5).stage = .start ∧ (staged [] 0xC0A80114 5).arg1.toNat + 2 ≤ 7 := by decide

theorem witness_WaitsAreBounded : Instr.ping ∈ [Instr.arpResolve, .ping, .dnsResolve] ∧ ready.stage = .start := by decide

theorem witness_IpSendResult :
    (staged [] 1502 6).cfg.wf ∧
    (staged [] 1502 6).initialised = true ∧ (staged [] 1502 6).arg0.extractLsb' 16 16 = 0 ∧
    (staged [] 1502 6).arg1.extractLsb' 8 24 = 0 ∧ 1502 = (staged [] 1502 6).arg0.toNat ∧
    34 + 1502 ≤ (staged [] 1502 6).cfg.bufSize := by decide

/-- Each way IP_SEND's checks fail, at its bound (V-IPSEND-E). -/
theorem witness_IpSendResult_errors :
    ({ ready with initIp := false }).initialised = false ∧
    (ready.initialised = true ∧ (staged [] 0x10000 17).arg0.extractLsb' 16 16 ≠ 0 ∧
      (staged [] 8 0x100).arg1.extractLsb' 8 24 ≠ 0) ∧
    ((staged [] 1503 6).arg0.extractLsb' 16 16 = 0 ∧ (staged [] 1503 6).arg1.extractLsb' 8 24 = 0 ∧
      (staged [] 1503 6).cfg.bufSize < 34 + (staged [] 1503 6).arg0.toNat) := by decide

/-- As for ARP_RESOLVE; the premises of each turn are the same. -/
theorem witness_PingSendsItsEchoRequest :
    (waitingFor .arpWait 0 [] 0xC0A80114 5).cfg.wf ∧ (waitingFor .arpWait 5 peerReply 0xC0A80114 5).cfg.wf ∧ (waitingFor .arpWait 5 icmp1In 0xC0A80114 5).cfg.wf ∧
    (waitingFor .arpWait 0 [] 0xC0A80114 5).stage = .arpWait ∧
    14 < (waitingFor .arpWait 5 peerReply 0xC0A80114 5).nextFrame.length ∧
    (waitingFor .arpWait 5 peerReply 0xC0A80114 5).decCnt.macReceive.arpMatch 0xC0A80114 = true ∧
    (waitingFor .arpWait 5 icmp1In 0xC0A80114 5).decCnt.macReceive.arpMatch 0xC0A80114 = false := by decide

theorem witness_PingReturnsElapsedIterations :
    ({ waitingFor .echoWait 1000 echoReply 0xC0A80114 1000 with pingIdseq := 0x12340001 }).cfg.wf ∧ (waitingFor .echoWait 0 [] 0xC0A80114 1000).cfg.wf ∧
    (waitingFor .echoWait 1000 echoReply 0xC0A80114 1000).cnt.toNat ≤ 1000 ∧
    14 < (waitingFor .echoWait 1000 echoReply 0xC0A80114 1000).nextFrame.length ∧
    ({ waitingFor .echoWait 1000 echoReply 0xC0A80114 1000 with pingIdseq := 0x12340001 }).decCnt.macReceive.pingMatch =
      true ∧
    (waitingFor .echoWait 1000 echoReply 0xC0A80114 1000).decCnt.macReceive.pingMatch = false ∧
    (waitingFor .echoWait 0 [] 0xC0A80114 1000).cnt = 0 := by decide

theorem witness_PingMeetsItsPseudocode :
    (staged [] 0xC0A80114 5).stage = .start ∧ 2 * (staged [] 0xC0A80114 5).arg1.toNat + 3 ≤ 13 := by decide

theorem witness_UdpSendResult :
    (staged udp1In 0 1494).cfg.wf ∧
    (staged udp1In 0 1494).initialised = true ∧ (staged udp1In 0 1494).arg1.extractLsb' 16 16 = 0 ∧
    0 = (staged udp1In 0 1494).arg0.toNat ∧ 1494 = (staged udp1In 0 1494).arg1.toNat ∧ 1494 = 1494 + 1494 % 2 ∧
    0 + 1494 ≤ (staged udp1In 0 1494).cfg.bufSize ∧ 42 + 1494 ≤ (staged udp1In 0 1494).cfg.bufSize := by decide

/-- Each way UDP_SEND's checks fail, at its bound (V-UDP-E). -/
theorem witness_UdpSendResult_errors :
    ({ ready with initMacLo := false }).initialised = false ∧ (staged [] 42 0x10000).arg1.extractLsb' 16 16 ≠ 0 ∧
    (staged [] 1535 2).cfg.bufSize < (staged [] 1535 2).arg0.toNat + (staged [] 1535 2).arg1.toNat ∧
    (staged [] 0 1495).cfg.bufSize < 42 + ((staged [] 0 1495).arg1.toNat + (staged [] 0 1495).arg1.toNat % 2) ∧
    (staged [] 0 1495).arg1.extractLsb' 16 16 = 0 := by decide

theorem witness_TwoUdpSendsRestoreTheOrder :
    (staged udp1In 42 3).err = false ∧ ∃ t, exec .udpSend (staged udp1In 42 3) = .next t ∧ t.err = false ∧
      ∃ u, exec .udpSend { t with arg0 := 42, arg1 := 4, stage := .start } = .next u ∧ u.err = false :=
  ⟨by decide, run1 .udpSend (staged udp1In 42 3), by rfl, by decide,
    run1 .udpSend { run1 .udpSend (staged udp1In 42 3) with arg0 := 42, arg1 := 4, stage := .start }, by rfl, by decide⟩

theorem witness_TcpSendResult :
    (staged tcp2Read 0 1482).cfg.wf ∧ (staged tcp2Read 0 1482).initialised = true ∧
    (staged tcp2Read 0 1482).arg1.extractLsb' 16 16 = 0 ∧ 1482 = (staged tcp2Read 0 1482).arg1.toNat ∧
    20 = ((staged tcp2Read 0 1482).rd8 46 >>> 4).toNat * 4 ∧ (staged tcp2Read 0 1482).rd8 23 = 6 ∧
    0 + 1482 ≤ (staged tcp2Read 0 1482).cfg.bufSize ∧ 34 + 20 + (1482 + 1482 % 2) ≤ (staged tcp2Read 0 1482).cfg.bufSize := by
  decide

theorem witness_LabelEncodingRoundTrips :
    (nameText.take 12).length ≤ 255 ∧ (dnsTokens (nameText.take 12)).length < 4 ∧ [] ∉ dotRuns (nameText.take 12) := by decide

theorem witness_DnsSendsItsQuery :
    (waitingFor .arpWait 5 serverReply 0xC0A80101 5).cfg.wf ∧ (waitingFor .arpWait 5 peerReply 0xC0A80101 5).cfg.wf ∧
    (waitingFor .arpWait 5 serverReply 0xC0A80101 5).stage = .arpWait ∧
    14 < (waitingFor .arpWait 5 serverReply 0xC0A80101 5).nextFrame.length ∧
    (waitingFor .arpWait 5 serverReply 0xC0A80101 5).decCnt.macReceive.arpMatch 0xC0A80101 = true ∧
    (waitingFor .arpWait 5 peerReply 0xC0A80101 5).decCnt.macReceive.arpMatch 0xC0A80101 = false ∧
    dnsEncode ({ ready with name := Memory.cells 0 nameText }).dottedName = nameCoded := by decide

/-- The name of V-DNS-1, before its 0x00. -/
theorem witness_DnsSendsItsQuery_name :
    (nameText.take 12).length < ready.cfg.nameSize ∧
    ({ ready with name := Memory.cells 0 nameText }).byteN (nameText.take 12).length = 0 ∧
    (∀ k, k < (nameText.take 12).length →
      (nameText.take 12)[k]? = some (({ ready with name := Memory.cells 0 nameText }).byteN k) ∧
      ({ ready with name := Memory.cells 0 nameText }).byteN k ≠ 0) := by decide

theorem witness_DnsReturnsTheAnswerOffset :
    (waitingFor .replyWait 1 dns3Reply 0xC0A80101 5).cfg.wf ∧ (waitingFor .replyWait 0 [] 0xC0A80101 5).cfg.wf ∧
    (waitingFor .replyWait 1 dns3Reply 0xC0A80101 5).stage = .replyWait ∧
    (waitingFor .replyWait 1 dns3Reply 0xC0A80101 5).decCnt.macReceive.dnsMatch 1 = true ∧
    (waitingFor .replyWait 1 dns3Reply 0xC0A80101 5).decCnt.macReceive.dnsMatch 2 = false ∧
    (waitingFor .replyWait 0 [] 0xC0A80101 5).cnt = 0 := by decide

/-- A question that ends at 54, one that leaves exactly four bytes of `B` for the answer, and one byte too few. -/
theorem witness_AnswerOffsetFollowsTheQuestion :
    (({ ready with frame := [(54, 0)] }).byteB 54 = 0 ∧ 54 < ready.cfg.bufSize) ∧
    1515 + 1 + ready.cfg.dnsAnswerSkip + 4 ≤ ready.cfg.bufSize ∧ ready.cfg.bufSize < 1516 + 1 + ready.cfg.dnsAnswerSkip + 4 ∧
    (∀ j, j < 55 → 54 ≤ j → ({ ready with frame := [(54, 1), (55, 0)] }).byteB j ≠ 0) ∧
    ({ ready with frame := [(54, 1), (55, 0)] }).byteB 55 = 0 := by decide

/-- A buffer with no 0x00 from 54 on. -/
theorem witness_AnswerOffset_none (i : Nat) (h : 54 ≤ i) :
    ({ ready with cfg := { bufSize := 55 }, frame := [(54, 1)] } : State).cfg.bufSize ≤ i ∨
    ({ ready with cfg := { bufSize := 55 }, frame := [(54, 1)] } : State).byteB i ≠ 0 := by
  by_cases hi : i = 54
  · subst hi; exact Or.inr (by decide)
  · exact Or.inl (by show 55 ≤ i; omega)

theorem witness_DnsResolveMeetsItsPseudocode :
    (staged [] 0xC0A80101 5).stage = .start ∧ 2 * (staged [] 0xC0A80101 5).arg1.toNat + 3 ≤ 13 := by decide

theorem witness_NameIsUnspecifiedAfterDnsResolve :
    (∃ t, exec .dnsResolve (waitingFor .arpWait 0 [] 0xC0A80101 5) = .next t ∧ t.stage = .idle) ∧
    (∃ t, exec .dnsResolve (waitingFor .arpWait 1 [] 0xC0A80101 5) = .next t ∧ t.stage ≠ .idle) ∧
    ready.initialised = true := ⟨⟨_, rfl, by decide⟩, ⟨_, rfl, by decide⟩, by decide⟩

end Sys2Proof.Tests
end

section
/-! SUPPORT. One access of the host as one step of the machine: what a turn of the host reads and writes, register by register
(10_state.md R31, R36, R38, R49) and byte by byte of the two windows (20_memory.md R81). -/

namespace Sys2Proof.Machine

/-! ### What the host's turn leaves alone before its operation -/

@[simp] theorem State.hostNext_cfg (s : State) (ops : List HostOp) : (s.hostNext ops).cfg = s.cfg := by
  rw [State.hostNext_eq]

@[simp] theorem State.hostNext_stage (s : State) (ops : List HostOp) : (s.hostNext ops).stage = s.stage := by
  rw [State.hostNext_eq]

@[simp] theorem State.hostNext_busy (s : State) (ops : List HostOp) : (s.hostNext ops).busy = s.busy := by
  rw [State.busy, State.hostNext_stage, State.busy]

@[simp] theorem State.hostNext_readReg (s : State) (ops : List HostOp) (d : Word) (r : Reg) :
    (s.hostNext ops).readReg d r = s.readReg d r := by
  rw [State.hostNext_eq]; cases r <;> rfl

theorem State.busy_of_stage_ne {s : State} (h : s.stage ≠ .idle) : s.busy = true := by simp [State.busy, h]

theorem State.not_busy_of_idle {s : State} (h : s.stage = .idle) : s.busy = false := by simp [State.busy, h]

/-- CMD stands at the base address, whatever the sizes of the buffers (R31). -/
theorem target_cmd (p : Params) : target p 4 p.engineBase = .reg .cmd := by
  have h := target_inside p 4 (off := 0) (by decide)
  rw [Nat.add_zero] at h
  simp [h, targetAt, Config.frameWindow, Config.nameWindow, Reg.ofOffset]

/-! ### One byte stored -/

theorem Memory.byteAt_write_singleton (m : Memory) (k : Nat) (b : Byte) (x : Nat) :
    (m.write k [b]).byteAt x = if x = k then some b else m.byteAt x := by
  rw [Memory.byteAt_write]
  by_cases h : x = k
  · simp [h]
  · rw [if_neg (by simp only [List.length_singleton]; omega), if_neg h]

theorem State.byteB_wr8 (s : State) (k : Nat) (b : Byte) (x : Nat) :
    (s.wr8 k b).byteB x = if x = k then b else s.byteB x := by
  simp only [State.byteB, State.wr8_eq, State.writeB_frame, State.writeB_frameGen, Memory.byteAt_write_singleton]
  split <;> rfl

theorem State.byteN_writeN (s : State) (k : Nat) (b : Byte) (x : Nat) :
    (s.writeN k b).byteN x = if x = k then b else s.byteN x := by
  simp only [State.byteN, State.writeN_name, State.writeN_nameGen, Memory.byteAt_write_singleton]
  split <;> rfl

/-! ### A host access as a step -/

/-- A host write that reaches `τ` and has a step there. -/
theorem step_write {s t : State} {ops : List HostOp} {bytes addr : Nat} {v : Word} {τ : Target} (hturn : s.turn = .host)
    (hs : s.script = .write bytes addr v :: ops) (hτ : target s.cfg bytes addr = τ)
    (ht : (s.hostNext ops).writeTarget v τ = some t) : step s = .next t := by
  rw [step_host hturn hs]
  simp only [State.hostOp, State.hostWrite, State.hostNext_cfg, hτ, ht]

/-- A host read that reaches `τ` and has a step there. -/
theorem step_read {s : State} {ops : List HostOp} {bytes off : Nat} {v : Word} {τ : Target} (hturn : s.turn = .host)
    (hs : s.script = .read bytes (s.cfg.engineBase + off) :: ops) (hτ : target s.cfg bytes (s.cfg.engineBase + off) = τ)
    (hv : (s.hostNext ops).readTarget (Config.hostDraw (s.hostNext ops).draws) τ = some v) :
    step s = .next ((s.hostNext ops).noteRead off v) := by
  rw [step_host hturn hs]
  simp only [State.hostOp, State.hostRead, State.hostNext_cfg, hτ, hv, Nat.add_sub_cancel_left]

section
variable {s : State} {ops : List HostOp} {v : Word} (hwf : s.cfg.wf) (hturn : s.turn = .host)
include hwf hturn

/-- A host write of a register. -/
theorem step_writeReg {r : Reg} (hs : s.script = .write 4 (s.cfg.engineBase + r.offset) v :: ops) :
    step s = .next (if s.busy then (s.hostNext ops).writeRegBusy v r else (s.hostNext ops).writeRegIdle v r) := by
  obtain ⟨-, -, -, hname, -⟩ := hwf
  exact step_write hturn hs (target_reg _ hname r) (by rw [State.writeTarget, State.hostNext_busy])

/-- A host write of a byte of the FRAME window. -/
theorem step_writeFrameByte {k : Nat} (hk : k < s.cfg.bufSize)
    (hs : s.script = .write 1 (s.cfg.engineBase + 0x10000 + k) v :: ops) :
    step s = .next (if s.busy then (s.hostNext ops).overrun else (s.hostNext ops).wr8 k (v.setWidth 8)) := by
  obtain ⟨-, hbuf, -⟩ := hwf
  exact step_write hturn hs (target_frameByte _ hbuf hk) (by rw [State.writeTarget, State.hostNext_busy])

/-- A host write of a byte of the NAME window. -/
theorem step_writeNameByte {k : Nat} (hk : k < 256) (hs : s.script = .write 1 (s.cfg.engineBase + 0x100 + k) v :: ops) :
    step s = .next (if s.busy then (s.hostNext ops).overrun else (s.hostNext ops).writeN k (v.setWidth 8)) := by
  obtain ⟨-, -, -, hname, -⟩ := hwf
  exact step_write hturn hs (target_nameByte _ hname hk) (by rw [State.writeTarget, State.hostNext_busy])

/-- A host read of a register. -/
theorem step_readReg {r : Reg} (hs : s.script = .read 4 (s.cfg.engineBase + r.offset) :: ops) :
    step s = .next ((s.hostNext ops).noteRead r.offset (s.readReg (Config.hostDraw (s.hostNext ops).draws) r)) := by
  obtain ⟨-, -, -, hname, -⟩ := hwf
  exact step_read hturn hs (target_reg _ hname r) (by rw [State.readTarget, State.hostNext_readReg])

/-- A host read of a byte of the FRAME window: the byte while IDLE, some value while BUSY. -/
theorem step_readFrameByte {k : Nat} (hk : k < s.cfg.bufSize)
    (hs : s.script = .read 1 (s.cfg.engineBase + 0x10000 + k) :: ops) :
    step s = .next ((s.hostNext ops).noteRead (0x10000 + k)
      (if s.busy then ((Config.hostDraw (s.hostNext ops).draws).setWidth 8).setWidth 32 else (s.byteB k).setWidth 32)) := by
  obtain ⟨-, hbuf, -⟩ := hwf
  have hb : (s.hostNext ops).byteB k = s.byteB k := by rw [State.hostNext_eq]; rfl
  have hτ := target_frameByte s.cfg hbuf hk
  rw [Nat.add_assoc] at hs hτ
  exact step_read hturn hs hτ (by rw [State.readTarget, State.hostNext_busy, hb])

/-- A host read of a byte of the NAME window: the byte while IDLE, some value while BUSY. -/
theorem step_readNameByte {k : Nat} (hk : k < 256) (hs : s.script = .read 1 (s.cfg.engineBase + 0x100 + k) :: ops) :
    step s = .next ((s.hostNext ops).noteRead (0x100 + k)
      (if s.busy then ((Config.hostDraw (s.hostNext ops).draws).setWidth 8).setWidth 32 else (s.byteN k).setWidth 32)) := by
  obtain ⟨-, -, -, hname, -⟩ := hwf
  have hb : (s.hostNext ops).byteN k = s.byteN k := by rw [State.hostNext_eq]; rfl
  have hτ := target_nameByte s.cfg hname hk
  rw [Nat.add_assoc] at hs hτ
  exact step_read hturn hs hτ (by rw [State.readTarget, State.hostNext_busy, hb])

end

/-! ### The registers one by one -/

/-- A write of STATUS writes OVR and nothing else (R36). -/
theorem State.writeStatus_eq (s : State) (v : Word) :
    s.writeStatus v = { s with ovr := if v.getLsbD 3 then false else s.ovr } := by
  rw [State.writeStatus]; split <;> rfl

/-- STATUS.EVT shows whether an event is set (R45). -/
theorem State.evt_eq (s : State) : s.evt = decide (s.evtKind ≠ 0) := by
  rw [State.evt, Bool.eq_iff_iff, bne_iff_ne, decide_eq_true_iff]

/-- A legal word written to CMD while IDLE is accepted (R35). -/
theorem State.takeCommand_of_decode {w : Word} {i : Instr} (s : State) (h : decode w = .ok i) :
    s.takeCommand w = s.accept w := by
  rw [State.takeCommand, h]

/-- The registers of R38 whose write only sets OVR while BUSY. -/
def Reg.ignoredWhileBusy : List Reg :=
  [.cmd, .arg0, .arg1, .macHi, .macLo, .localIp, .linePort, .httpPort, .dnsId, .dnsLport, .pingIdseq]

/-- The registers no write changes (R33, R45). -/
def Reg.readOnly : List Reg := [.result0, .result1, .evtKind, .evtOff, .evtLen]

theorem State.writeRegBusy_ignored (s : State) (v : Word) : ∀ r ∈ Reg.ignoredWhileBusy, s.writeRegBusy v r = s.overrun := by
  simp [Reg.ignoredWhileBusy, State.writeRegBusy]

theorem State.writeRegBusy_readOnly (s : State) (v : Word) : ∀ r ∈ Reg.readOnly, s.writeRegBusy v r = s := by
  simp [Reg.readOnly, State.writeRegBusy]

/-- A write of a register while IDLE does not look at the host's script. -/
theorem State.writeRegIdle_script (s : State) (ops : List HostOp) (v : Word) (r : Reg) :
    ({ s with script := ops } : State).writeRegIdle v r = { s.writeRegIdle v r with script := ops } := by
  cases r
  case cmd => simp only [State.writeRegIdle, State.takeCommand]; split <;> rfl
  case status => simp only [State.writeRegIdle, State.writeStatus]; split <;> rfl
  all_goals rfl

/-- Every entry of the table of `steadyRegs` is what a host read of a register shows, whatever the free value. -/
theorem State.readReg_of_mem_steadyRegs {s : State} {p : Nat × Word} (hp : p ∈ s.steadyRegs)
    (hi : p.1 ∈ [0x020, 0x024, 0x028] → s.initialised = true) : ∃ r : Reg, p.1 = r.offset ∧ ∀ d, s.readReg d r = p.2 := by
  simp only [State.initialised, Bool.and_eq_true, and_assoc] at hi
  simp only [State.steadyRegs, List.mem_cons, List.not_mem_nil, or_false] at hp
  rcases hp with rfl | rfl | rfl | rfl | rfl | rfl | rfl | rfl | rfl | rfl | rfl | rfl
  · exact ⟨.cmd, rfl, fun _ => rfl⟩
  · exact ⟨.status, rfl, fun _ => rfl⟩
  · exact ⟨.arg0, rfl, fun _ => rfl⟩
  · exact ⟨.arg1, rfl, fun _ => rfl⟩
  · obtain ⟨hMacHi, -, -⟩ := hi (by simp)
    exact ⟨.macHi, rfl, fun _ => by simp [State.readReg, hMacHi]⟩
  · obtain ⟨-, hMacLo, -⟩ := hi (by simp)
    exact ⟨.macLo, rfl, fun _ => by simp [State.readReg, hMacLo]⟩
  · obtain ⟨-, -, hIp⟩ := hi (by simp)
    exact ⟨.localIp, rfl, fun _ => by simp [State.readReg, hIp]⟩
  · exact ⟨.linePort, rfl, fun _ => rfl⟩
  · exact ⟨.httpPort, rfl, fun _ => rfl⟩
  · exact ⟨.dnsId, rfl, fun _ => rfl⟩
  · exact ⟨.dnsLport, rfl, fun _ => rfl⟩
  · exact ⟨.pingIdseq, rfl, fun _ => rfl⟩

/-- Every entry of the table of `endedRegs` stands at a read-only register, and a host read shows it while IDLE. -/
theorem State.readReg_of_mem_endedRegs {s : State} {p : Nat × Word} (hp : p ∈ s.endedRegs) :
    ∃ r : Reg, p.1 = r.offset ∧ (s.busy = false → ∀ d, s.readReg d r = p.2) := by
  simp only [State.endedRegs, List.mem_cons, List.not_mem_nil, or_false] at hp
  rcases hp with rfl | rfl | rfl | rfl | rfl
  · exact ⟨.result0, rfl, fun hb _ => by simp [State.readReg, hb]⟩
  · exact ⟨.result1, rfl, fun hb _ => by simp [State.readReg, hb]⟩
  · exact ⟨.evtKind, rfl, fun hb _ => by simp [State.readReg, hb]⟩
  · exact ⟨.evtOff, rfl, fun hb _ => by simp [State.readReg, hb]⟩
  · exact ⟨.evtLen, rfl, fun hb _ => by simp [State.readReg, hb]⟩

/-! ### The statements on the host's accesses -/

/-- Settles O8, by the register an access reaches: a register of R38 sets OVR, STATUS clears it, a read-only register stays. -/
theorem writesWhileBusyAreIgnored : Obligations.WritesWhileBusyAreIgnored := by
  unfold Obligations.WritesWhileBusyAreIgnored
  intro s ops v hwf hstage hturn
  have hb := State.busy_of_stage_ne hstage
  refine ⟨fun off hoff hs => ?_, fun k hk hs => ?_, fun k hk hs => ?_, fun hs => ?_, fun off hoff hs => ?_⟩
  · obtain ⟨r, hr, rfl⟩ : ∃ r ∈ Reg.ignoredWhileBusy, r.offset = off := List.mem_map.1 hoff
    rw [step_writeReg hwf hturn hs, if_pos hb, State.writeRegBusy_ignored _ v r hr]; rfl
  · rw [step_writeFrameByte hwf hturn hk hs, if_pos hb]; rfl
  · rw [step_writeNameByte hwf hturn hk hs, if_pos hb]; rfl
  · rw [step_writeReg (r := .status) hwf hturn hs, if_pos hb, State.writeRegBusy, State.writeStatus_eq]
    simp only [State.hostNext_eq]
  · obtain ⟨r, hr, rfl⟩ : ∃ r ∈ Reg.readOnly, r.offset = off := List.mem_map.1 hoff
    rw [step_writeReg hwf hturn hs, if_pos hb, State.writeRegBusy_readOnly _ v r hr]

/-- Settles O9, by the register an access reaches; the value does not depend on the turn passed. -/
theorem readsWhileBusy : Obligations.ReadsWhileBusy := by
  unfold Obligations.ReadsWhileBusy
  intro s ops hwf hstage hturn
  refine ⟨fun ⟨off, w⟩ hp hi hs => ?_, fun ⟨off, w⟩ hp hs => ?_, fun k hk hs => ⟨_, step_readFrameByte hwf hturn hk hs⟩,
    fun k hk hs => ⟨_, step_readNameByte hwf hturn hk hs⟩, fun hs => ⟨_, step_readReg (r := .status) hwf hturn hs, ?_⟩⟩
  · obtain ⟨r, rfl, hr⟩ := State.readReg_of_mem_steadyRegs hp hi
    rw [step_readReg hwf hturn hs, hr]
  · obtain ⟨r, rfl, -⟩ := State.readReg_of_mem_endedRegs hp
    exact ⟨_, step_readReg hwf hturn hs⟩
  · have h := s.statusWord_bits
    rw [State.busy_of_stage_ne hstage, State.evt_eq] at h
    exact h

/-- Settles O10, by the register an access reaches; a window write is one store into `B` or `N`. -/
theorem writesWhileIdle : Obligations.WritesWhileIdle := by
  unfold Obligations.WritesWhileIdle
  intro s ops v hwf hstage
  have hb := State.not_busy_of_idle hstage
  have hturn := (State.turn_idle hstage).1
  have hlow : v.setWidth 16 = v.extractLsb' 0 16 := BitVec.setWidth_eq_extractLsb' (by decide)
  refine ⟨fun off t hmem hs => ?_, fun k hk hs => ?_, fun k hk hs => ?_⟩
  · obtain ⟨r, hoff, ht⟩ : ∃ r : Reg, off = r.offset ∧ t = s.writeRegIdle v r := by
      rw [← State.writeStatus_eq, ← hlow] at hmem
      obtain ⟨r, -, hr⟩ := List.mem_map (f := fun r : Reg => (r.offset, s.writeRegIdle v r)) (l := [.status, .arg0,
        .arg1, .result0, .result1, .macHi, .macLo, .localIp, .linePort, .httpPort, .dnsId, .dnsLport, .pingIdseq, .evtKind,
        .evtOff, .evtLen]).1 hmem
      exact ⟨r, (congrArg Prod.fst hr).symm, (congrArg Prod.snd hr).symm⟩
    subst hoff ht
    rw [step_writeReg hwf hturn hs, hb, State.hostNext_idle hstage, State.writeRegIdle_script]; rfl
  · refine ⟨_, step_writeFrameByte hwf hturn hk hs, ?_⟩
    rw [hb, State.hostNext_idle hstage]
    exact ⟨rfl, fun x => State.byteB_wr8 _ k _ x⟩
  · refine ⟨_, step_writeNameByte hwf hturn hk hs, ?_⟩
    rw [hb, State.hostNext_idle hstage]
    exact ⟨rfl, fun x => State.byteN_writeN _ k _ x⟩

/-- Settles O11, by the register an access reaches; while IDLE no choice of who moves is used up. -/
theorem readsWhileIdle : Obligations.ReadsWhileIdle := by
  unfold Obligations.ReadsWhileIdle
  intro s ops hwf hstage
  have hb := State.not_busy_of_idle hstage
  have hturn := (State.turn_idle hstage).1
  rw [← State.hostNext_idle hstage ops]
  refine ⟨fun ⟨off, w⟩ hp hi hs => ?_, fun k hk hs => ?_, fun k hk hs => ?_,
    fun hs => ⟨_, step_readReg (r := .status) hwf hturn hs, ?_⟩⟩
  · obtain ⟨r, rfl, hr⟩ : ∃ r : Reg, off = r.offset ∧ ∀ d, s.readReg d r = w := by
      rcases List.mem_append.1 hp with hp | hp
      · exact State.readReg_of_mem_steadyRegs hp hi
      · obtain ⟨r, hoff, hr⟩ := State.readReg_of_mem_endedRegs hp
        exact ⟨r, hoff, hr hb⟩
    rw [step_readReg hwf hturn hs, hr]
  · rw [step_readFrameByte hwf hturn hk hs, hb]; rfl
  · rw [step_readNameByte hwf hturn hk hs, hb]; rfl
  · have h := s.statusWord_bits
    rw [hb, State.evt_eq] at h
    exact h

/-- Settles O12: a reserved offset is its own target, in IDLE and in BUSY. -/
theorem reservedOffsetsReadZeroAndIgnoreWrites : Obligations.ReservedOffsetsReadZeroAndIgnoreWrites := by
  unfold Obligations.ReservedOffsetsReadZeroAndIgnoreWrites
  intro s ops off bytes v ⟨_, hbuf, _, hname, _⟩ hturn hoff hbytes
  have hinside : off < 0x20000 := by simp only [reservedOffset] at hoff; omega
  have hτ : target s.cfg bytes (s.cfg.engineBase + off) = .reserved := by
    rw [target_inside _ _ hinside, hname, targetAt_reserved _ hoff, if_pos hbytes]
  exact ⟨fun hs => step_read hturn hs hτ rfl, fun hs => step_write hturn hs hτ rfl⟩

/-- Settles O6: the write reaches CMD, whose effect while IDLE is to accept the word. -/
theorem legalWordStartsACommand : Obligations.LegalWordStartsACommand := by
  unfold Obligations.LegalWordStartsACommand
  intro s ops w i hstage hs hw
  have hturn := (State.turn_idle hstage).1
  refine step_write hturn hs (target_cmd s.cfg) ?_
  rw [State.writeTarget, State.hostNext_busy, State.not_busy_of_idle hstage, State.hostNext_idle hstage,
    if_neg Bool.false_ne_true, State.writeRegIdle, State.takeCommand_of_decode _ hw]; rfl

end Sys2Proof.Machine
end

section
/-! SUPPORT. What one engine step can do, said once for every command: the registers it may change (10_state.md R32, R42 to R46),
and the three ways it leaves the command: finished, raised, or going on in a stage of its own (R34, R37). -/

namespace Sys2Proof.Machine

/-! ### The fields of the two queries are stores into `B` -/

theorem State.echoFields_onlyFrame (s : State) : s.OnlyFrame s.echoFields :=
  (((s.writeB_onlyFrame _ _).writeB _ _).writeB _ _).writeB _ _

theorem State.dnsHeader_onlyFrame (s : State) : s.OnlyFrame s.dnsHeader := by
  simp only [State.dnsHeader, State.wr16_eq]
  repeat' apply State.OnlyFrame.writeB
  exact .refl s

theorem State.dnsQuestion_onlyFrame (s : State) (q : List Byte) : s.OnlyFrame (s.dnsQuestion q) :=
  ((s.writeB_onlyFrame _ _).writeB _ _).writeB _ _

/-! ### What a running command may change -/

/-- `t` is `s` changed only as a running command `i` may change it before it ends: in its stage, the event, the buffers, the
hidden counters and the MAC's calls; in DNS_ID and `N` for DNS_RESOLVE only, in the sequence number for PING only. -/
structure State.ChangedBy (i : Instr) (s t : State) : Prop where
  rest : t = { s with
    stage := t.stage, dnsId := t.dnsId, pingIdseq := t.pingIdseq, evtKind := t.evtKind, evtOff := t.evtOff, evtLen := t.evtLen,
    acc := t.acc, cnt := t.cnt, frame := t.frame, name := t.name, nameGen := t.nameGen, history := t.history,
    macIn := t.macIn, draws := t.draws }
  history : s.history <+: t.history
  dns : i ≠ .dnsResolve → t.dnsId = s.dnsId ∧ t.name = s.name ∧ t.nameGen = s.nameGen
  ping : i ≠ .ping → t.pingIdseq = s.pingIdseq
  pingId : t.pingId = s.pingId

namespace State.ChangedBy

variable {i : Instr} {s t u : State}

theorem refl (i : Instr) (s : State) : s.ChangedBy i s :=
  ⟨rfl, List.prefix_refl _, fun _ => ⟨rfl, rfl, rfl⟩, fun _ => rfl, rfl⟩

theorem trans (h : s.ChangedBy i t) (h' : t.ChangedBy i u) : s.ChangedBy i u where
  rest := h'.rest.trans (by rw [h.rest])
  history := h.history.trans h'.history
  dns hi := by
    obtain ⟨hid, hname, hgen⟩ := h.dns hi
    obtain ⟨hid', hname', hgen'⟩ := h'.dns hi
    exact ⟨hid'.trans hid, hname'.trans hname, hgen'.trans hgen⟩
  ping hi := (h'.ping hi).trans (h.ping hi)
  pingId := h'.pingId.trans h.pingId

/-! One lemma for each update a command is made of. -/

theorem emits {l : List MacEvent} (h : s.ChangedBy i t) (e : t.Emits u l) : s.ChangedBy i u := by
  refine h.trans ⟨?_, ?_, ?_, ?_, ?_⟩ <;> rw [e]
  · exact List.prefix_append _ _
  · exact fun _ => ⟨rfl, rfl, rfl⟩
  · exact fun _ => rfl
  · rfl

theorem onlyFrame (h : s.ChangedBy i t) (e : t.OnlyFrame u) : s.ChangedBy i u := h.emits e.emits

theorem writeB (h : s.ChangedBy i t) (a : Nat) (bs : List Byte) : s.ChangedBy i (t.writeB a bs) :=
  h.onlyFrame (t.writeB_onlyFrame a bs)

theorem clearEvent (h : s.ChangedBy i t) : s.ChangedBy i t.clearEvent :=
  h.trans ⟨rfl, List.prefix_refl _, fun _ => ⟨rfl, rfl, rfl⟩, fun _ => rfl, rfl⟩

theorem setEvent (h : s.ChangedBy i t) (e : BitVec 3) (off len : Half) : s.ChangedBy i (t.setEvent e off len) :=
  h.trans ⟨rfl, List.prefix_refl _, fun _ => ⟨rfl, rfl, rfl⟩, fun _ => rfl, rfl⟩

theorem beginWait (h : s.ChangedBy i t) (g : Stage) (w : Word) : s.ChangedBy i (t.beginWait g w) :=
  h.trans ⟨rfl, List.prefix_refl _, fun _ => ⟨rfl, rfl, rfl⟩, fun _ => rfl, rfl⟩

theorem setStage (h : s.ChangedBy i t) (g : Stage) : s.ChangedBy i (t.setStage g) :=
  h.trans ⟨rfl, List.prefix_refl _, fun _ => ⟨rfl, rfl, rfl⟩, fun _ => rfl, rfl⟩

theorem decCnt (h : s.ChangedBy i t) : s.ChangedBy i t.decCnt :=
  h.trans ⟨rfl, List.prefix_refl _, fun _ => ⟨rfl, rfl, rfl⟩, fun _ => rfl, rfl⟩

theorem macReceive (h : s.ChangedBy i t) : s.ChangedBy i t.macReceive :=
  h.trans ⟨rfl, List.prefix_append _ _, fun _ => ⟨rfl, rfl, rfl⟩, fun _ => rfl, rfl⟩

theorem nextPing (h : s.ChangedBy .ping t) : s.ChangedBy .ping t.nextPing :=
  h.trans ⟨rfl, List.prefix_refl _, fun _ => ⟨rfl, rfl, rfl⟩, fun hi => (hi rfl).elim, (half_append_parts _ _).1⟩

theorem nextDnsId (h : s.ChangedBy .dnsResolve t) : s.ChangedBy .dnsResolve t.nextDnsId :=
  h.trans ⟨rfl, List.prefix_refl _, fun hi => (hi rfl).elim, fun _ => rfl, rfl⟩

theorem scrambleN (h : s.ChangedBy .dnsResolve t) : s.ChangedBy .dnsResolve t.scrambleN :=
  h.trans ⟨rfl, List.prefix_refl _, fun hi => (hi rfl).elim, fun _ => rfl, rfl⟩

/-! The stages the commands share, and those of PING and DNS_RESOLVE. -/

theorem arpStart (h : s.ChangedBy i t) (ip w : Word) : s.ChangedBy i ((t.clearEvent.arpRequest ip).beginWait .arpWait w) :=
  (h.clearEvent.emits (State.arpRequest_emits _ ip)).beginWait _ _

theorem waitTurn (h : s.ChangedBy i t) : s.ChangedBy i t.waitTurn := by
  rw [State.waitTurn]
  split
  · exact h
  · exact h.decCnt.macReceive

theorem pingRequest (h : s.ChangedBy .ping t) (ip : Word) (mac : HwAddr) : s.ChangedBy .ping (t.pingRequest ip mac) :=
  (((h.nextPing.onlyFrame (State.stagePeer_onlyFrame _ ip mac)).onlyFrame (State.echoFields_onlyFrame _)).emits
    (State.csumStore_emits _ 36 34 8)).emits (State.ipSend_emits _ 8 proto.ipprotoIcmp)

theorem dnsQuery (h : s.ChangedBy .dnsResolve t) (ip : Word) (mac : HwAddr) :
    s.ChangedBy .dnsResolve (t.dnsQuery ip mac) :=
  (((h.nextDnsId.onlyFrame (State.stagePeer_onlyFrame _ ip mac)).onlyFrame (State.dnsHeader_onlyFrame _)).onlyFrame
    (State.dnsQuestion_onlyFrame _ (dnsEncode t.dottedName))).emits (State.udpSendBody_emits _ 42 t.dnsMessageLen)

/-! The inbound path (41_frame_dispatch.md R172), which RX_DISPATCH and POLL share. -/

theorem icmpEcho (h : s.ChangedBy i t) (total : Nat) : s.ChangedBy i (t.icmpEcho total) := by
  simp only [State.icmpEcho, State.wr8_eq]
  split
  · exact h
  · split
    · exact h
    · exact ((h.writeB _ _).emits (State.csumStore_emits _ _ _ _)).emits (State.ipSend_emits _ _ _)

theorem udpRead (h : s.ChangedBy i t) : s.ChangedBy i t.udpRead := by
  simp only [State.udpRead, State.wr8_eq]
  split
  · exact h
  · split
    · exact (h.writeB _ _).setEvent _ _ _
    · exact h

theorem tcpHandshake (h : s.ChangedBy i t) (total : Nat) (fl : Byte) : s.ChangedBy i (t.tcpHandshake total fl) :=
  (((h.onlyFrame (State.ackHandshake_onlyFrame _ fl)).onlyFrame (State.addAck_onlyFrame _ fl)).emits
    (State.pseudoStore_emits _ 50 14)).emits (State.ipSend_emits _ (total - 20) proto.ipprotoTcp)

theorem tcpRead (h : s.ChangedBy i t) (total : Nat) : s.ChangedBy i (t.tcpRead total) := by
  have hswap := (h.onlyFrame (State.swapPorts_onlyFrame t)).onlyFrame (State.swapSeqAck_onlyFrame _)
  simp only [State.tcpRead]
  split
  · exact h
  · split
    · exact h
    · split
      · exact hswap.tcpHandshake _ _
      · exact hswap.setEvent _ _ _

theorem ipDeliver (h : s.ChangedBy i t) (total : Nat) : s.ChangedBy i (t.ipDeliver total) := by
  rw [State.ipDeliver]
  split
  · exact h.icmpEcho total
  · split
    · exact h.tcpRead total
    · split
      · exact h.udpRead
      · exact h

theorem ipRead (h : s.ChangedBy i t) : s.ChangedBy i t.ipRead := by
  simp only [State.ipRead]
  split
  · exact h
  · split
    · exact h
    · split
      · exact h
      · split
        · exact (h.writeB _ _).ipDeliver _
        · exact h

theorem classify (h : s.ChangedBy i t) (n : Nat) : s.ChangedBy i (t.classify n) := by
  rw [State.classify]
  split
  · exact h
  · split
    · split
      · exact h.emits (State.arpAnswer_emits t)
      · exact h
    · split
      · exact h.ipRead
      · exact h

theorem tcpSendBody (h : s.ChangedBy i t) (hlen src len : Nat) : s.ChangedBy i (t.tcpSendBody hlen src len) :=
  ((((h.onlyFrame (State.stagePayload_onlyFrame t _ src len)).writeB _ _).onlyFrame
    (State.tcpAdvance_onlyFrame _ _)).emits (State.pseudoStore_emits _ _ _)).emits (State.ipSend_emits _ _ _)

end State.ChangedBy

/-! ### How a step leaves the command -/

/-- What one engine step of command `i` makes of `s`: the command ends with its results, ends with an error, or goes on in a
stage of its own. -/
inductive State.StepOf (i : Instr) (s : State) : State → Prop where
  | finished {u : State} (h : s.ChangedBy i u) (r0 r1 : Word) : s.StepOf i (u.finish r0 r1)
  | raised {u : State} (h : s.ChangedBy i u) (c : CmdError) : s.StepOf i (u.raise c)
  | goesOn {u : State} (h : s.ChangedBy i u) (hfits : u.stage.fits i = true) : s.StepOf i u

theorem State.waitTurn_stage (s : State) : s.waitTurn.stage = s.stage := by
  rw [State.waitTurn]; split <;> rfl

/-- A turn of a wait that found nothing goes on in the stage it was in. -/
theorem State.StepOf.again {i : Instr} {s : State} {g : Stage} (hg : s.stage = g) (hfits : g.fits i = true) :
    s.StepOf i s.waitTurn := .goesOn (.waitTurn (.refl i s)) (by rw [State.waitTurn_stage, hg, hfits])

/-! ### One lemma per command -/

section
variable {s t : State}

theorem execCsum_stepOf (h : execCsum s = .next t) : s.StepOf .csum t := by
  obtain rfl := Host.Outcome.next.inj h
  split
  · exact .finished (.emits (.refl _ s) (State.setAcc_emits _ _)) _ _
  · exact .raised (.refl _ s) _

theorem execCsumPseudo_stepOf (h : execCsumPseudo s = .next t) : s.StepOf .csumPseudo t := by
  obtain rfl := Host.Outcome.next.inj h
  split
  · split
    · exact .raised (.refl _ s) _
    · split
      · exact .finished (.emits (.refl _ s) (State.setAcc_emits _ _)) _ _
      · exact .raised (.refl _ s) _
  · exact .raised (.refl _ s) _

theorem execRxDispatch_stepOf (h : execRxDispatch s = .next t) : s.StepOf .rxDispatch t := by
  obtain rfl := Host.Outcome.next.inj h
  split
  · split
    · exact .finished ((State.ChangedBy.refl _ s).clearEvent.classify _) _ _
    · exact .raised (.refl _ s) _
  · exact .raised (.refl _ s) _

theorem State.pollStart_stepOf (s : State) : s.StepOf .poll s.pollStart := by
  rw [State.pollStart]
  split
  · exact .goesOn ((State.ChangedBy.refl _ s).clearEvent.setStage _) rfl
  · exact .raised (.refl _ s) _

theorem State.pollTurn_stepOf (s : State) (k : Word) : s.StepOf .poll (s.pollTurn k) := by
  have hreceived : s.ChangedBy .poll s.macReceive := (State.ChangedBy.refl _ s).macReceive
  simp only [State.pollTurn]
  split
  · exact .finished hreceived _ _
  · split
    · exact .finished (hreceived.classify _) _ _
    · exact .goesOn ((hreceived.classify _).setStage _) rfl

theorem execPoll_stepOf (h : execPoll s = .next t) : s.StepOf .poll t := by
  obtain rfl := Host.Outcome.next.inj h
  split
  · exact State.pollTurn_stepOf s _
  · exact State.pollStart_stepOf s

theorem State.arpResolveStart_stepOf (s : State) : s.StepOf .arpResolve s.arpResolveStart := by
  rw [State.arpResolveStart]
  split
  · exact .goesOn (.arpStart (.refl _ s) _ _) rfl
  · exact .raised (.refl _ s) _

theorem State.arpResolveTurn_stepOf (hg : s.stage = .arpWait) : s.StepOf .arpResolve s.arpResolveTurn := by
  rw [State.arpResolveTurn]
  split
  · exact .finished (.refl _ s) _ _
  · exact .finished (.waitTurn (.refl _ s)) _ _
  · exact .again hg rfl

theorem execArpResolve_stepOf (h : execArpResolve s = .next t) : s.StepOf .arpResolve t := by
  obtain rfl := Host.Outcome.next.inj h
  split
  · next hg => exact State.arpResolveTurn_stepOf hg
  · exact State.arpResolveStart_stepOf s

theorem execIpSend_stepOf (h : execIpSend s = .next t) : s.StepOf .ipSend t := by
  obtain rfl := Host.Outcome.next.inj h
  split
  · split
    · split
      · exact .finished (.emits (.refl _ s) (State.ipSend_emits _ _ _)) _ _
      · exact .raised (.refl _ s) _
    · exact .raised (.refl _ s) _
  · exact .raised (.refl _ s) _

theorem State.pingStart_stepOf (s : State) : s.StepOf .ping s.pingStart := by
  rw [State.pingStart]
  split
  · exact .goesOn (.arpStart (.refl _ s) _ _) rfl
  · exact .raised (.refl _ s) _

theorem State.pingArpTurn_stepOf (hg : s.stage = .arpWait) : s.StepOf .ping s.pingArpTurn := by
  rw [State.pingArpTurn]
  split
  · exact .finished (.refl _ s) _ _
  · exact .goesOn (((State.ChangedBy.refl _ s).waitTurn.pingRequest _ _).beginWait _ _) rfl
  · exact .again hg rfl

theorem State.pingEchoTurn_stepOf (hg : s.stage = .echoWait) : s.StepOf .ping s.pingEchoTurn := by
  rw [State.pingEchoTurn]
  split
  · exact .finished (.refl _ s) _ _
  · exact .finished (.waitTurn (.refl _ s)) _ _
  · exact .again hg rfl

theorem execPing_stepOf (h : execPing s = .next t) : s.StepOf .ping t := by
  obtain rfl := Host.Outcome.next.inj h
  split
  · next hg => exact State.pingArpTurn_stepOf hg
  · next hg => exact State.pingEchoTurn_stepOf hg
  · exact State.pingStart_stepOf s

theorem execUdpSend_stepOf (h : execUdpSend s = .next t) : s.StepOf .udpSend t := by
  obtain rfl := Host.Outcome.next.inj h
  split
  · split
    · split
      · exact .finished (.emits (.refl _ s) (State.udpSendBody_emits _ _ _)) _ _
      · exact .raised (.refl _ s) _
    · exact .raised (.refl _ s) _
  · exact .raised (.refl _ s) _

theorem execTcpSend_stepOf (h : execTcpSend s = .next t) : s.StepOf .tcpSend t := by
  obtain rfl := Host.Outcome.next.inj h
  split
  · split
    · split
      · exact .raised (.refl _ s) _
      · split
        · exact .finished (.tcpSendBody (.refl _ s) _ _ _) _ _
        · exact .raised (.refl _ s) _
    · exact .raised (.refl _ s) _
  · exact .raised (.refl _ s) _

theorem State.dnsStart_stepOf (s : State) : s.StepOf .dnsResolve s.dnsStart := by
  rw [State.dnsStart]
  split
  · split
    · exact .goesOn (.arpStart (.refl _ s) _ _) rfl
    · exact .raised (.scrambleN (.refl _ s)) _
  · exact .raised (.refl _ s) _

theorem State.dnsArpTurn_stepOf (hg : s.stage = .arpWait) : s.StepOf .dnsResolve s.dnsArpTurn := by
  rw [State.dnsArpTurn]
  split
  · exact .finished (.scrambleN (.refl _ s)) _ _
  · exact .goesOn (((State.ChangedBy.refl _ s).waitTurn.dnsQuery _ _).beginWait _ _) rfl
  · exact .again hg rfl

theorem State.dnsReplyTurn_stepOf (hg : s.stage = .replyWait) : s.StepOf .dnsResolve s.dnsReplyTurn := by
  rw [State.dnsReplyTurn]
  split
  · exact .finished (.scrambleN (.refl _ s)) _ _
  · exact .finished (.scrambleN (.waitTurn (.refl _ s))) _ _
  · exact .again hg rfl

theorem execDnsResolve_stepOf (h : execDnsResolve s = .next t) : s.StepOf .dnsResolve t := by
  obtain rfl := Host.Outcome.next.inj h
  split
  · next hg => exact State.dnsArpTurn_stepOf hg
  · next hg => exact State.dnsReplyTurn_stepOf hg
  · exact State.dnsStart_stepOf s

/-- One engine step of any command. -/
theorem exec_stepOf {i : Instr} (h : exec i s = .next t) : s.StepOf i t := by
  cases i with
  | csum => exact execCsum_stepOf h
  | csumPseudo => exact execCsumPseudo_stepOf h
  | rxDispatch => exact execRxDispatch_stepOf h
  | poll => exact execPoll_stepOf h
  | arpResolve => exact execArpResolve_stepOf h
  | ipSend => exact execIpSend_stepOf h
  | ping => exact execPing_stepOf h
  | udpSend => exact execUdpSend_stepOf h
  | tcpSend => exact execTcpSend_stepOf h
  | dnsResolve => exact execDnsResolve_stepOf h

end

/-! ### What follows for every command -/

section
variable {i : Instr} {s t : State}

/-- A running command writes the results and the flags only at its end: up to these, `t` is what the command may make of `s`. -/
theorem State.StepOf.changedBy (h : s.StepOf i t) :
    ∃ u, s.ChangedBy i u ∧ t = { u with
      stage := t.stage, result0 := t.result0, result1 := t.result1, done := t.done, err := t.err, errcode := t.errcode } := by
  cases h with
  | finished hu => exact ⟨_, hu, rfl⟩
  | raised hu => exact ⟨_, hu, rfl⟩
  | goesOn hu => exact ⟨t, hu, rfl⟩

/-- The command has ended with DONE set, or goes on in a stage of its own (R34, R37). -/
theorem State.StepOf.ended_or_fits (h : s.StepOf i t) : (t.stage = .idle ∧ t.done = true) ∨ t.stage.fits i = true := by
  cases h with
  | finished => exact .inl ⟨rfl, rfl⟩
  | raised => exact .inl ⟨rfl, rfl⟩
  | goesOn _ hfits => exact .inr hfits

theorem State.StepOf.history (h : s.StepOf i t) : s.history <+: t.history ∧ t.priorHistory = s.priorHistory := by
  obtain ⟨u, hu, ht⟩ := h.changedBy
  rw [ht]
  exact ⟨hu.history, by rw [hu.rest]⟩

end

/-- Settles O18, from what a step of a command is made of: only its end writes more than the command's own registers. -/
theorem commandsKeepTheConfiguration : Obligations.CommandsKeepTheConfiguration := by
  unfold Obligations.CommandsKeepTheConfiguration
  intro i s t h
  obtain ⟨u, hu, ht⟩ := (exec_stepOf h).changedBy
  rw [ht]
  refine ⟨?_, ?_, ?_, ?_, ?_, ?_, ?_, ?_, ?_, ?_, ?_, ?_, ?_, ?_, ?_, ?_, ?_, ?_, ?_, ?_, hu.dns, hu.ping, hu.pingId⟩
  all_goals rw [hu.rest]

end Sys2Proof.Machine
end

section
/-! SUPPORT. One step of the whole machine (60_exceptions.md R357): what a turn of the host and a turn of the engine can do, and the
statements that follow for every step. -/

namespace Sys2Proof.Machine

/-! ### Command words -/

/-- The round trip of Laws/PerInstr.lean, for every command. -/
theorem encode_roundTrip : ∀ i : Instr, legalWord (encode i) = true ∧ decode (encode i) = .ok i
  | .csum => Sys2Proof.Laws.RoundTrip.csum
  | .csumPseudo => Sys2Proof.Laws.RoundTrip.csumPseudo
  | .rxDispatch => Sys2Proof.Laws.RoundTrip.rxDispatch
  | .poll => Sys2Proof.Laws.RoundTrip.poll
  | .arpResolve => Sys2Proof.Laws.RoundTrip.arpResolve
  | .ipSend => Sys2Proof.Laws.RoundTrip.ipSend
  | .ping => Sys2Proof.Laws.RoundTrip.ping
  | .udpSend => Sys2Proof.Laws.RoundTrip.udpSend
  | .tcpSend => Sys2Proof.Laws.RoundTrip.tcpSend
  | .dnsResolve => Sys2Proof.Laws.RoundTrip.dnsResolve

theorem decodeOpc_eq_ok {c : Byte} {i : Instr} (h : decodeOpc c = .ok i) : c = i.opc := by
  rw [decodeOpc] at h
  split at h
  case h_11 => cases h
  all_goals next hc => cases h; exact BitVec.eq_of_toNat_eq hc

/-- Each command has one word (R120, R123). -/
theorem decode_eq_ok {w : Word} {i : Instr} (h : decode w = .ok i) : w = encode i := by
  rw [decode] at h
  split at h
  · next hrsv =>
    calc w = rsvOf w ++ opcOf w := (extract_append 24 8 w).symm
      _ = encode i := by rw [hrsv, decodeOpc_eq_ok h]; rfl
  · cases h

theorem legalWord_of_decode {w : Word} {i : Instr} (h : decode w = .ok i) : legalWord w = true := by
  rw [decode_eq_ok h]; exact (encode_roundTrip i).1

/-! ### Which access reaches a register -/

theorem Reg.offset_of_ofOffset {n : Nat} {r : Reg} (h : Reg.ofOffset n = some r) : n = r.offset := by
  rw [Reg.ofOffset.eq_def] at h
  split at h
  case h_18 => cases h
  all_goals cases h; rfl

/-- Only the aligned 32-bit access at its offset reaches a register (R85). -/
theorem eq_of_target_reg {p : Params} {bytes addr : Nat} {r : Reg} (h : target p bytes addr = .reg r) :
    bytes = 4 ∧ addr = p.engineBase + r.offset := by
  rw [target] at h
  split at h
  · cases h
  · next hin =>
    rw [targetAt] at h
    split at h
    · split at h <;> cases h
    · split at h
      · split at h <;> cases h
      · split at h
        · next hoff =>
          split at h
          · next haccess =>
            cases h
            have := Reg.offset_of_ofOffset hoff
            omega
          · cases h
        · split at h <;> cases h

/-! ### A turn of the host -/

/-- The record of MAC calls (10_state.md R53) is the same in `t` as in `s`, before and after the last reset event. -/
def State.SameCalls (s t : State) : Prop := t.history = s.history ∧ t.priorHistory = s.priorHistory

theorem State.SameCalls.append_eq {s t : State} (h : s.SameCalls t) :
    t.priorHistory ++ t.history = s.priorHistory ++ s.history := by rw [h.1, h.2]

theorem State.hostNext_sameCalls (s : State) (ops : List HostOp) : s.SameCalls (s.hostNext ops) := by
  rw [State.hostNext_eq]; exact ⟨rfl, rfl⟩

/-- A write while BUSY writes OVR at most (R38). -/
theorem State.writeRegBusy_eq (s : State) (v : Word) (r : Reg) :
    s.writeRegBusy v r = { s with ovr := (s.writeRegBusy v r).ovr } := by
  cases r
  case status => rw [State.writeRegBusy, State.writeStatus_eq]
  all_goals rfl

theorem State.takeCommand_sameCalls (s : State) (w : Word) : s.SameCalls (s.takeCommand w) := by
  rw [State.takeCommand]; split <;> exact ⟨rfl, rfl⟩

/-- While IDLE a write of any register but CMD keeps the control state and the record of MAC calls. -/
theorem State.writeRegIdle_kept (s : State) (v : Word) {r : Reg} (hr : r ≠ .cmd) :
    s.SameCalls (s.writeRegIdle v r) ∧ (s.writeRegIdle v r).stage = s.stage := by
  cases r
  case cmd => exact absurd rfl hr
  case status => rw [State.writeRegIdle, State.writeStatus_eq]; exact ⟨⟨rfl, rfl⟩, rfl⟩
  all_goals exact ⟨⟨rfl, rfl⟩, rfl⟩

/-- A host write keeps the record of MAC calls, and the control state but where CMD is taken while IDLE. -/
theorem State.writeTarget_next {s t : State} {v : Word} {τ : Target} (h : s.writeTarget v τ = some t) :
    s.SameCalls t ∧ (t.stage = s.stage ∨ s.stage = .idle ∧ τ = .reg .cmd ∧ t = s.takeCommand v) := by
  cases τ with
  | reg r =>
    obtain rfl := Option.some.inj h
    split
    · rw [State.writeRegBusy_eq]; exact ⟨⟨rfl, rfl⟩, .inl rfl⟩
    · next hidle =>
      by_cases hr : r = .cmd
      · subst hr
        exact ⟨s.takeCommand_sameCalls v, .inr ⟨by simpa [State.busy] using hidle, rfl, rfl⟩⟩
      · obtain ⟨hcalls, hstage⟩ := s.writeRegIdle_kept v hr
        exact ⟨hcalls, .inl hstage⟩
  | nameByte k => obtain rfl := Option.some.inj h; split <;> exact ⟨⟨rfl, rfl⟩, .inl rfl⟩
  | frameByte k => obtain rfl := Option.some.inj h; split <;> exact ⟨⟨rfl, rfl⟩, .inl rfl⟩
  | reserved => obtain rfl := Option.some.inj h; exact ⟨⟨rfl, rfl⟩, .inl rfl⟩
  | refused => cases h
  | outside => cases h

theorem noAccess_ne_next (bytes addr : Nat) (τ : Target) (t : State) : noAccess bytes addr τ ≠ .next t := by
  cases τ <;> simp [noAccess]

theorem State.hostWrite_next {s t : State} {bytes addr : Nat} {v : Word} (h : s.hostWrite bytes addr v = .next t) :
    s.writeTarget v (target s.cfg bytes addr) = some t := by
  rw [State.hostWrite] at h
  split at h
  · next ht => rw [ht, Host.Outcome.next.inj h]
  · exact absurd h (noAccess_ne_next _ _ _ _)

theorem State.hostRead_next {s t : State} {bytes addr : Nat} (h : s.hostRead bytes addr = .next t) :
    ∃ off v, t = s.noteRead off v := by
  rw [State.hostRead] at h
  split at h
  · exact ⟨_, _, (Host.Outcome.next.inj h).symm⟩
  · exact absurd h (noAccess_ne_next _ _ _ _)

/-- What one operation of the host does to the record of MAC calls and the control state: the reset event clears them, a write of
CMD while IDLE is taken, and every other operation keeps both. -/
theorem State.hostOp_next {s t : State} {op : HostOp} (h : s.hostOp op = .next t) :
    (op = .reset ∧ t = s.resetEvent) ∨
    (s.SameCalls t ∧ (t.stage = s.stage ∨
      s.stage = .idle ∧ ∃ v, op = .write 4 s.cfg.engineBase v ∧ t = s.takeCommand v)) := by
  cases op with
  | write bytes addr v =>
    obtain ⟨hcalls, hstage | ⟨hidle, hτ, ht⟩⟩ := State.writeTarget_next (State.hostWrite_next h)
    · exact .inr ⟨hcalls, .inl hstage⟩
    · obtain ⟨rfl, rfl⟩ := eq_of_target_reg hτ
      exact .inr ⟨hcalls, .inr ⟨hidle, v, rfl, ht⟩⟩
  | read bytes addr =>
    obtain ⟨off, v, rfl⟩ := State.hostRead_next h
    exact .inr ⟨⟨rfl, rfl⟩, .inl rfl⟩
  | writeLast addr off lsb =>
    simp only [State.hostOp, State.hostWriteLast] at h
    split at h
    · obtain ⟨hcalls, hstage | ⟨-, hτ, -⟩⟩ := State.writeTarget_next (State.hostWrite_next h)
      · exact .inr ⟨hcalls, .inl hstage⟩
      · exact absurd (eq_of_target_reg hτ).1 (by decide)
    · cases h
  | wait =>
    obtain rfl := Host.Outcome.next.inj h
    rw [State.waitStatus]
    split <;> exact .inr ⟨⟨rfl, rfl⟩, .inl rfl⟩
  | expect off v =>
    obtain rfl := Host.Outcome.next.inj h
    exact .inr ⟨⟨rfl, rfl⟩, .inl rfl⟩
  | reset => exact .inl ⟨rfl, (Host.Outcome.next.inj h).symm⟩

/-- With no operation of the host left there is no choice to use up. -/
theorem State.passTurn_script_nil {s : State} (h : s.script = []) : s.passTurn = s := by
  simp [State.passTurn, State.contended, h]

/-- What a turn of the host does to the record of MAC calls and the control state, as its next operation does; nothing where its
script is at its end. -/
theorem step_host_next {s t : State} (hturn : s.turn = .host) (h : step s = .next t) :
    (∃ ops, s.script = .reset :: ops ∧ t = (s.hostNext ops).resetEvent) ∨
    (s.SameCalls t ∧ (t.stage = s.stage ∨ s.stage = .idle ∧
      ∃ v ops, s.script = .write 4 s.cfg.engineBase v :: ops ∧ t = (s.hostNext ops).takeCommand v)) := by
  cases hs : s.script with
  | nil =>
    simp only [step, hturn, State.passTurn_script_nil hs, State.hostTurn, hs] at h
    cases h
    exact .inr ⟨⟨rfl, rfl⟩, .inl rfl⟩
  | cons op ops =>
    rw [step_host hturn hs] at h
    obtain ⟨hcalls₁, hcalls₂⟩ := s.hostNext_sameCalls ops
    rcases State.hostOp_next h with ⟨rfl, ht⟩ | ⟨⟨hhist, hprior⟩, hstage⟩
    · exact .inl ⟨ops, rfl, ht⟩
    · rw [State.hostNext_stage, State.hostNext_cfg] at hstage
      refine .inr ⟨⟨hhist.trans hcalls₁, hprior.trans hcalls₂⟩, hstage.imp_right ?_⟩
      rintro ⟨hidle, v, rfl, ht⟩
      exact ⟨hidle, v, ops, rfl, ht⟩

/-! ### A turn of the engine -/

theorem State.passTurn_sameCalls (s : State) : s.SameCalls s.passTurn := by
  rw [State.passTurn_eq]; exact ⟨rfl, rfl⟩

@[simp] theorem State.passTurn_stage (s : State) : s.passTurn.stage = s.stage := by rw [State.passTurn_eq]

@[simp] theorem State.passTurn_initialised (s : State) : s.passTurn.initialised = s.initialised := by
  rw [State.passTurn_eq]; rfl

theorem State.turn_eq_host_or_engine (s : State) : s.turn = .host ∨ s.turn = .engine := by
  cases s.turn <;> simp

/-- Only a BUSY engine takes a turn. -/
theorem State.busy_of_engine_turn {s : State} (hturn : s.turn = .engine) : s.stage ≠ .idle := by
  intro hidle
  rw [(State.turn_idle hidle).1] at hturn
  cases hturn

theorem step_engine {s : State} {i : Instr} (hturn : s.turn = .engine) (hi : decode s.cmd = .ok i) :
    step s = exec i s.passTurn := by
  simp only [step, hturn, State.command, hi]

/-- A turn of the engine: one step of the command in CMD, or the end as illegal of a word that is none. -/
theorem step_engine_next {s t : State} (hturn : s.turn = .engine) (h : step s = .next t) :
    (∃ i, exec i s.passTurn = .next t) ∨ t = s.passTurn.raise .illegal := by
  simp only [step, hturn] at h
  split at h
  · exact .inl ⟨_, h⟩
  · exact .inr (Host.Outcome.next.inj h).symm

/-- Before its initialisation the start of every command but the two checksum commands is the error NOINIT (R46,
60_exceptions.md R343). -/
theorem exec_noinit {i : Instr} {s : State} (hi : i ≠ .csum) (hi' : i ≠ .csumPseudo) (hstart : s.stage = .start)
    (hinit : s.initialised = false) : exec i s = .next (s.raise .noinit) := by
  cases i with
  | csum => exact absurd rfl hi
  | csumPseudo => exact absurd rfl hi'
  | rxDispatch => simp [exec, execRxDispatch, hinit]
  | poll => simp [exec, execPoll, State.pollStart, hstart, hinit]
  | arpResolve => simp [exec, execArpResolve, State.arpResolveStart, hstart, hinit]
  | ipSend => simp [exec, execIpSend, hinit]
  | ping => simp [exec, execPing, State.pingStart, hstart, hinit]
  | udpSend => simp [exec, execUdpSend, hinit]
  | tcpSend => simp [exec, execTcpSend, hinit]
  | dnsResolve => simp [exec, execDnsResolve, State.dnsStart, hstart, hinit]

theorem execCsum_sameCalls {s t : State} (h : execCsum s = .next t) : s.SameCalls t := by
  obtain rfl := Host.Outcome.next.inj h
  split <;> exact ⟨rfl, rfl⟩

theorem execCsumPseudo_sameCalls {s t : State} (h : execCsumPseudo s = .next t) : s.SameCalls t := by
  obtain rfl := Host.Outcome.next.inj h
  split
  · split
    · exact ⟨rfl, rfl⟩
    · split <;> exact ⟨rfl, rfl⟩
  · exact ⟨rfl, rfl⟩

/-- The start of a command calls the MAC only where the engine is initialised. -/
theorem exec_uninitialised_sameCalls {i : Instr} {s t : State} (hstart : s.stage = .start) (hinit : s.initialised = false)
    (h : exec i s = .next t) : s.SameCalls t := by
  by_cases hi : i = .csum
  · subst hi; exact execCsum_sameCalls h
  · by_cases hi' : i = .csumPseudo
    · subst hi'; exact execCsumPseudo_sameCalls h
    · rw [exec_noinit hi hi' hstart hinit] at h
      obtain rfl := Host.Outcome.next.inj h
      exact ⟨rfl, rfl⟩

/-! ### The statements on every step -/

/-- `withFetchWord` accepts the command, and puts the engine first where the host also has something to do. -/
theorem State.withFetchWord_encode (s : State) (i : Instr) :
    s.withFetchWord 32 (encode i).toNat =
      { s.accept (encode i) with sched := if s.script = [] then s.sched else .engine :: s.sched } := by
  have hword : BitVec.ofNat 32 ((encode i).toNat % 2 ^ 32) = encode i := by
    rw [Nat.mod_eq_of_lt (encode i).isLt, BitVec.ofNat_toNat, BitVec.setWidth_eq]
  rw [State.withFetchWord, hword, State.takeCommand_of_decode _ (encode_roundTrip i).2]
  generalize encode i = w
  cases hs : s.script <;> simp [State.contended, State.busy, State.accept, hs]

theorem State.withFetchWord_turn (s : State) (i : Instr) : (s.withFetchWord 32 (encode i).toNat).turn = .engine := by
  rw [State.withFetchWord_encode]
  cases hs : s.script <;> simp [State.turn, State.contended, State.busy, State.accept, hs]

/-- Passing the turn after `withFetchWord` uses up the choice that was put there. -/
theorem State.withFetchWord_passTurn (s : State) (i : Instr) :
    (s.withFetchWord 32 (encode i).toNat).passTurn =
      { s.accept (encode i) with draws := if s.script = [] then s.draws else s.draws + 1 } := by
  rw [State.withFetchWord_encode]
  cases hs : s.script <;> simp [State.passTurn, State.contended, State.busy, State.accept, hs]

/-- The step after `withFetchWord` runs the command. -/
theorem step_withFetchWord (s : State) (i : Instr) :
    step (s.withFetchWord 32 (encode i).toNat) =
      exec i { s.accept (encode i) with draws := if s.script = [] then s.draws else s.draws + 1 } := by
  have hcmd : decode (s.withFetchWord 32 (encode i).toNat).cmd = .ok i := by
    rw [State.withFetchWord_encode]; exact (encode_roundTrip i).2
  rw [step_engine (s.withFetchWord_turn i) hcmd, State.withFetchWord_passTurn]

/-- Settles O4, by the definition of a step and the state `withFetchWord` makes. -/
theorem stepRunsTheCommand : Obligations.StepRunsTheCommand := by
  unfold Obligations.StepRunsTheCommand
  refine ⟨fun s i _ hturn hi => step_engine hturn hi, State.passTurn_eq, fun s hs => ⟨State.passTurn_script_nil hs, ?_⟩,
    step_withFetchWord⟩
  intro hstage
  simp [State.turn, State.contended, State.busy, hs, hstage]

/-- Settles O17: the reset event moves the calls to the earlier record, the host's other operations keep both records, and a step
of a command adds to the end. -/
theorem historyIsAppendOnly : Obligations.HistoryIsAppendOnly := by
  unfold Obligations.HistoryIsAppendOnly
  intro s t h
  rcases s.turn_eq_host_or_engine with hturn | hturn
  · refine ⟨[], ?_, fun _ => rfl⟩
    rw [List.append_nil]
    rcases step_host_next hturn h with ⟨ops, -, rfl⟩ | ⟨hcalls, -⟩
    · rw [← (s.hostNext_sameCalls ops).append_eq]; exact List.append_nil _
    · exact hcalls.append_eq
  · have hnew : s.history <+: t.history ∧ t.priorHistory = s.priorHistory := by
      obtain ⟨hhist, hprior⟩ := s.passTurn_sameCalls
      rw [← hhist, ← hprior]
      rcases step_engine_next hturn h with ⟨i, hexec⟩ | rfl
      · exact (exec_stepOf hexec).history
      · exact ⟨List.prefix_refl _, rfl⟩
    obtain ⟨⟨new, hnew⟩, hprior⟩ := hnew
    refine ⟨new, ?_, fun hhost => ?_⟩
    · rw [hprior, ← hnew, List.append_assoc]
    · rw [hturn] at hhost; cases hhost

/-- Settles O20: of the host's operations only a legal word in CMD and the reset event change the control state, and a step of a
command that ends has set DONE. -/
theorem onlyACommandWriteLeavesIdle : Obligations.OnlyACommandWriteLeavesIdle := by
  unfold Obligations.OnlyACommandWriteLeavesIdle
  refine ⟨fun s t h hidle hbusy => ?_, fun s t h hbusy hidle => ?_⟩
  · rcases step_host_next (State.turn_idle hidle).1 h with ⟨ops, -, rfl⟩ | ⟨-, hstage | ⟨-, w, ops, hs, rfl⟩⟩
    · exact absurd rfl hbusy
    · exact absurd (hstage.trans hidle) hbusy
    · cases hw : decode w with
      | ok i =>
        rw [State.takeCommand_of_decode _ hw]
        exact ⟨w, ops, hs, legalWord_of_decode hw, rfl, rfl⟩
      | error e => exact absurd (by rw [State.takeCommand, hw]; rfl) hbusy
  · rcases s.turn_eq_host_or_engine with hturn | hturn
    · rcases step_host_next hturn h with ⟨ops, hs, -⟩ | ⟨-, hstage | ⟨hstage, -⟩⟩
      · exact .inr ⟨hturn, ops, hs⟩
      · exact absurd (hstage.symm.trans hidle) hbusy
      · exact absurd hstage hbusy
    · refine .inl ⟨hturn, ?_⟩
      rcases step_engine_next hturn h with ⟨i, hexec⟩ | rfl
      · rcases (exec_stepOf hexec).ended_or_fits with ⟨-, hdone⟩ | hfits
        · exact hdone
        · rw [hidle] at hfits; cases hfits
      · rfl

/-- Settles O22: by the invariant an engine that is not initialised is IDLE or at the start of a command, and there no command
calls the MAC. -/
theorem noMacCallBeforeInitialisation : Obligations.NoMacCallBeforeInitialisation := by
  unfold Obligations.NoMacCallBeforeInitialisation
  intro s t hinv h hinit
  rcases s.turn_eq_host_or_engine with hturn | hturn
  · obtain ⟨new, happend, hnil⟩ := historyIsAppendOnly s t h
    rw [happend, hnil hturn, List.append_nil]
  · have hstart : s.stage = .start := by
      by_contra hstart
      have hready := hinv.busyReady (State.busy_of_engine_turn hturn) hstart
      rw [hinit] at hready
      cases hready
    rw [← s.passTurn_sameCalls.append_eq]
    rcases step_engine_next hturn h with ⟨i, hexec⟩ | rfl
    · exact (exec_uninitialised_sameCalls (by simpa using hstart) (by simpa using hinit) hexec).append_eq
    · rfl

end Sys2Proof.Machine
end

section
/-! SUPPORT. The invariant of the machine (Safety.lean) under the updates an engine step is made of: first the single updates, then
what the commands build from them (40_checksum.md to 45_dns.md). -/

namespace Sys2Proof.Machine

/-! ### Updates of fields the invariant reads -/

theorem CmdError.code_nonzero_le (c : CmdError) : c.code ≠ 0 ∧ c.code.toNat ≤ 5 := by cases c <;> decide

namespace State.Inv

variable {s t : State}

theorem bufSize_ge (h : s.Inv) : 1514 ≤ s.cfg.bufSize := by
  obtain ⟨hsize, -⟩ := h.params
  exact hsize

theorem nameSize_eq (h : s.Inv) : s.cfg.nameSize = 256 := by
  obtain ⟨-, -, -, hsize, -⟩ := h.params
  exact hsize

/-- A change of fields the invariant does not read. -/
theorem of_unread (h : s.Inv) (ht : t = { s with
    arg0 := t.arg0, result0 := t.result0, result1 := t.result1, ovr := t.ovr, macHi := t.macHi, macLo := t.macLo,
    localIp := t.localIp, linePort := t.linePort, httpPort := t.httpPort, dnsId := t.dnsId, dnsLport := t.dnsLport,
    pingIdseq := t.pingIdseq, acc := t.acc, frameGen := t.frameGen, nameGen := t.nameGen, macIn := t.macIn,
    script := t.script, reads := t.reads, checks := t.checks, sched := t.sched, draws := t.draws }) : t.Inv := by
  rw [ht]; exact { h with }

theorem writeB (h : s.Inv) {a : Nat} {bs : List Byte} (hb : a + bs.length ≤ s.cfg.bufSize) : (s.writeB a bs).Inv :=
  { h with frameWf := Memory.write_wf h.frameWf a bs, frameWithin := Memory.write_within h.frameWithin hb }

theorem writeN (h : s.Inv) {k : Nat} (hk : k < s.cfg.nameSize) (b : Byte) : (s.writeN k b).Inv :=
  { h with nameWf := Memory.write_wf h.nameWf k [b], nameWithin := Memory.write_within h.nameWithin hk }

theorem scrambleN (h : s.Inv) : s.scrambleN.Inv :=
  { h with nameWf := List.Pairwise.nil, nameWithin := List.forall_mem_nil _ }

theorem clearEvent (h : s.Inv) : s.clearEvent.Inv :=
  { h with eventKind := Nat.zero_le _, eventNone := fun _ => ⟨rfl, rfl⟩, eventInside := Nat.zero_le _ }

/-- An event of a produced kind, its payload inside `B` (R45). -/
theorem setEvent (h : s.Inv) {kind : BitVec 3} {off len : Nat} (hkind : kind ≠ 0 ∧ kind.toNat ≤ 4)
    (hb : off + len ≤ s.cfg.bufSize) : (s.setEvent kind (BitVec.ofNat 16 off) (BitVec.ofNat 16 len)).Inv :=
  { h with
    eventKind := hkind.2
    eventNone := fun hnone => absurd hnone hkind.1
    eventInside := by
      have hoff := Nat.mod_le off (2 ^ 16)
      have hlen := Nat.mod_le len (2 ^ 16)
      simp only [State.setEvent, BitVec.toNat_ofNat]
      omega }

/-- A legal MAC call recorded. -/
theorem record (h : s.Inv) {e : MacEvent} (he : e.legal s.cfg.bufSize) :
    ({ s with history := s.history ++ [e] } : State).Inv :=
  { h with
    macCalls := by
      intro e' he'
      rw [← List.append_assoc, List.mem_append, List.mem_singleton] at he'
      rcases he' with hold | rfl
      · exact h.macCalls e' hold
      · exact he }

theorem macSend (h : s.Inv) {n : Nat} (hpos : 1 ≤ n) (hn : n ≤ s.cfg.bufSize) : (s.macSend n).Inv :=
  h.record (e := .sent (s.readB 0 n)) (by simp [MacEvent.legal, hpos, hn])

theorem macReceive (h : s.Inv) : s.macReceive.Inv := by
  have hlen := s.nextFrame_length_le
  have hstored := h.writeB (a := 0) (bs := s.nextFrame) (by omega)
  exact (hstored.record (e := .received s.cfg.bufSize s.nextFrame) ⟨rfl, hlen⟩).of_unread rfl

/-- One turn of a wait takes one off CNT (R205). -/
theorem decCnt (h : s.Inv) (hcnt : s.cnt ≠ 0) : s.decCnt.Inv :=
  { h with
    budget := fun hwait => by
      have hle := h.budget hwait
      have hdec : (s.cnt - 1).toNat ≤ s.cnt.toNat := by bv_omega
      exact hdec.trans hle }

theorem finish (h : s.Inv) (r0 r1 : Word) : (s.finish r0 r1).Inv :=
  { h with
    errDone := fun _ => rfl
    busyClear := fun hbusy => absurd rfl hbusy
    busyCommand := fun hbusy => absurd rfl hbusy
    busyReady := fun hbusy => absurd rfl hbusy
    budget := fun hwait => absurd hwait Bool.false_ne_true }

theorem raise (h : s.Inv) (c : CmdError) : (s.raise c).Inv :=
  { h with
    errcode := c.code_nonzero_le.2
    errAgrees := iff_of_true rfl c.code_nonzero_le.1
    errDone := fun _ => rfl
    busyClear := fun hbusy => absurd rfl hbusy
    busyCommand := fun hbusy => absurd rfl hbusy
    busyReady := fun hbusy => absurd rfl hbusy
    budget := fun hwait => absurd hwait Bool.false_ne_true }

end State.Inv

/-! ### What a command stores and announces -/

/-- TCP_DATA announces one of the three kinds of R45. -/
theorem State.tcpRoute_produced (s : State) (lp : Half) : s.tcpRoute lp ≠ 0 ∧ (s.tcpRoute lp).toNat ≤ 4 := by
  rw [State.tcpRoute]
  split
  · decide
  · split <;> decide

theorem State.dottedName_length_le (s : State) : s.dottedName.length ≤ s.cfg.nameSize := by
  have hprefix : s.dottedName <+: s.nameBytes := List.takeWhile_prefix _
  simpa [State.nameBytes] using hprefix.length_le

/-- The runs between dots hold the name's other bytes: with one more for each run they are one longer than the name. -/
theorem dotRuns_flatMap_length (nm : List Byte) : ((dotRuns nm).flatMap dnsLabel).length = nm.length + 1 := by
  induction nm with
  | nil => rfl
  | cons b bs ih =>
    rw [dotRuns]
    split
    · simp [dnsLabel, ih]
    · split
      · next hruns => simp [hruns] at ih
      · next r rs hruns =>
        simp only [hruns, dnsLabel, List.flatMap_cons, List.length_append, List.length_cons] at ih ⊢
        omega

/-- The encoded name is at most two bytes longer than the dotted name (45_dns.md R312). -/
theorem dnsEncode_length_le (nm : List Byte) : (dnsEncode nm).length ≤ nm.length + 2 := by
  have htokens : ((dnsTokens nm).flatMap dnsLabel).Sublist ((dotRuns nm).flatMap dnsLabel) := List.filter_sublist.flatMap _
  have hle := htokens.length_le
  rw [dotRuns_flatMap_length] at hle
  simp only [dnsEncode, List.length_append, List.length_singleton]
  omega

/-! ### A running command -/

/-- `t` meets the invariant and is reached from `s` inside one step of command `i`, initialised and not yet ended; the parameters
and the budget are still those of `s`. -/
structure State.Runs (i : Instr) (s t : State) : Prop where
  inv : t.Inv
  busy : t.stage ≠ .idle
  command : decode t.cmd = .ok i
  ready : t.initialised = true
  cfg : t.cfg = s.cfg
  arg1 : t.arg1 = s.arg1

namespace State.Runs

variable {i : Instr} {s t : State}

theorem bufSize_ge (h : s.Runs i t) : 1514 ≤ s.cfg.bufSize := h.cfg ▸ h.inv.bufSize_ge

/-! One lemma for each update a command is made of. -/

theorem writeB (h : s.Runs i t) {a : Nat} {bs : List Byte} (hb : a + bs.length ≤ s.cfg.bufSize) : s.Runs i (t.writeB a bs) :=
  { h with inv := h.inv.writeB (h.cfg ▸ hb) }

/-- A store at a fixed place lies inside the smallest buffer R7 allows. -/
theorem store (h : s.Runs i t) {a : Nat} {bs : List Byte} (hb : a + bs.length ≤ 1514) : s.Runs i (t.writeB a bs) :=
  h.writeB (hb.trans h.bufSize_ge)

theorem setAcc (h : s.Runs i t) (v : Word) : s.Runs i (t.setAcc v) := { h with inv := h.inv.of_unread rfl }

theorem nextPing (h : s.Runs i t) : s.Runs i t.nextPing := { h with inv := h.inv.of_unread rfl }

theorem nextDnsId (h : s.Runs i t) : s.Runs i t.nextDnsId := { h with inv := h.inv.of_unread rfl }

theorem clearEvent (h : s.Runs i t) : s.Runs i t.clearEvent := { h with inv := h.inv.clearEvent }

theorem setEvent (h : s.Runs i t) {kind : BitVec 3} {off len : Nat} (hkind : kind ≠ 0 ∧ kind.toNat ≤ 4)
    (hb : off + len ≤ s.cfg.bufSize) : s.Runs i (t.setEvent kind (BitVec.ofNat 16 off) (BitVec.ofNat 16 len)) :=
  { h with inv := h.inv.setEvent hkind (h.cfg ▸ hb) }

theorem macSend (h : s.Runs i t) {n : Nat} (hpos : 1 ≤ n) (hn : n ≤ s.cfg.bufSize) : s.Runs i (t.macSend n) :=
  { h with inv := h.inv.macSend hpos (h.cfg ▸ hn) }

theorem macReceive (h : s.Runs i t) : s.Runs i t.macReceive := { h with inv := h.inv.macReceive }

theorem waitTurn (h : s.Runs i t) : s.Runs i t.waitTurn := by
  rw [State.waitTurn]
  split
  · exact h
  · next hcnt =>
    have hdec : s.Runs i t.decCnt := { h with inv := h.inv.decCnt hcnt }
    exact hdec.macReceive

/-- The command goes on in a stage of its own (R34), with CNT not above the budget where it waits (R205). -/
theorem beginWait (h : s.Runs i t) {g : Stage} {w : Word} (hfits : g.fits i = true)
    (hbudget : g.waiting = true → w.toNat ≤ s.arg1.toNat) : (t.beginWait g w).Inv :=
  { h.inv with
    busyClear := fun _ => h.inv.busyClear h.busy
    busyCommand := fun _ => ⟨i, h.command, hfits⟩
    busyReady := fun _ _ => h.ready
    budget := h.arg1 ▸ hbudget }

theorem drain (h : s.Runs .poll t) (k : Word) : (t.setStage (.draining k)).Inv :=
  h.beginWait (w := t.cnt) rfl fun hwait => absurd hwait Bool.false_ne_true

/-! Checksum stores (40_checksum.md R147). -/

theorem csumStore (h : s.Runs i t) {f : Nat} (hf : f + 2 ≤ 1514) (a n : Nat) : s.Runs i (t.csumStore f a n) :=
  ((h.store hf).setAcc _).store hf

theorem pseudoStore (h : s.Runs i t) {f : Nat} (hf : f + 2 ≤ 1514) (o : Nat) : s.Runs i (t.pseudoStore f o) :=
  ((h.store hf).setAcc _).store hf

/-! The transmit primitive and ARP (41_frame_dispatch.md R170, 42_arp.md R201, R203). -/

theorem ethHeader (h : s.Runs i t) (d : HwAddr) (e : Half) : s.Runs i (t.ethHeader d e) :=
  ((h.store (by simp)).store (by simp)).store (by simp)

theorem ethReply (h : s.Runs i t) {n : Nat} (e : Half) (hpos : 1 ≤ n) (hn : n ≤ s.cfg.bufSize) :
    s.Runs i (t.ethReply n e) := (h.ethHeader _ e).macSend hpos hn

theorem arpRequest (h : s.Runs i t) (ip : Word) : s.Runs i (t.arpRequest ip) := by
  have hfields : s.Runs i (t.arpFields ip) := by
    simp only [State.arpFields, State.wr8_eq, State.wr16_eq, State.wr32_eq, State.wr48_eq]
    repeat' refine State.Runs.store ?_ (by simp)
    exact h
  have := h.bufSize_ge
  exact (hfields.ethHeader _ _).macSend (by omega) (by omega)

theorem arpAnswer (h : s.Runs i t) : s.Runs i t.arpAnswer := by
  have hswap : s.Runs i t.arpSwap :=
    (((h.store (by simp)).store (by simp)).store (by simp)).store (by simp)
  have hop : s.Runs i (t.arpSwap.wr16 20 proto.arpOpReply) := hswap.store (by simp)
  have := h.bufSize_ge
  exact hop.ethReply _ (by omega) (by omega)

/-- The three waiting commands begin alike: the request is sent and the ARP wait begins (42_arp.md R204). -/
theorem arpStart (h : s.Runs i t) (ip : Word) (hfits : Stage.arpWait.fits i = true) :
    ((t.clearEvent.arpRequest ip).beginWait .arpWait s.opBudget).Inv :=
  (h.clearEvent.arpRequest ip).beginWait hfits fun _ => Nat.le_refl _

/-! The IPv4 sender and ICMP (43_ipv4_icmp.md R232, R235, R237). -/

theorem ipSend (h : s.Runs i t) {plen : Nat} (p : Byte) (hlen : 34 + plen ≤ s.cfg.bufSize) :
    s.Runs i (t.ipSend plen p) := by
  have hheader : s.Runs i (t.ipHeader plen p) := by
    simp only [State.ipHeader, State.swapAddrs, State.wr8_eq, State.wr16_eq, State.wr32_eq]
    repeat' refine State.Runs.store ?_ (by simp)
    exact h
  exact (hheader.csumStore (by decide) 14 20).ethReply _ (by omega) hlen

theorem icmpEcho (h : s.Runs i t) {total : Nat} (htotal : 14 + total ≤ s.cfg.bufSize) : s.Runs i (t.icmpEcho total) := by
  simp only [State.icmpEcho]
  split
  · exact h
  · split
    · exact h
    · have hreply : s.Runs i (t.wr8 34 proto.icmpEchoReply) := h.store (by simp)
      exact (hreply.csumStore (by decide) _ _).ipSend _ (by omega)

theorem stagePeer (h : s.Runs i t) (ip : Word) (mac : HwAddr) : s.Runs i (t.stagePeer ip mac) :=
  (((h.store (by simp)).store (by simp)).store (by simp)).store (by simp)

theorem pingRequest (h : s.Runs i t) (ip : Word) (mac : HwAddr) : s.Runs i (t.pingRequest ip mac) := by
  have hfields : s.Runs i (t.nextPing.stagePeer ip mac).echoFields :=
    ((((h.nextPing.stagePeer ip mac).store (by simp)).store (by simp)).store (by simp)).store (by simp)
  have := h.bufSize_ge
  exact (hfields.csumStore (by decide) 34 8).ipSend _ (by omega)

/-! The transports (44_udp_tcp.md R270 to R285). -/

theorem swapPorts (h : s.Runs i t) : s.Runs i t.swapPorts := (h.store (by simp)).store (by simp)

theorem swapSeqAck (h : s.Runs i t) : s.Runs i t.swapSeqAck := (h.store (by simp)).store (by simp)

theorem stagePayload (h : s.Runs i t) {dst len : Nat} (src : Nat) (hb : dst + padded len ≤ s.cfg.bufSize) :
    s.Runs i (t.stagePayload dst src len) := by
  simp only [padded] at hb
  have hcopy : s.Runs i (t.copyB dst src len) := h.writeB (by rw [State.readB_length]; omega)
  simp only [State.stagePayload]
  split
  · exact hcopy.writeB (by rw [List.length_singleton]; omega)
  · exact hcopy

theorem udpRead (h : s.Runs i t) : s.Runs i t.udpRead := by
  simp only [State.udpRead]
  split
  · exact h
  · split
    · next hlen hin =>
      have hin : 34 + ((t.rd16 38).toNat + 1) ≤ s.cfg.bufSize := by
        rw [← h.cfg]; exact of_decide_eq_true hin
      have hterminated : s.Runs i (t.wr8 (42 + ((t.rd16 38).toNat - 8)) 0) :=
        h.writeB (by rw [List.length_singleton]; omega)
      exact hterminated.setEvent (off := 42) (by decide) (by omega)
    · exact h

theorem udpSendBody (h : s.Runs i t) (src : Nat) {len : Nat} (hb : 42 + padded len ≤ s.cfg.bufSize) :
    s.Runs i (t.udpSendBody src len) :=
  (((h.stagePayload src hb).swapPorts.store (by simp)).store (by simp)).ipSend _ (by omega)

theorem ackHandshake (h : s.Runs i t) (fl : Byte) : s.Runs i (t.ackHandshake fl) := by
  rw [State.ackHandshake]
  split
  · exact h.store (by simp)
  · exact h

theorem addAck (h : s.Runs i t) (fl : Byte) : s.Runs i (t.addAck fl) := by
  rw [State.addAck]
  split
  · exact h.store (by simp)
  · exact h

theorem tcpAdvance (h : s.Runs i t) (p : Nat) : s.Runs i (t.tcpAdvance p) := by
  rw [State.tcpAdvance]
  split
  · exact h
  · exact h.store (by simp)

theorem tcpRead (h : s.Runs i t) {total : Nat} (htotal : 14 + total ≤ s.cfg.bufSize) : s.Runs i (t.tcpRead total) := by
  simp only [State.tcpRead]
  split
  · exact h
  · split
    · exact h
    · next hmin hlen =>
      split
      · exact (((h.swapPorts.swapSeqAck.ackHandshake _).addAck _).pseudoStore (by decide) 14).ipSend _ (by omega)
      · exact h.swapPorts.swapSeqAck.setEvent (State.tcpRoute_produced _ _) (by omega)

theorem tcpSendBody (h : s.Runs i t) {hlen len : Nat} (src : Nat) (hb : 34 + hlen + padded len ≤ s.cfg.bufSize) :
    s.Runs i (t.tcpSendBody hlen src len) :=
  ((((h.stagePayload src hb).store (by simp)).tcpAdvance _).pseudoStore (by decide) 14).ipSend _ (by omega)

/-! The inbound path (43_ipv4_icmp.md R230, 41_frame_dispatch.md R172). -/

theorem ipDeliver (h : s.Runs i t) {total : Nat} (htotal : 14 + total ≤ s.cfg.bufSize) : s.Runs i (t.ipDeliver total) := by
  rw [State.ipDeliver]
  split
  · exact h.icmpEcho htotal
  · split
    · exact h.tcpRead htotal
    · split
      · exact h.udpRead
      · exact h

theorem ipRead (h : s.Runs i t) : s.Runs i t.ipRead := by
  simp only [State.ipRead]
  split
  · exact h
  · split
    · exact h
    · split
      · exact h
      · split
        · next hin =>
          have hin : 14 + ((t.rd16 16).toNat + 1) ≤ s.cfg.bufSize := by
            rw [← h.cfg]; exact of_decide_eq_true hin
          have hterminated : s.Runs i (t.wr8 (14 + (t.rd16 16).toNat) 0) :=
            h.writeB (by rw [List.length_singleton]; omega)
          exact hterminated.ipDeliver (by omega)
        · exact h

theorem classify (h : s.Runs i t) (n : Nat) : s.Runs i (t.classify n) := by
  rw [State.classify]
  split
  · exact h
  · split
    · split
      · exact h.arpAnswer
      · exact h
    · split
      · exact h.ipRead
      · exact h

/-! The DNS query (45_dns.md R314). -/

theorem dnsHeader (h : s.Runs i t) : s.Runs i t.dnsHeader := by
  simp only [State.dnsHeader, State.wr16_eq]
  repeat' refine State.Runs.store ?_ (by simp)
  exact h

theorem dnsQuestion (h : s.Runs i t) {q : List Byte} (hq : 54 + q.length + 4 ≤ 1514) : s.Runs i (t.dnsQuestion q) :=
  ((h.store (by omega)).store (by rw [be16_length]; omega)).store (by rw [be16_length]; omega)

theorem dnsQuery (h : s.Runs i t) (ip : Word) (mac : HwAddr) : s.Runs i (t.dnsQuery ip mac) := by
  have hname : (dnsEncode t.dottedName).length ≤ 258 := by
    have hencode := dnsEncode_length_le t.dottedName
    have hdotted := t.dottedName_length_le
    rw [h.inv.nameSize_eq] at hdotted
    omega
  have hmessage : 42 + padded t.dnsMessageLen ≤ s.cfg.bufSize := by
    have := h.bufSize_ge
    simp only [padded, State.dnsMessageLen]
    omega
  rw [State.dnsQuery]
  exact ((h.nextDnsId.stagePeer ip mac).dnsHeader.dnsQuestion (by omega)).udpSendBody 42 hmessage

end State.Runs

end Sys2Proof.Machine
end

section
/-! SUPPORT. The invariant of the machine over every step (60_exceptions.md R357): one engine step of each command, one operation of
the host, and the statement that follows. -/

namespace Sys2Proof.Machine

/-! ### One engine step of each command -/

section
variable {s t : State} (hinv : s.Inv)
include hinv

theorem execCsum_inv (h : execCsum s = .next t) : t.Inv := by
  obtain rfl := Host.Outcome.next.inj h
  split
  · exact (hinv.of_unread (t := s.leaveAcc _) rfl).finish _ _
  · exact hinv.raise _

theorem execCsumPseudo_inv (h : execCsumPseudo s = .next t) : t.Inv := by
  obtain rfl := Host.Outcome.next.inj h
  split
  · split
    · exact hinv.raise _
    · split
      · exact (hinv.of_unread (t := s.leaveAcc _) rfl).finish _ _
      · exact hinv.raise _
  · exact hinv.raise _

section
variable {i : Instr} (hbusy : s.stage ≠ .idle) (hcmd : decode s.cmd = .ok i)
include hbusy hcmd

/-- At the start of a step the command has done nothing yet. -/
theorem State.Runs.self (hready : s.initialised = true) : s.Runs i s := ⟨hinv, hbusy, hcmd, hready, rfl, rfl⟩

/-- Past its start a command runs on an initialised engine (R46). -/
theorem State.Runs.resumed {g : Stage} (hg : s.stage = g) (hstart : g ≠ .start) : s.Runs i s :=
  .self hinv hbusy hcmd (hinv.busyReady hbusy (hg ▸ hstart))

end

theorem execRxDispatch_inv (hbusy : s.stage ≠ .idle) (hcmd : decode s.cmd = .ok .rxDispatch) (h : execRxDispatch s = .next t) :
    t.Inv := by
  obtain rfl := Host.Outcome.next.inj h
  split
  · next hready =>
    split
    · exact ((State.Runs.self hinv hbusy hcmd hready).clearEvent.classify _).inv.finish _ _
    · exact hinv.raise _
  · exact hinv.raise _

theorem State.pollStart_inv (hbusy : s.stage ≠ .idle) (hcmd : decode s.cmd = .ok .poll) : s.pollStart.Inv := by
  rw [State.pollStart]
  split
  · next hready => exact (State.Runs.self hinv hbusy hcmd hready).clearEvent.drain 0
  · exact hinv.raise _

theorem State.pollTurn_inv {k : Word} (hg : s.stage = .draining k) (hbusy : s.stage ≠ .idle)
    (hcmd : decode s.cmd = .ok .poll) : (s.pollTurn k).Inv := by
  have hreceived := (State.Runs.resumed hinv hbusy hcmd hg nofun).macReceive
  simp only [State.pollTurn]
  split
  · exact hreceived.inv.finish _ _
  · split
    · exact (hreceived.classify _).inv.finish _ _
    · exact (hreceived.classify _).drain _

theorem execPoll_inv (hbusy : s.stage ≠ .idle) (hcmd : decode s.cmd = .ok .poll) (h : execPoll s = .next t) : t.Inv := by
  obtain rfl := Host.Outcome.next.inj h
  split
  · next k hg => exact State.pollTurn_inv hinv hg hbusy hcmd
  · exact State.pollStart_inv hinv hbusy hcmd

theorem execArpResolve_inv (hbusy : s.stage ≠ .idle) (hcmd : decode s.cmd = .ok .arpResolve)
    (h : execArpResolve s = .next t) : t.Inv := by
  obtain rfl := Host.Outcome.next.inj h
  split
  · next hg =>
    have hturn := (State.Runs.resumed hinv hbusy hcmd hg nofun).waitTurn
    rw [State.arpResolveTurn]
    split
    · exact hinv.finish _ _
    · exact hturn.inv.finish _ _
    · exact hturn.inv
  · rw [State.arpResolveStart]
    split
    · next hready => exact (State.Runs.self hinv hbusy hcmd hready).arpStart _ rfl
    · exact hinv.raise _

theorem execIpSend_inv (hbusy : s.stage ≠ .idle) (hcmd : decode s.cmd = .ok .ipSend) (h : execIpSend s = .next t) :
    t.Inv := by
  obtain rfl := Host.Outcome.next.inj h
  split
  · next hready =>
    split
    · split
      · next hin => exact ((State.Runs.self hinv hbusy hcmd hready).ipSend _ (of_decide_eq_true hin)).inv.finish _ _
      · exact hinv.raise _
    · exact hinv.raise _
  · exact hinv.raise _

theorem execPing_inv (hbusy : s.stage ≠ .idle) (hcmd : decode s.cmd = .ok .ping) (h : execPing s = .next t) : t.Inv := by
  obtain rfl := Host.Outcome.next.inj h
  split
  · next hg =>
    have hturn := (State.Runs.resumed hinv hbusy hcmd hg nofun).waitTurn
    rw [State.pingArpTurn]
    split
    · exact hinv.finish _ _
    · exact (hturn.pingRequest _ _).beginWait rfl fun _ => Nat.le_refl _
    · exact hturn.inv
  · next hg =>
    have hturn := (State.Runs.resumed hinv hbusy hcmd hg nofun).waitTurn
    rw [State.pingEchoTurn]
    split
    · exact hinv.finish _ _
    · exact hturn.inv.finish _ _
    · exact hturn.inv
  · rw [State.pingStart]
    split
    · next hready => exact (State.Runs.self hinv hbusy hcmd hready).arpStart _ rfl
    · exact hinv.raise _

theorem execUdpSend_inv (hbusy : s.stage ≠ .idle) (hcmd : decode s.cmd = .ok .udpSend) (h : execUdpSend s = .next t) :
    t.Inv := by
  obtain rfl := Host.Outcome.next.inj h
  split
  · next hready =>
    split
    · split
      · next hin =>
        obtain ⟨-, hout⟩ := Bool.and_eq_true_iff.1 hin
        exact ((State.Runs.self hinv hbusy hcmd hready).udpSendBody _ (of_decide_eq_true hout)).inv.finish _ _
      · exact hinv.raise _
    · exact hinv.raise _
  · exact hinv.raise _

theorem execTcpSend_inv (hbusy : s.stage ≠ .idle) (hcmd : decode s.cmd = .ok .tcpSend) (h : execTcpSend s = .next t) :
    t.Inv := by
  obtain rfl := Host.Outcome.next.inj h
  split
  · next hready =>
    split
    · split
      · exact hinv.raise _
      · split
        · next hin =>
          obtain ⟨-, hout⟩ := Bool.and_eq_true_iff.1 hin
          exact ((State.Runs.self hinv hbusy hcmd hready).tcpSendBody _ (of_decide_eq_true hout)).inv.finish _ _
        · exact hinv.raise _
    · exact hinv.raise _
  · exact hinv.raise _

theorem execDnsResolve_inv (hbusy : s.stage ≠ .idle) (hcmd : decode s.cmd = .ok .dnsResolve)
    (h : execDnsResolve s = .next t) : t.Inv := by
  obtain rfl := Host.Outcome.next.inj h
  split
  · next hg =>
    have hturn := (State.Runs.resumed hinv hbusy hcmd hg nofun).waitTurn
    rw [State.dnsArpTurn]
    split
    · exact hinv.scrambleN.finish _ _
    · exact (hturn.dnsQuery _ _).beginWait rfl fun _ => Nat.le_refl _
    · exact hturn.inv
  · next hg =>
    have hturn := (State.Runs.resumed hinv hbusy hcmd hg nofun).waitTurn
    rw [State.dnsReplyTurn]
    split
    · exact hinv.scrambleN.finish _ _
    · exact hturn.inv.scrambleN.finish _ _
    · exact hturn.inv
  · rw [State.dnsStart]
    split
    · next hready =>
      split
      · exact (State.Runs.self hinv hbusy hcmd hready).arpStart _ rfl
      · exact hinv.scrambleN.raise _
    · exact hinv.raise _

/-- One engine step of the command that runs. -/
theorem exec_inv {i : Instr} (hbusy : s.stage ≠ .idle) (hcmd : decode s.cmd = .ok i) (h : exec i s = .next t) : t.Inv := by
  cases i with
  | csum => exact execCsum_inv hinv h
  | csumPseudo => exact execCsumPseudo_inv hinv h
  | rxDispatch => exact execRxDispatch_inv hinv hbusy hcmd h
  | poll => exact execPoll_inv hinv hbusy hcmd h
  | arpResolve => exact execArpResolve_inv hinv hbusy hcmd h
  | ipSend => exact execIpSend_inv hinv hbusy hcmd h
  | ping => exact execPing_inv hinv hbusy hcmd h
  | udpSend => exact execUdpSend_inv hinv hbusy hcmd h
  | tcpSend => exact execTcpSend_inv hinv hbusy hcmd h
  | dnsResolve => exact execDnsResolve_inv hinv hbusy hcmd h

end

/-! ### One operation of the host -/

/-- A window access reaches a byte inside its buffer. -/
def Target.insideBuffers (p : Params) : Target → Prop
  | .nameByte k => k < p.nameSize
  | .frameByte k => k < p.bufSize
  | _ => True

theorem target_insideBuffers (p : Params) (bytes addr : Nat) : (target p bytes addr).insideBuffers p := by
  rw [target]
  split
  · trivial
  · rw [targetAt]
    split
    · split
      · simp only [Target.insideBuffers]; omega
      · trivial
    · split
      · split
        · simp only [Target.insideBuffers]; omega
        · trivial
      · split <;> split <;> trivial

namespace State.Inv

variable {s t : State}

/-- While IDLE the operand and configuration registers may hold anything. -/
theorem configure (h : s.Inv) (hidle : s.stage = .idle) (ht : t = { s with
    cmd := t.cmd, arg0 := t.arg0, arg1 := t.arg1, macHi := t.macHi, macLo := t.macLo, localIp := t.localIp,
    initMacHi := t.initMacHi, initMacLo := t.initMacLo, initIp := t.initIp, linePort := t.linePort,
    httpPort := t.httpPort, dnsId := t.dnsId, dnsLport := t.dnsLport, pingIdseq := t.pingIdseq }) : t.Inv := by
  rw [ht]
  exact { h with
    busyCommand := fun hbusy => absurd hidle hbusy
    busyReady := fun hbusy => absurd hidle hbusy
    budget := fun hwait => by simp [hidle, Stage.waiting] at hwait }

/-- A legal word taken starts its command with clear flags (R37). -/
theorem accept (h : s.Inv) {w : Word} {i : Instr} (hw : decode w = .ok i) : (s.accept w).Inv :=
  { h with
    errcode := Nat.zero_le _
    errAgrees := by simp [State.accept]
    errDone := fun herr => absurd herr Bool.false_ne_true
    busyClear := fun _ => ⟨rfl, rfl⟩
    busyCommand := fun _ => ⟨i, hw, rfl⟩
    busyReady := fun _ hstart => absurd rfl hstart
    budget := fun hwait => absurd hwait Bool.false_ne_true }

theorem takeCommand (h : s.Inv) (hidle : s.stage = .idle) (w : Word) : (s.takeCommand w).Inv := by
  rw [State.takeCommand]
  split
  · next hw => exact h.accept hw
  · exact (h.configure (t := s.setCmd w) hidle rfl).raise _

theorem writeStatus (h : s.Inv) (v : Word) : (s.writeStatus v).Inv := by
  rw [State.writeStatus_eq]
  exact h.of_unread rfl

theorem writeRegIdle (h : s.Inv) (hidle : s.stage = .idle) (v : Word) (r : Reg) : (s.writeRegIdle v r).Inv := by
  cases r
  case cmd => exact h.takeCommand hidle v
  case status => exact h.writeStatus v
  all_goals exact h.configure hidle rfl

theorem writeRegBusy (h : s.Inv) (v : Word) (r : Reg) : (s.writeRegBusy v r).Inv := by
  rw [State.writeRegBusy_eq]
  exact h.of_unread rfl

theorem resetEvent (h : s.Inv) : s.resetEvent.Inv where
  params := h.params
  frameWf := List.Pairwise.nil
  frameWithin := List.forall_mem_nil _
  nameWf := List.Pairwise.nil
  nameWithin := List.forall_mem_nil _
  eventKind := Nat.zero_le _
  eventNone _ := ⟨rfl, rfl⟩
  eventInside := Nat.zero_le _
  errcode := Nat.zero_le _
  errAgrees := by simp [State.resetEvent, State.reset]
  errDone herr := absurd herr Bool.false_ne_true
  busyClear hbusy := absurd rfl hbusy
  busyCommand hbusy := absurd rfl hbusy
  busyReady hbusy := absurd rfl hbusy
  budget hwait := absurd hwait Bool.false_ne_true
  macCalls := by
    have hnone : s.resetEvent.history = [] := rfl
    rw [hnone, List.append_nil]
    exact h.macCalls

theorem writeTarget (h : s.Inv) {v : Word} {τ : Target} (hτ : τ.insideBuffers s.cfg) (ht : s.writeTarget v τ = some t) :
    t.Inv := by
  cases τ with
  | reg r =>
    obtain rfl := Option.some.inj ht
    split
    · exact h.writeRegBusy v r
    · next hidle => exact h.writeRegIdle (by simpa [State.busy] using hidle) v r
  | nameByte k =>
    obtain rfl := Option.some.inj ht
    split
    · exact h.of_unread rfl
    · exact h.writeN hτ _
  | frameByte k =>
    obtain rfl := Option.some.inj ht
    split
    · exact h.of_unread rfl
    · exact h.writeB hτ
  | reserved => obtain rfl := Option.some.inj ht; exact h
  | refused => cases ht
  | outside => cases ht

theorem hostWrite (h : s.Inv) {bytes addr : Nat} {v : Word} (ht : s.hostWrite bytes addr v = .next t) : t.Inv :=
  h.writeTarget (target_insideBuffers _ _ _) (State.hostWrite_next ht)

theorem hostOp (h : s.Inv) {op : HostOp} (ht : s.hostOp op = .next t) : t.Inv := by
  cases op with
  | write bytes addr v => exact h.hostWrite ht
  | read bytes addr =>
    obtain ⟨off, v, rfl⟩ := State.hostRead_next ht
    exact h.of_unread rfl
  | writeLast addr off lsb =>
    simp only [State.hostOp, State.hostWriteLast] at ht
    split at ht
    · exact h.hostWrite ht
    · cases ht
  | wait =>
    obtain rfl := Host.Outcome.next.inj ht
    rw [State.waitStatus]
    split <;> exact h.of_unread rfl
  | expect off v =>
    obtain rfl := Host.Outcome.next.inj ht
    exact h.of_unread rfl
  | reset =>
    obtain rfl := Host.Outcome.next.inj ht
    exact h.resetEvent

theorem passTurn (h : s.Inv) : s.passTurn.Inv := by
  rw [State.passTurn_eq]
  exact h.of_unread rfl

theorem hostTurn (h : s.Inv) (ht : s.hostTurn = .next t) : t.Inv := by
  rw [State.hostTurn] at ht
  split at ht
  · obtain rfl := Host.Outcome.next.inj ht
    exact h
  · next ops _ => exact (h.of_unread (t := { s with script := ops }) rfl).hostOp ht

end State.Inv

/-! ### Every step -/

/-- Settles O16: a turn of the host keeps the invariant operation by operation, and a turn of the engine runs the command in CMD,
each of whose updates keeps it. -/
theorem everyStepKeepsTheInvariant : Obligations.EveryStepKeepsTheInvariant := by
  unfold Obligations.EveryStepKeepsTheInvariant
  intro s t hinv h
  rcases s.turn_eq_host_or_engine with hturn | hturn
  · simp only [step, hturn] at h
    exact hinv.passTurn.hostTurn h
  · have hbusy := State.busy_of_engine_turn hturn
    obtain ⟨i, hcmd, -⟩ := hinv.busyCommand hbusy
    rw [step_engine hturn hcmd] at h
    exact exec_inv hinv.passTurn (by rwa [State.passTurn_stage]) (by rwa [State.passTurn_eq]) h

end Sys2Proof.Machine
end

section
/-! SUPPORT. Accesses that have no step (20_memory.md R80, R85). -/

namespace Sys2Proof.Machine

/-- A host access of a target that has no step stops the machine, whether it reads or writes. -/
theorem step_noAccess {s : State} {op : HostOp} {ops : List HostOp} {bytes addr : Nat} {v : Word} {τ : Target}
    (hturn : s.turn = .host) (hs : s.script = op :: ops) (hop : op = .read bytes addr ∨ op = .write bytes addr v)
    (hτ : target s.cfg bytes addr = τ) (hnone : τ = .refused ∨ τ = .outside) : step s = noAccess bytes addr τ := by
  rw [step_host hturn hs]
  rcases hop with rfl | rfl
  · simp only [State.hostOp, State.hostRead, State.hostNext_cfg, hτ]
    rcases hnone with rfl | rfl <;> rfl
  · simp only [State.hostOp, State.hostWrite, State.hostNext_cfg, hτ]
    rcases hnone with rfl | rfl <;> rfl

/-- The registers in the order of the map of R31. -/
def Reg.all : List Reg :=
  [.cmd, .status, .arg0, .arg1, .result0, .result1, .macHi, .macLo, .localIp, .linePort, .httpPort, .dnsId, .dnsLport,
    .pingIdseq, .evtKind, .evtOff, .evtLen]

theorem Reg.ofOffset_offset (r : Reg) : Reg.ofOffset r.offset = some r := by cases r <;> rfl

/-- Every register is an aligned word below the NAME window. -/
theorem Reg.offset_aligned (r : Reg) : r.offset % 4 = 0 ∧ r.offset + 4 ≤ 0x100 := by cases r <;> decide

/-- The four bytes of a register are reached by its aligned 32-bit access only (R85). -/
theorem targetAt_register_refused (bufSize : Nat) {bytes off : Nat} {r : Reg} (hle : r.offset ≤ off)
    (hlt : off < r.offset + 4) (haccess : ¬ (bytes = 4 ∧ off = r.offset)) : targetAt bufSize 256 bytes off = .refused := by
  obtain ⟨haligned, hend⟩ := r.offset_aligned
  have hword : off - off % 4 = r.offset := by omega
  rw [targetAt_register _ _ (by omega) (by rw [hword]; exact r.ofOffset_offset), if_neg (by omega)]

/-- Settles O13: each access named reaches no target with a step, by the offset it is made at. -/
theorem wrongWidthIsRefused : Obligations.WrongWidthIsRefused := by
  unfold Obligations.WrongWidthIsRefused
  refine ⟨fun s ops op off bytes v ⟨_, hbuf, _, hname, _⟩ hturn hs hop => ?_,
    fun s ops op addr bytes v hturn hs hop haddr => step_noAccess hturn hs hop (target_outside _ _ haddr) (.inr rfl)⟩
  have hrefused (hin : off < 0x20000) (hτ : targetAt s.cfg.bufSize 256 bytes off = .refused) :
      step s = .refused (.refusedAccess bytes (s.cfg.engineBase + off)) := by
    refine step_noAccess hturn hs hop ?_ (.inl rfl)
    rw [target_inside _ _ hin, hname, hτ]
  refine ⟨?_, ?_, ?_⟩
  · rintro ⟨n, hn, hle, hlt, haccess⟩
    obtain ⟨r, -, rfl⟩ : ∃ r ∈ Reg.all, r.offset = n := List.mem_map.1 hn
    have := r.offset_aligned
    exact hrefused (by omega) (targetAt_register_refused _ hle hlt haccess)
  · rintro (⟨hle, hlt⟩ | ⟨hle, hlt⟩) hbytes
    · obtain ⟨k, rfl⟩ := Nat.exists_eq_add_of_le hle
      exact hrefused (by omega) (by rw [targetAt_name _ _ (by omega), if_neg hbytes])
    · obtain ⟨k, rfl⟩ := Nat.exists_eq_add_of_le hle
      exact hrefused (by omega) (by rw [targetAt_frame _ _ _ (by omega), if_neg hbytes])
  · intro hoff hbytes
    refine hrefused ?_ (by rw [targetAt_reserved _ hoff, if_neg hbytes])
    simp only [reservedOffset] at hoff
    omega

end Sys2Proof.Machine
end

section
/-! SUPPORT. Fields in network order (20_memory.md R83, R84): a field stored is read back whole, and so are its halves. -/

namespace Sys2Proof.Machine

theorem State.wr16_bytes (s : State) (a : Nat) (v : Half) :
    (s.wr16 a v).byteB a = v.extractLsb' 8 8 ∧ (s.wr16 a v).byteB (a + 1) = v.extractLsb' 0 8 := by
  have hread : (s.wr16 a v).byteB a ++ (s.wr16 a v).byteB (a + 1) = v := s.rd16_writeB_be16 a v
  have hparts := byte_append_parts ((s.wr16 a v).byteB a) ((s.wr16 a v).byteB (a + 1))
  rw [hread] at hparts
  exact ⟨hparts.1.symm, hparts.2.symm⟩

theorem State.wr32_halves (s : State) (a : Nat) (v : Word) :
    (s.wr32 a v).rd16 a = v.extractLsb' 16 16 ∧ (s.wr32 a v).rd16 (a + 2) = v.extractLsb' 0 16 := by
  have hread : (s.wr32 a v).rd16 a ++ (s.wr32 a v).rd16 (a + 2) = v := s.rd32_writeB_be32 a v
  have hparts := half_append_parts ((s.wr32 a v).rd16 a) ((s.wr32 a v).rd16 (a + 2))
  rw [hread] at hparts
  exact ⟨hparts.1.symm, hparts.2.symm⟩

theorem State.wr48_parts (s : State) (a : Nat) (v : HwAddr) :
    (s.wr48 a v).rd16 a = v.extractLsb' 32 16 ∧ (s.wr48 a v).rd32 (a + 2) = v.extractLsb' 0 32 := by
  have hread : (s.wr48 a v).rd16 a ++ (s.wr48 a v).rd32 (a + 2) = v := s.rd48_writeB_be48 a v
  have hparts := hwAddr_append_parts ((s.wr48 a v).rd16 a) ((s.wr48 a v).rd32 (a + 2))
  rw [hread] at hparts
  exact ⟨hparts.1.symm, hparts.2.symm⟩

/-- Settles O43: a field read back is the value stored, so its parts are the value's parts. -/
theorem fieldsAreInNetworkOrder : Obligations.FieldsAreInNetworkOrder := by
  unfold Obligations.FieldsAreInNetworkOrder
  refine ⟨fun s a v => ?_, fun s a v => ?_, fun s a v => ?_, fun s a => ⟨rfl, rfl⟩,
    fun s a x bs h => s.byteB_writeB_outside h⟩
  · obtain ⟨hhigh, hlow⟩ := s.wr16_bytes a v
    exact ⟨hhigh, hlow, s.rd16_writeB_be16 a v⟩
  · obtain ⟨hhigh, hlow⟩ := s.wr32_halves a v
    exact ⟨hhigh, hlow, s.rd32_writeB_be32 a v⟩
  · obtain ⟨hhigh, hlow⟩ := s.wr48_parts a v
    exact ⟨hhigh, hlow, s.rd48_writeB_be48 a v⟩

end Sys2Proof.Machine
end

section
/-! SUPPORT. Command words (30_encoding.md R120, R123, R124): which words the decoder accepts, by which reason it rejects the others,
and what an illegal word in CMD does. -/

namespace Sys2Proof.Machine

/-! ### The codes and the words of the commands -/

theorem Instr.opc_mem_assignedCodes (i : Instr) : i.opc ∈ assignedCodes := by cases i <;> decide

/-- The assigned codes are the codes of the commands (R123). -/
theorem mem_assignedCodes_iff {c : Byte} : c ∈ assignedCodes ↔ ∃ i : Instr, c = i.opc := by
  refine ⟨fun hc => ?_, fun ⟨i, hi⟩ => hi ▸ Instr.opc_mem_assignedCodes i⟩
  simp only [assignedCodes, List.mem_cons, List.not_mem_nil, or_false] at hc
  rcases hc with rfl | rfl | rfl | rfl | rfl | rfl | rfl | rfl | rfl | rfl
  exacts [⟨.csum, rfl⟩, ⟨.csumPseudo, rfl⟩, ⟨.rxDispatch, rfl⟩, ⟨.poll, rfl⟩, ⟨.arpResolve, rfl⟩, ⟨.ipSend, rfl⟩,
    ⟨.ping, rfl⟩, ⟨.udpSend, rfl⟩, ⟨.tcpSend, rfl⟩, ⟨.dnsResolve, rfl⟩]

theorem decode_encode (i : Instr) : decode (encode i) = .ok i := (encode_roundTrip i).2

theorem decodeTableWord_encode (i : Instr) : decodeTableWord 32 (encode i).toNat = some i := by
  rw [decodeTableWord, Nat.mod_eq_of_lt (encode i).isLt, BitVec.ofNat_toNat, BitVec.setWidth_eq, decode_encode]
  rfl

/-- Settles O2: the words of the table are `encode` of their commands, which decode back and have no second word. -/
theorem decodeAndEncodeAgree : Obligations.DecodeAndEncodeAgree := by
  unfold Obligations.DecodeAndEncodeAgree
  exact ⟨decode_encode, fun _ _ => decode_eq_ok, rfl, rfl, rfl, rfl, rfl, rfl, rfl, rfl, rfl, rfl⟩

/-! ### The three answers of the decoder -/

theorem decodeOpc_opc (i : Instr) : decodeOpc i.opc = .ok i := by cases i <;> rfl

theorem decodeOpc_eq_error {c : Byte} {e : Reject} (h : decodeOpc c = .error e) : e = .unassignedCode := by
  rw [decodeOpc] at h
  split at h
  case h_11 => cases h; rfl
  all_goals cases h

theorem decode_of_reservedBits {w : Word} (hrsv : rsvOf w ≠ 0) : decode w = .error .reservedBits := if_neg hrsv

theorem decode_of_unassignedCode {w : Word} (hrsv : rsvOf w = 0) (hopc : opcOf w ∉ assignedCodes) :
    decode w = .error .unassignedCode := by
  rw [decode, if_pos hrsv]
  cases h : decodeOpc (opcOf w) with
  | ok i => exact absurd (mem_assignedCodes_iff.2 ⟨i, decodeOpc_eq_ok h⟩) hopc
  | error e => rw [decodeOpc_eq_error h]

theorem decode_of_assignedCode {w : Word} (hrsv : rsvOf w = 0) (hopc : opcOf w ∈ assignedCodes) : ∃ i, decode w = .ok i := by
  obtain ⟨i, hi⟩ := mem_assignedCodes_iff.1 hopc
  exact ⟨i, by rw [decode, if_pos hrsv, hi, decodeOpc_opc]⟩

/-- The reserved field is what a right shift by the width of the code leaves (R120). -/
theorem shiftRight_eq_zero_iff_rsvOf (w : Word) : w >>> 8 = 0 ↔ rsvOf w = 0 := by
  have hw := w.isLt
  rw [rsvOf, ← BitVec.toNat_inj, ← BitVec.toNat_inj, BitVec.toNat_ushiftRight, BitVec.extractLsb'_toNat,
    Nat.mod_eq_of_lt (by omega)]
  rfl

/-- The legal words of R124, by the two fields of the word. -/
theorem legalWord_iff {w : Word} : legalWord w = true ↔ rsvOf w = 0 ∧ opcOf w ∈ assignedCodes := by
  have hopc : w.setWidth 8 = opcOf w := BitVec.setWidth_eq_extractLsb' (by decide)
  rw [legalWord, hopc, Bool.and_eq_true, beq_iff_eq, shiftRight_eq_zero_iff_rsvOf, List.contains_iff_mem]

theorem legalWord_eq_false_iff {w : Word} : legalWord w = false ↔ rsvOf w ≠ 0 ∨ opcOf w ∉ assignedCodes := by
  rw [← Bool.not_eq_true, legalWord_iff, not_and_or]

/-- Settles O3, by the two fields of the word: each of the three cases fixes the decoder's answer. -/
theorem decoderAcceptsExactlyTheLegalWords : Obligations.DecoderAcceptsExactlyTheLegalWords := by
  unfold Obligations.DecoderAcceptsExactlyTheLegalWords
  intro w
  rw [legalWord_iff]
  change _ ∧ (_ ↔ rsvOf w ≠ 0) ∧ (_ ↔ rsvOf w = 0 ∧ opcOf w ∉ assignedCodes)
  by_cases hrsv : rsvOf w = 0#24
  · by_cases hopc : opcOf w ∈ assignedCodes
    · obtain ⟨i, hi⟩ := decode_of_assignedCode hrsv hopc
      simp [hi, hrsv, hopc]
    · simp [decode_of_unassignedCode hrsv hopc, hrsv, hopc]
  · simp [decode_of_reservedBits hrsv, hrsv]

/-- Settles O1: the words of the table are those of O2, and the two other words break one rule of R124 each. -/
theorem assignedWordsDecode : Obligations.AssignedWordsDecode := by
  unfold Obligations.AssignedWordsDecode
  exact ⟨decode_encode .csum, decode_encode .poll, decode_encode .arpResolve, decode_encode .dnsResolve,
    decodeTableWord_encode .ping, decodeTableWord_encode .tcpSend, decode_of_reservedBits (by decide),
    decode_of_unassignedCode (by decide) (by decide)⟩

/-! ### An illegal word in CMD -/

theorem decode_of_illegal {w : Word} (h : legalWord w = false) : ∃ e, decode w = .error e := by
  cases hw : decode w with
  | ok i => rw [legalWord_of_decode hw] at h; cases h
  | error e => exact ⟨e, rfl⟩

/-- An illegal word written to CMD while IDLE is the error ILLEGAL at once, with the word in CMD (R35, R37). -/
theorem State.takeCommand_of_illegal {w : Word} (s : State) (h : legalWord w = false) :
    s.takeCommand w = (s.setCmd w).raise .illegal := by
  obtain ⟨e, he⟩ := decode_of_illegal h
  rw [State.takeCommand, he]

section
variable {s : State} {ops : List HostOp} {w : Word} (hs : s.script = .write 4 s.cfg.engineBase w :: ops)
include hs

theorem step_writeCmd_idle (hstage : s.stage = .idle) :
    step s = .next (({ s with script := ops } : State).takeCommand w) := by
  refine step_write (State.turn_idle hstage).1 hs (target_cmd s.cfg) ?_
  rw [State.writeTarget, State.hostNext_busy, State.not_busy_of_idle hstage, State.hostNext_idle hstage]; rfl

theorem step_writeCmd_busy (hstage : s.stage ≠ .idle) (hturn : s.turn = .host) :
    step s = .next { s.hostNext ops with ovr := true } := by
  refine step_write hturn hs (target_cmd s.cfg) ?_
  rw [State.writeTarget, State.hostNext_busy, State.busy_of_stage_ne hstage]; rfl

end

/-- Settles O7: the illegal words by their two fields, then the write of CMD in IDLE and in BUSY. -/
theorem illegalWordEndsAtOnce : Obligations.IllegalWordEndsAtOnce := by
  unfold Obligations.IllegalWordEndsAtOnce
  refine ⟨fun w => legalWord_eq_false_iff, fun s ops w hstage hs hw => ?_,
    fun s ops w hstage hturn hs _ => step_writeCmd_busy hs hstage hturn⟩
  rw [step_writeCmd_idle hs hstage, State.takeCommand_of_illegal _ hw, State.raise, ← hstage]; rfl

end Sys2Proof.Machine
end

section
/-! SUPPORT. The checksum engine (40_checksum.md R140 to R148): the folded sum in closed form and what follows from it, the word list of
a byte range, and the two checksum commands case by case. -/

namespace Sys2Proof.Machine

/-! ### The folded sum as a number (R142) -/

/-- A word is at most 0xFFFF, so 65537 words do not wrap the accumulator (R140). -/
theorem sum_toNat_lt {ws : List Half} (h : ws.length ≤ 65537) : (ws.map BitVec.toNat).sum < 2 ^ 32 := by
  have hword : ∀ n ∈ ws.map BitVec.toNat, n ≤ 65535 := by
    intro n hn
    obtain ⟨w, -, rfl⟩ := List.mem_map.1 hn
    exact Nat.le_of_lt_succ w.isLt
  have hle := List.sum_le_card_nsmul _ _ hword
  rw [List.length_map, smul_eq_mul] at hle
  omega

theorem ocSum_toNat_of_length {ws : List Half} (h : ws.length ≤ 65537) :
    (ocSum ws).toNat = foldValue (ws.map BitVec.toNat).sum := by
  rw [ocSum_toNat, accumulate_toNat, Nat.mod_eq_of_lt (sum_toNat_lt h)]

theorem ocSum_nil : ocSum [] = 0 := by decide

theorem ocSum_perm {ws vs : List Half} (h : ws.Perm vs) : ocSum ws = ocSum vs := by
  apply BitVec.eq_of_toNat_eq
  rw [ocSum_toNat, ocSum_toNat, accumulate_toNat, accumulate_toNat, (h.map BitVec.toNat).sum_eq]

/-- The rest of the residue up to 65535 brings a sum to a multiple of 65535, which folds to 65535. -/
theorem foldValue_add_complement (n : Nat) : foldValue (n + (65535 - foldValue n)) = 65535 := by
  simp only [foldValue]
  split <;> split <;> omega

/-- The complement in the place of a zero word makes the folded sum 0xFFFF (R144). -/
theorem ocSum_complement {ws vs : List Half} (h : ws.length + vs.length < 65537) :
    ocSum (ws ++ complement (ocSum (ws ++ 0#16 :: vs)) :: vs) = 0xFFFF := by
  have hzero := ocSum_toNat_of_length (ws := ws ++ 0#16 :: vs) (by simp; omega)
  have hfold := foldValue_add_complement ((ws ++ 0#16 :: vs).map BitVec.toNat).sum
  rw [← hzero] at hfold
  apply BitVec.eq_of_toNat_eq
  rw [ocSum_toNat_of_length (by simp; omega)]
  refine Eq.trans (congrArg foldValue ?_) hfold
  simp only [complement, BitVec.toNat_not, List.map_append, List.map_cons, List.sum_append, List.sum_cons, BitVec.toNat_ofNat]
  omega

/-- Settles O25: 65537 words do not wrap the accumulator, and the fold of the accumulator is its residue. -/
theorem foldedSumClosedForm : Obligations.FoldedSumClosedForm := by
  unfold Obligations.FoldedSumClosedForm
  exact fun ws h => ocSum_toNat_of_length h

/-- Settles O26: the folded sum depends only on the sum of the words as numbers. -/
theorem foldedSumIgnoresOrder : Obligations.FoldedSumIgnoresOrder := by
  unfold Obligations.FoldedSumIgnoresOrder
  exact fun ws vs => ocSum_perm

/-! ### A stored checksum (R144, R147) -/

/-- The words of the range are the same before and after the store but for the field, 0 before and the complement after. -/
theorem State.foldedSum_csumStore (s : State) {f a n : Nat} (hlow : a ≤ f) (heven : (f - a) % 2 = 0)
    (hhigh : f + 2 ≤ a + n) (hn : n ≤ 65536) : (s.csumStore f a n).foldedSum a n = 0xFFFF := by
  have hwords (t : State) (v : Half) := t.wordsOf_readB_wr16 f a n v hlow heven hhigh
  have hbefore (sum : Half) : ((s.wr16 f 0).leaveAcc sum).readB a (f - a) = s.readB a (f - a) :=
    s.readB_writeB_outside (by omega)
  have hafter (sum : Half) : ((s.wr16 f 0).leaveAcc sum).readB (f + 2) (a + n - (f + 2)) =
      s.readB (f + 2) (a + n - (f + 2)) := s.readB_writeB_outside (by simp)
  rw [State.csumStore, State.foldedSum, State.foldedSum, hwords, hwords, hbefore, hafter]
  exact ocSum_complement (by simp only [wordsOf_length, State.readB_length]; omega)

/-- Settles O27: the stored word is the complement of the folded sum with 0 in its place, so the range folds to 0xFFFF. -/
theorem storedChecksumVerifies : Obligations.StoredChecksumVerifies := by
  unfold Obligations.StoredChecksumVerifies
  intro s f a n hlow heven hhigh hn
  rw [s.foldedSum_csumStore hlow heven hhigh hn]
  exact ⟨rfl, by decide⟩

/-! ### The pseudo-header with the addresses exchanged (R148) -/

/-- Exchange of the two addresses of the packet at `o`. -/
def State.swapAddrsAt (s : State) (o : Nat) : State :=
  (s.wr32 (o + 12) (s.rd32 (o + 16))).wr32 (o + 16) (s.rd32 (o + 12))

/-- IP_SEND's exchange (43_ipv4_icmp.md R232) is that of the packet at 14. -/
theorem State.swapAddrs_eq (s : State) : s.swapAddrs = s.swapAddrsAt 14 := rfl

theorem State.swapAddrsAt_byteB_outside (s : State) {o x : Nat} (h : x < o + 12 ∨ o + 20 ≤ x) :
    (s.swapAddrsAt o).byteB x = s.byteB x := by
  rw [State.swapAddrsAt, State.wr32_eq, State.wr32_eq, State.byteB_writeB_outside _ (by simp; omega),
    State.byteB_writeB_outside _ (by simp; omega)]

theorem State.swapAddrsAt_addrs (s : State) (o : Nat) :
    (s.swapAddrsAt o).rd32 (o + 12) = s.rd32 (o + 16) ∧ (s.swapAddrsAt o).rd32 (o + 16) = s.rd32 (o + 12) := by
  simp only [State.swapAddrsAt, State.wr32_eq]
  exact ⟨by rw [State.rd32_writeB_outside _ (by omega), State.rd32_writeB_be32], State.rd32_writeB_be32 _ _ _⟩

theorem State.swapAddrsAt_totalLength (s : State) (o : Nat) : (s.swapAddrsAt o).rd16 (o + 2) = s.rd16 (o + 2) :=
  State.rd16_of_byteB fun x _ _ => s.swapAddrsAt_byteB_outside (by omega)

/-- The exchange permutes the four address words and leaves the other two alone. -/
theorem State.pseudoWords_swapAddrsAt_perm (s : State) (o : Nat) :
    ((s.swapAddrsAt o).pseudoWords o).Perm (s.pseudoWords o) := by
  obtain ⟨hsrc, hdst⟩ := s.swapAddrsAt_addrs o
  obtain ⟨h12, h14⟩ := half_append_inj hsrc
  obtain ⟨h16, h18⟩ := half_append_inj hdst
  have hproto : (s.swapAddrsAt o).rd8 (o + 9) = s.rd8 (o + 9) := s.swapAddrsAt_byteB_outside (by omega)
  simp only [State.pseudoWords, h12, h14, h16, h18, hproto, s.swapAddrsAt_totalLength]
  exact (List.perm_append_comm (l₁ := [s.rd16 (o + 16), s.rd16 (o + 18)])
    (l₂ := [s.rd16 (o + 12), s.rd16 (o + 14)])).append_right [_, _]

/-- Settles O28: the exchange permutes the pseudo-header words and leaves the total length and the segment alone. -/
theorem pseudoSumIgnoresAddressOrder : Obligations.PseudoSumIgnoresAddressOrder := by
  unfold Obligations.PseudoSumIgnoresAddressOrder
  intro s o
  change (s.swapAddrsAt o).pseudoSum o = s.pseudoSum o
  have hsegment (k : Nat) : (s.swapAddrsAt o).readB (o + 20) k = s.readB (o + 20) k :=
    State.readB_of_byteB fun x _ _ => s.swapAddrsAt_byteB_outside (by omega)
  rw [State.pseudoSum, State.pseudoSum, s.swapAddrsAt_totalLength, hsegment]
  exact ocSum_perm ((s.pseudoWords_swapAddrsAt_perm o).append_right _)

/-! ### The two checksum commands (R143, R145) -/

theorem State.inRange_iff (s : State) (a n : Nat) : s.inRange a n = true ↔ a + n ≤ s.cfg.bufSize := decide_eq_true_iff

theorem exec_csum_inRange {s : State} (h : s.arg0.toNat + s.arg1.toNat ≤ s.cfg.bufSize) :
    exec .csum s = .next (s.finishSum (s.foldedSum s.arg0.toNat s.arg1.toNat)) :=
  congrArg Host.Outcome.next (if_pos ((s.inRange_iff _ _).2 h))

theorem exec_csum_bounds {s : State} (h : s.cfg.bufSize < s.arg0.toNat + s.arg1.toNat) :
    exec .csum s = .next (s.raise .bounds) :=
  congrArg Host.Outcome.next (if_neg fun hin => Nat.not_le.2 h ((s.inRange_iff _ _).1 hin))

section
variable {s : State} {o total : Nat} (ho : o = s.arg0.toNat) (htotal : total = (s.rd16 (o + 2)).toNat)
include ho htotal

/-- CSUM_PSEUDO's checks in the order of R145. -/
theorem exec_csumPseudo_eq :
    exec .csumPseudo s = .next (
      if o + 20 ≤ s.cfg.bufSize then
        if total < 20 then s.raise .arg
        else if o + total ≤ s.cfg.bufSize then s.finishSum (s.pseudoSum o) else s.raise .bounds
      else s.raise .bounds) := by
  subst ho htotal
  change execCsumPseudo s = _
  simp only [execCsumPseudo, State.inRange_iff, State.opIpoff]

theorem exec_csumPseudo_inRange (hhead : o + 20 ≤ s.cfg.bufSize) (hmin : 20 ≤ total) (hpacket : o + total ≤ s.cfg.bufSize) :
    exec .csumPseudo s = .next (s.finishSum (s.pseudoSum o)) := by
  rw [exec_csumPseudo_eq ho htotal, if_pos hhead, if_neg (by omega), if_pos hpacket]

theorem exec_csumPseudo_arg (hhead : o + 20 ≤ s.cfg.bufSize) (hmin : total < 20) :
    exec .csumPseudo s = .next (s.raise .arg) := by
  rw [exec_csumPseudo_eq ho htotal, if_pos hhead, if_pos hmin]

theorem exec_csumPseudo_bounds (h : s.cfg.bufSize < o + 20 ∨ (20 ≤ total ∧ s.cfg.bufSize < o + total)) :
    exec .csumPseudo s = .next (s.raise .bounds) := by
  rw [exec_csumPseudo_eq ho htotal]
  by_cases hhead : o + 20 ≤ s.cfg.bufSize
  · rw [if_pos hhead, if_neg (by omega), if_neg (by omega)]
  · rw [if_neg hhead]

end

/-- The segment length of the pseudo-header, as a word (R146). -/
theorem segmentLength_word {s : State} {o total : Nat} (htotal : total = (s.rd16 (o + 2)).toNat) (hmin : 20 ≤ total) :
    s.rd16 (o + 2) - 20 = BitVec.ofNat 16 (total - 20) := by
  have := (s.rd16 (o + 2)).isLt
  apply BitVec.eq_of_toNat_eq
  rw [BitVec.toNat_sub_of_le (by rw [BitVec.le_def, ← htotal]; exact hmin), ← htotal, BitVec.toNat_ofNat,
    Nat.mod_eq_of_lt (by omega)]
  rfl

/-- Settles O30, by the three checks of R145 in their order; the words summed are those of R146. -/
theorem csumPseudoResult : Obligations.CsumPseudoResult := by
  unfold Obligations.CsumPseudoResult
  intro s o total ws ho htotal hws
  refine ⟨fun hhead hmin hpacket => ?_, fun hhead hmin => ?_, fun h => ?_⟩
  · have hsum : s.pseudoSum o = ocSum ws := by
      rw [hws, State.pseudoSum, State.pseudoWords, segmentLength_word htotal hmin, htotal]
    rw [exec_csumPseudo_inRange ho htotal hhead hmin hpacket, hsum]
    exact ⟨_, rfl⟩
  · rw [exec_csumPseudo_arg ho htotal hhead hmin]; rfl
  · rw [exec_csumPseudo_bounds ho htotal h]; rfl

/-! ### The words of a byte range (R141) -/

/-- A range of even length is `k` whole words. -/
theorem State.wordsOf_readB_even (s : State) (a k : Nat) :
    wordsOf (s.readB a (2 * k)) = (List.range k).map fun i => s.byteB (a + 2 * i) ++ s.byteB (a + 2 * i + 1) := by
  induction k with
  | zero => rfl
  | succ k ih =>
    rw [Nat.mul_succ, State.readB_add, wordsOf_append _ _ (by simp), ih, List.range_succ, List.map_append]
    rfl

theorem State.wordsOf_readB (s : State) (a n : Nat) :
    wordsOf (s.readB a n) =
      (List.range (n / 2)).map (fun i => s.byteB (a + 2 * i) ++ s.byteB (a + 2 * i + 1)) ++
        (if n % 2 = 1 then [s.byteB (a + n - 1) ++ (0 : Byte)] else []) := by
  by_cases hodd : n % 2 = 1
  · obtain ⟨k, rfl⟩ : ∃ k, n = 2 * k + 1 := ⟨n / 2, by omega⟩
    rw [if_pos hodd, State.readB_add, wordsOf_append _ _ (by simp), State.wordsOf_readB_even,
      show (2 * k + 1) / 2 = k by omega]
    rfl
  · obtain ⟨k, rfl⟩ : ∃ k, n = 2 * k := ⟨n / 2, by omega⟩
    rw [if_neg hodd, State.wordsOf_readB_even, List.append_nil, show 2 * k / 2 = k by omega]

/-- Settles O29, by the range check of R143; the words of the range are those of R141. -/
theorem csumResult : Obligations.CsumResult := by
  unfold Obligations.CsumResult
  refine ⟨fun s => ⟨fun h => ?_, fun h => ?_, fun h => ?_⟩, State.wordsOf_readB⟩
  · rw [exec_csum_inRange h]; exact ⟨_, rfl⟩
  · rw [exec_csum_bounds h]; rfl
  · have hlen : s.arg1.toNat = 0 := by rw [h]; rfl
    rw [hlen]; exact ocSum_nil

end Sys2Proof.Machine
end

section
/-! SUPPORT. What handling one inbound frame does, said once for RX_DISPATCH and POLL (41_frame_dispatch.md R172, 43_ipv4_icmp.md R230):
the frame is dropped, answered or announced, and which bytes of `B` it may write. -/

namespace Sys2Proof.Machine

/-- What handling a frame makes of `s`: it is dropped, with at most terminators written; the ARP request is answered; an IPv4
packet is sent back by way of stores that send nothing; or an event is set after stores. -/
inductive State.Handled (s : State) : State → Prop where
  | dropped {u : State} (h : s.OnlyFrame u) : s.Handled u
  | arpAnswered : s.Handled s.arpAnswer
  | answered {u : State} (h : s.Emits u []) (plen : Nat) (p : Byte) : s.Handled (u.ipSend plen p)
  | announced {u : State} (h : s.OnlyFrame u) (kind : BitVec 3) (off len : Half) : s.Handled (u.setEvent kind off len)

theorem State.OnlyFrame.emits_trans {s t u : State} {l : List MacEvent} (h : s.OnlyFrame t) (e : t.Emits u l) :
    s.Emits u l := h.emits.trans e

theorem State.icmpEcho_handled {s t : State} (h : s.OnlyFrame t) (total : Nat) : s.Handled (t.icmpEcho total) := by
  simp only [State.icmpEcho, State.wr8_eq]
  split
  · exact .dropped h
  · split
    · exact .dropped h
    · exact .answered ((h.writeB _ _).emits_trans (State.csumStore_emits _ _ _ _)) _ _

theorem State.udpRead_handled {s t : State} (h : s.OnlyFrame t) : s.Handled t.udpRead := by
  simp only [State.udpRead, State.wr8_eq]
  split
  · exact .dropped h
  · split
    · exact .announced (h.writeB _ _) _ _ _
    · exact .dropped h

theorem State.tcpHandshake_handled {s t : State} (h : s.OnlyFrame t) (total : Nat) (fl : Byte) :
    s.Handled (t.tcpHandshake total fl) :=
  .answered (((h.trans (State.ackHandshake_onlyFrame t fl)).trans (State.addAck_onlyFrame _ fl)).emits_trans
    (State.pseudoStore_emits _ 50 14)) _ _

theorem State.tcpRead_handled {s t : State} (h : s.OnlyFrame t) (total : Nat) : s.Handled (t.tcpRead total) := by
  have hswap := (h.trans t.swapPorts_onlyFrame).trans (State.swapSeqAck_onlyFrame _)
  simp only [State.tcpRead]
  split
  · exact .dropped h
  · split
    · exact .dropped h
    · split
      · exact State.tcpHandshake_handled hswap total _
      · exact .announced hswap _ _ _

theorem State.ipDeliver_handled {s t : State} (h : s.OnlyFrame t) (total : Nat) : s.Handled (t.ipDeliver total) := by
  rw [State.ipDeliver]
  split
  · exact State.icmpEcho_handled h total
  · split
    · exact State.tcpRead_handled h total
    · split
      · exact State.udpRead_handled h
      · exact .dropped h

theorem State.ipRead_handled (s : State) : s.Handled s.ipRead := by
  simp only [State.ipRead]
  split
  · exact .dropped (.refl s)
  · split
    · exact .dropped (.refl s)
    · split
      · exact .dropped (.refl s)
      · split
        · exact State.ipDeliver_handled (s.writeB_onlyFrame _ _) _
        · exact .dropped (.refl s)

/-- Every frame handled is dropped, answered or announced. -/
theorem State.classify_handled (s : State) (n : Nat) : s.Handled (s.classify n) := by
  rw [State.classify]
  split
  · exact .dropped (.refl s)
  · split
    · split
      · exact .arpAnswered
      · exact .dropped (.refl s)
    · split
      · exact s.ipRead_handled
      · exact .dropped (.refl s)

/-- Handling a frame changes the buffer, the record, ACC and the event registers at most. -/
theorem State.Handled.rest {s t : State} (h : s.Handled t) : t = { s with
    frame := t.frame, history := t.history, acc := t.acc, evtKind := t.evtKind, evtOff := t.evtOff, evtLen := t.evtLen } := by
  cases h with
  | dropped h => rw [h]
  | arpAnswered => rw [State.arpAnswer_emits s]
  | answered h plen p => rw [h.trans (State.ipSend_emits _ plen p)]
  | announced h kind off len => rw [h]; rfl

/-! ### The bytes from offset 54 on -/

/-- UDP_READ writes its terminator right behind the datagram, at 34 and its length field. -/
theorem State.udpRead_byteB_ne {s : State} {x : Nat} (hne : x ≠ 34 + (s.rd16 38).toNat) : s.udpRead.byteB x = s.byteB x := by
  simp only [State.udpRead, State.wr8_eq]
  split
  · rfl
  · split
    · rw [State.byteB_setEvent, State.byteB_writeB_outside _ (by simp; omega)]
    · rfl

section
variable {s : State} {x : Nat} (hx : 54 ≤ x)
include hx

theorem State.icmpEcho_byteB_ge (total : Nat) : (s.icmpEcho total).byteB x = s.byteB x := by
  simp only [State.icmpEcho, State.wr8_eq]
  split
  · rfl
  · split
    · rfl
    · rw [State.ipSend_byteB_outside _ _ _ (by omega), State.csumStore_byteB_outside _ _ _ _ (by omega),
        State.byteB_writeB_outside _ (by simp; omega)]

theorem State.tcpHandshake_byteB_ge (total : Nat) (fl : Byte) : (s.tcpHandshake total fl).byteB x = s.byteB x := by
  rw [State.tcpHandshake, State.ipSend_byteB_outside _ _ _ (by omega), State.pseudoStore_byteB_outside _ _ _ (by omega),
    State.addAck_byteB_outside _ _ (by omega), State.ackHandshake_byteB_outside _ _ (by omega)]

theorem State.tcpRead_byteB_ge (total : Nat) : (s.tcpRead total).byteB x = s.byteB x := by
  have hswap : s.swapPorts.swapSeqAck.byteB x = s.byteB x := by
    rw [State.swapSeqAck_byteB_outside _ (by omega), State.swapPorts_byteB_outside _ (by omega)]
  simp only [State.tcpRead]
  split
  · rfl
  · split
    · rfl
    · split
      · rw [State.tcpHandshake_byteB_ge hx, hswap]
      · rw [State.tcpData, State.byteB_setEvent, hswap]

theorem State.ipDeliver_byteB_ne (total : Nat) (hne : x ≠ 34 + (s.rd16 38).toNat) :
    (s.ipDeliver total).byteB x = s.byteB x := by
  rw [State.ipDeliver]
  split
  · exact State.icmpEcho_byteB_ge hx total
  · split
    · exact State.tcpRead_byteB_ge hx total
    · split
      · exact State.udpRead_byteB_ne hne
      · rfl

/-- The two terminators are all that is written from offset 54 on. -/
theorem State.ipRead_byteB_ne (hip : x ≠ 14 + (s.rd16 16).toNat)
    (hudp : x ≠ 34 + ((s.wr8 (14 + (s.rd16 16).toNat) 0).rd16 38).toNat) : s.ipRead.byteB x = s.byteB x := by
  simp only [State.ipRead]
  split
  · rfl
  · split
    · rfl
    · split
      · rfl
      · split
        · rw [State.ipDeliver_byteB_ne hx _ hudp, State.byteB_wr8, if_neg hip]
        · rfl

theorem State.classify_byteB_ne (n : Nat) (hip : x ≠ 14 + (s.rd16 16).toNat)
    (hudp : x ≠ 34 + ((s.wr8 (14 + (s.rd16 16).toNat) 0).rd16 38).toNat) : (s.classify n).byteB x = s.byteB x := by
  rw [State.classify]
  split
  · rfl
  · split
    · split
      · exact s.arpAnswer_byteB_outside (by omega)
      · rfl
    · split
      · exact State.ipRead_byteB_ne hx hip hudp
      · rfl

end

/-- Settles O39: every frame handled is dropped, answered or announced, and none of the three reaches another register or, from
offset 54 on, another byte than a terminator. -/
theorem classifyFrame : Obligations.ClassifyFrame := by
  unfold Obligations.ClassifyFrame
  exact fun s n => ⟨(s.classify_handled n).rest, fun x hx => s.classify_byteB_ne hx n⟩

end Sys2Proof.Machine
end

section
/-! SUPPORT. The frames the engine sends (41_frame_dispatch.md R170, R171, 43_ipv4_icmp.md R232): each is well formed where it is sent, and
so is every frame an engine step adds to the record. -/

namespace Sys2Proof.Machine

/-! ### The frames of the two senders -/

/-- An ARP frame, read from its fields in `B`. -/
theorem State.goodFrame_arp {t : State} {mac : HwAddr} (hsrc : t.rd48 6 = mac) (htype : t.rd16 12 = proto.etypeArp) :
    goodFrame mac (t.readB 0 42) := by
  refine ⟨?_, .inl ⟨t.readB_length 0 42, ?_⟩⟩
  · rw [State.readB_drop_take _ _ _ _ (by decide), ← hsrc, be48_rd48]
  · rw [State.readB_drop_take _ _ _ _ (by decide), ← htype, be16_rd16]

theorem State.readB_zero_getD (s : State) {n x : Nat} (h : x < n) : (s.readB 0 n).getD x 0 = s.rd8 x := by
  rw [List.getD_eq_getElem _ _ (by rwa [State.readB_length]), State.readB_getElem, Nat.zero_add, State.rd8]

theorem State.arpRequest_goodFrame (s : State) (ip : Word) : goodFrame s.localMac ((s.arpRequest ip).readB 0 42) := by
  obtain ⟨-, hsrc, htype⟩ := State.ethDirect_fields (s.arpFields ip) 42 proto.etypeArp proto.bcastMac
  rw [(s.arpFields_onlyFrame ip).localMac] at hsrc
  exact State.goodFrame_arp hsrc htype

theorem State.arpAnswer_goodFrame (s : State) : goodFrame s.localMac (s.arpAnswer.readB 0 42) := by
  obtain ⟨-, hsrc, htype⟩ := State.ethReply_fields (s.arpSwap.wr16 20 proto.arpOpReply) 42 proto.etypeArp
  rw [State.wr16_eq, (s.arpSwap_onlyFrame.writeB 20 (be16 proto.arpOpReply)).localMac] at hsrc
  exact State.goodFrame_arp hsrc htype

/-- The header checksum `IpSend` stores verifies in the frame sent (R232, 40_checksum.md R144). -/
theorem State.ipSend_foldedSum (s : State) (plen : Nat) (p : Byte) : (s.ipSend plen p).foldedSum 14 20 = 0xFFFF := by
  rw [State.ipSend, State.foldedSum_of_byteB fun x hx _ => State.ethReply_byteB_ge _ _ _ hx,
    State.foldedSum_csumStore _ (by decide) (by decide) (by decide) (by decide)]

theorem State.ipSend_goodFrame (s : State) (plen : Nat) (p : Byte) (httl : s.cfg.ipTtl = 128) :
    goodFrame s.localMac ((s.ipSend plen p).readB 0 (34 + plen)) := by
  obtain ⟨hver, htos, htotal, -, hfrag, hlive, -, -, -, -, hsrc, htype⟩ := s.ipSend_fields plen p
  have hfield (a k : Nat) (hk : a + k ≤ 34) :
      (((s.ipSend plen p).readB 0 (34 + plen)).drop a).take k = (s.ipSend plen p).readB a k :=
    State.readB_drop_take _ _ _ _ (by omega)
  have hbyte (a : Nat) (ha : a < 34) :
      ((s.ipSend plen p).readB 0 (34 + plen)).getD a 0 = (s.ipSend plen p).rd8 a :=
    State.readB_zero_getD _ (by omega)
  refine ⟨?_, .inr ⟨?_, ?_, ?_, ?_, ?_, ?_, ?_, ?_⟩⟩
  · rw [hfield 6 6 (by decide), ← hsrc, be48_rd48]
  · rw [hfield 12 2 (by decide), ← be16_rd16, htype]; rfl
  · rw [hbyte 14 (by decide), hver]
  · rw [hbyte 15 (by decide), htos]
  · rw [hfield 20 2 (by decide), ← be16_rd16, hfrag]
  · rw [hbyte 22 (by decide), hlive, httl]
  · rw [State.readB_length]; omega
  · rw [hfield 16 2 (by decide), ← be16_rd16, htotal, State.readB_length, show 34 + plen - 14 = 20 + plen by omega]
  · rw [hfield 14 20 (by decide)]
    exact s.ipSend_foldedSum plen p

/-! ### A running command -/

/-- `t` is reached from `s` with LOCAL_MAC and the ttl parameter unchanged, and every frame sent since is well formed. -/
structure State.SendsGood (s t : State) : Prop where
  ttl : t.cfg.ipTtl = 128
  mac : t.localMac = s.localMac
  sent : ∃ new, t.history = s.history ++ new ∧ ∀ bytes, MacEvent.sent bytes ∈ new → goodFrame s.localMac bytes

namespace State.SendsGood

variable {s t u : State}

theorem refl (h : s.cfg.wf) : s.SendsGood s := by
  obtain ⟨-, -, -, -, -, -, -, httl, -⟩ := h
  exact ⟨httl, rfl, [], (List.append_nil _).symm, fun _ => nofun⟩

/-- More MAC calls, their frames well formed. -/
theorem extend (h : s.SendsGood t) {l : List MacEvent} (hcfg : u.cfg = t.cfg) (hmac : u.localMac = t.localMac)
    (hhistory : u.history = t.history ++ l) (hl : ∀ bytes, MacEvent.sent bytes ∈ l → goodFrame t.localMac bytes) :
    s.SendsGood u := by
  obtain ⟨httl, hmac', new, hnew, hgood⟩ := h
  refine ⟨hcfg ▸ httl, hmac.trans hmac', new ++ l, by rw [hhistory, hnew, List.append_assoc], fun bytes hb => ?_⟩
  rcases List.mem_append.1 hb with hb | hb
  · exact hgood bytes hb
  · exact hmac' ▸ hl bytes hb

/-- Updates of other fields. -/
theorem keep (h : s.SendsGood t) (hcfg : u.cfg = t.cfg) (hmac : u.localMac = t.localMac) (hhistory : u.history = t.history) :
    s.SendsGood u :=
  h.extend (l := []) hcfg hmac (by rw [hhistory, List.append_nil]) fun _ => nofun

theorem silent (h : s.SendsGood t) (e : t.Emits u []) : s.SendsGood u :=
  h.extend e.cfg_eq e.localMac e.history_eq fun _ => nofun

theorem onlyFrame (h : s.SendsGood t) (e : t.OnlyFrame u) : s.SendsGood u := h.silent e.emits

theorem send (h : s.SendsGood t) {frame : List Byte} (e : t.Emits u [.sent frame]) (hgood : goodFrame t.localMac frame) :
    s.SendsGood u := by
  refine h.extend e.cfg_eq e.localMac e.history_eq fun bytes hb => ?_
  obtain rfl := MacEvent.sent.inj (List.mem_singleton.1 hb)
  exact hgood

theorem macReceive (h : s.SendsGood t) : s.SendsGood t.macReceive :=
  h.extend rfl rfl rfl fun _ hb => nomatch List.mem_singleton.1 hb

theorem finish (h : s.SendsGood t) (r0 r1 : Word) : s.SendsGood (t.finish r0 r1) := h.keep rfl rfl rfl

theorem raise (h : s.SendsGood t) (c : CmdError) : s.SendsGood (t.raise c) := h.keep rfl rfl rfl

theorem beginWait (h : s.SendsGood t) (g : Stage) (w : Word) : s.SendsGood (t.beginWait g w) := h.keep rfl rfl rfl

theorem setStage (h : s.SendsGood t) (g : Stage) : s.SendsGood (t.setStage g) := h.keep rfl rfl rfl

theorem clearEvent (h : s.SendsGood t) : s.SendsGood t.clearEvent := h.keep rfl rfl rfl

theorem scrambleN (h : s.SendsGood t) : s.SendsGood t.scrambleN := h.keep rfl rfl rfl

/-! The stages the commands share. -/

theorem ipSend (h : s.SendsGood t) (plen : Nat) (p : Byte) : s.SendsGood (t.ipSend plen p) :=
  h.send (State.ipSend_emits t plen p) (t.ipSend_goodFrame plen p h.ttl)

theorem arpStart (h : s.SendsGood t) (ip w : Word) : s.SendsGood ((t.clearEvent.arpRequest ip).beginWait .arpWait w) :=
  (h.clearEvent.send (State.arpRequest_emits _ ip) (State.arpRequest_goodFrame _ ip)).beginWait _ _

theorem waitTurn (h : s.SendsGood t) : s.SendsGood t.waitTurn := by
  rw [State.waitTurn]
  split
  · exact h
  · exact (h.keep (u := t.decCnt) rfl rfl rfl).macReceive

/-- Of the three ways a frame is handled only an answer sends. -/
theorem handled (h : s.SendsGood t) (hu : t.Handled u) : s.SendsGood u := by
  cases hu with
  | dropped e => exact h.onlyFrame e
  | arpAnswered => exact h.send (State.arpAnswer_emits t) t.arpAnswer_goodFrame
  | answered e plen p => exact (h.silent e).ipSend plen p
  | announced e => exact (h.onlyFrame e).keep rfl rfl rfl

theorem classify (h : s.SendsGood t) (n : Nat) : s.SendsGood (t.classify n) := h.handled (t.classify_handled n)

theorem udpSendBody (h : s.SendsGood t) (src len : Nat) : s.SendsGood (t.udpSendBody src len) :=
  (h.onlyFrame ((((State.stagePayload_onlyFrame t 42 src len).trans (State.swapPorts_onlyFrame _)).writeB 38 _).writeB
    40 _)).ipSend _ _

theorem tcpSendBody (h : s.SendsGood t) (hlen src len : Nat) : s.SendsGood (t.tcpSendBody hlen src len) :=
  ((h.onlyFrame (((State.stagePayload_onlyFrame t _ src len).writeB 16 _).trans (State.tcpAdvance_onlyFrame _ _))).silent
    (State.pseudoStore_emits _ 50 14)).ipSend _ _

theorem pingRequest (h : s.SendsGood t) (ip : Word) (mac : HwAddr) : s.SendsGood (t.pingRequest ip mac) :=
  (((h.keep (u := t.nextPing) rfl rfl rfl).onlyFrame
    ((State.stagePeer_onlyFrame _ ip mac).trans (State.echoFields_onlyFrame _))).silent
      (State.csumStore_emits _ 36 34 8)).ipSend 8 proto.ipprotoIcmp

theorem dnsQuery (h : s.SendsGood t) (ip : Word) (mac : HwAddr) : s.SendsGood (t.dnsQuery ip mac) :=
  ((h.keep (u := t.nextDnsId) rfl rfl rfl).onlyFrame
    (((State.stagePeer_onlyFrame _ ip mac).trans (State.dnsHeader_onlyFrame _)).trans
      (State.dnsQuestion_onlyFrame _ (dnsEncode t.dottedName)))).udpSendBody 42 t.dnsMessageLen

end State.SendsGood

/-! ### One lemma per command -/

section
variable {s t : State} (hs : s.SendsGood s)
include hs

theorem execCsum_sendsGood (h : execCsum s = .next t) : s.SendsGood t := by
  obtain rfl := Host.Outcome.next.inj h
  split
  · exact (hs.silent (State.setAcc_emits _ _)).finish _ _
  · exact hs.raise _

theorem execCsumPseudo_sendsGood (h : execCsumPseudo s = .next t) : s.SendsGood t := by
  obtain rfl := Host.Outcome.next.inj h
  split
  · split
    · exact hs.raise _
    · split
      · exact (hs.silent (State.setAcc_emits _ _)).finish _ _
      · exact hs.raise _
  · exact hs.raise _

theorem execRxDispatch_sendsGood (h : execRxDispatch s = .next t) : s.SendsGood t := by
  obtain rfl := Host.Outcome.next.inj h
  split
  · split
    · exact (hs.clearEvent.classify _).finish _ _
    · exact hs.raise _
  · exact hs.raise _

theorem State.pollTurn_sendsGood (k : Word) : s.SendsGood (s.pollTurn k) := by
  simp only [State.pollTurn]
  split
  · exact hs.macReceive.finish _ _
  · split
    · exact (hs.macReceive.classify _).finish _ _
    · exact (hs.macReceive.classify _).setStage _

theorem execPoll_sendsGood (h : execPoll s = .next t) : s.SendsGood t := by
  obtain rfl := Host.Outcome.next.inj h
  split
  · exact State.pollTurn_sendsGood hs _
  · rw [State.pollStart]
    split
    · exact hs.clearEvent.setStage _
    · exact hs.raise _

theorem execArpResolve_sendsGood (h : execArpResolve s = .next t) : s.SendsGood t := by
  obtain rfl := Host.Outcome.next.inj h
  split
  · rw [State.arpResolveTurn]
    split
    · exact hs.finish _ _
    · exact hs.waitTurn.finish _ _
    · exact hs.waitTurn
  · rw [State.arpResolveStart]
    split
    · exact hs.arpStart _ _
    · exact hs.raise _

theorem execIpSend_sendsGood (h : execIpSend s = .next t) : s.SendsGood t := by
  obtain rfl := Host.Outcome.next.inj h
  split
  · split
    · split
      · exact (hs.ipSend _ _).finish _ _
      · exact hs.raise _
    · exact hs.raise _
  · exact hs.raise _

theorem execPing_sendsGood (h : execPing s = .next t) : s.SendsGood t := by
  obtain rfl := Host.Outcome.next.inj h
  split
  · rw [State.pingArpTurn]
    split
    · exact hs.finish _ _
    · exact (hs.waitTurn.pingRequest _ _).beginWait _ _
    · exact hs.waitTurn
  · rw [State.pingEchoTurn]
    split
    · exact hs.finish _ _
    · exact hs.waitTurn.finish _ _
    · exact hs.waitTurn
  · rw [State.pingStart]
    split
    · exact hs.arpStart _ _
    · exact hs.raise _

theorem execUdpSend_sendsGood (h : execUdpSend s = .next t) : s.SendsGood t := by
  obtain rfl := Host.Outcome.next.inj h
  split
  · split
    · split
      · exact (hs.udpSendBody _ _).finish _ _
      · exact hs.raise _
    · exact hs.raise _
  · exact hs.raise _

theorem execTcpSend_sendsGood (h : execTcpSend s = .next t) : s.SendsGood t := by
  obtain rfl := Host.Outcome.next.inj h
  split
  · split
    · split
      · exact hs.raise _
      · split
        · exact (hs.tcpSendBody _ _ _).finish _ _
        · exact hs.raise _
    · exact hs.raise _
  · exact hs.raise _

theorem execDnsResolve_sendsGood (h : execDnsResolve s = .next t) : s.SendsGood t := by
  obtain rfl := Host.Outcome.next.inj h
  split
  · rw [State.dnsArpTurn]
    split
    · exact hs.scrambleN.finish _ _
    · exact (hs.waitTurn.dnsQuery _ _).beginWait _ _
    · exact hs.waitTurn
  · rw [State.dnsReplyTurn]
    split
    · exact hs.scrambleN.finish _ _
    · exact hs.waitTurn.scrambleN.finish _ _
    · exact hs.waitTurn
  · rw [State.dnsStart]
    split
    · split
      · exact hs.arpStart _ _
      · exact hs.scrambleN.raise _
    · exact hs.raise _

/-- One engine step of any command. -/
theorem exec_sendsGood {i : Instr} (h : exec i s = .next t) : s.SendsGood t := by
  cases i with
  | csum => exact execCsum_sendsGood hs h
  | csumPseudo => exact execCsumPseudo_sendsGood hs h
  | rxDispatch => exact execRxDispatch_sendsGood hs h
  | poll => exact execPoll_sendsGood hs h
  | arpResolve => exact execArpResolve_sendsGood hs h
  | ipSend => exact execIpSend_sendsGood hs h
  | ping => exact execPing_sendsGood hs h
  | udpSend => exact execUdpSend_sendsGood hs h
  | tcpSend => exact execTcpSend_sendsGood hs h
  | dnsResolve => exact execDnsResolve_sendsGood hs h

end

/-- Settles O21: frames are sent by the ARP stages and by `IpSend` only, each well formed as it is sent, and every other update
of a command leaves the record, LOCAL_MAC and the ttl alone. -/
theorem everyFrameSentIsWellFormed : Obligations.EveryFrameSentIsWellFormed := by
  unfold Obligations.EveryFrameSentIsWellFormed
  exact fun i s t hwf h => (exec_sendsGood (.refl hwf) h).sent

end Sys2Proof.Machine
end

section
/-! SUPPORT. POLL (41_frame_dispatch.md R175): its start, the turns of its loop and its runs; where the loop ends and that it need not
(R179). -/

namespace Sys2Proof.Machine

/-! ### One engine step of POLL -/

theorem exec_poll_start {s : State} (h : s.stage = .start) : exec .poll s = .next s.pollStart := by
  simp only [exec, execPoll, h]

theorem exec_poll_draining {s : State} {k : Word} (h : s.stage = .draining k) : exec .poll s = .next (s.pollTurn k) := by
  simp only [exec, execPoll, h]

theorem State.pollStart_ready {s : State} (h : s.initialised = true) :
    s.pollStart = s.clearEvent.setStage (.draining 0) := if_pos h

theorem State.pollStart_noinit {s : State} (h : s.initialised ≠ true) : s.pollStart = s.raise .noinit := if_neg h

/-- Nothing pending ends the loop. -/
theorem State.pollTurn_none {s : State} (k : Word) (h : s.nextFrame = []) : s.pollTurn k = s.macReceive.finish 0 k :=
  if_pos (by rw [h]; rfl)

section
variable {s : State} (k : Word) (hframe : s.nextFrame ≠ [])
include hframe

theorem State.pollTurn_frame : s.pollTurn k =
    if (s.macReceive.classify s.nextFrame.length).evtKind ≠ 0 then
      (s.macReceive.classify s.nextFrame.length).finish 1 (k + 1)
    else (s.macReceive.classify s.nextFrame.length).setStage (.draining (k + 1)) := by
  simp only [State.pollTurn, List.length_eq_zero_iff, if_neg hframe, State.evt_eq, decide_eq_true_iff]

/-- A frame that leaves an event ends the loop. -/
theorem State.pollTurn_event (h : (s.macReceive.classify s.nextFrame.length).evtKind ≠ 0) :
    s.pollTurn k = (s.macReceive.classify s.nextFrame.length).finish 1 (k + 1) := by
  rw [State.pollTurn_frame k hframe, if_pos h]

/-- A frame that leaves none does not. -/
theorem State.pollTurn_noEvent (h : (s.macReceive.classify s.nextFrame.length).evtKind = 0) :
    s.pollTurn k = (s.macReceive.classify s.nextFrame.length).setStage (.draining (k + 1)) := by
  rw [State.pollTurn_frame k hframe, if_neg (not_not_intro h)]

end

/-- Settles O38, by the start of POLL and the three ways a turn of its loop can go. -/
theorem pollDrainsFrames : Obligations.PollDrainsFrames := by
  unfold Obligations.PollDrainsFrames
  refine ⟨fun s hstage hready => ?_, fun s k hstage hnone => ?_, fun s k hstage hframe hevent => ?_,
    fun s k hstage hframe hevent => ?_⟩
  · rw [exec_poll_start hstage, State.pollStart_ready hready]; rfl
  · rw [exec_poll_draining hstage, State.pollTurn_none k hnone]
    refine ⟨_, rfl, ?_, fun x => ?_⟩
    · rw [← hnone]; rfl
    · rw [State.byteB_finish, State.byteB_macReceive, if_neg (by rw [hnone]; exact Nat.not_lt_zero x)]
  · rw [exec_poll_draining hstage, State.pollTurn_event k hframe hevent]; rfl
  · rw [exec_poll_draining hstage, State.pollTurn_noEvent k hframe hevent]; rfl

/-! ### Runs of one command -/

theorem runCommand_succ_ended {i : Instr} {s t : State} (k : Nat) (h : exec i s = .next t) (hidle : t.stage = .idle) :
    runCommand i (k + 1) s = .next t := by
  simp only [runCommand, h, State.not_busy_of_idle hidle, Bool.false_eq_true, if_false]

theorem runCommand_succ_goesOn {i : Instr} {s t : State} (k : Nat) (h : exec i s = .next t) (hbusy : t.stage ≠ .idle) :
    runCommand i (k + 1) s = runCommand i k t := by
  simp only [runCommand, h, State.busy_of_stage_ne hbusy, if_true]

/-! ### Where the MAC drains -/

/-- A turn of the loop ends POLL, or takes one answer that is not "nothing pending" and goes on. -/
theorem State.pollTurn_cases (s : State) (k : Word) :
    ((s.pollTurn k).stage = .idle ∧ (s.pollTurn k).done = true) ∨
      (s.nextFrame ≠ [] ∧ (s.pollTurn k).stage = .draining (k + 1) ∧ (s.pollTurn k).macIn = s.macIn.tail) := by
  by_cases hnone : s.nextFrame = []
  · rw [State.pollTurn_none k hnone]
    exact .inl ⟨rfl, rfl⟩
  · by_cases hevent : (s.macReceive.classify s.nextFrame.length).evtKind = 0
    · rw [State.pollTurn_noEvent k hnone hevent]
      refine .inr ⟨hnone, rfl, ?_⟩
      rw [State.setStage_macIn, (State.classify_handled _ _).rest, State.macReceive_macIn]
    · rw [State.pollTurn_event k hnone hevent]
      exact .inl ⟨rfl, rfl⟩

theorem State.nextFrame_cons {s : State} {f : List Byte} {fs : List (List Byte)} (h : s.macIn = f :: fs) :
    s.nextFrame = f.take s.cfg.bufSize := by
  rw [State.nextFrame, h, List.headD_cons]

/-- POLL's loop ends by the first "nothing pending" at the latest, which is `fs.length` answers away. -/
theorem poll_ends_of_draining {m : Nat} {s : State} {k : Word} {fs rest : List (List Byte)}
    (hstage : s.stage = .draining k) (hin : s.macIn = fs ++ [] :: rest) (hm : fs.length < m) :
    ∃ t, runCommand .poll m s = .next t ∧ t.stage = .idle ∧ t.done = true := by
  induction fs generalizing m s k with
  | nil =>
    obtain ⟨m, rfl⟩ := Nat.exists_eq_succ_of_ne_zero (Nat.ne_zero_of_lt hm)
    have hnone : s.nextFrame = [] := by rw [State.nextFrame_cons hin, List.take_nil]
    have hexec := (exec_poll_draining hstage).trans (congrArg _ (State.pollTurn_none k hnone))
    exact ⟨_, runCommand_succ_ended m hexec rfl, rfl, rfl⟩
  | cons f fs ih =>
    obtain ⟨m, rfl⟩ := Nat.exists_eq_succ_of_ne_zero (Nat.ne_zero_of_lt hm)
    have hexec := exec_poll_draining hstage
    rcases s.pollTurn_cases k with ⟨hidle, hdone⟩ | ⟨-, hnext, htail⟩
    · exact ⟨_, runCommand_succ_ended m hexec hidle, hidle, hdone⟩
    · rw [runCommand_succ_goesOn m hexec (by rw [hnext]; nofun)]
      exact ih hnext (by rw [htail, hin]; rfl) (Nat.lt_of_succ_lt_succ hm)

/-- One step more for the start, which ends POLL where the engine is not initialised. -/
theorem poll_ends_of_start {m : Nat} {s : State} {fs rest : List (List Byte)} (hstage : s.stage = .start)
    (hin : s.macIn = fs ++ [] :: rest) (hm : fs.length < m) :
    ∃ t, runCommand .poll (m + 1) s = .next t ∧ t.stage = .idle ∧ t.done = true := by
  have hexec := exec_poll_start hstage
  by_cases hready : s.initialised = true
  · rw [State.pollStart_ready hready] at hexec
    rw [runCommand_succ_goesOn m hexec (by nofun)]
    exact poll_ends_of_draining (k := 0) rfl hin hm
  · rw [State.pollStart_noinit hready] at hexec
    exact ⟨_, runCommand_succ_ended m hexec rfl, rfl, rfl⟩

/-- Settles O40, by induction on the answers before the first "nothing pending"; a run with steps to spare has ended before. -/
theorem pollEndsOnceNothingIsPending : Obligations.PollEndsOnceNothingIsPending := by
  unfold Obligations.PollEndsOnceNothingIsPending
  refine ⟨fun s fs rest hstage hin => poll_ends_of_start hstage hin (Nat.lt_succ_self _), fun s hstage hdrains => ?_⟩
  obtain ⟨fs, rest, hin⟩ := List.append_of_mem hdrains
  have hlen : fs.length < s.macIn.length := by simp [hin]
  exact poll_ends_of_start hstage hin hlen

/-! ### Where it does not -/

theorem receiveCount_received (h : List MacEvent) (max : Nat) (bytes : List Byte) :
    receiveCount (h ++ [.received max bytes]) = receiveCount h + 1 := by
  rw [receiveCount, List.filter_append, List.length_append]; rfl

/-- A frame no longer than the Ethernet header is dropped (R172). -/
theorem State.classify_short {s : State} {n : Nat} (h : n ≤ s.cfg.ethHlen) : s.classify n = s := if_pos h

/-- A turn that receives a short frame only records it. -/
theorem State.pollTurn_short {s : State} (k : Word) {f : List Byte} {fs : List (List Byte)} (hwf : s.cfg.wf)
    (hevent : s.evtKind = 0) (hin : s.macIn = f :: fs) (hf : 1 ≤ f.length ∧ f.length ≤ 14) :
    s.pollTurn k = s.macReceive.setStage (.draining (k + 1)) := by
  obtain ⟨hbuf, -, -, -, -, heth, -⟩ := hwf
  have hnext : s.nextFrame = f := by rw [State.nextFrame_cons hin, List.take_of_length_le (by omega)]
  have hdrop : s.macReceive.classify s.nextFrame.length = s.macReceive :=
    State.classify_short (by rw [hnext, State.macReceive_cfg, heth]; exact hf.2)
  have hframe : s.nextFrame ≠ [] := by rw [hnext]; exact List.ne_nil_of_length_pos hf.1
  rw [State.pollTurn_noEvent k hframe (by rw [hdrop]; exact hevent), hdrop]

/-- As long as short frames are answered, each step of the loop is one more receive. -/
theorem poll_goesOn_of_draining {m : Nat} {s : State} {k : Word} (hwf : s.cfg.wf) (hstage : s.stage = .draining k)
    (hevent : s.evtKind = 0) (hm : m ≤ s.macIn.length) (hshort : ∀ f ∈ s.macIn, 1 ≤ f.length ∧ f.length ≤ 14) :
    ∃ t, runCommand .poll m s = .next t ∧ t.stage ≠ .idle ∧ receiveCount t.history = receiveCount s.history + m := by
  induction m generalizing s k with
  | zero => exact ⟨s, rfl, by rw [hstage]; nofun, rfl⟩
  | succ m ih =>
    obtain ⟨f, fs, hin⟩ := List.exists_cons_of_length_pos (Nat.lt_of_lt_of_le m.succ_pos hm)
    have hrest : s.macReceive.macIn = fs := by rw [State.macReceive_macIn, hin]; rfl
    rw [hin] at hm hshort
    have hexec := exec_poll_draining hstage
    rw [State.pollTurn_short k hwf hevent hin (hshort f List.mem_cons_self)] at hexec
    obtain ⟨t, hrun, hbusy, hcount⟩ := ih (s := s.macReceive.setStage (.draining (k + 1))) hwf rfl hevent
      (by rw [State.setStage_macIn, hrest]; exact Nat.le_of_succ_le_succ hm)
      (by rw [State.setStage_macIn, hrest]; exact fun g hg => hshort g (List.mem_cons_of_mem _ hg))
    refine ⟨t, by rw [runCommand_succ_goesOn m hexec (by nofun), hrun], hbusy, ?_⟩
    rw [hcount, State.setStage_history, State.macReceive_history, receiveCount_received]
    omega

/-- Settles O41, by induction on the number of turns: the start clears the event, and a short frame leaves it clear. -/
theorem pollMayRunForever : Obligations.PollMayRunForever := by
  unfold Obligations.PollMayRunForever
  intro k s hwf hstage hready hk hshort
  have hexec := exec_poll_start hstage
  rw [State.pollStart_ready hready] at hexec
  rw [runCommand_succ_goesOn k hexec (by nofun)]
  exact poll_goesOn_of_draining (k := 0) (s := s.clearEvent.setStage (.draining 0)) hwf rfl rfl hk hshort

end Sys2Proof.Machine
end

section
/-! SUPPORT. ARP (42_arp.md): the answer to a request and the request itself, field by field (R201, R203), the turns of ARP_RESOLVE's
wait (R204, R205), and the bounded wait run to its end. -/

namespace Sys2Proof.Machine

/-! ### LOCAL_MAC in a frame (10_state.md R39) -/

/-- A field that holds LOCAL_MAC holds MAC_HI, then MAC_LO. -/
theorem State.rd48_eq_localMac {s t : State} {a : Nat} (h : t.rd48 a = s.localMac) :
    t.rd16 a = s.macHi ∧ t.rd32 (a + 2) = s.macLo := by
  obtain ⟨hhigh, hlow⟩ := hwAddr_append_parts (t.rd16 a) (t.rd32 (a + 2))
  obtain ⟨hmacHi, hmacLo⟩ := hwAddr_append_parts s.macHi s.macLo
  rw [State.rd48, State.localMac] at h
  rw [h] at hhigh hlow
  exact ⟨hhigh.symm.trans hmacHi, hlow.symm.trans hmacLo⟩

/-! ### The answer (R201) -/

/-- Sending the answer changes the buffer and the record only. -/
theorem State.arpAnswer_rest (s : State) : s.arpAnswer = { s with
    frame := s.arpAnswer.frame, history := s.history ++ [.sent (s.arpAnswer.readB 0 42)] } := by
  have h := s.arpAnswer_emits
  rw [State.Emits, s.arpAnswer_acc] at h
  exact h

/-- The addresses of the answer are those of the exchange. -/
theorem State.arpAnswer_byteB_ge (s : State) {x : Nat} (h : 22 ≤ x) : s.arpAnswer.byteB x = s.arpSwap.byteB x := by
  rw [State.arpAnswer, State.ethReply_byteB_ge _ _ _ (by omega), State.wr16_eq, State.byteB_writeB_outside _ (by simp; omega)]

theorem State.arpAnswer_addresses (s : State) :
    s.arpAnswer.rd48 22 = s.rd48 32 ∧ s.arpAnswer.rd32 28 = s.rd32 38 ∧ s.arpAnswer.rd48 32 = s.rd48 22 ∧
      s.arpAnswer.rd32 38 = s.rd32 28 := by
  have hbyte {x : Nat} (h : 22 ≤ x) := s.arpAnswer_byteB_ge h
  obtain ⟨hsha, hspa, htha, htpa⟩ := s.arpSwap_fields
  exact ⟨(State.rd48_of_byteB fun x _ _ => hbyte (by omega)).trans hsha,
    (State.rd32_of_byteB fun x _ _ => hbyte (by omega)).trans hspa,
    (State.rd48_of_byteB fun x _ _ => hbyte (by omega)).trans htha,
    (State.rd32_of_byteB fun x _ _ => hbyte (by omega)).trans htpa⟩

theorem State.arpAnswer_opcode (s : State) : s.arpAnswer.rd16 20 = 2 := by
  rw [State.arpAnswer, State.rd16_of_byteB fun x _ _ => State.ethReply_byteB_ge _ _ _ (by omega), State.wr16_eq,
    State.rd16_writeB_be16]
  rfl

theorem State.arpAnswer_ethernet (s : State) :
    s.arpAnswer.rd48 0 = s.rd48 6 ∧ s.arpAnswer.rd48 6 = s.localMac ∧ s.arpAnswer.rd16 12 = 0x0806 := by
  obtain ⟨hdst, hsrc, htype⟩ := State.ethReply_fields (s.arpSwap.wr16 20 proto.arpOpReply) 42 proto.etypeArp
  refine ⟨hdst.trans (State.rd48_of_byteB fun x _ _ => ?_), hsrc.trans ?_, htype⟩
  · rw [State.wr16_eq, State.byteB_writeB_outside _ (by omega), State.arpSwap_byteB_outside _ (by omega)]
  · rw [State.wr16_eq, (s.arpSwap_onlyFrame.writeB _ _).localMac]

/-! ### RX_DISPATCH of a request (41_frame_dispatch.md R172 to R174) -/

theorem State.arpAdmit_iff (s : State) : s.arpAdmit = true ↔
    s.rd16 20 = 1 ∧ s.rd32 38 = s.localIp ∧ s.rd16 14 = 1 ∧ s.rd16 16 = 0x0800 := by
  simp [State.arpAdmit, proto, and_assoc]

theorem State.classify_arpRequest {s : State} {n : Nat} (hlong : s.cfg.ethHlen < n) (htype : s.rd16 12 = 0x0806)
    (hadmit : s.arpAdmit = true) : s.classify n = s.arpAnswer := by
  rw [State.classify, if_neg (Nat.not_le.2 hlong), if_pos (show s.rd16 12 = proto.etypeArp from htype), if_pos hadmit]

/-- The end of a command leaves every read of `B` as it was. -/
theorem State.reads_finish (s : State) (r0 r1 : Word) :
    (∀ a, (s.finish r0 r1).rd8 a = s.rd8 a) ∧ (∀ a, (s.finish r0 r1).rd16 a = s.rd16 a) ∧
    (∀ a, (s.finish r0 r1).rd32 a = s.rd32 a) ∧ (∀ a, (s.finish r0 r1).rd48 a = s.rd48 a) ∧
    (∀ a n, (s.finish r0 r1).readB a n = s.readB a n) :=
  State.reads_congr (s.finish_frame r0 r1) (s.finish_frameGen r0 r1)

/-- RX_DISPATCH where its checks pass. -/
theorem exec_rxDispatch_ready {s : State} (hready : s.initialised = true) (hin : s.arg0.toNat ≤ s.cfg.bufSize) :
    exec .rxDispatch s = .next (s.rxFrame.finish (if s.rxFrame.evt then 1 else 0) 0) := by
  change execRxDispatch s = _
  rw [execRxDispatch, if_pos hready, if_pos ((s.inRange_iff _ _).2 hin)]

/-- Settles O33: the request is admitted, and the answer swaps sender and target and leaves the event clear. -/
theorem arpRequestIsAnswered : Obligations.ArpRequestIsAnswered := by
  unfold Obligations.ArpRequestIsAnswered
  rintro s n ⟨-, -, -, -, -, heth, -⟩ hready rfl hlong hin htype hop htarget hhtype hptype
  have hadmit : s.clearEvent.arpAdmit = true := s.clearEvent.arpAdmit_iff.2 ⟨hop, htarget, hhtype, hptype⟩
  have hframe : s.rxFrame = s.clearEvent.arpAnswer :=
    State.classify_arpRequest (by rw [State.clearEvent_cfg, heth]; exact hlong) htype hadmit
  have hevt : s.clearEvent.arpAnswer.evt = false := by rw [s.clearEvent.arpAnswer_rest]; rfl
  have hexec := exec_rxDispatch_ready hready hin
  rw [hframe, hevt, if_neg Bool.false_ne_true] at hexec
  obtain ⟨hsha, hspa, htha, htpa⟩ := s.clearEvent.arpAnswer_addresses
  obtain ⟨hdst, hsrc, hetype⟩ := s.clearEvent.arpAnswer_ethernet
  obtain ⟨hmacHi, hmacLo⟩ := State.rd48_eq_localMac hsrc
  obtain ⟨-, h16, h32, h48, hrange⟩ := s.clearEvent.arpAnswer.reads_finish 0 0
  refine ⟨_, hexec, ?_, ?_⟩
  · rw [hrange]
    exact congrArg (State.finish · 0 0) s.clearEvent.arpAnswer_rest
  · simp only [h16, h32, h48]
    exact ⟨hsha, hspa, htha, htpa, State.arpAnswer_opcode _, hdst, hsrc, hmacHi, hmacLo, hetype,
      fun x hx => (State.byteB_finish _ _ _ _).trans (State.arpAnswer_byteB_outside _ hx)⟩

/-! ### The request (R203) -/

/-- Sending the request changes the buffer and the record only. -/
theorem State.arpRequest_rest (s : State) (ip : Word) : s.arpRequest ip = { s with
    frame := (s.arpRequest ip).frame, history := s.history ++ [.sent ((s.arpRequest ip).readB 0 42)] } := by
  have h := s.arpRequest_emits ip
  rw [State.Emits, s.arpRequest_acc] at h
  exact h

theorem State.arpRequest_ethernet (s : State) (ip : Word) : (s.arpRequest ip).rd48 0 = 0xFFFFFFFFFFFF ∧
    (s.arpRequest ip).rd48 6 = s.localMac ∧ (s.arpRequest ip).rd16 12 = 0x0806 := by
  obtain ⟨hdst, hsrc, htype⟩ := State.ethDirect_fields (s.arpFields ip) 42 proto.etypeArp proto.bcastMac
  exact ⟨hdst, hsrc.trans (s.arpFields_onlyFrame ip).localMac, htype⟩

theorem State.arpRequest_message (s : State) (ip : Word) :
    (s.arpRequest ip).rd16 14 = 1 ∧ (s.arpRequest ip).rd16 16 = 0x0800 ∧ (s.arpRequest ip).rd8 18 = 6 ∧
    (s.arpRequest ip).rd8 19 = 4 ∧ (s.arpRequest ip).rd16 20 = 1 ∧ (s.arpRequest ip).rd48 22 = s.localMac ∧
    (s.arpRequest ip).rd32 28 = s.localIp ∧ (s.arpRequest ip).rd48 32 = 0 ∧ (s.arpRequest ip).rd32 38 = ip := by
  have hbyte {x : Nat} (h : 14 ≤ x) : (s.arpRequest ip).byteB x = (s.arpFields ip).byteB x :=
    State.ethDirect_byteB_ge _ _ _ _ h
  have h8 {a : Nat} (h : 14 ≤ a) : (s.arpRequest ip).rd8 a = (s.arpFields ip).rd8 a := hbyte h
  have h16 {a : Nat} (h : 14 ≤ a) : (s.arpRequest ip).rd16 a = (s.arpFields ip).rd16 a :=
    State.rd16_of_byteB fun x _ _ => hbyte (by omega)
  have h32 {a : Nat} (h : 14 ≤ a) : (s.arpRequest ip).rd32 a = (s.arpFields ip).rd32 a :=
    State.rd32_of_byteB fun x _ _ => hbyte (by omega)
  have h48 {a : Nat} (h : 14 ≤ a) : (s.arpRequest ip).rd48 a = (s.arpFields ip).rd48 a :=
    State.rd48_of_byteB fun x _ _ => hbyte (by omega)
  simp only [h8, h16, h32, h48, Nat.reduceLeDiff]
  exact s.arpFields_fields ip

/-! ### The start of the commands that ask by ARP -/

/-- The state in which ARP_RESOLVE, PING and DNS_RESOLVE begin their ARP wait (R204, 43_ipv4_icmp.md R238, 45_dns.md R315). -/
def State.arpAsked (s : State) : State := (s.clearEvent.arpRequest s.opIp).beginWait .arpWait s.opBudget

theorem State.arpAsked_stage (s : State) : s.arpAsked.stage = .arpWait := rfl

theorem State.arpAsked_cnt (s : State) : s.arpAsked.cnt = s.opBudget := rfl

/-- The wait begins with the bytes of the request in `B`. -/
theorem State.arpAsked_byteB (s : State) (x : Nat) : s.arpAsked.byteB x = (s.clearEvent.arpRequest s.opIp).byteB x :=
  State.byteB_beginWait _ _ _ x

theorem State.arpAsked_reads (s : State) :
    (∀ a, s.arpAsked.rd8 a = (s.clearEvent.arpRequest s.opIp).rd8 a) ∧
    (∀ a, s.arpAsked.rd16 a = (s.clearEvent.arpRequest s.opIp).rd16 a) ∧
    (∀ a, s.arpAsked.rd32 a = (s.clearEvent.arpRequest s.opIp).rd32 a) ∧
    (∀ a, s.arpAsked.rd48 a = (s.clearEvent.arpRequest s.opIp).rd48 a) ∧
    (∀ a n, s.arpAsked.readB a n = (s.clearEvent.arpRequest s.opIp).readB a n) :=
  State.reads_congr (State.beginWait_frame _ _ _) (State.beginWait_frameGen _ _ _)

theorem State.arpAsked_opIp (s : State) : s.arpAsked.opIp = s.opIp := by
  rw [State.opIp, State.arpAsked, State.beginWait_arg0, (s.clearEvent.arpRequest_emits s.opIp).arg0_eq, State.clearEvent_arg0,
    State.opIp]

/-- Some byte of `N` is 0x00 (45_dns.md R313). -/
theorem State.nameEnds_iff (s : State) : s.nameEnds = true ↔ ∃ k, k < s.cfg.nameSize ∧ s.byteN k = 0 := by
  simp [State.nameEnds, State.nameBytes]

theorem exec_arpResolve_start {s : State} (hstage : s.stage = .start) (hready : s.initialised = true) :
    exec .arpResolve s = .next s.arpAsked := by
  simp only [exec, execArpResolve, hstage, State.arpResolveStart, if_pos hready, State.arpAsked]

theorem exec_ping_start {s : State} (hstage : s.stage = .start) (hready : s.initialised = true) :
    exec .ping s = .next s.arpAsked := by
  simp only [exec, execPing, hstage, State.pingStart, if_pos hready, State.arpAsked]

theorem exec_dnsResolve_start {s : State} (hstage : s.stage = .start) (hready : s.initialised = true)
    (hname : s.nameEnds = true) : exec .dnsResolve s = .next s.arpAsked := by
  simp only [exec, execDnsResolve, hstage, State.dnsStart, if_pos hready, if_pos hname, State.arpAsked]

theorem exec_arpAsked {i : Instr} {s : State} (hi : i ∈ [Instr.arpResolve, .ping, .dnsResolve]) (hstage : s.stage = .start)
    (hready : s.initialised = true) (hname : i = .dnsResolve → ∃ k, k < s.cfg.nameSize ∧ s.byteN k = 0) :
    exec i s = .next s.arpAsked := by
  simp only [List.mem_cons, List.not_mem_nil, or_false] at hi
  rcases hi with rfl | rfl | rfl
  · exact exec_arpResolve_start hstage hready
  · exact exec_ping_start hstage hready
  · exact exec_dnsResolve_start hstage hready (s.nameEnds_iff.2 (hname rfl))

/-- Settles O44: the three commands reach the same state, in which the request has been sent. -/
theorem arpRequestIsSent : Obligations.ArpRequestIsSent := by
  unfold Obligations.ArpRequestIsSent
  intro i s hi hstage hready hname
  obtain ⟨hdst, hsrc, htype⟩ := s.clearEvent.arpRequest_ethernet s.opIp
  obtain ⟨hmacHi, hmacLo⟩ := State.rd48_eq_localMac hsrc
  obtain ⟨hhtype, hptype, hhlen, hplen, hop, hsha, hspa, htha, htpa⟩ := s.clearEvent.arpRequest_message s.opIp
  obtain ⟨h8, h16, h32, h48, hrange⟩ := s.arpAsked_reads
  refine ⟨_, exec_arpAsked hi hstage hready hname, ?_, ?_⟩
  · rw [hrange]
    exact congrArg (State.beginWait · .arpWait s.opBudget) (s.clearEvent.arpRequest_rest s.opIp)
  · simp only [h8, h16, h32, h48]
    exact ⟨hdst, hsrc, hmacHi, hmacLo, htype, hhtype, hptype, hhlen, hplen, hop, hsha, hspa, htha, htpa,
      fun x hx => (s.arpAsked_byteB x).trans (State.arpRequest_byteB_ge _ _ hx)⟩

/-! ### One turn of ARP_RESOLVE's wait -/

theorem exec_arpResolve_wait {s : State} (hstage : s.stage = .arpWait) : exec .arpResolve s = .next s.arpResolveTurn := by
  simp only [exec, execArpResolve, hstage]

/-- The frame the next receive answers is looked at, and it matches (R205). -/
def State.receivesMatch (s : State) (isMatch : State → Bool) : Prop :=
  s.cfg.ethHlen < s.nextFrame.length ∧ isMatch s.decCnt.macReceive = true

/-- The end of ARP_RESOLVE with the address found in the frame (R204). -/
def State.arpFound (s : State) : State := s.finish (foundWord (s.rd48 22)) ((s.rd48 22).extractLsb' 0 32)

theorem State.arpResolveTurn_failed {s : State} (hcnt : s.cnt = 0) : s.arpResolveTurn = s.finish 0 0 := by
  simp only [State.arpResolveTurn, (s.waitEnd_failed _).2 hcnt]

theorem State.arpResolveTurn_matched {s : State} (hcnt : s.cnt ≠ 0) (hmatch : s.receivesMatch (·.arpMatch s.opIp)) :
    s.arpResolveTurn = s.decCnt.macReceive.arpFound := by
  have hend := (s.waitEnd_matched (·.arpMatch s.opIp)).2 ⟨hcnt, hmatch⟩
  simp only [State.arpResolveTurn, hend, s.waitTurn_pos hcnt, State.arpFound]

theorem State.arpResolveTurn_again {s : State} (hcnt : s.cnt ≠ 0) (hmatch : ¬ s.receivesMatch (·.arpMatch s.opIp)) :
    s.arpResolveTurn = s.decCnt.macReceive := by
  have hend := s.waitEnd_again (·.arpMatch s.opIp) hcnt hmatch
  simp only [State.arpResolveTurn, hend, s.waitTurn_pos hcnt]

/-- Settles O45, by the three ways a turn of the wait can end. -/
theorem arpResolveWaitTurn : Obligations.ArpResolveWaitTurn := by
  unfold Obligations.ArpResolveWaitTurn
  rintro s r ⟨-, -, -, -, -, heth, -⟩ hstage rfl
  have hmatch : s.receivesMatch (·.arpMatch s.opIp) ↔ 14 < s.nextFrame.length ∧
      s.decCnt.macReceive.rd16 12 = 0x0806 ∧ s.decCnt.macReceive.rd16 20 = 2 ∧ s.decCnt.macReceive.rd32 28 = s.arg0 := by
    rw [State.receivesMatch, heth, State.arpMatch_iff]; rfl
  rw [exec_arpResolve_wait hstage]
  refine ⟨fun hcnt => ?_, fun hcnt hlong htype hop hsender => ?_, fun hcnt hnone => ?_⟩
  · rw [State.arpResolveTurn_failed hcnt]; rfl
  · obtain ⟨hhigh, hlow⟩ := hwAddr_append_parts (s.decCnt.macReceive.rd16 22) (s.decCnt.macReceive.rd32 24)
    rw [State.arpResolveTurn_matched hcnt (hmatch.2 ⟨hlong, htype, hop, hsender⟩), State.arpFound, foundWord, State.rd48,
      hhigh, hlow]
    rfl
  · rw [State.arpResolveTurn_again hcnt (hmatch.not.2 hnone)]; rfl

/-! ### The bounded wait run to its end (R205) -/

theorem State.boundedWait_matched {s : State} {isMatch : State → Bool} (n : Nat) (h : s.receivesMatch isMatch) :
    s.boundedWait isMatch (n + 1) = (true, s.decCnt.macReceive) :=
  if_pos (Bool.and_eq_true_iff.2 ⟨decide_eq_true h.1, h.2⟩)

theorem State.boundedWait_again {s : State} {isMatch : State → Bool} (n : Nat) (h : ¬ s.receivesMatch isMatch) :
    s.boundedWait isMatch (n + 1) = s.decCnt.macReceive.boundedWait isMatch n :=
  if_neg fun hmatch => h ((Bool.and_eq_true_iff.1 hmatch).imp_left of_decide_eq_true)

/-- How a command goes on after `BoundedWait`: by `hit` where it returned OK, by `miss` otherwise. -/
def afterWait (hit miss : State → State) : Bool × State → State
  | (true, t) => hit t
  | (false, t) => miss t

/-- In the states of `P` the engine steps of command `i` are the turns of `BoundedWait` for `isMatch`, and the wait is left by
`hit` or by `miss`. -/
structure WaitsBy (i : Instr) (P : State → Prop) (isMatch : State → Bool) (hit miss : State → State) : Prop where
  busy : ∀ {s}, P s → s.stage ≠ .idle
  received : ∀ {s}, P s → P s.decCnt.macReceive
  failed : ∀ {s}, P s → s.cnt = 0 → exec i s = .next (miss s)
  matched : ∀ {s}, P s → s.cnt ≠ 0 → s.receivesMatch isMatch → exec i s = .next (hit s.decCnt.macReceive)
  again : ∀ {s}, P s → s.cnt ≠ 0 → ¬ s.receivesMatch isMatch → exec i s = .next s.decCnt.macReceive

/-- A run of at least CNT + 1 steps comes to the last turn of the wait, with the steps to spare left over. -/
theorem WaitsBy.run {i : Instr} {P : State → Prop} {isMatch : State → Bool} {hit miss : State → State}
    (w : WaitsBy i P isMatch hit miss) {s : State} {n : Nat} (m : Nat) (hs : P s) (hn : s.cnt.toNat = n) :
    ∃ k u, m ≤ k ∧ runCommand i (n + m + 1) s = runCommand i (k + 1) u ∧
      exec i u = .next (afterWait hit miss (s.boundedWait isMatch n)) := by
  induction n generalizing s with
  | zero => exact ⟨0 + m, s, by omega, rfl, w.failed hs (BitVec.eq_of_toNat_eq hn)⟩
  | succ n ih =>
    have hcnt : s.cnt ≠ 0 := by rintro h; rw [h] at hn; cases hn
    by_cases hmatch : s.receivesMatch isMatch
    · exact ⟨n + 1 + m, s, by omega, rfl, by rw [State.boundedWait_matched n hmatch]; exact w.matched hs hcnt hmatch⟩
    · have hleft : s.decCnt.macReceive.cnt.toNat = n := by
        rw [State.macReceive_cnt, State.decCnt_cnt]; bv_omega
      rw [runCommand_succ_goesOn _ (w.again hs hcnt hmatch) (w.busy (w.received hs)), State.boundedWait_again n hmatch,
        Nat.add_right_comm]
      exact ih (w.received hs) hleft

/-! ### ARP_RESOLVE as one piece (R204) -/

/-- The wait of ARP_RESOLVE for the address `ip`. -/
theorem arpResolve_waitsBy (ip : Word) : WaitsBy .arpResolve (fun s => s.stage = .arpWait ∧ s.opIp = ip) (·.arpMatch ip)
    State.arpFound (State.finish · 0 0) where
  busy := by rintro s ⟨hstage, -⟩; rw [hstage]; nofun
  received h := h
  failed := by rintro s ⟨hstage, rfl⟩ hcnt; rw [exec_arpResolve_wait hstage, State.arpResolveTurn_failed hcnt]
  matched := by rintro s ⟨hstage, rfl⟩ hcnt h; rw [exec_arpResolve_wait hstage, State.arpResolveTurn_matched hcnt h]
  again := by rintro s ⟨hstage, rfl⟩ hcnt h; rw [exec_arpResolve_wait hstage, State.arpResolveTurn_again hcnt h]

theorem State.wholeArpResolve_ready {s : State} (hready : s.initialised = true) : s.wholeArpResolve =
    afterWait State.arpFound (State.finish · 0 0) (s.arpAsked.boundedWait (·.arpMatch s.opIp) s.opBudget.toNat) := by
  rw [State.wholeArpResolve, if_pos hready, State.waitFor, ← State.arpAsked]
  rcases s.arpAsked.boundedWait (·.arpMatch s.opIp) s.opBudget.toNat with ⟨_ | _, t⟩ <;> rfl

theorem State.wholeArpResolve_noinit {s : State} (h : s.initialised ≠ true) : s.wholeArpResolve = s.raise .noinit := if_neg h

theorem afterWait_idle {hit miss : State → State} (hhit : ∀ t, (hit t).stage = .idle) (hmiss : ∀ t, (miss t).stage = .idle)
    (r : Bool × State) : (afterWait hit miss r).stage = .idle := by
  rcases r with ⟨_ | _, t⟩
  · exact hmiss t
  · exact hhit t

/-- Settles O46: the start is one step, and the wait that follows runs to its end, which is the end of the command. -/
theorem arpResolveMeetsItsPseudocode : Obligations.ArpResolveMeetsItsPseudocode := by
  unfold Obligations.ArpResolveMeetsItsPseudocode
  intro s k hstage hk
  obtain ⟨m, rfl⟩ : ∃ m, k = s.opBudget.toNat + m + 1 + 1 := ⟨k - (s.arg1.toNat + 2), by simp only [State.opBudget]; omega⟩
  by_cases hready : s.initialised = true
  · have hbusy : s.arpAsked.stage ≠ .idle := by rw [s.arpAsked_stage]; nofun
    obtain ⟨k, u, -, hrun, hexec⟩ :=
      (arpResolve_waitsBy s.opIp).run m ⟨s.arpAsked_stage, s.arpAsked_opIp⟩ (congrArg BitVec.toNat s.arpAsked_cnt)
    rw [runCommand_succ_goesOn _ (exec_arpResolve_start hstage hready) hbusy, State.wholeArpResolve_ready hready, hrun]
    exact runCommand_succ_ended k hexec (afterWait_idle (fun _ => rfl) (fun _ => rfl) _)
  · rw [State.wholeArpResolve_noinit hready]
    exact runCommand_succ_ended _ (exec_noinit nofun nofun hstage (Bool.eq_false_iff.2 hready)) rfl

end Sys2Proof.Machine
end

section
/-! SUPPORT. IPv4 and ICMP (43_ipv4_icmp.md): the packets the validator accepts and what becomes of them (R230, R235,
R236), and IP_SEND (R232). -/

namespace Sys2Proof.Machine

/-! ### The validator (R230) -/

/-- The IPv4 packet of total length `total` in `B` passes the checks of `CLASSIFY` and `IP_READ` up to the terminator. -/
structure State.ValidPacket (s : State) (total : Nat) : Prop where
  etype : s.rd16 12 = 0x0800
  version : s.rd8 14 = 0x45
  forUs : s.rd32 30 = s.localIp
  length : total = (s.rd16 16).toNat
  min : 20 ≤ total
  fits : 14 + total + 1 ≤ s.cfg.bufSize

/-- The state in which the transports see the packet: the terminator has been written behind it. -/
def State.terminated (s : State) (total : Nat) : State := s.wr8 (14 + total) 0

theorem State.terminated_onlyFrame (s : State) (total : Nat) : s.OnlyFrame (s.terminated total) := s.writeB_onlyFrame _ _

theorem State.terminated_byteB (s : State) (total x : Nat) :
    (s.terminated total).byteB x = if x = 14 + total then 0 else s.byteB x := s.byteB_wr8 _ _ x

/-- A packet that passes the checks is dispatched by its protocol number. -/
theorem State.ValidPacket.classify {s : State} {n total : Nat} (h : s.ValidPacket total) (hwf : s.cfg.wf) (hlong : 14 < n) :
    s.classify n = (s.terminated total).ipDeliver total := by
  obtain ⟨hetype, hversion, hforUs, rfl, hmin, hfits⟩ := h
  obtain ⟨-, -, -, -, -, heth, hip, -⟩ := hwf
  have hread : s.ipRead = (s.terminated (s.rd16 16).toNat).ipDeliver (s.rd16 16).toNat := by
    have hlen : ¬ (s.rd16 16).toNat < s.cfg.ipHlen := by omega
    have hin : s.inRange 14 ((s.rd16 16).toNat + 1) = true := (s.inRange_iff _ _).2 (by omega)
    exact (if_neg (not_not_intro hversion)).trans ((if_neg (not_not_intro hforUs)).trans ((if_neg hlen).trans (if_pos hin)))
  rw [State.classify, if_neg (by omega), if_neg (by rw [hetype]; decide), if_pos (by rw [hetype]; rfl), hread]

/-- The terminator stands behind the IPv4 header. -/
theorem State.ValidPacket.terminated_protocol {s : State} {total : Nat} (h : s.ValidPacket total) :
    (s.terminated total).rd8 23 = s.rd8 23 := by
  have := h.min
  exact (s.terminated_byteB total 23).trans (if_neg (by omega))

theorem State.ValidPacket.clearEvent {s : State} {total : Nat} (h : s.ValidPacket total) : s.clearEvent.ValidPacket total :=
  ⟨h.etype, h.version, h.forUs, h.length, h.min, h.fits⟩

/-- RX_DISPATCH of a packet that passes the checks, where no event is set. -/
theorem State.ValidPacket.exec_rxDispatch {s u : State} {total : Nat} (h : s.ValidPacket total) (hwf : s.cfg.wf)
    (hready : s.initialised = true) (hlong : 14 < s.arg0.toNat) (hin : s.arg0.toNat ≤ s.cfg.bufSize)
    (hu : (s.clearEvent.terminated total).ipDeliver total = u) (hevent : u.evtKind = 0) :
    exec .rxDispatch s = .next (u.finish 0 0) := by
  have hframe : s.rxFrame = u := (h.clearEvent.classify hwf hlong).trans hu
  have hevt : u.evt = false := by rw [State.evt, hevent]; rfl
  rw [exec_rxDispatch_ready hready hin, hframe, hevt, if_neg Bool.false_ne_true]

/-! ### Packets dropped by their transport -/

/-- No transport takes the packet of total length `total`: its protocol is unknown (R230), it is no echo request (R235), or its
TCP or UDP header does not fit (44_udp_tcp.md R271, R277). -/
def State.dropsPacket (s : State) (total : Nat) : Prop :=
  (s.rd8 23 ≠ 1 ∧ s.rd8 23 ≠ 6 ∧ s.rd8 23 ≠ 17) ∨
  (s.rd8 23 = 1 ∧ (total < 28 ∨ s.rd8 34 ≠ 8)) ∨
  (s.rd8 23 = 6 ∧ (s.tcpHlen < 20 ∨ total < 20 + s.tcpHlen)) ∨
  (s.rd8 23 = 17 ∧ ((s.rd16 38).toNat < 8 ∨ s.cfg.bufSize < 34 + (s.rd16 38).toNat + 1))

section
variable {s : State} {total : Nat}

theorem State.ipDeliver_icmp (h : s.rd8 23 = 1) : s.ipDeliver total = s.icmpEcho total := if_pos h

theorem State.ipDeliver_tcp (h : s.rd8 23 = 6) : s.ipDeliver total = s.tcpRead total := by
  rw [State.ipDeliver, if_neg (by rw [h]; decide), if_pos (by rw [h]; rfl)]

theorem State.ipDeliver_udp (h : s.rd8 23 = 17) : s.ipDeliver total = s.udpRead := by
  rw [State.ipDeliver, if_neg (by rw [h]; decide), if_neg (by rw [h]; decide), if_pos (by rw [h]; rfl)]

theorem State.ipDeliver_unknown (hicmp : s.rd8 23 ≠ 1) (htcp : s.rd8 23 ≠ 6) (hudp : s.rd8 23 ≠ 17) :
    s.ipDeliver total = s := (if_neg hicmp).trans ((if_neg htcp).trans (if_neg hudp))

theorem State.icmpEcho_dropped (h : total < 28 ∨ s.rd8 34 ≠ 8) : s.icmpEcho total = s := by
  simp only [State.icmpEcho]
  by_cases hlen : total - 20 < 8
  · exact if_pos hlen
  · rw [if_neg hlen]
    exact if_pos (h.resolve_left (by omega))

theorem State.tcpRead_dropped (h : s.tcpHlen < 20 ∨ total < 20 + s.tcpHlen) : s.tcpRead total = s := by
  simp only [State.tcpRead]
  by_cases hhead : s.tcpHlen < 20
  · exact if_pos hhead
  · rw [if_neg hhead]
    exact if_pos (h.resolve_left hhead)

theorem State.udpRead_dropped (h : (s.rd16 38).toNat < 8 ∨ s.cfg.bufSize < 34 + (s.rd16 38).toNat + 1) : s.udpRead = s := by
  simp only [State.udpRead]
  by_cases hlen : (s.rd16 38).toNat < 8
  · exact if_pos hlen
  · have hout := h.resolve_left hlen
    rw [if_neg hlen]
    exact if_neg fun hin => absurd ((s.inRange_iff _ _).1 hin) (by omega)

theorem State.ipDeliver_dropped (h : s.dropsPacket total) : s.ipDeliver total = s := by
  rcases h with ⟨hicmp, htcp, hudp⟩ | ⟨hicmp, h⟩ | ⟨htcp, h⟩ | ⟨hudp, h⟩
  · exact State.ipDeliver_unknown hicmp htcp hudp
  · rw [State.ipDeliver_icmp hicmp, State.icmpEcho_dropped h]
  · rw [State.ipDeliver_tcp htcp, State.tcpRead_dropped h]
  · rw [State.ipDeliver_udp hudp, State.udpRead_dropped h]

end

/-- Settles O32: the packet passes the validator, which has written the terminator, and then no transport takes it. -/
theorem droppedPacketKeepsItsTerminator : Obligations.DroppedPacketKeepsItsTerminator := by
  unfold Obligations.DroppedPacketKeepsItsTerminator
  rintro s u n total hwf hlong hetype hversion hforUs hlength hmin hfits rfl hdrop
  have hvalid : s.ValidPacket total := ⟨hetype, hversion, hforUs, hlength, hmin, hfits⟩
  rw [← hvalid.terminated_protocol] at hdrop
  have hdeliver : (s.terminated total).ipDeliver total = s.terminated total := State.ipDeliver_dropped hdrop
  have hdeliver' : (s.clearEvent.terminated total).ipDeliver total = s.clearEvent.terminated total :=
    State.ipDeliver_dropped hdrop
  refine ⟨(hvalid.classify hwf hlong).trans hdeliver, fun hready hn hin => ?_⟩
  subst hn
  exact hvalid.exec_rxDispatch hwf hready hlong hin hdeliver' rfl

/-! ### The answer to an echo request (R235, R236) -/

/-- The answer's message as it is staged for the sender: the type, and the checksum of the whole message. -/
def State.echoStaged (s : State) (total : Nat) : State := (s.wr8 34 proto.icmpEchoReply).csumStore 36 34 (total - 20)

/-- The request sent back as its answer. -/
def State.echoAnswer (s : State) (total : Nat) : State := (s.echoStaged total).ipSend (total - 20) proto.ipprotoIcmp

theorem State.icmpEcho_answered {s : State} {total : Nat} (hmin : 28 ≤ total) (htype : s.rd8 34 = 8) :
    s.icmpEcho total = s.echoAnswer total :=
  (if_neg (show ¬ total - 20 < 8 by omega)).trans (if_neg (not_not_intro htype))

theorem State.echoStaged_emits (s : State) (total : Nat) : s.Emits (s.echoStaged total) [] :=
  (s.writeB_onlyFrame _ _).emits.trans (State.csumStore_emits _ _ _ _)

theorem State.echoStaged_byteB (s : State) (total : Nat) {x : Nat} (h : x < 34 ∨ x = 35 ∨ 38 ≤ x) :
    (s.echoStaged total).byteB x = s.byteB x := by
  rw [State.echoStaged, State.csumStore_byteB_outside _ _ _ _ (by omega), State.byteB_wr8, if_neg (by omega)]

theorem State.echoAnswer_emits (s : State) {total : Nat} (hmin : 28 ≤ total) :
    s.Emits (s.echoAnswer total) [.sent ((s.echoAnswer total).readB 0 (14 + total))] := by
  have h := (s.echoStaged_emits total).trans (State.ipSend_emits _ (total - 20) proto.ipprotoIcmp)
  rwa [show 34 + (total - 20) = 14 + total by omega] at h

/-- Of the message only the type and the checksum change. -/
theorem State.echoAnswer_byteB (s : State) (total : Nat) {x : Nat} (h : x = 35 ∨ 38 ≤ x) :
    (s.echoAnswer total).byteB x = s.byteB x := by
  rw [State.echoAnswer, State.ipSend_byteB_outside _ _ _ (by omega), s.echoStaged_byteB total (by omega)]

theorem State.echoAnswer_type (s : State) (total : Nat) : (s.echoAnswer total).rd8 34 = 0 := by
  rw [State.rd8, State.echoAnswer, State.ipSend_byteB_outside _ _ _ (by omega), State.echoStaged,
    State.csumStore_byteB_outside _ _ _ _ (by omega), State.byteB_wr8, if_pos rfl]
  rfl

/-- Both checksums of the answer verify (40_checksum.md R144). -/
theorem State.echoAnswer_checksums (s : State) {total : Nat} (hmin : 28 ≤ total) (hmax : total ≤ 65535) :
    (s.echoAnswer total).foldedSum 34 (total - 20) = 0xFFFF ∧ (s.echoAnswer total).foldedSum 14 20 = 0xFFFF := by
  refine ⟨?_, State.ipSend_foldedSum _ _ _⟩
  rw [State.echoAnswer, State.foldedSum_of_byteB fun x hx _ => State.ipSend_byteB_outside _ _ _ (by omega)]
  exact State.foldedSum_csumStore _ (by omega) (by omega) (by omega) (by omega)

/-- The end of a command that has changed `B` and ACC and called the MAC. -/
theorem State.Emits.finish {s t : State} {l : List MacEvent} (e : s.Emits t l) (r0 r1 : Word) : t.finish r0 r1 = { s with
    frame := (t.finish r0 r1).frame, acc := (t.finish r0 r1).acc, history := s.history ++ l
    result0 := r0, result1 := r1, stage := .idle, done := true } := by
  obtain ⟨f, a, rfl⟩ : ∃ f a, t = { s with frame := f, acc := a, history := s.history ++ l } := ⟨_, _, e⟩
  rfl

theorem State.foldedSum_finish (s : State) (r0 r1 : Word) (a n : Nat) : (s.finish r0 r1).foldedSum a n = s.foldedSum a n :=
  State.foldedSum_of_byteB fun x _ _ => s.byteB_finish r0 r1 x

/-- The header of the answer is that of the request with the addresses exchanged. -/
theorem State.echoAnswer_header {s : State} {total : Nat} (hlength : total = (s.rd16 16).toNat) (hmin : 28 ≤ total) :
    (s.echoAnswer total).rd8 14 = 0x45 ∧ (s.echoAnswer total).rd8 15 = 0 ∧ (s.echoAnswer total).rd16 16 = s.rd16 16 ∧
    (s.echoAnswer total).rd16 18 = s.rd16 18 ∧ (s.echoAnswer total).rd16 20 = 0 ∧
    (s.echoAnswer total).rd8 22 = s.cfg.ipTtl ∧ (s.echoAnswer total).rd8 23 = 1 ∧
    (s.echoAnswer total).rd32 26 = s.rd32 30 ∧ (s.echoAnswer total).rd32 30 = s.rd32 26 ∧
    (s.echoAnswer total).rd48 0 = s.rd48 6 ∧ (s.echoAnswer total).rd48 6 = s.localMac ∧
    (s.echoAnswer total).rd16 12 = 0x0800 := by
  have hstaged {x : Nat} (h : x < 34) : (s.echoStaged total).byteB x = s.byteB x := s.echoStaged_byteB total (.inl h)
  have hword : BitVec.ofNat 16 (20 + (total - 20)) = s.rd16 16 := by
    rw [show 20 + (total - 20) = (s.rd16 16).toNat by omega, BitVec.ofNat_toNat, BitVec.setWidth_eq]
  obtain ⟨hver, htos, hlen, hid, hfrag, httl, hproto, hsrc, hdst, hdstHw, hsrcHw, htype⟩ :=
    (s.echoStaged total).ipSend_fields (total - 20) proto.ipprotoIcmp
  rw [(s.echoStaged_emits total).cfg_eq] at httl
  rw [(s.echoStaged_emits total).localMac] at hsrcHw
  exact ⟨hver, htos, hlen.trans hword, hid.trans (State.rd16_of_byteB fun x _ _ => hstaged (by omega)), hfrag, httl, hproto,
    hsrc.trans (State.rd32_of_byteB fun x _ _ => hstaged (by omega)),
    hdst.trans (State.rd32_of_byteB fun x _ _ => hstaged (by omega)),
    hdstHw.trans (State.rd48_of_byteB fun x _ _ => hstaged (by omega)), hsrcHw, htype⟩

/-- The fields of the header lie before the terminator. -/
theorem State.terminated_header (s : State) {total : Nat} (h : 20 ≤ total) :
    (∀ a, a + 2 ≤ 34 → (s.terminated total).rd16 a = s.rd16 a) ∧
    (∀ a, a + 4 ≤ 34 → (s.terminated total).rd32 a = s.rd32 a) ∧
    (∀ a, a + 6 ≤ 34 → (s.terminated total).rd48 a = s.rd48 a) := by
  have hbyte {x : Nat} (hx : x < 34) : (s.terminated total).byteB x = s.byteB x := by
    rw [s.terminated_byteB, if_neg (by omega)]
  exact ⟨fun a _ => State.rd16_of_byteB fun x _ _ => hbyte (by omega),
    fun a _ => State.rd32_of_byteB fun x _ _ => hbyte (by omega),
    fun a _ => State.rd48_of_byteB fun x _ _ => hbyte (by omega)⟩

/-- RX_DISPATCH of an echo request sends it back as its answer and leaves the event clear. -/
theorem State.ValidPacket.exec_rxDispatch_echo {s : State} {total : Nat} (h : s.ValidPacket total) (hwf : s.cfg.wf)
    (hready : s.initialised = true) (hlong : 14 < s.arg0.toNat) (hin : s.arg0.toNat ≤ s.cfg.bufSize) (hmin : 28 ≤ total)
    (hproto : s.rd8 23 = 1) (htype : s.rd8 34 = 8) :
    exec .rxDispatch s = .next (((s.clearEvent.terminated total).echoAnswer total).finish 0 0) := by
  have htype' : (s.clearEvent.terminated total).rd8 34 = 8 :=
    ((s.clearEvent.terminated_byteB total 34).trans (if_neg (by omega))).trans htype
  have hdeliver : (s.clearEvent.terminated total).ipDeliver total = (s.clearEvent.terminated total).echoAnswer total :=
    (State.ipDeliver_icmp (h.clearEvent.terminated_protocol.trans hproto)).trans (State.icmpEcho_answered hmin htype')
  have hemits := (s.clearEvent.terminated_onlyFrame total).emits.trans
    ((s.clearEvent.terminated total).echoAnswer_emits hmin)
  exact h.exec_rxDispatch hwf hready hlong hin hdeliver hemits.evtKind_eq

/-- Settles O34: the request is sent back as its answer, and both it and the answer lie before the terminator. -/
theorem echoRequestIsAnswered : Obligations.EchoRequestIsAnswered := by
  unfold Obligations.EchoRequestIsAnswered
  rintro s n total hwf hready rfl hlong hin hetype hversion hforUs hlength hmin hfits hproto htype
  have hvalid : s.ValidPacket total := ⟨hetype, hversion, hforUs, hlength, by omega, hfits⟩
  have hexec := hvalid.exec_rxDispatch_echo hwf hready hlong hin hmin hproto htype
  have honly := s.clearEvent.terminated_onlyFrame total
  obtain ⟨h16, h32, h48⟩ := s.clearEvent.terminated_header hvalid.min
  have hterm (x : Nat) : (s.clearEvent.terminated total).byteB x = if x = 14 + total then 0 else s.byteB x :=
    s.clearEvent.terminated_byteB total x
  generalize s.clearEvent.terminated total = u at hexec honly h16 h32 h48 hterm
  have hemits := honly.emits.trans (u.echoAnswer_emits hmin)
  have hlength' : total = (u.rd16 16).toNat := hlength.trans (congrArg BitVec.toNat (h16 16 (by decide)).symm)
  obtain ⟨hver, htos, hlen, hid, hfrag, httl, hicmp, hsrc, hdst, hdstHw, hsrcHw, hipv4⟩ :=
    State.echoAnswer_header hlength' hmin
  rw [honly.emits.cfg_eq] at httl
  rw [honly.localMac] at hsrcHw
  obtain ⟨hmessage, hheader⟩ := u.echoAnswer_checksums hmin (by omega)
  have hkept {x : Nat} (hx : x = 35 ∨ 38 ≤ x) : (u.echoAnswer total).byteB x = if x = 14 + total then 0 else s.byteB x :=
    (u.echoAnswer_byteB total hx).trans (hterm x)
  obtain ⟨-, -, -, -, -, -, -, hcfgTtl, -⟩ := hwf
  obtain ⟨hrd8, hrd16, hrd32, hrd48, hrange⟩ := (u.echoAnswer total).reads_finish 0 0
  have hbyte := (u.echoAnswer total).byteB_finish 0 0
  refine ⟨_, hexec, by rw [hrange]; exact hemits.finish 0 0, ?_⟩
  simp only [hrd8, hrd16, hrd32, hrd48, hbyte, State.foldedSum_finish]
  refine ⟨u.echoAnswer_type total, ?_, ?_, hmessage, hheader, hsrc.trans (h32 30 (by decide)),
    hdst.trans (h32 26 (by decide)), hlen.trans (h16 16 (by decide)), hid.trans (h16 18 (by decide)), hfrag,
    httl.trans hcfgTtl, hicmp, htos, hver, hdstHw.trans (h48 6 (by decide)), hsrcHw, hipv4, ?_, ?_⟩
  · exact fun x ⟨hlow, hhigh⟩ => (hkept (.inr hlow)).trans (if_neg (by omega))
  · exact (hkept (.inl rfl)).trans (if_neg (by omega))
  · exact (hkept (.inr (by omega))).trans (if_pos rfl)
  · exact fun x hx => (hkept (.inr (by omega))).trans (if_neg (by omega))

/-! ### IP_SEND (R232) -/

/-- The bits from `k` on are 0 where the shift leaves nothing. -/
theorem shiftRight_eq_zero_iff (w : Word) {k : Nat} (hk : k ≤ 32) : w >>> k = 0 ↔ w.extractLsb' k (32 - k) = 0 := by
  have hlt : w.toNat / 2 ^ k < 2 ^ (32 - k) :=
    Nat.div_lt_of_lt_mul (by rw [← pow_add, Nat.add_sub_cancel' hk]; exact w.isLt)
  rw [← BitVec.toNat_inj, ← BitVec.toNat_inj, BitVec.toNat_ushiftRight, BitVec.extractLsb'_toNat,
    Nat.shiftRight_eq_div_pow, Nat.mod_eq_of_lt hlt]
  rfl

/-- A 16-bit operand is the whole word where the upper half is 0 (30_encoding.md R121, R122). -/
theorem low_half_toNat {w : Word} (h : w.extractLsb' 16 16 = 0) : (w.extractLsb' 0 16).toNat = w.toNat := by
  have hparts := congrArg BitVec.toNat (extract_append 16 16 w)
  rw [h, BitVec.toNat_append] at hparts
  simpa using hparts

theorem State.argBitsOk_ipSend (s : State) :
    s.argBitsOk .ipSend = true ↔ s.arg0.extractLsb' 16 16 = 0 ∧ s.arg1.extractLsb' 8 24 = 0 := by
  rw [State.argBitsOk, Instr.operandBitsOk, Bool.and_eq_true, beq_iff_eq, beq_iff_eq,
    shiftRight_eq_zero_iff _ (by decide), shiftRight_eq_zero_iff _ (by decide)]

/-- IP_SEND's checks in the order of R232. -/
theorem exec_ipSend_eq (s : State) : exec .ipSend s = .next (
    if s.initialised = true then
      if s.arg0.extractLsb' 16 16 = 0 ∧ s.arg1.extractLsb' 8 24 = 0 then
        if 34 + s.opPlen ≤ s.cfg.bufSize then (s.ipSend s.opPlen s.opProto).finish (ipFrameLen s.opPlen) 0
        else s.raise .bounds
      else s.raise .arg
    else s.raise .noinit) := by
  change execIpSend s = _
  simp only [execIpSend, State.argBitsOk_ipSend, State.inRange_iff]

section
variable {s : State}

theorem exec_ipSend_noinit (hinit : s.initialised = false) : exec .ipSend s = .next (s.raise .noinit) := by
  rw [exec_ipSend_eq, if_neg (by rw [hinit]; decide)]

theorem exec_ipSend_arg (hready : s.initialised = true)
    (hbits : s.arg0.extractLsb' 16 16 ≠ 0 ∨ s.arg1.extractLsb' 8 24 ≠ 0) : exec .ipSend s = .next (s.raise .arg) := by
  rw [exec_ipSend_eq, if_pos hready, if_neg (not_and_or.2 hbits)]

section
variable (hready : s.initialised = true) (hlen : s.arg0.extractLsb' 16 16 = 0) (hproto : s.arg1.extractLsb' 8 24 = 0)
include hready hlen hproto

theorem exec_ipSend_bounds (hout : s.cfg.bufSize < 34 + s.arg0.toNat) : exec .ipSend s = .next (s.raise .bounds) := by
  rw [exec_ipSend_eq, if_pos hready, if_pos ⟨hlen, hproto⟩, State.opPlen, low_half_toNat hlen, if_neg (Nat.not_le.2 hout)]

theorem exec_ipSend_ready (hin : 34 + s.arg0.toNat ≤ s.cfg.bufSize) :
    exec .ipSend s = .next ((s.ipSend s.arg0.toNat s.opProto).finish (ipFrameLen s.arg0.toNat) 0) := by
  rw [exec_ipSend_eq, if_pos hready, if_pos ⟨hlen, hproto⟩, State.opPlen, low_half_toNat hlen, if_pos hin]

end

end

/-- Settles O48, by the three checks of R232 in their order; the header and its checksum are those of `IpSend`. -/
theorem ipSendResult : Obligations.IpSendResult := by
  unfold Obligations.IpSendResult
  refine ⟨fun s c h => ?_, ?_⟩
  · rcases h with ⟨hinit, rfl⟩ | ⟨hready, hbits, rfl⟩ | ⟨hready, hlen, hproto, hout, rfl⟩
    · rw [exec_ipSend_noinit hinit]; rfl
    · rw [exec_ipSend_arg hready hbits]; rfl
    · rw [exec_ipSend_bounds hready hlen hproto hout]; rfl
  · rintro s plen ⟨-, -, -, -, -, -, -, hcfgTtl, -⟩ hready hlen hproto rfl hin
    obtain ⟨hver, htos, htotal, hid, hfrag, httl, hp, hsrc, hdst, hdstHw, hsrcHw, htype⟩ :=
      s.ipSend_fields s.arg0.toNat s.opProto
    obtain ⟨hrd8, hrd16, hrd32, hrd48, hrange⟩ :=
      (s.ipSend s.arg0.toNat s.opProto).reads_finish (ipFrameLen s.arg0.toNat) 0
    have hbyte := (s.ipSend s.arg0.toNat s.opProto).byteB_finish (ipFrameLen s.arg0.toNat) 0
    refine ⟨_, exec_ipSend_ready hready hlen hproto hin,
      by rw [hrange]; exact (s.ipSend_emits s.arg0.toNat s.opProto).finish _ 0, ?_⟩
    simp only [hrd8, hrd16, hrd32, hrd48, hbyte, State.foldedSum_finish]
    exact ⟨hver, htos, htotal, hid, hfrag, httl.trans hcfgTtl, hp, hsrc, hdst, s.ipSend_foldedSum _ _, hdstHw, hsrcHw, htype,
      fun x hx => s.ipSend_byteB_outside _ _ (.inr (.inr hx))⟩

end Sys2Proof.Machine
end

section
/-! SUPPORT. PING (43_ipv4_icmp.md R237 to R239): its echo request field by field, the turns of its two waits, and a command with two
bounded waits run to its end (42_arp.md R205). -/

namespace Sys2Proof.Machine

/-! ### The echo request (R237) -/

theorem State.echoFields_byteB_outside (s : State) {x : Nat} (h : x < 34 ∨ 42 ≤ x) : s.echoFields.byteB x = s.byteB x := by
  simp only [State.echoFields, State.wr8_eq, State.wr16_eq]
  simp (disch := simp <;> omega) only [State.byteB_writeB_outside]

theorem State.echoFields_fields (s : State) : s.echoFields.rd8 34 = 8 ∧ s.echoFields.rd8 35 = 0 ∧
    s.echoFields.rd16 38 = s.pingId ∧ s.echoFields.rd16 40 = s.pingSeq := by
  simp only [State.echoFields, State.wr8_eq, State.wr16_eq]
  simp (disch := simp) only [State.rd8_writeB_outside, State.rd16_writeB_outside, State.rd8_writeB_singleton,
    State.rd16_writeB_be16]
  simp [proto]

/-- The request as it is staged for the sender: the peer in inbound orientation, and the message with its checksum. -/
def State.pingStaged (s : State) (ip : Word) (mac : HwAddr) : State :=
  (s.nextPing.stagePeer ip mac).echoFields.csumStore 36 34 8

theorem State.pingRequest_eq (s : State) (ip : Word) (mac : HwAddr) :
    s.pingRequest ip mac = (s.pingStaged ip mac).ipSend 8 proto.ipprotoIcmp := rfl

section
variable (s : State) (ip : Word) (mac : HwAddr)

theorem State.pingStaged_emits : s.nextPing.Emits (s.pingStaged ip mac) [] :=
  ((State.stagePeer_onlyFrame _ ip mac).trans (State.echoFields_onlyFrame _)).emits.trans (State.csumStore_emits _ 36 34 8)

/-- The message goes behind the addresses. -/
theorem State.pingStaged_byteB_lt {x : Nat} (h : x < 34) :
    (s.pingStaged ip mac).byteB x = (s.nextPing.stagePeer ip mac).byteB x := by
  rw [State.pingStaged, State.csumStore_byteB_outside _ _ _ _ (by omega), State.echoFields_byteB_outside _ (by omega)]

theorem State.pingStaged_addresses : (s.pingStaged ip mac).rd48 6 = mac ∧ (s.pingStaged ip mac).rd32 26 = ip ∧
    (s.pingStaged ip mac).rd32 30 = s.localIp ∧ (s.pingStaged ip mac).rd16 18 = 0 := by
  have hbyte {x : Nat} (h : x < 34) := s.pingStaged_byteB_lt ip mac h
  obtain ⟨hmac, hsrc, hdst, hid⟩ := s.nextPing.stagePeer_fields ip mac
  exact ⟨(State.rd48_of_byteB fun x _ _ => hbyte (by omega)).trans hmac,
    (State.rd32_of_byteB fun x _ _ => hbyte (by omega)).trans hsrc,
    (State.rd32_of_byteB fun x _ _ => hbyte (by omega)).trans hdst,
    (State.rd16_of_byteB fun x _ _ => hbyte (by omega)).trans hid⟩

theorem State.pingRequest_emits :
    s.nextPing.Emits (s.pingRequest ip mac) [.sent ((s.pingRequest ip mac).readB 0 42)] := by
  rw [State.pingRequest_eq]
  exact (s.pingStaged_emits ip mac).trans (State.ipSend_emits _ 8 proto.ipprotoIcmp)

/-- Behind the request nothing is written. -/
theorem State.pingRequest_byteB_ge {x : Nat} (h : 42 ≤ x) : (s.pingRequest ip mac).byteB x = s.byteB x := by
  rw [State.pingRequest, State.ipSend_byteB_outside _ _ _ (by omega), State.csumStore_byteB_outside _ _ _ _ (by omega),
    State.echoFields_byteB_outside _ (by omega), State.stagePeer_byteB_ge _ _ _ (by omega), State.byteB_nextPing]

/-- The request carries the next sequence number and the identifier as it is (10_state.md R44). -/
theorem State.nextPing_stagePeer_parts : (s.nextPing.stagePeer ip mac).pingId = s.pingId ∧
    (s.nextPing.stagePeer ip mac).pingSeq = s.pingSeq + 1 := by
  rw [State.pingId, State.pingSeq, (State.stagePeer_onlyFrame s.nextPing ip mac).emits.pingIdseq_eq]
  exact half_append_parts s.pingId (s.pingSeq + 1)

theorem State.pingRequest_message : (s.pingRequest ip mac).rd8 34 = 8 ∧ (s.pingRequest ip mac).rd8 35 = 0 ∧
    (s.pingRequest ip mac).rd16 38 = s.pingId ∧ (s.pingRequest ip mac).rd16 40 = s.pingSeq + 1 := by
  have hbyte {x : Nat} (h : 34 ≤ x) (hsum : x < 36 ∨ 38 ≤ x) :
      (s.pingRequest ip mac).byteB x = (s.nextPing.stagePeer ip mac).echoFields.byteB x := by
    rw [State.pingRequest, State.ipSend_byteB_outside _ _ _ (by omega), State.csumStore_byteB_outside _ _ _ _ (by omega)]
  obtain ⟨htype, hcode, hid, hseq⟩ := (s.nextPing.stagePeer ip mac).echoFields_fields
  obtain ⟨hnextId, hnextSeq⟩ := s.nextPing_stagePeer_parts ip mac
  exact ⟨(hbyte (by decide) (by decide)).trans htype, (hbyte (by decide) (by decide)).trans hcode,
    ((State.rd16_of_byteB fun x _ _ => hbyte (by omega) (by omega)).trans hid).trans hnextId,
    ((State.rd16_of_byteB fun x _ _ => hbyte (by omega) (by omega)).trans hseq).trans hnextSeq⟩

/-- The request goes out with the two hosts in their places: the exchange of the sender turns the inbound orientation round. -/
theorem State.pingRequest_header :
    (s.pingRequest ip mac).rd48 0 = mac ∧ (s.pingRequest ip mac).rd48 6 = s.localMac ∧
    (s.pingRequest ip mac).rd16 12 = 0x0800 ∧ (s.pingRequest ip mac).rd8 14 = 0x45 ∧ (s.pingRequest ip mac).rd8 15 = 0 ∧
    (s.pingRequest ip mac).rd16 16 = 28 ∧ (s.pingRequest ip mac).rd16 18 = 0 ∧ (s.pingRequest ip mac).rd16 20 = 0 ∧
    (s.pingRequest ip mac).rd8 22 = s.cfg.ipTtl ∧ (s.pingRequest ip mac).rd8 23 = 1 ∧
    (s.pingRequest ip mac).rd32 26 = s.localIp ∧ (s.pingRequest ip mac).rd32 30 = ip := by
  obtain ⟨hmac, hpeer, hlocal, hzero⟩ := s.pingStaged_addresses ip mac
  obtain ⟨hver, htos, hlen, hid, hfrag, httl, hproto, hsrc, hdst, hdstHw, hsrcHw, htype⟩ :=
    (s.pingStaged ip mac).ipSend_fields 8 proto.ipprotoIcmp
  rw [State.pingRequest_eq]
  rw [(s.pingStaged_emits ip mac).cfg_eq] at httl
  rw [(s.pingStaged_emits ip mac).localMac] at hsrcHw
  exact ⟨hdstHw.trans hmac, hsrcHw, htype, hver, htos, hlen, hid.trans hzero, hfrag, httl, hproto, hsrc.trans hlocal,
    hdst.trans hpeer⟩

/-- Both checksums of the request verify (40_checksum.md R144). -/
theorem State.pingRequest_checksums :
    (s.pingRequest ip mac).foldedSum 34 8 = 0xFFFF ∧ (s.pingRequest ip mac).foldedSum 14 20 = 0xFFFF := by
  refine ⟨?_, State.ipSend_foldedSum _ _ _⟩
  rw [State.pingRequest, State.foldedSum_of_byteB fun x _ _ => State.ipSend_byteB_outside _ _ _ (by omega)]
  exact State.foldedSum_csumStore _ (by decide) (by decide) (by decide) (by decide)

end

/-! ### The turns of PING's two waits (R238) -/

theorem exec_ping_arpWait {s : State} (hstage : s.stage = .arpWait) : exec .ping s = .next s.pingArpTurn := by
  simp only [exec, execPing, hstage]

theorem exec_ping_echoWait {s : State} (hstage : s.stage = .echoWait) : exec .ping s = .next s.pingEchoTurn := by
  simp only [exec, execPing, hstage]

/-- PING goes on from the ARP reply in `B`: the request is sent to its sender, and the echo wait begins. -/
def State.echoAsked (ip budget : Word) (s : State) : State :=
  (s.pingRequest ip (s.rd48 22)).beginWait .echoWait budget

/-- The end of PING with the iterations used (R238). -/
def State.echoFound (budget : Word) (s : State) : State := s.finish (budget - s.cnt) 0

section
variable {s : State}

theorem State.pingArpTurn_failed (hcnt : s.cnt = 0) : s.pingArpTurn = s.finish 0 0 := by
  simp only [State.pingArpTurn, (s.waitEnd_failed _).2 hcnt]

theorem State.pingArpTurn_matched (hcnt : s.cnt ≠ 0) (hmatch : s.receivesMatch (·.arpMatch s.opIp)) :
    s.pingArpTurn = s.decCnt.macReceive.echoAsked s.opIp s.opBudget := by
  have hend := (s.waitEnd_matched (·.arpMatch s.opIp)).2 ⟨hcnt, hmatch⟩
  simp only [State.pingArpTurn, hend, s.waitTurn_pos hcnt, State.echoAsked]

theorem State.pingArpTurn_again (hcnt : s.cnt ≠ 0) (hmatch : ¬ s.receivesMatch (·.arpMatch s.opIp)) :
    s.pingArpTurn = s.decCnt.macReceive := by
  have hend := s.waitEnd_again (·.arpMatch s.opIp) hcnt hmatch
  simp only [State.pingArpTurn, hend, s.waitTurn_pos hcnt]

theorem State.pingEchoTurn_failed (hcnt : s.cnt = 0) : s.pingEchoTurn = s.finish 0 0 := by
  simp only [State.pingEchoTurn, (s.waitEnd_failed _).2 hcnt]

theorem State.pingEchoTurn_matched (hcnt : s.cnt ≠ 0) (hmatch : s.receivesMatch State.pingMatch) :
    s.pingEchoTurn = s.decCnt.macReceive.echoFound s.opBudget := by
  have hend := (s.waitEnd_matched State.pingMatch).2 ⟨hcnt, hmatch⟩
  simp only [State.pingEchoTurn, hend, s.waitTurn_pos hcnt, State.echoFound]

theorem State.pingEchoTurn_again (hcnt : s.cnt ≠ 0) (hmatch : ¬ s.receivesMatch State.pingMatch) :
    s.pingEchoTurn = s.decCnt.macReceive := by
  have hend := s.waitEnd_again State.pingMatch hcnt hmatch
  simp only [State.pingEchoTurn, hend, s.waitTurn_pos hcnt]

/-- The frame received is an ARP reply from `ip` (42_arp.md R206). -/
theorem State.receivesMatch_arp (hwf : s.cfg.wf) (ip : Word) : s.receivesMatch (·.arpMatch ip) ↔
    14 < s.nextFrame.length ∧ s.decCnt.macReceive.rd16 12 = 0x0806 ∧ s.decCnt.macReceive.rd16 20 = 2 ∧
      s.decCnt.macReceive.rd32 28 = ip := by
  obtain ⟨-, -, -, -, -, heth, -⟩ := hwf
  rw [State.receivesMatch, heth, State.arpMatch_iff]

/-- The frame received is the reply to the echo request just sent (R239). -/
theorem State.receivesMatch_ping (hwf : s.cfg.wf) : s.receivesMatch State.pingMatch ↔
    14 < s.nextFrame.length ∧ s.decCnt.macReceive.rd16 12 = 0x0800 ∧ s.decCnt.macReceive.rd8 14 = 0x45 ∧
      s.decCnt.macReceive.rd8 23 = 1 ∧ s.decCnt.macReceive.rd8 34 = 0 ∧ s.decCnt.macReceive.rd16 38 = s.pingId ∧
      s.decCnt.macReceive.rd16 40 = s.pingSeq := by
  obtain ⟨-, -, -, -, -, heth, -⟩ := hwf
  rw [State.receivesMatch, heth, State.pingMatch_iff]; rfl

end

theorem State.echoAsked_reads (ip budget : Word) (s : State) :
    (∀ a, (s.echoAsked ip budget).rd8 a = (s.pingRequest ip (s.rd48 22)).rd8 a) ∧
    (∀ a, (s.echoAsked ip budget).rd16 a = (s.pingRequest ip (s.rd48 22)).rd16 a) ∧
    (∀ a, (s.echoAsked ip budget).rd32 a = (s.pingRequest ip (s.rd48 22)).rd32 a) ∧
    (∀ a, (s.echoAsked ip budget).rd48 a = (s.pingRequest ip (s.rd48 22)).rd48 a) ∧
    (∀ a n, (s.echoAsked ip budget).readB a n = (s.pingRequest ip (s.rd48 22)).readB a n) :=
  State.reads_congr (State.beginWait_frame _ _ _) (State.beginWait_frameGen _ _ _)

/-- A wait begun after `B` and ACC have changed and the MAC has been called. -/
theorem State.Emits.beginWait {s t : State} {l : List MacEvent} (e : s.Emits t l) (g : Stage) (w : Word) :
    t.beginWait g w = { s with
      frame := (t.beginWait g w).frame, acc := (t.beginWait g w).acc, history := s.history ++ l, cnt := w, stage := g } := by
  obtain ⟨f, a, rfl⟩ : ∃ f a, t = { s with frame := f, acc := a, history := s.history ++ l } := ⟨_, _, e⟩
  rfl

/-- What the echo wait begins with: the request sent, PING_IDSEQ advanced and a fresh counter. -/
theorem State.echoAsked_rest (ip budget : Word) (s : State) : s.echoAsked ip budget = { s with
    frame := (s.echoAsked ip budget).frame, acc := (s.echoAsked ip budget).acc
    history := s.history ++ [.sent ((s.echoAsked ip budget).readB 0 42)], pingIdseq := s.pingId ++ (s.pingSeq + 1)
    cnt := budget, stage := .echoWait } := by
  obtain ⟨-, -, -, -, hrange⟩ := State.echoAsked_reads ip budget s
  rw [hrange]
  exact (s.pingRequest_emits ip (s.rd48 22)).beginWait .echoWait budget

/-- Settles O49, by the three ways a turn of the ARP wait can end. -/
theorem pingSendsItsEchoRequest : Obligations.PingSendsItsEchoRequest := by
  unfold Obligations.PingSendsItsEchoRequest
  rintro s r hwf hstage rfl
  have hmatch := s.receivesMatch_arp hwf s.opIp
  rw [exec_ping_arpWait hstage]
  refine ⟨fun hcnt => ?_, fun hcnt hnone => ?_, fun hcnt hlong htype hop hsender => ?_⟩
  · rw [State.pingArpTurn_failed hcnt]; rfl
  · rw [State.pingArpTurn_again hcnt (hmatch.not.2 hnone)]; rfl
  · rw [State.pingArpTurn_matched hcnt (hmatch.2 ⟨hlong, htype, hop, hsender⟩)]
    obtain ⟨h8, h16, h32, h48, -⟩ := State.echoAsked_reads s.opIp s.opBudget s.decCnt.macReceive
    have hbyte := (s.decCnt.macReceive.pingRequest s.opIp (s.decCnt.macReceive.rd48 22)).byteB_beginWait .echoWait s.opBudget
    obtain ⟨hdst, hsrc, hetype, hver, htos, hlen, hid, hfrag, httl, hproto, hlocal, hpeer⟩ :=
      s.decCnt.macReceive.pingRequest_header s.opIp (s.decCnt.macReceive.rd48 22)
    obtain ⟨hmtype, hmcode, hmid, hmseq⟩ := s.decCnt.macReceive.pingRequest_message s.opIp (s.decCnt.macReceive.rd48 22)
    obtain ⟨hmessage, hheader⟩ := s.decCnt.macReceive.pingRequest_checksums s.opIp (s.decCnt.macReceive.rd48 22)
    obtain ⟨-, -, -, -, -, -, -, hcfgTtl, -⟩ := hwf
    refine ⟨_, rfl, State.echoAsked_rest _ _ _, ?_⟩
    simp only [h8, h16, h32, h48]
    exact ⟨hdst, hsrc, hetype, hver, htos, hlen, hid, hfrag, httl.trans hcfgTtl, hproto, hlocal, hpeer, hmtype, hmcode, hmid,
      hmseq, (State.foldedSum_of_byteB fun x _ _ => hbyte x).trans hmessage,
      (State.foldedSum_of_byteB fun x _ _ => hbyte x).trans hheader,
      fun x hx => (hbyte x).trans (State.pingRequest_byteB_ge _ _ _ hx)⟩

/-- Settles O50, by the three ways a turn of the echo wait can end; CNT is at most the budget, so the number of
iterations used does not wrap. -/
theorem pingReturnsElapsedIterations : Obligations.PingReturnsElapsedIterations := by
  unfold Obligations.PingReturnsElapsedIterations
  rintro s r hwf hstage hbudget rfl
  have hmatch := s.receivesMatch_ping hwf
  rw [exec_ping_echoWait hstage]
  refine ⟨fun hcnt => ?_, fun hcnt hlong htype hver hproto hreply hid hseq => ?_, fun hcnt hnone => ?_⟩
  · rw [State.pingEchoTurn_failed hcnt]; rfl
  · have helapsed : (s.opBudget - s.decCnt.macReceive.cnt).toNat = s.arg1.toNat - (s.cnt.toNat - 1) := by
      rw [State.macReceive_cnt, State.decCnt_cnt, State.opBudget]; bv_omega
    rw [State.pingEchoTurn_matched hcnt (hmatch.2 ⟨hlong, htype, hver, hproto, hreply, hid, hseq⟩)]
    exact ⟨_, rfl, rfl, helapsed, by rw [State.echoFound, State.finish_result0, helapsed]; bv_omega⟩
  · rw [State.pingEchoTurn_again hcnt (hmatch.not.2 hnone)]; rfl

/-! ### Two bounded waits in a row (42_arp.md R205) -/

/-- The states of a wait are not left before its end. -/
theorem WaitsBy.boundedWait {i : Instr} {P : State → Prop} {isMatch : State → Bool} {hit miss : State → State}
    (w : WaitsBy i P isMatch hit miss) {s : State} (hs : P s) (n : Nat) : P (s.boundedWait isMatch n).2 := by
  induction n generalizing s with
  | zero => exact hs
  | succ n ih =>
    by_cases hmatch : s.receivesMatch isMatch
    · rw [State.boundedWait_matched n hmatch]; exact w.received hs
    · rw [State.boundedWait_again n hmatch]; exact ih (w.received hs)

/-- A wait that ends its command either way has run to the end of the command after at most CNT + 1 steps. -/
theorem WaitsBy.run_ends {i : Instr} {P : State → Prop} {isMatch : State → Bool} {hit miss : State → State}
    (w : WaitsBy i P isMatch hit miss) (hhit : ∀ t, (hit t).stage = .idle) (hmiss : ∀ t, (miss t).stage = .idle)
    {s : State} {n k : Nat} (hs : P s) (hn : s.cnt.toNat = n) (hk : n + 1 ≤ k) :
    runCommand i k s = .next (afterWait hit miss (s.boundedWait isMatch n)) := by
  obtain ⟨m, rfl⟩ := Nat.exists_eq_add_of_le hk
  obtain ⟨l, u, -, hrun, hexec⟩ := w.run m hs hn
  rw [Nat.add_right_comm, hrun]
  exact runCommand_succ_ended l hexec (afterWait_idle hhit hmiss _)

/-- A wait that goes on, where it succeeds, to a second wait with the same budget `n`. -/
theorem WaitsBy.run_twice {i : Instr} {P Q : State → Prop} {isMatch isMatch' : State → Bool}
    {next hit miss miss' : State → State} (w : WaitsBy i P isMatch next miss) (w' : WaitsBy i Q isMatch' hit miss')
    (hhit : ∀ t, (hit t).stage = .idle) (hmiss : ∀ t, (miss t).stage = .idle) (hmiss' : ∀ t, (miss' t).stage = .idle)
    {s : State} {n k : Nat} (hnext : ∀ t, P t → Q (next t) ∧ (next t).cnt.toNat = n)
    (hs : P s) (hn : s.cnt.toNat = n) (hk : 2 * n + 2 ≤ k) :
    runCommand i k s =
      .next (afterWait (afterWait hit miss' ∘ State.boundedWait isMatch' n ∘ next) miss (s.boundedWait isMatch n)) := by
  obtain ⟨m, rfl⟩ : ∃ m, k = n + (n + 1 + m) + 1 := ⟨k - (2 * n + 2), by omega⟩
  obtain ⟨l, u, hl, hrun, hexec⟩ := w.run (n + 1 + m) hs hn
  have hkept := w.boundedWait hs n
  rw [hrun]
  rcases hwait : s.boundedWait isMatch n with ⟨_ | _, t⟩ <;> rw [hwait] at hexec hkept
  case false => exact runCommand_succ_ended l hexec (hmiss t)
  case true =>
    obtain ⟨hwaits, hcnt⟩ := hnext t hkept
    rw [runCommand_succ_goesOn l hexec (w'.busy hwaits)]
    exact w'.run_ends hhit hmiss' hwaits hcnt (by omega)

/-! ### PING as one piece (R238) -/

/-- PING's wait for the hardware address of `ip`. -/
theorem ping_waitsBy_arp (ip budget : Word) :
    WaitsBy .ping (fun s => s.stage = .arpWait ∧ s.opIp = ip ∧ s.opBudget = budget) (·.arpMatch ip)
      (State.echoAsked ip budget) (State.finish · 0 0) where
  busy := by rintro s ⟨hstage, -⟩; rw [hstage]; nofun
  received h := h
  failed := by rintro s ⟨hstage, -⟩ hcnt; rw [exec_ping_arpWait hstage, State.pingArpTurn_failed hcnt]
  matched := by rintro s ⟨hstage, rfl, rfl⟩ hcnt h; rw [exec_ping_arpWait hstage, State.pingArpTurn_matched hcnt h]
  again := by rintro s ⟨hstage, rfl, -⟩ hcnt h; rw [exec_ping_arpWait hstage, State.pingArpTurn_again hcnt h]

/-- PING's wait for the echo reply. -/
theorem ping_waitsBy_echo (budget : Word) :
    WaitsBy .ping (fun s => s.stage = .echoWait ∧ s.opBudget = budget) State.pingMatch (State.echoFound budget)
      (State.finish · 0 0) where
  busy := by rintro s ⟨hstage, -⟩; rw [hstage]; nofun
  received h := h
  failed := by rintro s ⟨hstage, -⟩ hcnt; rw [exec_ping_echoWait hstage, State.pingEchoTurn_failed hcnt]
  matched := by rintro s ⟨hstage, rfl⟩ hcnt h; rw [exec_ping_echoWait hstage, State.pingEchoTurn_matched hcnt h]
  again := by rintro s ⟨hstage, -⟩ hcnt h; rw [exec_ping_echoWait hstage, State.pingEchoTurn_again hcnt h]

theorem State.arpAsked_opBudget (s : State) : s.arpAsked.opBudget = s.opBudget := by
  rw [State.opBudget, State.arpAsked, State.beginWait_arg1, (s.clearEvent.arpRequest_emits s.opIp).arg1_eq,
    State.clearEvent_arg1, State.opBudget]

theorem State.echoAsked_opBudget (ip budget : Word) (s : State) : (s.echoAsked ip budget).opBudget = s.opBudget := by
  rw [State.opBudget, State.echoAsked_rest, State.opBudget]

theorem State.wholePing_ready {s : State} (hready : s.initialised = true) : s.wholePing =
    afterWait
      (afterWait (State.echoFound s.opBudget) (State.finish · 0 0) ∘ State.boundedWait State.pingMatch s.opBudget.toNat ∘
        State.echoAsked s.opIp s.opBudget)
      (State.finish · 0 0) (s.arpAsked.boundedWait (·.arpMatch s.opIp) s.opBudget.toNat) := by
  rw [State.wholePing, if_pos hready, State.waitFor, ← State.arpAsked]
  rcases s.arpAsked.boundedWait (·.arpMatch s.opIp) s.opBudget.toNat with ⟨_ | _, t⟩
  case false => rfl
  case true =>
    simp only [afterWait, Function.comp_apply, State.waitFor, State.echoAsked]
    rcases ((t.pingRequest s.opIp (t.rd48 22)).beginWait .echoWait s.opBudget).boundedWait State.pingMatch s.opBudget.toNat
      with ⟨_ | _, u⟩ <;> rfl

theorem State.wholePing_noinit {s : State} (h : s.initialised ≠ true) : s.wholePing = s.raise .noinit := if_neg h

/-- Settles O51: the start is one step, and the two waits that follow run to the end of the command. -/
theorem pingMeetsItsPseudocode : Obligations.PingMeetsItsPseudocode := by
  unfold Obligations.PingMeetsItsPseudocode
  intro s k hstage hk
  obtain ⟨k, rfl⟩ := Nat.exists_eq_succ_of_ne_zero (Nat.ne_zero_of_lt hk)
  by_cases hready : s.initialised = true
  · have hbusy : s.arpAsked.stage ≠ .idle := by rw [s.arpAsked_stage]; nofun
    have hnext : ∀ t : State, t.stage = .arpWait ∧ t.opIp = s.opIp ∧ t.opBudget = s.opBudget →
        ((t.echoAsked s.opIp s.opBudget).stage = .echoWait ∧ (t.echoAsked s.opIp s.opBudget).opBudget = s.opBudget) ∧
          (t.echoAsked s.opIp s.opBudget).cnt.toNat = s.opBudget.toNat :=
      fun t ⟨_, _, hbudget⟩ => ⟨⟨rfl, (State.echoAsked_opBudget _ _ t).trans hbudget⟩, rfl⟩
    rw [runCommand_succ_goesOn k (exec_ping_start hstage hready) hbusy, State.wholePing_ready hready]
    exact (ping_waitsBy_arp s.opIp s.opBudget).run_twice (ping_waitsBy_echo s.opBudget) (fun _ => rfl) (fun _ => rfl)
      (fun _ => rfl) hnext ⟨s.arpAsked_stage, s.arpAsked_opIp, s.arpAsked_opBudget⟩ (congrArg BitVec.toNat s.arpAsked_cnt)
      (Nat.le_of_succ_le_succ hk)
  · rw [State.wholePing_noinit hready]
    exact runCommand_succ_ended k (exec_noinit nofun nofun hstage (Bool.eq_false_iff.2 hready)) rfl

end Sys2Proof.Machine
end

section
/-! SUPPORT. The transports over the IPv4 sender (43_ipv4_icmp.md R232, 40_checksum.md R144, R148): the header of a staged packet
once it is sent, its payload, and the TCP checksum it carries; and RX_DISPATCH of a packet that becomes an event. -/

namespace Sys2Proof.Machine

/-! ### What the sender leaves of a staged packet -/

/-- Behind the IPv4 header the packet goes out as it was staged. -/
theorem State.ipSend_payload (s : State) (plen : Nat) (p : Byte) :
    (∀ a, 34 ≤ a → (s.ipSend plen p).rd8 a = s.rd8 a) ∧ (∀ a, 34 ≤ a → (s.ipSend plen p).rd16 a = s.rd16 a) ∧
    (∀ a, 34 ≤ a → (s.ipSend plen p).rd32 a = s.rd32 a) ∧
    (∀ a n, 34 ≤ a → (s.ipSend plen p).readB a n = s.readB a n) := by
  have hbyte {x : Nat} (h : 34 ≤ x) : (s.ipSend plen p).byteB x = s.byteB x :=
    s.ipSend_byteB_outside plen p (.inr (.inr h))
  exact ⟨fun a ha => hbyte ha, fun a ha => State.rd16_of_byteB fun x hx _ => hbyte (ha.trans hx),
    fun a ha => State.rd32_of_byteB fun x hx _ => hbyte (ha.trans hx),
    fun a n ha => State.readB_of_byteB fun x hx _ => hbyte (ha.trans hx)⟩

/-- The header of a packet staged over the one in `s`: staging has sent nothing and written nothing before the transport header
but the total length, which the sender writes again. -/
theorem State.Emits.ipSend_header {s u : State} (e : s.Emits u [])
    (hstaged : ∀ x, x < 16 ∨ 18 ≤ x → x < 34 → u.byteB x = s.byteB x) (plen : Nat) (p : Byte) :
    (u.ipSend plen p).rd8 14 = 0x45 ∧ (u.ipSend plen p).rd8 15 = 0 ∧
    (u.ipSend plen p).rd16 16 = BitVec.ofNat 16 (20 + plen) ∧ (u.ipSend plen p).rd16 18 = s.rd16 18 ∧
    (u.ipSend plen p).rd16 20 = 0 ∧ (u.ipSend plen p).rd8 22 = s.cfg.ipTtl ∧ (u.ipSend plen p).rd8 23 = p ∧
    (u.ipSend plen p).rd32 26 = s.rd32 30 ∧ (u.ipSend plen p).rd32 30 = s.rd32 26 ∧
    (u.ipSend plen p).rd48 0 = s.rd48 6 ∧ (u.ipSend plen p).rd48 6 = s.localMac ∧
    (u.ipSend plen p).rd16 12 = 0x0800 := by
  obtain ⟨hver, htos, hlen, hid, hfrag, httl, hproto, hsrc, hdst, hdstHw, hsrcHw, htype⟩ := u.ipSend_fields plen p
  rw [e.cfg_eq] at httl
  rw [e.localMac] at hsrcHw
  exact ⟨hver, htos, hlen, hid.trans (State.rd16_of_byteB fun x _ _ => hstaged x (by omega) (by omega)), hfrag, httl, hproto,
    hsrc.trans (State.rd32_of_byteB fun x _ _ => hstaged x (by omega) (by omega)),
    hdst.trans (State.rd32_of_byteB fun x _ _ => hstaged x (by omega) (by omega)),
    hdstHw.trans (State.rd48_of_byteB fun x _ _ => hstaged x (by omega) (by omega)), hsrcHw, htype⟩

/-! ### The TCP checksum (R144, R148) -/

/-- A checksum stored by `PseudoStore` at an aligned field of the segment verifies. -/
theorem State.pseudoSum_pseudoStore (s : State) {f o total : Nat} (htotal : total = (s.rd16 (o + 2)).toNat)
    (hlow : o + 20 ≤ f) (heven : (f - (o + 20)) % 2 = 0) (hhigh : f + 2 ≤ o + total) :
    (s.pseudoStore f o).pseudoSum o = 0xFFFF := by
  have hword (t : State) (v : Half) := t.wordsOf_readB_wr16 f (o + 20) (total - 20) v hlow heven (by omega)
  have hbefore (sum : Half) : ((s.wr16 f 0).leaveAcc sum).readB (o + 20) (f - (o + 20)) = s.readB (o + 20) (f - (o + 20)) :=
    s.readB_writeB_outside (by omega)
  have hafter (sum : Half) (n : Nat) : ((s.wr16 f 0).leaveAcc sum).readB (f + 2) n = s.readB (f + 2) n :=
    s.readB_writeB_outside (by simp)
  have hpseudo (t : State) (v : Half) : (t.wr16 f v).pseudoWords o = t.pseudoWords o :=
    t.pseudoWords_writeB_outside o f _ hlow
  have hheader (sum : Half) : ((s.wr16 f 0).leaveAcc sum).pseudoWords o = s.pseudoWords o := hpseudo s 0
  have hlength (t : State) (v : Half) : (t.wr16 f v).rd16 (o + 2) = t.rd16 (o + 2) :=
    t.rd16_writeB_outside (by omega)
  have hlength' (sum : Half) : ((s.wr16 f 0).leaveAcc sum).rd16 (o + 2) = s.rd16 (o + 2) := hlength s 0
  have hmax := (s.rd16 (o + 2)).isLt
  rw [State.pseudoStore, State.pseudoSum, State.pseudoSum, hpseudo, hpseudo, hheader, hlength, hlength, hlength', ← htotal,
    hword, hword, hbefore, hafter, ← List.append_assoc, ← List.append_assoc]
  exact ocSum_complement (by
    simp only [State.pseudoWords, List.length_append, List.length_cons, List.length_nil, wordsOf_length, State.readB_length]
    omega)

/-- The sum over what is sent, with the protocol byte as it was staged, is the sum over what was staged: the sender exchanges the
addresses and leaves the segment alone. -/
theorem State.ipSend_ocSum {u : State} {plen : Nat} (p : Byte) (hmax : 20 + plen < 65536)
    (hlength : u.rd16 16 = BitVec.ofNat 16 (20 + plen)) :
    ocSum ([(u.ipSend plen p).rd16 26, (u.ipSend plen p).rd16 28, (u.ipSend plen p).rd16 30, (u.ipSend plen p).rd16 32,
      (u.rd8 23).setWidth 16, BitVec.ofNat 16 plen] ++ wordsOf ((u.ipSend plen p).readB 34 plen)) = u.pseudoSum 14 := by
  obtain ⟨-, -, -, -, -, -, -, hsrc, hdst, -⟩ := u.ipSend_fields plen p
  obtain ⟨h26, h28⟩ := half_append_inj hsrc
  obtain ⟨h30, h32⟩ := half_append_inj hdst
  obtain ⟨-, -, -, hpayload⟩ := u.ipSend_payload plen p
  have htotal : 20 + plen = (u.rd16 (14 + 2)).toNat := by
    rw [show u.rd16 (14 + 2) = _ from hlength, BitVec.toNat_ofNat, Nat.mod_eq_of_lt hmax]
  have hword : u.rd16 (14 + 2) - 20 = BitVec.ofNat 16 plen := by
    rw [segmentLength_word htotal (Nat.le_add_right 20 plen), Nat.add_sub_cancel_left]
  rw [h26, h28, h30, h32, hpayload 34 plen le_rfl, State.pseudoSum, State.pseudoWords, hword, ← htotal,
    Nat.add_sub_cancel_left]
  refine ocSum_perm (List.Perm.append_right _ ?_)
  exact (List.perm_append_comm (l₁ := [u.rd16 30, u.rd16 32]) (l₂ := [u.rd16 26, u.rd16 28])).append_right
    [(u.rd8 23).setWidth 16, BitVec.ofNat 16 plen]

/-- Where the protocol was staged, the packet sent has the checksum words of the packet staged. -/
theorem State.ipSend_pseudoSum {u : State} {plen : Nat} {p : Byte} (hproto : u.rd8 23 = p) (hmax : 20 + plen < 65536)
    (hlength : u.rd16 16 = BitVec.ofNat 16 (20 + plen)) : (u.ipSend plen p).pseudoSum 14 = u.pseudoSum 14 := by
  obtain ⟨-, -, hlen, -, -, -, hp, -⟩ := u.ipSend_fields plen p
  have htotal : 20 + plen = ((u.ipSend plen p).rd16 (14 + 2)).toNat := by
    rw [show (u.ipSend plen p).rd16 (14 + 2) = _ from hlen, BitVec.toNat_ofNat, Nat.mod_eq_of_lt hmax]
  have hword : (u.ipSend plen p).rd16 (14 + 2) - 20 = BitVec.ofNat 16 plen := by
    rw [segmentLength_word htotal (Nat.le_add_right 20 plen), Nat.add_sub_cancel_left]
  rw [← State.ipSend_ocSum p hmax hlength, State.pseudoSum, State.pseudoWords, hword, ← htotal, Nat.add_sub_cancel_left,
    show (u.ipSend plen p).rd8 (14 + 9) = _ from hp, hproto]

/-! ### Packets that become an event (R177) -/

/-- RX_DISPATCH of a packet that passes the checks, where an event is set. -/
theorem State.ValidPacket.exec_rxDispatch_event {s u : State} {total : Nat} (h : s.ValidPacket total) (hwf : s.cfg.wf)
    (hready : s.initialised = true) (hlong : 14 < s.arg0.toNat) (hin : s.arg0.toNat ≤ s.cfg.bufSize)
    (hu : (s.clearEvent.terminated total).ipDeliver total = u) (hevent : u.evtKind ≠ 0) :
    exec .rxDispatch s = .next (u.finish 1 0) := by
  have hframe : s.rxFrame = u := (h.clearEvent.classify hwf hlong).trans hu
  have hevt : u.evt = true := by rw [State.evt_eq, decide_eq_true hevent]
  rw [exec_rxDispatch_ready hready hin, hframe, hevt, if_pos rfl]

/-- The end of RX_DISPATCH where stores have been made and an event is set. -/
theorem State.OnlyFrame.announced {s u : State} (h : s.clearEvent.OnlyFrame u) (kind : BitVec 3) (off len : Half) (r0 r1 : Word) :
    (u.setEvent kind off len).finish r0 r1 = { s with
      frame := ((u.setEvent kind off len).finish r0 r1).frame, evtKind := kind, evtOff := off, evtLen := len
      result0 := r0, result1 := r1, stage := .idle, done := true } := by
  obtain ⟨f, rfl⟩ : ∃ f, u = { s.clearEvent with frame := f } := ⟨_, h⟩
  rfl

end Sys2Proof.Machine
end

section
/-! SUPPORT. UDP (44_udp_tcp.md R270 to R275): the delivery of a datagram, and UDP_SEND. -/

namespace Sys2Proof.Machine

/-! ### Delivery (R270) -/

theorem State.udpRead_delivered {s : State} {len : Nat} (hlen : len = (s.rd16 38).toNat) (hmin : 8 ≤ len)
    (hin : 34 + len + 1 ≤ s.cfg.bufSize) :
    s.udpRead = (s.wr8 (42 + (len - 8)) 0).setEvent evtUdp 42 (BitVec.ofNat 16 (len - 8)) := by
  subst hlen
  exact (if_neg (Nat.not_lt.2 hmin)).trans (if_pos ((s.inRange_iff _ _).2 hin))

/-- Settles O35: the validator writes the first terminator, UDP_READ the second and the event. -/
theorem udpDatagramIsDelivered : Obligations.UdpDatagramIsDelivered := by
  unfold Obligations.UdpDatagramIsDelivered
  rintro s n total len hwf hready rfl hlong hin hetype hversion hforUs hlength hmin hfits hproto hlen hmin' hfits'
  have hvalid : s.ValidPacket total := ⟨hetype, hversion, hforUs, hlength, hmin, hfits⟩
  have hmax : len - 8 < 65536 := by omega
  have hdeliver : (s.clearEvent.terminated total).ipDeliver total =
      ((s.clearEvent.terminated total).wr8 (42 + (len - 8)) 0).setEvent evtUdp 42 (BitVec.ofNat 16 (len - 8)) :=
    (State.ipDeliver_udp (hvalid.clearEvent.terminated_protocol.trans hproto)).trans
      (State.udpRead_delivered hlen hmin' hfits')
  have hexec := hvalid.exec_rxDispatch_event hwf hready hlong hin hdeliver (show evtUdp ≠ 0 by decide)
  have hstores := (s.clearEvent.terminated_onlyFrame total).writeB (42 + (len - 8)) [0]
  have hbyte (x : Nat) : ((s.clearEvent.terminated total).wr8 (42 + (len - 8)) 0).byteB x =
      if x = 42 + (len - 8) then 0 else if x = 14 + total then 0 else s.byteB x := by
    rw [State.byteB_wr8, State.terminated_byteB, State.byteB_clearEvent]
  refine ⟨_, hexec, hstores.announced _ _ _ _ _, (BitVec.toNat_ofNat _ _).trans (Nat.mod_eq_of_lt hmax), rfl, ?_⟩
  simp only [State.byteB_finish, State.byteB_setEvent, hbyte, if_true, ite_self, true_and]
  exact fun x hip hudp => (if_neg hudp).trans (if_neg hip)

/-! ### UDP_SEND (R272) -/

/-- The datagram as UDP_SEND stages it for the sender. -/
def State.udpStaged (s : State) (src len : Nat) : State :=
  (((s.stagePayload 42 src len).swapPorts).wr16 38 (BitVec.ofNat 16 (8 + padded len))).wr16 40 0

theorem State.udpSendBody_eq (s : State) (src len : Nat) :
    s.udpSendBody src len = (s.udpStaged src len).ipSend (8 + padded len) proto.ipprotoUdp := rfl

section
variable (s : State) (src len : Nat)

theorem State.udpStaged_emits : s.Emits (s.udpStaged src len) [] :=
  ((((s.stagePayload_onlyFrame 42 src len).trans (State.swapPorts_onlyFrame _)).writeB _ _).writeB _ _).emits

/-- From the payload on, only the copy and the padding are written. -/
theorem State.udpStaged_byteB_ge {x : Nat} (h : x < 34 ∨ 42 ≤ x) :
    (s.udpStaged src len).byteB x = (s.stagePayload 42 src len).byteB x := by
  rw [State.udpStaged, State.wr16_eq, State.wr16_eq, State.byteB_writeB_outside _ (by simp; omega),
    State.byteB_writeB_outside _ (by simp; omega), State.swapPorts_byteB_outside _ (by omega)]

theorem State.udpStaged_byteB_outside {x : Nat} (h : x < 34 ∨ 42 + padded len ≤ x) :
    (s.udpStaged src len).byteB x = s.byteB x := by
  rw [s.udpStaged_byteB_ge src len (by omega), s.stagePayload_byteB_outside 42 src len (by omega)]

theorem State.udpStaged_fields :
    (s.udpStaged src len).rd16 34 = s.rd16 36 ∧ (s.udpStaged src len).rd16 36 = s.rd16 34 ∧
    (s.udpStaged src len).rd16 38 = BitVec.ofNat 16 (8 + padded len) ∧ (s.udpStaged src len).rd16 40 = 0 := by
  have hports {a : Nat} (h : a + 2 ≤ 38) :
      (s.udpStaged src len).rd16 a = (s.stagePayload 42 src len).swapPorts.rd16 a := by
    rw [State.udpStaged, State.wr16_eq, State.wr16_eq, State.rd16_writeB_outside _ (by omega),
      State.rd16_writeB_outside _ (by omega)]
  have hbefore {a : Nat} (h : a + 2 ≤ 42) : (s.stagePayload 42 src len).rd16 a = s.rd16 a :=
    State.rd16_of_byteB fun x _ _ => s.stagePayload_byteB_outside 42 src len (by omega)
  obtain ⟨hsrc, hdst⟩ := (s.stagePayload 42 src len).swapPorts_fields
  refine ⟨(hports (by decide)).trans (hsrc.trans (hbefore (by decide))),
    (hports (by decide)).trans (hdst.trans (hbefore (by decide))), ?_, State.rd16_writeB_be16 _ _ _⟩
  rw [State.udpStaged, State.wr16_eq, State.wr16_eq, State.rd16_writeB_outside _ (by decide), State.rd16_writeB_be16]

/-- The datagram goes out as it was staged. -/
theorem State.udpSendBody_byteB_ge {x : Nat} (h : 34 ≤ x) :
    (s.udpSendBody src len).byteB x = (s.udpStaged src len).byteB x :=
  State.ipSend_byteB_outside _ _ _ (.inr (.inr h))

theorem State.udpSendBody_byteB_behind {x : Nat} (h : 42 + padded len ≤ x) :
    (s.udpSendBody src len).byteB x = s.byteB x :=
  (s.udpSendBody_byteB_ge src len (by omega)).trans (s.udpStaged_byteB_outside src len (.inr h))

theorem State.udpSendBody_message :
    (s.udpSendBody src len).rd16 34 = s.rd16 36 ∧ (s.udpSendBody src len).rd16 36 = s.rd16 34 ∧
    (s.udpSendBody src len).rd16 38 = BitVec.ofNat 16 (8 + padded len) ∧ (s.udpSendBody src len).rd16 40 = 0 := by
  obtain ⟨-, h16, -, -⟩ := (s.udpStaged src len).ipSend_payload (8 + padded len) proto.ipprotoUdp
  rw [State.udpSendBody_eq, h16 34 (by decide), h16 36 (by decide), h16 38 (by decide), h16 40 (by decide)]
  exact s.udpStaged_fields src len

theorem State.udpSendBody_payload :
    (∀ j, j < len → (s.udpSendBody src len).byteB (42 + j) = s.byteB (src + j)) ∧
    (len % 2 = 1 → (s.udpSendBody src len).byteB (42 + len) = 0) := by
  have hstaged (j : Nat) : (s.udpSendBody src len).byteB (42 + j) = (s.stagePayload 42 src len).byteB (42 + j) :=
    (s.udpSendBody_byteB_ge src len (by omega)).trans (s.udpStaged_byteB_ge src len (by omega))
  exact ⟨fun j hj => (hstaged j).trans (s.stagePayload_payload 42 src len hj),
    fun hodd => (hstaged len).trans (s.stagePayload_pad 42 src len hodd)⟩

theorem State.udpSendBody_header :
    (s.udpSendBody src len).rd8 14 = 0x45 ∧ (s.udpSendBody src len).rd8 15 = 0 ∧
    (s.udpSendBody src len).rd16 16 = BitVec.ofNat 16 (20 + (8 + padded len)) ∧
    (s.udpSendBody src len).rd16 18 = s.rd16 18 ∧ (s.udpSendBody src len).rd16 20 = 0 ∧
    (s.udpSendBody src len).rd8 22 = s.cfg.ipTtl ∧ (s.udpSendBody src len).rd8 23 = 17 ∧
    (s.udpSendBody src len).rd32 26 = s.rd32 30 ∧ (s.udpSendBody src len).rd32 30 = s.rd32 26 ∧
    (s.udpSendBody src len).rd48 0 = s.rd48 6 ∧ (s.udpSendBody src len).rd48 6 = s.localMac ∧
    (s.udpSendBody src len).rd16 12 = 0x0800 :=
  (s.udpStaged_emits src len).ipSend_header (fun _ _ hx => s.udpStaged_byteB_outside src len (.inl hx)) _ _

end

theorem State.argBitsOk_udpSend (s : State) : s.argBitsOk .udpSend = true ↔ s.arg1.extractLsb' 16 16 = 0 := by
  rw [State.argBitsOk, Instr.operandBitsOk, beq_iff_eq, shiftRight_eq_zero_iff _ (by decide)]

/-- UDP_SEND's checks in the order of R272. -/
theorem exec_udpSend_eq (s : State) : exec .udpSend s = .next (
    if s.initialised = true then
      if s.arg1.extractLsb' 16 16 = 0 then
        if s.opSrc + s.opSendLen ≤ s.cfg.bufSize ∧ 42 + padded s.opSendLen ≤ s.cfg.bufSize then
          (s.udpSendBody s.opSrc s.opSendLen).finish (ipFrameLen (8 + padded s.opSendLen)) 0
        else s.raise .bounds
      else s.raise .arg
    else s.raise .noinit) := by
  change execUdpSend s = _
  simp only [execUdpSend, State.argBitsOk_udpSend, Bool.and_eq_true, State.inRange_iff]

section
variable {s : State}

theorem exec_udpSend_noinit (hinit : s.initialised = false) : exec .udpSend s = .next (s.raise .noinit) := by
  rw [exec_udpSend_eq, if_neg (by rw [hinit]; decide)]

theorem exec_udpSend_arg (hready : s.initialised = true) (hbits : s.arg1.extractLsb' 16 16 ≠ 0) :
    exec .udpSend s = .next (s.raise .arg) := by
  rw [exec_udpSend_eq, if_pos hready, if_neg hbits]

section
variable (hready : s.initialised = true) (hbits : s.arg1.extractLsb' 16 16 = 0)
include hready hbits

theorem exec_udpSend_bounds
    (hout : s.cfg.bufSize < s.arg0.toNat + s.arg1.toNat ∨ s.cfg.bufSize < 42 + padded s.arg1.toNat) :
    exec .udpSend s = .next (s.raise .bounds) := by
  rw [exec_udpSend_eq, if_pos hready, if_pos hbits, State.opSrc, State.opSendLen, low_half_toNat hbits, if_neg (by omega)]

theorem exec_udpSend_ready {src len : Nat} (hsrc : src = s.arg0.toNat) (hlen : len = s.arg1.toNat)
    (hin : src + len ≤ s.cfg.bufSize) (hout : 42 + padded len ≤ s.cfg.bufSize) :
    exec .udpSend s = .next ((s.udpSendBody src len).finish (ipFrameLen (8 + padded len)) 0) := by
  rw [exec_udpSend_eq, if_pos hready, if_pos hbits, State.opSrc, State.opSendLen, low_half_toNat hbits, ← hsrc, ← hlen,
    if_pos ⟨hin, hout⟩]

end

/-- A UDP_SEND with no error has sent its datagram. -/
theorem exec_udpSend_sent {t : State} (h : exec .udpSend s = .next t) (hok : t.err = false) :
    ∃ src len, t = (s.udpSendBody src len).finish (ipFrameLen (8 + padded len)) 0 := by
  have hraise {c : CmdError} (ht : s.raise c = t) : False := by
    subst ht
    exact Bool.false_ne_true hok.symm
  rw [exec_udpSend_eq] at h
  injection h with h
  split at h
  · split at h
    · split at h
      · exact ⟨_, _, h.symm⟩
      · exact (hraise h).elim
    · exact (hraise h).elim
  · exact (hraise h).elim

/-- Each UDP_SEND with no error exchanges the ports and the addresses. -/
theorem exec_udpSend_order {t : State} (h : exec .udpSend s = .next t) (hok : t.err = false) :
    t.rd16 34 = s.rd16 36 ∧ t.rd16 36 = s.rd16 34 ∧ t.rd32 26 = s.rd32 30 ∧ t.rd32 30 = s.rd32 26 := by
  obtain ⟨src, len, rfl⟩ := exec_udpSend_sent h hok
  rw [State.rd16_finish, State.rd16_finish, State.rd32_finish, State.rd32_finish]
  obtain ⟨hsrc, hdst, -, -⟩ := s.udpSendBody_message src len
  obtain ⟨-, -, -, -, -, -, -, hsrcIp, hdstIp, -⟩ := s.udpSendBody_header src len
  exact ⟨hsrc, hdst, hsrcIp, hdstIp⟩

end

/-- Settles O53: each of the two exchanges the ports and the addresses. -/
theorem twoUdpSendsRestoreTheOrder : Obligations.TwoUdpSendsRestoreTheOrder := by
  unfold Obligations.TwoUdpSendsRestoreTheOrder
  intro s t u a0 a1 _ ht htok hu huok
  obtain ⟨hsrc, hdst, hsrcIp, hdstIp⟩ := exec_udpSend_order ht htok
  obtain ⟨hsrc', hdst', hsrcIp', hdstIp'⟩ := exec_udpSend_order hu huok
  obtain ⟨-, h16, h32, -⟩ := State.reads_congr (s := t) (t := { t with arg0 := a0, arg1 := a1, stage := .start }) rfl rfl
  rw [h16] at hsrc' hdst'
  rw [h32] at hsrcIp' hdstIp'
  exact ⟨hsrc'.trans hdst, hdst'.trans hsrc, hsrcIp'.trans hdstIp, hdstIp'.trans hsrcIp⟩

/-- Settles O52, by the three checks of R272 in their order; the header is that of `IpSend`, and behind it stands the datagram as
it was staged. -/
theorem udpSendResult : Obligations.UdpSendResult := by
  unfold Obligations.UdpSendResult
  refine ⟨fun s c h => ?_, ?_⟩
  · rcases h with ⟨hinit, rfl⟩ | ⟨hready, hbits, rfl⟩ | ⟨hready, hbits, hout, rfl⟩
    · rw [exec_udpSend_noinit hinit]; rfl
    · rw [exec_udpSend_arg hready hbits]; rfl
    · rw [exec_udpSend_bounds hready hbits hout]; rfl
  · rintro s src len p ⟨-, -, -, -, -, -, -, hcfgTtl, -⟩ hready hbits hsrc hlen rfl hin hout
    have hexec := exec_udpSend_ready hready hbits hsrc hlen hin hout
    have hemits := s.udpSendBody_emits src len
    obtain ⟨hsrcPort, hdstPort, hlength, hzero⟩ := s.udpSendBody_message src len
    obtain ⟨hpayload, hpad⟩ := s.udpSendBody_payload src len
    obtain ⟨hver, htos, htotal, hid, hfrag, httl, hproto, hsrcIp, hdstIp, hdstHw, hsrcHw, htype⟩ := s.udpSendBody_header src len
    have hsum := (s.udpStaged src len).ipSend_foldedSum (8 + padded len) proto.ipprotoUdp
    have hbehind {x : Nat} := s.udpSendBody_byteB_behind src len (x := x)
    rw [← State.udpSendBody_eq] at hsum
    rw [ipFrameLen, ← Nat.add_assoc] at hexec
    rw [← Nat.add_assoc] at hemits htotal
    obtain ⟨hrd8, hrd16, hrd32, hrd48, hrange⟩ := (s.udpSendBody src len).reads_finish (BitVec.ofNat 32 (42 + padded len)) 0
    have hbyte := (s.udpSendBody src len).byteB_finish (BitVec.ofNat 32 (42 + padded len)) 0
    refine ⟨_, hexec, by rw [hrange]; exact hemits.finish _ 0, ?_⟩
    simp only [hrd8, hrd16, hrd32, hrd48, hbyte, State.foldedSum_finish]
    exact ⟨hsrcPort, hdstPort, hlength, hzero, hpayload, hpad, htotal, hid, hver, htos, hfrag, hproto, httl.trans hcfgTtl,
      hsrcIp, hdstIp, hsum, hdstHw, hsrcHw, htype, fun x hx => hbehind hx⟩

end Sys2Proof.Machine
end

section
/-! SUPPORT. TCP (44_udp_tcp.md R276 to R285): the exchange of an inbound segment, its answer and its delivery, and TCP_SEND. -/

namespace Sys2Proof.Machine

/-! ### The exchange of an inbound segment (R276) -/

/-- The segment as TCP_READ hands it on: ports and numbers exchanged. -/
def State.tcpExchanged (s : State) : State := s.swapPorts.swapSeqAck

theorem State.tcpExchanged_onlyFrame (s : State) : s.OnlyFrame s.tcpExchanged :=
  s.swapPorts_onlyFrame.trans s.swapPorts.swapSeqAck_onlyFrame

theorem State.tcpExchanged_byteB_outside (s : State) {x : Nat} (h : x < 34 ∨ 46 ≤ x) :
    s.tcpExchanged.byteB x = s.byteB x := by
  rw [State.tcpExchanged, State.swapSeqAck_byteB_outside _ (by omega), State.swapPorts_byteB_outside _ (by omega)]

theorem State.tcpExchanged_fields (s : State) : s.tcpExchanged.rd16 34 = s.rd16 36 ∧ s.tcpExchanged.rd16 36 = s.rd16 34 ∧
    s.tcpExchanged.rd32 38 = s.rd32 42 ∧ s.tcpExchanged.rd32 42 = s.rd32 38 := by
  obtain ⟨hsrc, hdst⟩ := s.swapPorts_fields
  obtain ⟨hseq, hack⟩ := s.swapPorts.swapSeqAck_fields
  have hport {a : Nat} (h : a + 2 ≤ 38) : s.tcpExchanged.rd16 a = s.swapPorts.rd16 a :=
    State.rd16_of_byteB fun x _ _ => s.swapPorts.swapSeqAck_byteB_outside (by omega)
  have hnumber {a : Nat} (h : 38 ≤ a) : s.swapPorts.rd32 a = s.rd32 a :=
    State.rd32_of_byteB fun x _ _ => s.swapPorts_byteB_outside (by omega)
  exact ⟨(hport (by decide)).trans hsrc, (hport (by decide)).trans hdst, hseq.trans (hnumber (by decide)),
    hack.trans (hnumber (by decide))⟩

/-- TCP_READ of a segment whose header fits: PSH alone decides whether it is answered or delivered. -/
theorem State.tcpRead_admitted {s : State} {total : Nat} (hhead : 20 ≤ s.tcpHlen) (hfits : 20 + s.tcpHlen ≤ total) :
    s.tcpRead total =
      if s.rd8 47 &&& 0x08 = 0 then s.tcpExchanged.tcpHandshake total (s.rd8 47)
      else s.tcpExchanged.tcpData total s.tcpHlen := by
  have hflags : s.tcpExchanged.rd8 47 = s.rd8 47 := s.tcpExchanged_byteB_outside (.inr (by decide))
  rw [← hflags]
  exact (if_neg (Nat.not_lt.2 hhead)).trans (if_neg (Nat.not_lt.2 hfits))

/-! ### A segment under RX_DISPATCH -/

/-- The segment as RX_DISPATCH answers or delivers it: the event is cleared, the terminator written, and the exchange done. -/
def State.tcpInbound (s : State) (total : Nat) : State := (s.clearEvent.terminated total).tcpExchanged

theorem State.tcpInbound_onlyFrame (s : State) (total : Nat) : s.clearEvent.OnlyFrame (s.tcpInbound total) :=
  (s.clearEvent.terminated_onlyFrame total).trans (State.tcpExchanged_onlyFrame _)

theorem State.tcpInbound_byteB (s : State) (total : Nat) {x : Nat} (h : x < 34 ∨ 46 ≤ x) :
    (s.tcpInbound total).byteB x = if x = 14 + total then 0 else s.byteB x :=
  (State.tcpExchanged_byteB_outside _ h).trans (s.clearEvent.terminated_byteB total x)

section
variable {s : State} {total : Nat} (hmin : 40 ≤ total)
include hmin

/-- The terminator stands behind the TCP header. -/
theorem State.tcpInbound_byteB_header {x : Nat} (h : x < 34 ∨ 46 ≤ x) (hx : x < 54) :
    (s.tcpInbound total).byteB x = s.byteB x := (s.tcpInbound_byteB total h).trans (if_neg (by omega))

theorem State.tcpInbound_fields :
    (s.tcpInbound total).rd16 34 = s.rd16 36 ∧ (s.tcpInbound total).rd16 36 = s.rd16 34 ∧
    (s.tcpInbound total).rd32 38 = s.rd32 42 ∧ (s.tcpInbound total).rd32 42 = s.rd32 38 := by
  have hbyte {x : Nat} (hx : x < 54) : (s.clearEvent.terminated total).byteB x = s.byteB x :=
    (s.clearEvent.terminated_byteB total x).trans (if_neg (by omega))
  have h16 {a : Nat} (h : a < 50) : (s.clearEvent.terminated total).rd16 a = s.rd16 a :=
    State.rd16_of_byteB fun x _ _ => hbyte (by omega)
  have h32 {a : Nat} (h : a < 50) : (s.clearEvent.terminated total).rd32 a = s.rd32 a :=
    State.rd32_of_byteB fun x _ _ => hbyte (by omega)
  obtain ⟨hsrc, hdst, hseq, hack⟩ := (s.clearEvent.terminated total).tcpExchanged_fields
  exact ⟨hsrc.trans (h16 (by decide)), hdst.trans (h16 (by decide)), hseq.trans (h32 (by decide)), hack.trans (h32 (by decide))⟩

end

/-- What RX_DISPATCH does with a valid packet that holds a TCP segment whose header fits. -/
theorem State.ValidPacket.ipDeliver_tcp {s : State} {total : Nat} (h : s.ValidPacket total) (hproto : s.rd8 23 = 6)
    (hhead : 20 ≤ s.tcpHlen) (hfits : 20 + s.tcpHlen ≤ total) :
    (s.clearEvent.terminated total).ipDeliver total =
      if s.rd8 47 &&& 0x08 = 0 then (s.tcpInbound total).tcpHandshake total (s.rd8 47)
      else (s.tcpInbound total).tcpData total s.tcpHlen := by
  have hbyte {x : Nat} (hx : x < 54) : (s.clearEvent.terminated total).rd8 x = s.rd8 x :=
    (s.clearEvent.terminated_byteB total x).trans (if_neg (by omega))
  have hhlen : (s.clearEvent.terminated total).tcpHlen = s.tcpHlen := by rw [State.tcpHlen, hbyte (by decide), State.tcpHlen]
  rw [State.ipDeliver_tcp (h.clearEvent.terminated_protocol.trans hproto), State.tcpRead_admitted (by rwa [hhlen]) (by rwa [hhlen]),
    hbyte (by decide), hhlen]
  rfl

/-! ### Delivery (R280, R281) -/

theorem State.tcpRoute_inbound (s : State) (total : Nat) (lp : Half) : (s.tcpInbound total).tcpRoute lp =
    if s.linePort ≠ 0 ∧ lp = s.linePort then 2 else if s.httpPort ≠ 0 ∧ lp = s.httpPort then 3 else 4 := by
  rw [State.tcpRoute, (s.tcpInbound_onlyFrame total).emits.linePort_eq, (s.tcpInbound_onlyFrame total).emits.httpPort_eq]
  rfl

/-- Settles O37: the segment is exchanged, and the event has the route of the exchanged source port. -/
theorem tcpDataIsDelivered : Obligations.TcpDataIsDelivered := by
  unfold Obligations.TcpDataIsDelivered
  rintro s n total hlen hwf hready rfl hlong hin hetype hversion hforUs hlength hfits hproto rfl hhead htotal hpsh
  have hvalid : s.ValidPacket total := ⟨hetype, hversion, hforUs, hlength, by omega, hfits⟩
  have hdeliver := hvalid.ipDeliver_tcp hproto hhead htotal
  rw [if_neg hpsh, State.tcpData] at hdeliver
  have hexec := hvalid.exec_rxDispatch_event hwf hready hlong hin hdeliver (State.tcpRoute_produced _ _).1
  have hrest := (s.tcpInbound_onlyFrame total).announced ((s.tcpInbound total).tcpRoute ((s.tcpInbound total).rd16 34))
    (BitVec.ofNat 16 (34 + s.tcpHlen)) (BitVec.ofNat 16 (total - 20 - s.tcpHlen)) 1 0
  obtain ⟨hsrc, hdst, hseq, hack⟩ := State.tcpInbound_fields (s := s) (total := total) (by omega)
  have hbyte {x : Nat} := s.tcpInbound_byteB total (x := x)
  rw [hsrc, s.tcpRoute_inbound] at hrest hexec
  refine ⟨_, hexec, hrest, ?_⟩
  simp only [State.rd16_finish, State.rd32_finish, State.byteB_finish, State.rd16_setEvent, State.rd32_setEvent,
    State.byteB_setEvent]
  exact ⟨(BitVec.toNat_ofNat _ _).trans (Nat.mod_eq_of_lt (by omega)), hsrc, hdst, hseq, hack,
    (hbyte (.inr (by omega))).trans (if_pos rfl), fun x hx hip => (hbyte (by omega)).trans (if_neg hip)⟩

/-! ### The answer to a segment without PSH (R278, R279) -/

/-- The answer as it is staged for the sender, from the exchanged segment with the flags `fl`. -/
def State.tcpAnswerStaged (s : State) (fl : Byte) : State := ((s.ackHandshake fl).addAck fl).pseudoStore 50 14

theorem State.tcpHandshake_eq (s : State) (total : Nat) (fl : Byte) :
    s.tcpHandshake total fl = (s.tcpAnswerStaged fl).ipSend (total - 20) proto.ipprotoTcp := rfl

theorem State.ackHandshake_number (s : State) (fl : Byte) :
    (s.ackHandshake fl).rd32 42 = if fl = 0x10 then s.rd32 42 else s.rd32 42 + 1 := by
  by_cases hack : fl = 0x10
  · rw [if_pos hack]
    exact congrArg (State.rd32 · 42) (if_neg (not_not_intro hack))
  · rw [if_neg hack, ← s.rd32_writeB_be32 42 (s.rd32 42 + 1)]
    exact congrArg (State.rd32 · 42) (if_pos hack)

theorem State.addAck_flags (s : State) {fl : Byte} (h : s.rd8 47 = fl) :
    (s.addAck fl).rd8 47 = if fl &&& 0x02 = 0 then fl else fl ||| 0x10 := by
  by_cases hsyn : fl &&& 0x02 = 0
  · rw [if_pos hsyn, ← h]
    exact congrArg (State.rd8 · 47) (if_neg (not_not_intro (h ▸ hsyn)))
  · rw [if_neg hsyn, ← s.rd8_writeB_singleton 47 (fl ||| 0x10)]
    exact congrArg (State.rd8 · 47) (if_pos hsyn)

section
variable (s : State) (fl : Byte)

theorem State.tcpAnswerStaged_emits : s.Emits (s.tcpAnswerStaged fl) [] :=
  ((s.ackHandshake_onlyFrame fl).trans (State.addAck_onlyFrame _ fl)).emits.trans (State.pseudoStore_emits _ 50 14)

/-- Only the acknowledgment, the flags and the checksum are written. -/
theorem State.tcpAnswerStaged_byteB {x : Nat} (h : x < 42 ∨ x = 46 ∨ x = 48 ∨ x = 49 ∨ 52 ≤ x) :
    (s.tcpAnswerStaged fl).byteB x = s.byteB x := by
  rw [State.tcpAnswerStaged, State.pseudoStore_byteB_outside _ _ _ (by omega), State.addAck_byteB_outside _ _ (by omega),
    State.ackHandshake_byteB_outside _ _ (by omega)]

theorem State.tcpAnswerStaged_number :
    (s.tcpAnswerStaged fl).rd32 42 = if fl = 0x10 then s.rd32 42 else s.rd32 42 + 1 := by
  refine Eq.trans (State.rd32_of_byteB fun x _ _ => ?_) (s.ackHandshake_number fl)
  rw [State.tcpAnswerStaged, State.pseudoStore_byteB_outside _ _ _ (by omega), State.addAck_byteB_outside _ _ (by omega)]

theorem State.tcpAnswerStaged_flags (h : s.rd8 47 = fl) :
    (s.tcpAnswerStaged fl).rd8 47 = if fl &&& 0x02 = 0 then fl else fl ||| 0x10 :=
  (State.pseudoStore_byteB_outside _ _ _ (by decide)).trans
    (State.addAck_flags _ ((s.ackHandshake_byteB_outside fl (by decide)).trans h))

/-- The checksum of the answer verifies, as it is staged. -/
theorem State.tcpAnswerStaged_pseudoSum {total : Nat} (hlength : total = (s.rd16 16).toNat) (hmin : 40 ≤ total) :
    (s.tcpAnswerStaged fl).pseudoSum 14 = 0xFFFF := by
  have hkept : ((s.ackHandshake fl).addAck fl).rd16 16 = s.rd16 16 := State.rd16_of_byteB fun x _ _ => by
    rw [State.addAck_byteB_outside _ _ (by omega), State.ackHandshake_byteB_outside _ _ (by omega)]
  exact State.pseudoSum_pseudoStore _ (hlength.trans (congrArg BitVec.toNat hkept.symm)) (by decide) (by decide) (by omega)

end

/-- The segment sent back as its answer, with the flags it came with. -/
def State.tcpAnswer (s : State) (total : Nat) : State := (s.tcpInbound total).tcpHandshake total (s.rd8 47)

section
variable {s : State} {total : Nat} (hlength : total = (s.rd16 16).toNat) (hmin : 40 ≤ total)

theorem State.tcpAnswer_byteB {x : Nat} (h : x = 46 ∨ x = 48 ∨ x = 49 ∨ 52 ≤ x) :
    (s.tcpAnswer total).byteB x = if x = 14 + total then 0 else s.byteB x := by
  rw [State.tcpAnswer, State.tcpHandshake_eq, State.ipSend_byteB_outside _ _ _ (by omega),
    State.tcpAnswerStaged_byteB _ _ (by omega), s.tcpInbound_byteB total (by omega)]

include hmin

theorem State.tcpAnswer_emits :
    s.clearEvent.Emits (s.tcpAnswer total) [.sent ((s.tcpAnswer total).readB 0 (14 + total))] := by
  have h := ((s.tcpInbound_onlyFrame total).emits.trans (State.tcpAnswerStaged_emits _ (s.rd8 47))).trans
    (State.ipSend_emits _ (total - 20) proto.ipprotoTcp)
  rwa [show 34 + (total - 20) = 14 + total by omega] at h

/-- Ports and numbers of the answer (R278). -/
theorem State.tcpAnswer_fields :
    (s.tcpAnswer total).rd16 34 = s.rd16 36 ∧ (s.tcpAnswer total).rd16 36 = s.rd16 34 ∧
    (s.tcpAnswer total).rd32 38 = s.rd32 42 ∧
    (s.tcpAnswer total).rd32 42 = (if s.rd8 47 = 0x10 then s.rd32 38 else s.rd32 38 + 1) ∧
    (s.tcpAnswer total).rd8 47 = (if s.rd8 47 &&& 0x02 = 0 then s.rd8 47 else s.rd8 47 ||| 0x10) := by
  obtain ⟨hsrc, hdst, hseq, hack⟩ := State.tcpInbound_fields (s := s) hmin
  have hflags : (s.tcpInbound total).rd8 47 = s.rd8 47 := State.tcpInbound_byteB_header hmin (by decide) (by decide)
  obtain ⟨h8, h16, h32, -⟩ :=
    ((s.tcpInbound total).tcpAnswerStaged (s.rd8 47)).ipSend_payload (total - 20) proto.ipprotoTcp
  have hstaged {x : Nat} (h : x < 42) := (s.tcpInbound total).tcpAnswerStaged_byteB (s.rd8 47) (x := x) (.inl h)
  rw [State.tcpAnswer, State.tcpHandshake_eq, h16 34 (by decide), h16 36 (by decide), h32 38 (by decide), h32 42 (by decide),
    h8 47 (by decide), State.tcpAnswerStaged_number, State.tcpAnswerStaged_flags _ _ hflags, hack]
  exact ⟨(State.rd16_of_byteB fun x _ _ => hstaged (by omega)).trans hsrc,
    (State.rd16_of_byteB fun x _ _ => hstaged (by omega)).trans hdst,
    (State.rd32_of_byteB fun x _ _ => hstaged (by omega)).trans hseq, rfl, rfl⟩

include hlength

/-- The header of the answer is that of the segment with the addresses exchanged. -/
theorem State.tcpAnswer_header :
    (s.tcpAnswer total).rd8 14 = 0x45 ∧ (s.tcpAnswer total).rd8 15 = 0 ∧ (s.tcpAnswer total).rd16 16 = s.rd16 16 ∧
    (s.tcpAnswer total).rd16 18 = s.rd16 18 ∧ (s.tcpAnswer total).rd16 20 = 0 ∧
    (s.tcpAnswer total).rd8 22 = s.cfg.ipTtl ∧ (s.tcpAnswer total).rd8 23 = 6 ∧
    (s.tcpAnswer total).rd32 26 = s.rd32 30 ∧ (s.tcpAnswer total).rd32 30 = s.rd32 26 ∧
    (s.tcpAnswer total).rd48 0 = s.rd48 6 ∧ (s.tcpAnswer total).rd48 6 = s.localMac ∧
    (s.tcpAnswer total).rd16 12 = 0x0800 := by
  have hword : s.rd16 16 = BitVec.ofNat 16 (20 + (total - 20)) := by
    rw [show 20 + (total - 20) = (s.rd16 16).toNat by omega, BitVec.ofNat_toNat, BitVec.setWidth_eq]
  rw [hword]
  exact ((s.tcpInbound_onlyFrame total).emits.trans (State.tcpAnswerStaged_emits _ (s.rd8 47))).ipSend_header
    (fun x _ hx => (State.tcpAnswerStaged_byteB _ _ (by omega)).trans
      (State.tcpInbound_byteB_header hmin (by omega) (by omega))) (total - 20) proto.ipprotoTcp

/-- Both checksums of the answer verify (40_checksum.md R144, R148). -/
theorem State.tcpAnswer_checksums (hproto : s.rd8 23 = 6) :
    (s.tcpAnswer total).pseudoSum 14 = 0xFFFF ∧ (s.tcpAnswer total).foldedSum 14 20 = 0xFFFF := by
  have hinbound {x : Nat} (h : x < 34) : (s.tcpInbound total).byteB x = s.byteB x :=
    State.tcpInbound_byteB_header hmin (by omega) (by omega)
  have hlen : (s.tcpInbound total).rd16 16 = s.rd16 16 := State.rd16_of_byteB fun x _ _ => hinbound (by omega)
  have hstaged {x : Nat} (h : x < 34) := (s.tcpInbound total).tcpAnswerStaged_byteB (s.rd8 47) (x := x) (by omega)
  have hmax := (s.rd16 16).isLt
  refine ⟨?_, State.ipSend_foldedSum _ _ _⟩
  rw [State.tcpAnswer, State.tcpHandshake_eq, State.ipSend_pseudoSum, State.tcpAnswerStaged_pseudoSum _ _ _ hmin]
  · rw [hlen]; exact hlength
  · exact ((hstaged (by decide)).trans (hinbound (by decide))).trans hproto
  · omega
  · rw [show 20 + (total - 20) = (s.rd16 16).toNat by omega, BitVec.ofNat_toNat, BitVec.setWidth_eq, ← hlen]
    exact State.rd16_of_byteB fun x _ _ => hstaged (by omega)

end

/-- Settles O36: the segment is exchanged and sent back as its answer, and both lie before the terminator. -/
theorem tcpHandshakeIsAnswered : Obligations.TcpHandshakeIsAnswered := by
  unfold Obligations.TcpHandshakeIsAnswered
  rintro s n total hwf hready rfl hlong hin hetype hversion hforUs hlength hfits hproto hhead htotal hpsh
  have hmin : 40 ≤ total := by omega
  have hvalid : s.ValidPacket total := ⟨hetype, hversion, hforUs, hlength, by omega, hfits⟩
  have hemits := State.tcpAnswer_emits (s := s) hmin
  have hdeliver : (s.clearEvent.terminated total).ipDeliver total = s.tcpAnswer total :=
    (hvalid.ipDeliver_tcp hproto hhead htotal).trans (if_pos hpsh)
  have hexec := hvalid.exec_rxDispatch hwf hready hlong hin hdeliver hemits.evtKind_eq
  obtain ⟨hsrc, hdst, hseq, hack, hflags⟩ := State.tcpAnswer_fields (s := s) hmin
  obtain ⟨hver, htos, hlen, hid, hfrag, httl, htcp, hsrcIp, hdstIp, hdstHw, hsrcHw, htype⟩ :=
    State.tcpAnswer_header hlength hmin
  obtain ⟨hsum, hheader⟩ := State.tcpAnswer_checksums hlength hmin hproto
  have hkept {x : Nat} := State.tcpAnswer_byteB (s := s) (total := total) (x := x)
  obtain ⟨-, -, -, -, -, -, -, hcfgTtl, -⟩ := hwf
  generalize s.tcpAnswer total = t at *
  obtain ⟨hrd8, hrd16, hrd32, hrd48, hrange⟩ := t.reads_finish 0 0
  have hbyte := t.byteB_finish 0 0
  refine ⟨_, hexec, by rw [hrange]; exact hemits.finish 0 0, ?_⟩
  simp only [hrd8, hrd16, hrd32, hrd48, hbyte, State.foldedSum_finish, State.pseudoSum_of_byteB 14 hbyte]
  refine ⟨hsrc, hdst, hseq, hack, hflags, ?_, State.rd16_of_byteB fun x _ _ => ?_, fun x hx => ?_, hsum, hheader, hlen, hid,
    hver, htos, hfrag, httl.trans hcfgTtl, htcp, htype, hsrcIp, hdstIp, hdstHw, hsrcHw, ?_, fun x hx => ?_⟩
  · exact (hkept (.inl rfl)).trans (if_neg (by omega))
  · exact (hkept (by omega)).trans (if_neg (by omega))
  · exact (hkept (by omega)).trans (if_neg (by omega))
  · exact (hkept (by omega)).trans (if_pos rfl)
  · exact (hkept (by omega)).trans (if_neg (by omega))

/-! ### TCP_SEND (R284, R285) -/

/-- The first stores of TCP_SEND: the payload behind the staged header, and the total length. -/
def State.tcpLoaded (s : State) (hlen src len : Nat) : State :=
  (s.stagePayload (34 + hlen) src len).wr16 16 (BitVec.ofNat 16 (20 + hlen + padded len))

/-- The segment as it is staged for the sender: the acknowledgment has advanced, and the checksum is stored. -/
def State.tcpStaged (s : State) (hlen src len : Nat) : State :=
  ((s.tcpLoaded hlen src len).tcpAdvance (padded len)).pseudoStore 50 14

theorem State.tcpSendBody_eq (s : State) (hlen src len : Nat) :
    s.tcpSendBody hlen src len = (s.tcpStaged hlen src len).ipSend (hlen + padded len) proto.ipprotoTcp := rfl

/-- The acknowledgment advances by `p`, but not where the local port is the line port (R285). -/
theorem State.tcpAdvance_number (s : State) (p : Nat) : (s.tcpAdvance p).rd32 42 =
    if s.linePort ≠ 0 ∧ s.rd16 34 = s.linePort then s.rd32 42 else s.rd32 42 + BitVec.ofNat 32 p := by
  by_cases hline : s.linePort ≠ 0 ∧ s.rd16 34 = s.linePort
  · rw [if_pos hline]
    exact congrArg (State.rd32 · 42) (if_pos hline)
  · rw [if_neg hline, ← s.rd32_writeB_be32 42 (s.rd32 42 + BitVec.ofNat 32 p)]
    exact congrArg (State.rd32 · 42) (if_neg hline)

section
variable (s : State) (hlen src len : Nat)

theorem State.tcpLoaded_onlyFrame : s.OnlyFrame (s.tcpLoaded hlen src len) :=
  (s.stagePayload_onlyFrame (34 + hlen) src len).writeB _ _

theorem State.tcpLoaded_byteB {x : Nat} (h : x < 16 ∨ 18 ≤ x) (hx : x < 34 + hlen ∨ 34 + hlen + padded len ≤ x) :
    (s.tcpLoaded hlen src len).byteB x = s.byteB x := by
  rw [State.tcpLoaded, State.wr16_eq, State.byteB_writeB_outside _ (by simp; omega), s.stagePayload_byteB_outside _ _ _ hx]

theorem State.tcpStaged_emits : s.Emits (s.tcpStaged hlen src len) [] :=
  ((s.tcpLoaded_onlyFrame hlen src len).trans (State.tcpAdvance_onlyFrame _ _)).emits.trans (State.pseudoStore_emits _ 50 14)

/-- Besides the payload and the total length, only the acknowledgment and the checksum are written. -/
theorem State.tcpStaged_byteB {x : Nat} (h : x < 42 ∨ (46 ≤ x ∧ x < 50) ∨ 52 ≤ x) :
    (s.tcpStaged hlen src len).byteB x = (s.tcpLoaded hlen src len).byteB x := by
  rw [State.tcpStaged, State.pseudoStore_byteB_outside _ _ _ (by omega), State.tcpAdvance_byteB_outside _ _ (by omega)]

theorem State.tcpStaged_byteB_outside {x : Nat} (h : x < 16 ∨ (18 ≤ x ∧ x < 42) ∨ (46 ≤ x ∧ x < 50) ∨ 52 ≤ x)
    (hx : x < 34 + hlen ∨ 34 + hlen + padded len ≤ x) : (s.tcpStaged hlen src len).byteB x = s.byteB x :=
  (s.tcpStaged_byteB hlen src len (by omega)).trans (s.tcpLoaded_byteB hlen src len (by omega) hx)

theorem State.tcpAdvance_length : ((s.tcpLoaded hlen src len).tcpAdvance (padded len)).rd16 16 =
    BitVec.ofNat 16 (20 + hlen + padded len) :=
  (State.rd16_of_byteB fun _ _ _ => State.tcpAdvance_byteB_outside _ _ (by omega)).trans (State.rd16_writeB_be16 _ _ _)

theorem State.tcpStaged_length : (s.tcpStaged hlen src len).rd16 16 = BitVec.ofNat 16 (20 + hlen + padded len) :=
  (State.rd16_of_byteB fun _ _ _ => State.pseudoStore_byteB_outside _ _ _ (by omega)).trans (s.tcpAdvance_length hlen src len)

theorem State.tcpSendBody_emits : s.Emits (s.tcpSendBody hlen src len)
    [.sent ((s.tcpSendBody hlen src len).readB 0 (34 + hlen + padded len))] := by
  rw [Nat.add_assoc]
  exact (s.tcpStaged_emits hlen src len).trans (State.ipSend_emits _ _ _)

variable {hlen} (hhead : 20 ≤ hlen)
include hhead

/-- The payload goes behind the header, so the port and the number are those of the staged segment. -/
theorem State.tcpStaged_number : (s.tcpStaged hlen src len).rd32 42 =
    if s.linePort ≠ 0 ∧ s.rd16 34 = s.linePort then s.rd32 42 else s.rd32 42 + BitVec.ofNat 32 (padded len) := by
  have hbefore {x : Nat} (h : 18 ≤ x) (hx : x < 54) : (s.tcpLoaded hlen src len).byteB x = s.byteB x :=
    s.tcpLoaded_byteB hlen src len (.inr h) (by omega)
  have hadvanced := (s.tcpLoaded hlen src len).tcpAdvance_number (padded len)
  rw [(s.tcpLoaded_onlyFrame hlen src len).emits.linePort_eq,
    State.rd16_of_byteB fun x _ _ => hbefore (by omega) (by omega),
    State.rd32_of_byteB fun x _ _ => hbefore (by omega) (by omega)] at hadvanced
  exact (State.rd32_of_byteB fun x _ _ => State.pseudoStore_byteB_outside _ _ _ (by omega)).trans hadvanced

/-- The checksum of the segment verifies, as it is staged. -/
theorem State.tcpStaged_pseudoSum (hmax : 20 + hlen + padded len < 65536) :
    (s.tcpStaged hlen src len).pseudoSum 14 = 0xFFFF := by
  refine State.pseudoSum_pseudoStore _ (total := 20 + hlen + padded len) ?_ (by decide) (by decide) (by omega)
  rw [show ((s.tcpLoaded hlen src len).tcpAdvance (padded len)).rd16 (14 + 2) = _ from s.tcpAdvance_length hlen src len,
    BitVec.toNat_ofNat, Nat.mod_eq_of_lt hmax]

/-! The segment as it goes out. -/

theorem State.tcpSendBody_byteB {x : Nat} (h : (34 ≤ x ∧ x < 42) ∨ (46 ≤ x ∧ x < 50) ∨ 52 ≤ x)
    (hx : x < 34 + hlen ∨ 34 + hlen + padded len ≤ x) : (s.tcpSendBody hlen src len).byteB x = s.byteB x :=
  (State.ipSend_byteB_outside _ _ _ (by omega)).trans (s.tcpStaged_byteB_outside hlen src len (by omega) hx)

theorem State.tcpSendBody_payload :
    (∀ j, j < len → (s.tcpSendBody hlen src len).byteB (34 + hlen + j) = s.byteB (src + j)) ∧
    (len % 2 = 1 → (s.tcpSendBody hlen src len).byteB (34 + hlen + len) = 0) := by
  have hloaded (j : Nat) : (s.tcpStaged hlen src len).byteB (34 + hlen + j) =
      (s.stagePayload (34 + hlen) src len).byteB (34 + hlen + j) := by
    rw [s.tcpStaged_byteB hlen src len (by omega), State.tcpLoaded, State.wr16_eq,
      State.byteB_writeB_outside _ (by simp; omega)]
  have hstaged (j : Nat) : (s.tcpSendBody hlen src len).byteB (34 + hlen + j) =
      (s.stagePayload (34 + hlen) src len).byteB (34 + hlen + j) :=
    (State.ipSend_byteB_outside _ _ _ (by omega)).trans (hloaded j)
  exact ⟨fun j hj => (hstaged j).trans (s.stagePayload_payload _ src len hj),
    fun hodd => (hstaged len).trans (s.stagePayload_pad _ src len hodd)⟩

/-- Ports, sequence number, header length, flags and window stay, and the acknowledgment advances (R285). -/
theorem State.tcpSendBody_fields :
    (s.tcpSendBody hlen src len).rd32 42 = (if s.linePort ≠ 0 ∧ s.rd16 34 = s.linePort then s.rd32 42
      else s.rd32 42 + BitVec.ofNat 32 (padded len)) ∧
    (s.tcpSendBody hlen src len).rd16 34 = s.rd16 34 ∧ (s.tcpSendBody hlen src len).rd16 36 = s.rd16 36 ∧
    (s.tcpSendBody hlen src len).rd32 38 = s.rd32 38 ∧ (s.tcpSendBody hlen src len).rd32 46 = s.rd32 46 := by
  have hkept {x : Nat} (h : (34 ≤ x ∧ x < 42) ∨ (46 ≤ x ∧ x < 50)) : (s.tcpSendBody hlen src len).byteB x = s.byteB x :=
    s.tcpSendBody_byteB src len hhead (by omega) (by omega)
  obtain ⟨-, -, h32, -⟩ := (s.tcpStaged hlen src len).ipSend_payload (hlen + padded len) proto.ipprotoTcp
  exact ⟨(h32 42 (by decide)).trans (s.tcpStaged_number src len hhead), State.rd16_of_byteB fun x _ _ => hkept (by omega),
    State.rd16_of_byteB fun x _ _ => hkept (by omega), State.rd32_of_byteB fun x _ _ => hkept (by omega),
    State.rd32_of_byteB fun x _ _ => hkept (by omega)⟩

theorem State.tcpSendBody_header :
    (s.tcpSendBody hlen src len).rd8 14 = 0x45 ∧ (s.tcpSendBody hlen src len).rd8 15 = 0 ∧
    (s.tcpSendBody hlen src len).rd16 16 = BitVec.ofNat 16 (20 + (hlen + padded len)) ∧
    (s.tcpSendBody hlen src len).rd16 18 = s.rd16 18 ∧ (s.tcpSendBody hlen src len).rd16 20 = 0 ∧
    (s.tcpSendBody hlen src len).rd8 22 = s.cfg.ipTtl ∧ (s.tcpSendBody hlen src len).rd8 23 = 6 ∧
    (s.tcpSendBody hlen src len).rd32 26 = s.rd32 30 ∧ (s.tcpSendBody hlen src len).rd32 30 = s.rd32 26 ∧
    (s.tcpSendBody hlen src len).rd48 0 = s.rd48 6 ∧ (s.tcpSendBody hlen src len).rd48 6 = s.localMac ∧
    (s.tcpSendBody hlen src len).rd16 12 = 0x0800 :=
  (s.tcpStaged_emits hlen src len).ipSend_header
    (fun x _ _ => s.tcpStaged_byteB_outside hlen src len (by omega) (by omega)) _ _

/-- The checksum is that of the staged protocol byte (40_checksum.md R146): the segment verifies with that byte, and as it is sent
where a TCP packet was staged. -/
theorem State.tcpSendBody_checksum (hmax : 20 + hlen + padded len < 65536) :
    ocSum ([(s.tcpSendBody hlen src len).rd16 26, (s.tcpSendBody hlen src len).rd16 28, (s.tcpSendBody hlen src len).rd16 30,
      (s.tcpSendBody hlen src len).rd16 32, (s.rd8 23).setWidth 16, BitVec.ofNat 16 (hlen + padded len)] ++
        wordsOf ((s.tcpSendBody hlen src len).readB 34 (hlen + padded len))) = 0xFFFF ∧
    (s.rd8 23 = 6 → (s.tcpSendBody hlen src len).pseudoSum 14 = 0xFFFF) := by
  have hproto : (s.tcpStaged hlen src len).rd8 23 = s.rd8 23 := s.tcpStaged_byteB_outside hlen src len (by omega) (by omega)
  have hlength := s.tcpStaged_length hlen src len
  have hsum := s.tcpStaged_pseudoSum src len hhead hmax
  rw [Nat.add_assoc] at hlength hmax
  refine ⟨?_, fun htcp => (State.ipSend_pseudoSum (hproto.trans htcp) hmax hlength).trans hsum⟩
  rw [← hproto, State.tcpSendBody_eq]
  exact (State.ipSend_ocSum _ hmax hlength).trans hsum

end

theorem State.argBitsOk_tcpSend (s : State) : s.argBitsOk .tcpSend = true ↔ s.arg1.extractLsb' 16 16 = 0 := s.argBitsOk_udpSend

/-- TCP_SEND where its checks pass. -/
theorem exec_tcpSend_ready {s : State} {src len hlen : Nat} (hready : s.initialised = true)
    (hbits : s.arg1.extractLsb' 16 16 = 0) (hsrc : src = s.arg0.toNat) (hlenArg : len = s.arg1.toNat) (hhlen : hlen = s.tcpHlen)
    (hhead : 20 ≤ hlen) (hin : src + len ≤ s.cfg.bufSize) (hout : 34 + hlen + padded len ≤ s.cfg.bufSize) :
    exec .tcpSend s = .next ((s.tcpSendBody hlen src len).finish (ipFrameLen (hlen + padded len)) 0) := by
  have hsend : s.opSendLen = len := (low_half_toNat hbits).trans hlenArg.symm
  have hrange : (s.inRange src len && s.inRange (34 + hlen) (padded len)) = true := by
    rw [Bool.and_eq_true, State.inRange_iff, State.inRange_iff]
    exact ⟨hin, hout⟩
  change execTcpSend s = _
  rw [execTcpSend, if_pos hready, if_pos (s.argBitsOk_tcpSend.2 hbits), ← hhlen, if_neg (Nat.not_lt.2 hhead), hsend,
    show s.opSrc = src from hsrc.symm, if_pos hrange]

/-- Settles O54: the checksum is stored over the staged segment, and the sender leaves its words as they are but for their order
and the protocol byte. -/
theorem tcpSendResult : Obligations.TcpSendResult := by
  unfold Obligations.TcpSendResult
  rintro s src len p hlen ⟨-, hsize, -, -, -, -, -, hcfgTtl, -⟩ hready hbits hsrc hlenArg rfl hhlen hhead hin hout
  have hexec := exec_tcpSend_ready hready hbits hsrc hlenArg hhlen hhead hin hout
  rw [ipFrameLen, ← Nat.add_assoc] at hexec
  have hmax : 20 + hlen + padded len < 65536 := by
    change 34 + hlen + padded len ≤ s.cfg.bufSize at hout
    omega
  have hemits := s.tcpSendBody_emits hlen src len
  obtain ⟨hpayload, hpad⟩ := s.tcpSendBody_payload src len hhead
  obtain ⟨hack, hsrcPort, hdstPort, hseq, hflags⟩ := s.tcpSendBody_fields src len hhead
  obtain ⟨hver, htos, htotal, hid, hfrag, httl, hproto, hsrcIp, hdstIp, hdstHw, hsrcHw, htype⟩ :=
    s.tcpSendBody_header src len hhead
  obtain ⟨hsum, hverifies⟩ := s.tcpSendBody_checksum src len hhead hmax
  have hheader := (s.tcpStaged hlen src len).ipSend_foldedSum (hlen + padded len) proto.ipprotoTcp
  have hkept {x : Nat} := s.tcpSendBody_byteB src len hhead (x := x)
  rw [← State.tcpSendBody_eq] at hheader
  rw [← Nat.add_assoc] at htotal
  generalize s.tcpSendBody hlen src len = t at *
  obtain ⟨hrd8, hrd16, hrd32, hrd48, hrange⟩ := t.reads_finish (BitVec.ofNat 32 (34 + hlen + padded len)) 0
  have hbyte := t.byteB_finish (BitVec.ofNat 32 (34 + hlen + padded len)) 0
  refine ⟨_, hexec, by rw [hrange]; exact hemits.finish _ 0, ?_⟩
  simp only [hrd8, hrd16, hrd32, hrd48, hrange, hbyte, State.foldedSum_finish, State.pseudoSum_of_byteB 14 hbyte]
  exact ⟨hpayload, hpad, hack, hsrcPort, hdstPort, hseq, hflags, fun x ⟨hlow, hhigh⟩ => hkept (by omega) (.inl hhigh), hsum,
    hverifies, htotal, hid, hver, htos, hfrag, httl.trans hcfgTtl, hproto, hsrcIp, hdstIp, hheader, hdstHw, hsrcHw, htype,
    fun x hx => hkept (by omega) (.inr hx)⟩

end Sys2Proof.Machine
end

section
/-! SUPPORT. Names and their label encoding (45_dns.md R312, R313), and the byte scan for the answer offset (R317). -/

namespace Sys2Proof.Machine

/-! ### The runs between dots -/

theorem dotRuns_ne_nil (nm : List Byte) : dotRuns nm ≠ [] := by
  intro h
  have := dotRuns_flatMap_length nm
  rw [h] at this
  cases this

theorem dotRuns_cons_dot (bs : List Byte) : dotRuns (0x2E :: bs) = [] :: dotRuns bs := rfl

/-- A byte other than '.' goes on with the run behind it. -/
theorem dotRuns_cons_ne {b : Byte} (h : b ≠ 0x2E) (bs : List Byte) :
    ∃ r rs, dotRuns bs = r :: rs ∧ dotRuns (b :: bs) = (b :: r) :: rs := by
  obtain ⟨r, rs, hruns⟩ := List.exists_cons_of_ne_nil (dotRuns_ne_nil bs)
  exact ⟨r, rs, hruns, by rw [dotRuns, if_neg h, hruns]⟩

theorem dot_not_mem_of_mem_dotRuns {nm t : List Byte} (h : t ∈ dotRuns nm) : (0x2E : Byte) ∉ t := by
  induction nm generalizing t with
  | nil => simp [List.mem_singleton.1 h]
  | cons b bs ih =>
    by_cases hb : b = 0x2E
    · subst hb
      rcases List.mem_cons.1 h with rfl | hmem
      · exact List.not_mem_nil
      · exact ih hmem
    · obtain ⟨r, rs, hruns, hcons⟩ := dotRuns_cons_ne hb bs
      rw [hruns] at ih
      rw [hcons] at h
      rcases List.mem_cons.1 h with rfl | hmem
      · exact List.not_mem_cons_of_ne_of_not_mem (Ne.symm hb) (ih List.mem_cons_self)
      · exact ih (List.mem_cons_of_mem r hmem)

/-- The runs joined by dots are the name. -/
theorem intercalate_dotRuns (nm : List Byte) : [(0x2E : Byte)].intercalate (dotRuns nm) = nm := by
  induction nm with
  | nil => rfl
  | cons b bs ih =>
    by_cases hb : b = 0x2E
    · subst hb
      rw [dotRuns_cons_dot, List.intercalate_cons_of_ne_nil (dotRuns_ne_nil bs), ih]; rfl
    · obtain ⟨r, rs, hruns, hcons⟩ := dotRuns_cons_ne hb bs
      rw [hruns] at ih
      rw [hcons]
      cases rs with
      | nil => exact congrArg (b :: ·) ih
      | cons r' rs =>
        rw [List.intercalate_cons_cons] at ih ⊢
        exact congrArg (b :: ·) ih

theorem length_le_of_mem_dotRuns {nm t : List Byte} (h : t ∈ dotRuns nm) : t.length ≤ nm.length := by
  have hlabel : (dnsLabel t).length ≤ ((dotRuns nm).flatMap dnsLabel).length :=
    (List.sublist_flatten_of_mem (List.mem_map_of_mem h)).length_le
  rw [dotRuns_flatMap_length, dnsLabel, List.length_cons] at hlabel
  omega

/-! ### The labels -/

theorem mem_dnsTokens {nm t : List Byte} : t ∈ dnsTokens nm ↔ t ∈ dotRuns nm ∧ t ≠ [] := by
  simp [dnsTokens]

theorem dnsTokens_eq_dotRuns {nm : List Byte} (h : [] ∉ dotRuns nm) : dnsTokens nm = dotRuns nm :=
  List.filter_eq_self.2 fun t ht => by
    have hne : t ≠ [] := ne_of_mem_of_not_mem ht h
    simpa using hne

/-- The decoder takes one label off; a length byte of a label is not the terminator. -/
theorem dnsDecode_dnsLabel_append {t : List Byte} (hne : t ≠ []) (hlen : t.length < 256) (k : Nat) (rest : List Byte) :
    dnsDecode (k + 1) (dnsLabel t ++ rest) = t :: dnsDecode k rest := by
  have hpos := List.length_pos_iff.2 hne
  have hnat : (BitVec.ofNat 8 t.length).toNat = t.length := by rw [BitVec.toNat_ofNat]; exact Nat.mod_eq_of_lt hlen
  have hbyte : BitVec.ofNat 8 t.length ≠ 0 := by intro h; rw [h] at hnat; exact hpos.ne hnat
  rw [dnsLabel, List.cons_append, dnsDecode, if_neg hbyte, hnat, List.take_left, List.drop_left]

theorem dnsDecode_labels {ts : List (List Byte)} (hts : ∀ t ∈ ts, t ≠ [] ∧ t.length < 256) {k : Nat} (hk : ts.length < k) :
    dnsDecode k (ts.flatMap dnsLabel ++ [0]) = ts := by
  induction ts generalizing k with
  | nil =>
    obtain ⟨k, rfl⟩ := Nat.exists_eq_succ_of_ne_zero (Nat.ne_zero_of_lt hk)
    rfl
  | cons t ts ih =>
    obtain ⟨k, rfl⟩ := Nat.exists_eq_succ_of_ne_zero (Nat.ne_zero_of_lt hk)
    obtain ⟨⟨hne, hlen⟩, hrest⟩ := List.forall_mem_cons.1 hts
    rw [List.flatMap_cons, List.append_assoc, dnsDecode_dnsLabel_append hne hlen, ih hrest (Nat.lt_of_succ_lt_succ hk)]

/-- Settles O55: the decoder takes the labels off one by one, and the labels are the runs between dots that are not empty. -/
theorem labelEncodingRoundTrips : Obligations.LabelEncodingRoundTrips := by
  unfold Obligations.LabelEncodingRoundTrips
  intro nm hnm
  have htokens : ∀ t ∈ dnsTokens nm, t ≠ [] ∧ t.length < 256 := fun t ht =>
    have hrun := mem_dnsTokens.1 ht
    ⟨hrun.2, by have := length_le_of_mem_dotRuns hrun.1; omega⟩
  refine ⟨fun k hk => dnsDecode_labels htokens hk, dnsEncode_length_le nm, fun t ht => ?_, fun hruns => ?_⟩
  · exact ⟨(htokens t ht).1, dot_not_mem_of_mem_dotRuns (mem_dnsTokens.1 ht).1⟩
  · rw [dnsTokens_eq_dotRuns hruns, intercalate_dotRuns]

/-! ### The name in `N` -/

/-- The name ends before the first 0x00. -/
theorem State.dottedName_eq {s : State} {nm : List Byte} (hin : nm.length < s.cfg.nameSize) (hend : s.byteN nm.length = 0)
    (hbytes : ∀ k, k < nm.length → nm[k]? = some (s.byteN k) ∧ s.byteN k ≠ 0) : s.dottedName = nm := by
  have hname : (List.range nm.length).map s.byteN = nm := List.ext_getElem? fun k => by
    rcases Nat.lt_or_ge k nm.length with hk | hk
    · rw [(hbytes k hk).1, List.getElem?_map, List.getElem?_range hk, Option.map_some]
    · rw [List.getElem?_eq_none hk, List.getElem?_eq_none (by simpa using hk)]
  have hnonzero : ∀ b ∈ nm, (b != 0) = true := by
    intro b hb
    rw [← hname] at hb
    obtain ⟨k, hk, rfl⟩ := List.mem_map.1 hb
    exact bne_iff_ne.2 (hbytes k (List.mem_range.1 hk)).2
  obtain ⟨d, hd⟩ := Nat.exists_eq_add_of_lt hin
  rw [State.dottedName, State.nameBytes, hd, Nat.add_assoc, List.range_add, List.map_append, hname,
    List.takeWhile_append_of_pos hnonzero, List.range_succ_eq_map]
  simp [hend]

/-! ### The answer offset (R317) -/

theorem State.questionEnd_eq_some {s : State} {i : Nat} : s.questionEnd = some i ↔
    s.byteB i = 0 ∧ (54 ≤ i ∧ i < s.cfg.bufSize) ∧ ∀ j, 54 ≤ j → j < i → s.byteB j ≠ 0 := by
  have hrange : i ∈ List.range' 54 (s.cfg.bufSize - 54) ↔ 54 ≤ i ∧ i < s.cfg.bufSize := by
    rw [List.mem_range'_1]; omega
  simp only [State.questionEnd, List.find?_range'_eq_some, hrange, beq_iff_eq, Bool.not_eq_true', beq_eq_false_iff_ne]

theorem State.questionEnd_eq_none {s : State} (h : ∀ i, 54 ≤ i → i < s.cfg.bufSize → s.byteB i ≠ 0) :
    s.questionEnd = none :=
  List.find?_range'_eq_none.2 fun i hlow hhigh => by simpa using h i hlow (by omega)

theorem State.answerOffset_of_end {s : State} {i : Nat} (h : s.questionEnd = some i) : s.answerOffset =
    if i + 1 + s.cfg.dnsAnswerSkip + 4 ≤ s.cfg.bufSize then i + 1 + s.cfg.dnsAnswerSkip else 0 := by
  unfold State.answerOffset
  simp only [h, State.inRange_iff]

theorem State.answerOffset_of_none {s : State} (h : s.questionEnd = none) : s.answerOffset = 0 := by
  unfold State.answerOffset
  rw [h]

/-- Settles O58, by whether and where the scan finds a 0x00. -/
theorem answerOffsetFollowsTheQuestion : Obligations.AnswerOffsetFollowsTheQuestion := by
  unfold Obligations.AnswerOffsetFollowsTheQuestion
  intro s
  refine ⟨fun i hlow hhigh hzero hfirst => ?_, fun hnone => State.answerOffset_of_none (State.questionEnd_eq_none hnone),
    fun hne => ?_⟩
  · rw [State.answerOffset_of_end (State.questionEnd_eq_some.2 ⟨hzero, ⟨hlow, hhigh⟩, hfirst⟩)]
    exact ⟨fun hin => if_pos hin, fun hout => if_neg (Nat.not_le.2 hout)⟩
  · cases hend : s.questionEnd with
    | none => exact absurd (State.answerOffset_of_none hend) hne
    | some i =>
      obtain ⟨-, ⟨hlow, -⟩, -⟩ := State.questionEnd_eq_some.1 hend
      rw [State.answerOffset_of_end hend] at hne ⊢
      split at hne
      · next hin => rw [if_pos hin]; omega
      · exact absurd rfl hne

end Sys2Proof.Machine
end

section
/-! SUPPORT. The query of DNS_RESOLVE (45_dns.md R314): what is staged, field by field, and the frame it goes out in. -/

namespace Sys2Proof.Machine

/-! ### The staged query -/

/-- A run of bytes just stored is read back. -/
theorem State.readB_writeB_same (s : State) (a : Nat) (bs : List Byte) : (s.writeB a bs).readB a bs.length = bs := by
  refine List.ext_getElem (State.readB_length _ _ _) fun i _ hi => ?_
  rw [State.readB_getElem, State.byteB_writeB, if_pos (by omega), Nat.add_sub_cancel_left, List.getD_eq_getElem _ _ hi]

theorem State.dnsHeader_byteB_outside (s : State) {x : Nat} (h : x < 34 ∨ (38 ≤ x ∧ x < 42) ∨ 54 ≤ x) :
    s.dnsHeader.byteB x = s.byteB x := by
  simp only [State.dnsHeader, State.wr16_eq]
  simp (disch := simp <;> omega) only [State.byteB_writeB_outside]

theorem State.dnsHeader_fields (s : State) : s.dnsHeader.rd16 34 = s.cfg.dnsPort ∧ s.dnsHeader.rd16 36 = s.dnsLport ∧
    s.dnsHeader.rd16 42 = s.dnsId ∧ s.dnsHeader.rd16 44 = 0x0100 ∧ s.dnsHeader.rd16 46 = 1 ∧ s.dnsHeader.rd16 48 = 0 ∧
    s.dnsHeader.rd16 50 = 0 ∧ s.dnsHeader.rd16 52 = 0 := by
  simp only [State.dnsHeader, State.wr16_eq]
  simp (disch := simp) only [State.rd16_writeB_outside, State.rd16_writeB_be16]
  simp [proto]

theorem State.dnsQuestion_byteB_outside (s : State) (q : List Byte) {x : Nat} (h : x < 54 ∨ 58 + q.length ≤ x) :
    (s.dnsQuestion q).byteB x = s.byteB x := by
  simp only [State.dnsQuestion, State.wr16_eq]
  rw [State.byteB_writeB_outside _ (by simp; omega), State.byteB_writeB_outside _ (by simp; omega),
    State.byteB_writeB_outside _ (by omega)]

theorem State.dnsQuestion_fields (s : State) (q : List Byte) : (s.dnsQuestion q).readB 54 q.length = q ∧
    (s.dnsQuestion q).rd16 (54 + q.length) = 1 ∧ (s.dnsQuestion q).rd16 (56 + q.length) = 1 := by
  have hclass : 56 + q.length = 54 + q.length + 2 := by omega
  simp only [State.dnsQuestion, State.wr16_eq]
  refine ⟨?_, ?_, ?_⟩
  · rw [State.readB_writeB_outside _ (by omega), State.readB_writeB_outside _ (by omega), State.readB_writeB_same]
  · rw [State.rd16_writeB_outside _ (by omega), State.rd16_writeB_be16]; rfl
  · rw [hclass, State.rd16_writeB_be16]; rfl

/-- The query as it is staged for the UDP sender: the server in inbound orientation, the DNS header and the question. -/
def State.dnsStaged (s : State) (ip : Word) (mac : HwAddr) : State :=
  (s.nextDnsId.stagePeer ip mac).dnsHeader.dnsQuestion (dnsEncode s.dottedName)

theorem State.dnsQuery_eq (s : State) (ip : Word) (mac : HwAddr) :
    s.dnsQuery ip mac = (s.dnsStaged ip mac).udpSendBody 42 s.dnsMessageLen := rfl

section
variable (s : State) (ip : Word) (mac : HwAddr)

theorem State.dnsStaged_emits : s.nextDnsId.Emits (s.dnsStaged ip mac) [] :=
  (((State.stagePeer_onlyFrame _ ip mac).trans (State.dnsHeader_onlyFrame _)).trans (State.dnsQuestion_onlyFrame _ _)).emits

/-- Header and question go behind the addresses. -/
theorem State.dnsStaged_byteB_lt {x : Nat} (h : x < 34) :
    (s.dnsStaged ip mac).byteB x = (s.nextDnsId.stagePeer ip mac).byteB x := by
  rw [State.dnsStaged, State.dnsQuestion_byteB_outside _ _ (by omega), State.dnsHeader_byteB_outside _ (by omega)]

theorem State.dnsStaged_addresses : (s.dnsStaged ip mac).rd48 6 = mac ∧ (s.dnsStaged ip mac).rd32 26 = ip ∧
    (s.dnsStaged ip mac).rd32 30 = s.localIp ∧ (s.dnsStaged ip mac).rd16 18 = 0 := by
  have hbyte {x : Nat} (h : x < 34) := s.dnsStaged_byteB_lt ip mac h
  obtain ⟨hmac, hsrc, hdst, hid⟩ := s.nextDnsId.stagePeer_fields ip mac
  exact ⟨(State.rd48_of_byteB fun x _ _ => hbyte (by omega)).trans hmac,
    (State.rd32_of_byteB fun x _ _ => hbyte (by omega)).trans hsrc,
    (State.rd32_of_byteB fun x _ _ => hbyte (by omega)).trans hdst,
    (State.rd16_of_byteB fun x _ _ => hbyte (by omega)).trans hid⟩

/-- The query carries the next transaction id (R311). -/
theorem State.dnsStaged_header : (s.dnsStaged ip mac).rd16 34 = s.cfg.dnsPort ∧
    (s.dnsStaged ip mac).rd16 36 = s.dnsLport ∧ (s.dnsStaged ip mac).rd16 42 = s.dnsId + 1 ∧
    (s.dnsStaged ip mac).rd16 44 = 0x0100 ∧ (s.dnsStaged ip mac).rd16 46 = 1 ∧ (s.dnsStaged ip mac).rd16 48 = 0 ∧
    (s.dnsStaged ip mac).rd16 50 = 0 ∧ (s.dnsStaged ip mac).rd16 52 = 0 := by
  have hbefore {a : Nat} (h : a + 2 ≤ 54) :
      (s.dnsStaged ip mac).rd16 a = (s.nextDnsId.stagePeer ip mac).dnsHeader.rd16 a :=
    State.rd16_of_byteB fun x _ _ => State.dnsQuestion_byteB_outside _ _ (by omega)
  have hkept := (State.stagePeer_onlyFrame s.nextDnsId ip mac).emits
  have hfields := (s.nextDnsId.stagePeer ip mac).dnsHeader_fields
  rw [hkept.cfg_eq, hkept.dnsLport_eq, hkept.dnsId_eq] at hfields
  simp (disch := decide) only [hbefore]
  exact hfields

/-! ### The query as it goes out -/

theorem State.dnsQuery_emits : s.nextDnsId.Emits (s.dnsQuery ip mac)
    [.sent ((s.dnsQuery ip mac).readB 0 (42 + padded s.dnsMessageLen))] := by
  have hsent := (s.dnsStaged_emits ip mac).trans ((s.dnsStaged ip mac).udpSendBody_emits 42 s.dnsMessageLen)
  rwa [← State.dnsQuery_eq, ← Nat.add_assoc] at hsent

/-- The message is staged where it goes out, and the padding follows it (44_udp_tcp.md R274). -/
theorem State.dnsQuery_payload :
    (∀ x, 42 ≤ x → x < 42 + s.dnsMessageLen → (s.dnsQuery ip mac).byteB x = (s.dnsStaged ip mac).byteB x) ∧
    (s.dnsMessageLen % 2 = 1 → (s.dnsQuery ip mac).byteB (42 + s.dnsMessageLen) = 0) := by
  obtain ⟨hmessage, hpad⟩ := (s.dnsStaged ip mac).udpSendBody_payload 42 s.dnsMessageLen
  refine ⟨fun x hlow hhigh => ?_, hpad⟩
  obtain ⟨j, rfl⟩ := Nat.exists_eq_add_of_le hlow
  exact hmessage j (by omega)

/-- Behind the padded message nothing is written. -/
theorem State.dnsQuery_byteB_behind {x : Nat} (h : 42 + padded s.dnsMessageLen ≤ x) :
    (s.dnsQuery ip mac).byteB x = s.byteB x := by
  have hend : 58 + (dnsEncode s.dottedName).length ≤ x := by
    simp only [padded, State.dnsMessageLen] at h
    omega
  rw [State.dnsQuery_eq, State.udpSendBody_byteB_behind _ _ _ h, State.dnsStaged, State.dnsQuestion_byteB_outside _ _ (.inr hend),
    State.dnsHeader_byteB_outside _ (by omega), State.stagePeer_byteB_ge _ _ _ (by omega), State.byteB_nextDnsId]

/-- The UDP header: the exchange of the sender turns the inbound orientation round. -/
theorem State.dnsQuery_udpHeader : (s.dnsQuery ip mac).rd16 34 = s.dnsLport ∧ (s.dnsQuery ip mac).rd16 36 = s.cfg.dnsPort ∧
    (s.dnsQuery ip mac).rd16 38 = BitVec.ofNat 16 (8 + padded s.dnsMessageLen) ∧ (s.dnsQuery ip mac).rd16 40 = 0 := by
  obtain ⟨hport, hlport, -⟩ := s.dnsStaged_header ip mac
  obtain ⟨hsrc, hdst, hlen, hzero⟩ := (s.dnsStaged ip mac).udpSendBody_message 42 s.dnsMessageLen
  exact ⟨hsrc.trans hlport, hdst.trans hport, hlen, hzero⟩

theorem State.dnsQuery_dnsHeader : (s.dnsQuery ip mac).rd16 42 = s.dnsId + 1 ∧ (s.dnsQuery ip mac).rd16 44 = 0x0100 ∧
    (s.dnsQuery ip mac).rd16 46 = 1 ∧ (s.dnsQuery ip mac).rd16 48 = 0 ∧ (s.dnsQuery ip mac).rd16 50 = 0 ∧
    (s.dnsQuery ip mac).rd16 52 = 0 := by
  have hlen : s.dnsMessageLen = 12 + (dnsEncode s.dottedName).length + 4 := rfl
  have hsame {a : Nat} (h : 42 ≤ a) (h' : a + 2 ≤ 54) : (s.dnsQuery ip mac).rd16 a = (s.dnsStaged ip mac).rd16 a :=
    State.rd16_of_byteB fun x _ _ => (s.dnsQuery_payload ip mac).1 x (by omega) (by omega)
  obtain ⟨-, -, hid, hflags, hqd, han, hns, har⟩ := s.dnsStaged_header ip mac
  exact ⟨(hsame (by decide) (by decide)).trans hid, (hsame (by decide) (by decide)).trans hflags,
    (hsame (by decide) (by decide)).trans hqd, (hsame (by decide) (by decide)).trans han,
    (hsame (by decide) (by decide)).trans hns, (hsame (by decide) (by decide)).trans har⟩

theorem State.dnsQuery_question {q : List Byte} (hq : q = dnsEncode s.dottedName) :
    (s.dnsQuery ip mac).readB 54 q.length = q ∧ (s.dnsQuery ip mac).rd16 (54 + q.length) = 1 ∧
    (s.dnsQuery ip mac).rd16 (56 + q.length) = 1 := by
  have hlen : s.dnsMessageLen = 12 + q.length + 4 := by rw [hq]; rfl
  have hbyte {x : Nat} (h : 54 ≤ x) (h' : x < 58 + q.length) : (s.dnsQuery ip mac).byteB x = (s.dnsStaged ip mac).byteB x :=
    (s.dnsQuery_payload ip mac).1 x (by omega) (by omega)
  obtain ⟨hname, htype, hclass⟩ := (s.nextDnsId.stagePeer ip mac).dnsHeader.dnsQuestion_fields q
  rw [hq, ← State.dnsStaged, ← hq] at hname htype hclass
  exact ⟨(State.readB_of_byteB fun x _ _ => hbyte (by omega) (by omega)).trans hname,
    (State.rd16_of_byteB fun x _ _ => hbyte (by omega) (by omega)).trans htype,
    (State.rd16_of_byteB fun x _ _ => hbyte (by omega) (by omega)).trans hclass⟩

theorem State.dnsQuery_header :
    (s.dnsQuery ip mac).rd48 0 = mac ∧ (s.dnsQuery ip mac).rd48 6 = s.localMac ∧ (s.dnsQuery ip mac).rd16 12 = 0x0800 ∧
    (s.dnsQuery ip mac).rd8 14 = 0x45 ∧ (s.dnsQuery ip mac).rd8 15 = 0 ∧
    (s.dnsQuery ip mac).rd16 16 = BitVec.ofNat 16 (28 + padded s.dnsMessageLen) ∧ (s.dnsQuery ip mac).rd16 18 = 0 ∧
    (s.dnsQuery ip mac).rd16 20 = 0 ∧ (s.dnsQuery ip mac).rd8 22 = s.cfg.ipTtl ∧ (s.dnsQuery ip mac).rd8 23 = 17 ∧
    (s.dnsQuery ip mac).rd32 26 = s.localIp ∧ (s.dnsQuery ip mac).rd32 30 = ip := by
  obtain ⟨hmac, hpeer, hlocal, hzero⟩ := s.dnsStaged_addresses ip mac
  obtain ⟨hver, htos, hlen, hid, hfrag, httl, hproto, hsrc, hdst, hdstHw, hsrcHw, htype⟩ :=
    (s.dnsStaged ip mac).udpSendBody_header 42 s.dnsMessageLen
  rw [(s.dnsStaged_emits ip mac).cfg_eq] at httl
  rw [(s.dnsStaged_emits ip mac).localMac] at hsrcHw
  rw [← Nat.add_assoc] at hlen
  exact ⟨hdstHw.trans hmac, hsrcHw, htype, hver, htos, hlen, hid.trans hzero, hfrag, httl, hproto, hsrc.trans hlocal,
    hdst.trans hpeer⟩

/-- The header checksum of the query verifies (40_checksum.md R144). -/
theorem State.dnsQuery_foldedSum : (s.dnsQuery ip mac).foldedSum 14 20 = 0xFFFF := by
  rw [State.dnsQuery_eq, State.udpSendBody_eq]
  exact State.ipSend_foldedSum _ _ _

end

end Sys2Proof.Machine
end

section
/-! SUPPORT. DNS_RESOLVE (45_dns.md R315, R316, R318): the turns of its two waits, the command as one piece, and `N` after it. -/

namespace Sys2Proof.Machine

/-! ### The turns of DNS_RESOLVE's two waits (R315) -/

theorem exec_dnsResolve_arpWait {s : State} (hstage : s.stage = .arpWait) : exec .dnsResolve s = .next s.dnsArpTurn := by
  simp only [exec, execDnsResolve, hstage]

theorem exec_dnsResolve_replyWait {s : State} (hstage : s.stage = .replyWait) :
    exec .dnsResolve s = .next s.dnsReplyTurn := by
  simp only [exec, execDnsResolve, hstage]

/-- DNS_RESOLVE goes on from the ARP reply in `B`: the query is sent to its sender, and the reply wait begins. -/
def State.dnsAsked (ip budget : Word) (s : State) : State := (s.dnsQuery ip (s.rd48 22)).beginWait .replyWait budget

/-- The end of DNS_RESOLVE with the answer offset in the reply (R317). -/
def State.dnsFound (s : State) : State := s.finishDns (BitVec.ofNat 32 s.answerOffset)

section
variable {s : State}

theorem State.dnsArpTurn_failed (hcnt : s.cnt = 0) : s.dnsArpTurn = s.finishDns 0 := by
  simp only [State.dnsArpTurn, (s.waitEnd_failed _).2 hcnt]

theorem State.dnsArpTurn_matched (hcnt : s.cnt ≠ 0) (hmatch : s.receivesMatch (·.arpMatch s.opIp)) :
    s.dnsArpTurn = s.decCnt.macReceive.dnsAsked s.opIp s.opBudget := by
  have hend := (s.waitEnd_matched (·.arpMatch s.opIp)).2 ⟨hcnt, hmatch⟩
  simp only [State.dnsArpTurn, hend, s.waitTurn_pos hcnt, State.dnsAsked]

theorem State.dnsArpTurn_again (hcnt : s.cnt ≠ 0) (hmatch : ¬ s.receivesMatch (·.arpMatch s.opIp)) :
    s.dnsArpTurn = s.decCnt.macReceive := by
  have hend := s.waitEnd_again (·.arpMatch s.opIp) hcnt hmatch
  simp only [State.dnsArpTurn, hend, s.waitTurn_pos hcnt]

theorem State.dnsReplyTurn_failed (hcnt : s.cnt = 0) : s.dnsReplyTurn = s.finishDns 0 := by
  simp only [State.dnsReplyTurn, (s.waitEnd_failed _).2 hcnt]

theorem State.dnsReplyTurn_matched (hcnt : s.cnt ≠ 0) (hmatch : s.receivesMatch (·.dnsMatch s.dnsId)) :
    s.dnsReplyTurn = s.decCnt.macReceive.dnsFound := by
  have hend := (s.waitEnd_matched (·.dnsMatch s.dnsId)).2 ⟨hcnt, hmatch⟩
  simp only [State.dnsReplyTurn, hend, s.waitTurn_pos hcnt, State.dnsFound]

theorem State.dnsReplyTurn_again (hcnt : s.cnt ≠ 0) (hmatch : ¬ s.receivesMatch (·.dnsMatch s.dnsId)) :
    s.dnsReplyTurn = s.decCnt.macReceive := by
  have hend := s.waitEnd_again (·.dnsMatch s.dnsId) hcnt hmatch
  simp only [State.dnsReplyTurn, hend, s.waitTurn_pos hcnt]

/-- The frame received is a reply to the query with transaction id `id` (R316). -/
theorem State.receivesMatch_dns (hwf : s.cfg.wf) (id : Half) : s.receivesMatch (·.dnsMatch id) ↔
    14 < s.nextFrame.length ∧ s.decCnt.macReceive.rd16 12 = 0x0800 ∧ s.decCnt.macReceive.rd8 14 = 0x45 ∧
      s.decCnt.macReceive.rd8 23 = 17 ∧ s.decCnt.macReceive.rd16 42 = id := by
  obtain ⟨-, -, -, -, -, heth, -⟩ := hwf
  rw [State.receivesMatch, heth, State.dnsMatch_iff]

end

theorem State.dnsAsked_reads (ip budget : Word) (s : State) :
    (∀ a, (s.dnsAsked ip budget).rd8 a = (s.dnsQuery ip (s.rd48 22)).rd8 a) ∧
    (∀ a, (s.dnsAsked ip budget).rd16 a = (s.dnsQuery ip (s.rd48 22)).rd16 a) ∧
    (∀ a, (s.dnsAsked ip budget).rd32 a = (s.dnsQuery ip (s.rd48 22)).rd32 a) ∧
    (∀ a, (s.dnsAsked ip budget).rd48 a = (s.dnsQuery ip (s.rd48 22)).rd48 a) ∧
    (∀ a n, (s.dnsAsked ip budget).readB a n = (s.dnsQuery ip (s.rd48 22)).readB a n) :=
  State.reads_congr (State.beginWait_frame _ _ _) (State.beginWait_frameGen _ _ _)

/-- What the reply wait begins with: the query sent, DNS_ID advanced and a fresh counter. -/
theorem State.dnsAsked_rest (ip budget : Word) (s : State) : s.dnsAsked ip budget = { s with
    frame := (s.dnsAsked ip budget).frame, acc := (s.dnsAsked ip budget).acc
    history := s.history ++ [.sent ((s.dnsAsked ip budget).readB 0 (42 + padded s.dnsMessageLen))], dnsId := s.dnsId + 1
    cnt := budget, stage := .replyWait } := by
  obtain ⟨-, -, -, -, hrange⟩ := State.dnsAsked_reads ip budget s
  rw [hrange]
  exact (s.dnsQuery_emits ip (s.rd48 22)).beginWait .replyWait budget

/-- Settles O57, by the three ways a turn of the reply wait can end. -/
theorem dnsReturnsTheAnswerOffset : Obligations.DnsReturnsTheAnswerOffset := by
  unfold Obligations.DnsReturnsTheAnswerOffset
  rintro s r hwf hstage rfl
  have hmatch := s.receivesMatch_dns hwf s.dnsId
  rw [exec_dnsResolve_replyWait hstage]
  refine ⟨fun hcnt => ?_, fun hcnt hlong htype hver hproto hid => ?_, fun hcnt hnone => ?_⟩
  · rw [State.dnsReplyTurn_failed hcnt]; rfl
  · rw [State.dnsReplyTurn_matched hcnt (hmatch.2 ⟨hlong, htype, hver, hproto, hid⟩)]; rfl
  · rw [State.dnsReplyTurn_again hcnt (hmatch.not.2 hnone)]; rfl

/-- Settles O56: the name encoded is what stands before the first 0x00 of `N`, and a turn of the ARP wait can end in three ways. -/
theorem dnsSendsItsQuery : Obligations.DnsSendsItsQuery := by
  unfold Obligations.DnsSendsItsQuery
  refine ⟨fun s nm hin hend hbytes => State.dottedName_eq hin hend hbytes, ?_⟩
  rintro s r q m p hwf hstage hr hq rfl rfl
  change r = s.decCnt.macReceive at hr
  have hmatch := s.receivesMatch_arp hwf s.opIp
  rw [← hr] at hmatch
  rw [exec_dnsResolve_arpWait hstage]
  refine ⟨fun hcnt => ?_, fun hcnt hnone => ?_, fun hcnt hlong htype hop hsender => ?_⟩
  · rw [State.dnsArpTurn_failed hcnt]; rfl
  · rw [State.dnsArpTurn_again hcnt (hmatch.not.2 hnone), hr]
  · rw [State.dnsArpTurn_matched hcnt (hmatch.2 ⟨hlong, htype, hop, hsender⟩), ← hr]
    have hq' : q = dnsEncode r.dottedName := by rw [hr]; exact hq
    have hlen : r.dnsMessageLen = 12 + q.length + 4 := by rw [hq']; rfl
    have hrest := State.dnsAsked_rest s.opIp s.opBudget r
    obtain ⟨h8, h16, h32, h48, hrange⟩ := State.dnsAsked_reads s.opIp s.opBudget r
    have hbyte := (r.dnsQuery s.opIp (r.rd48 22)).byteB_beginWait .replyWait s.opBudget
    obtain ⟨hdst, hsrc, hetype, hver, htos, htotal, hid, hfrag, httl, hproto, hlocal, hpeer⟩ :=
      r.dnsQuery_header s.opIp (r.rd48 22)
    obtain ⟨hlport, hport, hulen, huzero⟩ := r.dnsQuery_udpHeader s.opIp (r.rd48 22)
    obtain ⟨hdnsId, hflags, hqd, han, hns, har⟩ := r.dnsQuery_dnsHeader s.opIp (r.rd48 22)
    obtain ⟨hname, hqtype, hqclass⟩ := r.dnsQuery_question s.opIp (r.rd48 22) hq'
    obtain ⟨-, hpad⟩ := r.dnsQuery_payload s.opIp (r.rd48 22)
    have hsum := r.dnsQuery_foldedSum s.opIp (r.rd48 22)
    have hbehind {x : Nat} := r.dnsQuery_byteB_behind s.opIp (r.rd48 22) (x := x)
    obtain ⟨-, -, -, -, -, -, -, hcfgTtl, hcfgPort⟩ := hwf
    rw [hlen] at hrest htotal hulen hpad hbehind
    refine ⟨_, rfl, by subst hr; exact hrest, ?_⟩
    simp only [h8, h16, h32, h48, hrange]
    subst hr
    exact ⟨hdst, hsrc, hetype, hver, htos, htotal, hid, hfrag, httl.trans hcfgTtl, hproto, hlocal, hpeer,
      (State.foldedSum_of_byteB fun x _ _ => hbyte x).trans hsum, hlport, hport.trans hcfgPort, hulen, huzero, hdnsId, hflags,
      hqd, han, hns, har, hname, hqtype, hqclass, fun hodd => (hbyte _).trans (hpad hodd),
      fun x hx => (hbyte x).trans (hbehind hx)⟩

/-! ### DNS_RESOLVE as one piece (R315) -/

theorem State.dnsAsked_dnsId (ip budget : Word) (s : State) : (s.dnsAsked ip budget).dnsId = s.dnsId + 1 := by
  rw [State.dnsAsked_rest]

theorem State.arpAsked_dnsId (s : State) : s.arpAsked.dnsId = s.dnsId := by
  rw [State.arpAsked, State.beginWait_dnsId, (s.clearEvent.arpRequest_emits s.opIp).dnsId_eq, State.clearEvent_dnsId]

/-- DNS_RESOLVE waits for the hardware address of the server `ip`, and DNS_ID still holds `id`. -/
def State.awaitsServer (ip budget : Word) (id : Half) (s : State) : Prop :=
  s.stage = .arpWait ∧ s.opIp = ip ∧ s.opBudget = budget ∧ s.dnsId = id

theorem State.arpAsked_awaitsServer (s : State) : s.arpAsked.awaitsServer s.opIp s.opBudget s.dnsId :=
  ⟨s.arpAsked_stage, s.arpAsked_opIp, s.arpAsked_opBudget, s.arpAsked_dnsId⟩

/-- DNS_RESOLVE's wait for the hardware address of the server. -/
theorem dnsResolve_waitsBy_arp (ip budget : Word) (id : Half) :
    WaitsBy .dnsResolve (State.awaitsServer ip budget id) (·.arpMatch ip) (State.dnsAsked ip budget) (State.finishDns · 0) where
  busy := by rintro s ⟨hstage, -⟩; rw [hstage]; nofun
  received h := h
  failed := by rintro s ⟨hstage, -⟩ hcnt; rw [exec_dnsResolve_arpWait hstage, State.dnsArpTurn_failed hcnt]
  matched := by
    rintro s ⟨hstage, rfl, rfl, -⟩ hcnt h; rw [exec_dnsResolve_arpWait hstage, State.dnsArpTurn_matched hcnt h]
  again := by rintro s ⟨hstage, rfl, -⟩ hcnt h; rw [exec_dnsResolve_arpWait hstage, State.dnsArpTurn_again hcnt h]

/-- DNS_RESOLVE's wait for the reply with transaction id `id`. -/
theorem dnsResolve_waitsBy_reply (id : Half) :
    WaitsBy .dnsResolve (fun s => s.stage = .replyWait ∧ s.dnsId = id) (·.dnsMatch id) State.dnsFound
      (State.finishDns · 0) where
  busy := by rintro s ⟨hstage, -⟩; rw [hstage]; nofun
  received h := h
  failed := by rintro s ⟨hstage, -⟩ hcnt; rw [exec_dnsResolve_replyWait hstage, State.dnsReplyTurn_failed hcnt]
  matched := by rintro s ⟨hstage, rfl⟩ hcnt h; rw [exec_dnsResolve_replyWait hstage, State.dnsReplyTurn_matched hcnt h]
  again := by rintro s ⟨hstage, rfl⟩ hcnt h; rw [exec_dnsResolve_replyWait hstage, State.dnsReplyTurn_again hcnt h]

/-- The ARP wait leaves DNS_ID alone, so the id the reply is matched with is the one after the id at the start. -/
theorem State.wholeDnsResolve_ready {s : State} (hready : s.initialised = true) (hname : s.nameEnds = true) :
    s.wholeDnsResolve =
      afterWait
        (afterWait State.dnsFound (State.finishDns · 0) ∘ State.boundedWait (·.dnsMatch (s.dnsId + 1)) s.opBudget.toNat ∘
          State.dnsAsked s.opIp s.opBudget)
        (State.finishDns · 0) (s.arpAsked.boundedWait (·.arpMatch s.opIp) s.opBudget.toNat) := by
  have hkept := (dnsResolve_waitsBy_arp s.opIp s.opBudget s.dnsId).boundedWait s.arpAsked_awaitsServer s.opBudget.toNat
  rw [State.wholeDnsResolve, if_pos hready, if_pos hname, State.waitFor, ← State.arpAsked]
  rcases hwait : s.arpAsked.boundedWait (·.arpMatch s.opIp) s.opBudget.toNat with ⟨_ | _, t⟩ <;> rw [hwait] at hkept
  case false => rfl
  case true =>
    obtain ⟨-, -, -, hid⟩ := hkept
    have hmatched : (t.dnsQuery s.opIp (t.rd48 22)).dnsId = s.dnsId + 1 := by
      rw [(t.dnsQuery_emits s.opIp (t.rd48 22)).dnsId_eq, State.nextDnsId_dnsId, hid]
    simp only [afterWait, Function.comp_apply, State.waitFor, State.dnsAsked, hmatched]
    rcases ((t.dnsQuery s.opIp (t.rd48 22)).beginWait .replyWait s.opBudget).boundedWait (·.dnsMatch (s.dnsId + 1))
      s.opBudget.toNat with ⟨_ | _, u⟩ <;> rfl

theorem State.wholeDnsResolve_noname {s : State} (hready : s.initialised = true) (h : s.nameEnds ≠ true) :
    s.wholeDnsResolve = s.scrambleN.raise .name := (if_pos hready).trans (if_neg h)

theorem State.wholeDnsResolve_noinit {s : State} (h : s.initialised ≠ true) : s.wholeDnsResolve = s.raise .noinit := if_neg h

theorem State.dnsStart_noname {s : State} (hready : s.initialised = true) (h : s.nameEnds ≠ true) :
    s.dnsStart = s.scrambleN.raise .name := (if_pos hready).trans (if_neg h)

theorem exec_dnsResolve_noname {s : State} (hstage : s.stage = .start) (hready : s.initialised = true)
    (h : s.nameEnds ≠ true) : exec .dnsResolve s = .next (s.scrambleN.raise .name) := by
  rw [← State.dnsStart_noname hready h]
  simp only [exec, execDnsResolve, hstage]

/-- Settles O59: the start is one step, and the two waits that follow run to the end of the command. -/
theorem dnsResolveMeetsItsPseudocode : Obligations.DnsResolveMeetsItsPseudocode := by
  unfold Obligations.DnsResolveMeetsItsPseudocode
  intro s k hstage hk
  obtain ⟨k, rfl⟩ := Nat.exists_eq_succ_of_ne_zero (Nat.ne_zero_of_lt hk)
  by_cases hready : s.initialised = true
  · by_cases hname : s.nameEnds = true
    · have hbusy : s.arpAsked.stage ≠ .idle := by rw [s.arpAsked_stage]; nofun
      have hnext : ∀ t : State, t.awaitsServer s.opIp s.opBudget s.dnsId →
          ((t.dnsAsked s.opIp s.opBudget).stage = .replyWait ∧ (t.dnsAsked s.opIp s.opBudget).dnsId = s.dnsId + 1) ∧
            (t.dnsAsked s.opIp s.opBudget).cnt.toNat = s.opBudget.toNat :=
        fun t ⟨_, _, _, hid⟩ => ⟨⟨rfl, (State.dnsAsked_dnsId _ _ t).trans (congrArg (· + 1) hid)⟩, rfl⟩
      rw [runCommand_succ_goesOn k (exec_dnsResolve_start hstage hready hname) hbusy, State.wholeDnsResolve_ready hready hname]
      exact (dnsResolve_waitsBy_arp s.opIp s.opBudget s.dnsId).run_twice (dnsResolve_waitsBy_reply (s.dnsId + 1))
        (fun _ => rfl) (fun _ => rfl) (fun _ => rfl) hnext s.arpAsked_awaitsServer (congrArg BitVec.toNat s.arpAsked_cnt)
        (Nat.le_of_succ_le_succ hk)
    · rw [State.wholeDnsResolve_noname hready hname]
      exact runCommand_succ_ended k (exec_dnsResolve_noname hstage hready hname) rfl
  · rw [State.wholeDnsResolve_noinit hready]
    exact runCommand_succ_ended k (exec_noinit nofun nofun hstage (Bool.eq_false_iff.2 hready)) rfl

/-! ### `N` after DNS_RESOLVE (R318) -/

/-- What a step from `s` to `t` makes of `N`: at the end of the command it is left unspecified, before that it is kept. -/
def State.LeavesName (s t : State) : Prop :=
  (t.stage = .idle → t.name = [] ∧ t.nameGen = s.nameGen + 1) ∧ (t.stage ≠ .idle → t.name = s.name ∧ t.nameGen = s.nameGen)

theorem State.LeavesName.ended {s t : State} (hidle : t.stage = .idle) (hname : t.name = [])
    (hgen : t.nameGen = s.nameGen + 1) : s.LeavesName t :=
  ⟨fun _ => ⟨hname, hgen⟩, fun hbusy => absurd hidle hbusy⟩

theorem State.LeavesName.goesOn {s t : State} (hbusy : t.stage ≠ .idle) (hname : t.name = s.name)
    (hgen : t.nameGen = s.nameGen) : s.LeavesName t :=
  ⟨fun hidle => absurd hidle hbusy, fun _ => ⟨hname, hgen⟩⟩

/-- A byte of `N` that nothing has written is a free value (93 U5). -/
theorem State.byteN_of_unwritten {s : State} (h : s.name = []) (k : Nat) : s.byteN k = Config.nameByte s.nameGen k := by
  rw [State.byteN, h]; rfl

theorem State.arpAsked_name (s : State) : s.arpAsked.name = s.name ∧ s.arpAsked.nameGen = s.nameGen := by
  have hsent := s.clearEvent.arpRequest_emits s.opIp
  rw [State.arpAsked, State.beginWait_name, State.beginWait_nameGen, hsent.name_eq, hsent.nameGen_eq]
  exact ⟨rfl, rfl⟩

theorem State.dnsAsked_name (ip budget : Word) (s : State) :
    (s.dnsAsked ip budget).name = s.name ∧ (s.dnsAsked ip budget).nameGen = s.nameGen := by
  rw [State.dnsAsked_rest]; exact ⟨rfl, rfl⟩

section
variable {s : State}

theorem State.dnsStart_leavesName (hready : s.initialised = true) : s.LeavesName s.dnsStart := by
  by_cases hname : s.nameEnds = true
  · have hstart : s.dnsStart = s.arpAsked := (if_pos hready).trans (if_pos hname)
    obtain ⟨hkept, hgen⟩ := s.arpAsked_name
    rw [hstart]
    exact .goesOn nofun hkept hgen
  · rw [State.dnsStart_noname hready hname]
    exact .ended rfl rfl rfl

/-- A wait that goes on keeps `N`. -/
theorem State.macReceive_leavesName (hbusy : s.stage ≠ .idle) : s.LeavesName s.decCnt.macReceive := .goesOn hbusy rfl rfl

theorem State.finishDns_leavesName (r0 : Word) : s.LeavesName (s.finishDns r0) := .ended rfl rfl rfl

theorem State.dnsArpTurn_leavesName (hstage : s.stage = .arpWait) : s.LeavesName s.dnsArpTurn := by
  by_cases hcnt : s.cnt = 0
  · rw [State.dnsArpTurn_failed hcnt]; exact State.finishDns_leavesName 0
  by_cases hmatch : s.receivesMatch (·.arpMatch s.opIp)
  · obtain ⟨hkept, hgen⟩ := State.dnsAsked_name s.opIp s.opBudget s.decCnt.macReceive
    rw [State.dnsArpTurn_matched hcnt hmatch]; exact .goesOn nofun hkept hgen
  · rw [State.dnsArpTurn_again hcnt hmatch]; exact State.macReceive_leavesName (by rw [hstage]; nofun)

theorem State.dnsReplyTurn_leavesName (hstage : s.stage = .replyWait) : s.LeavesName s.dnsReplyTurn := by
  by_cases hcnt : s.cnt = 0
  · rw [State.dnsReplyTurn_failed hcnt]; exact State.finishDns_leavesName 0
  by_cases hmatch : s.receivesMatch (·.dnsMatch s.dnsId)
  · rw [State.dnsReplyTurn_matched hcnt hmatch]; exact .ended rfl rfl rfl
  · rw [State.dnsReplyTurn_again hcnt hmatch]; exact State.macReceive_leavesName (by rw [hstage]; nofun)

theorem exec_dnsResolve_leavesName {t : State} (h : exec .dnsResolve s = .next t) (hready : s.initialised = true) :
    s.LeavesName t := by
  obtain rfl := Host.Outcome.next.inj h
  split
  · next hg => exact State.dnsArpTurn_leavesName hg
  · next hg => exact State.dnsReplyTurn_leavesName hg
  · exact State.dnsStart_leavesName hready

end

/-- Settles O60, by the step's stage: its start, or a turn of one of its waits. -/
theorem nameIsUnspecifiedAfterDnsResolve : Obligations.NameIsUnspecifiedAfterDnsResolve := by
  unfold Obligations.NameIsUnspecifiedAfterDnsResolve
  intro s t h hready
  obtain ⟨hended, hkept⟩ := exec_dnsResolve_leavesName h hready
  refine ⟨fun hidle k => ?_, hkept⟩
  obtain ⟨hname, hgen⟩ := hended hidle
  rw [State.byteN_of_unwritten hname, hgen]

end Sys2Proof.Machine
end

section
/-! SUPPORT. Two rules of the whole machine (60_exceptions.md R345, R360, R361): a BUSY engine always has a step, and OVR is sticky. -/

namespace Sys2Proof.Machine

/-! ### A step always exists while BUSY (R361) -/

/-- No command faults or refuses, in any state. -/
theorem exec_next (i : Instr) (s : State) : ∃ t, exec i s = .next t := by
  cases i <;> exact ⟨_, rfl⟩

theorem step_engine_exists {s : State} (hturn : s.turn = .engine) : ∃ t, step s = .next t := by
  cases hcmd : s.command with
  | ok i => rw [step_engine hturn hcmd]; exact exec_next i s.passTurn
  | error e => exact ⟨s.passTurn.raise .illegal, by simp only [step, hturn, hcmd]⟩

/-- With its script at the end the host's turn does nothing (R360). -/
theorem step_host_done {s : State} (hturn : s.turn = .host) (hs : s.script = []) : step s = .next s := by
  simp only [step, hturn, State.passTurn_script_nil hs, State.hostTurn, hs]

theorem State.runEnded_iff (s : State) : s.runEnded = true ↔ s.script = [] ∧ s.stage = .idle := by
  simp [State.runEnded, State.busy]

/-- Settles O5: every arm of `exec` is a next state, and after its end a run is the host's turn with nothing left to do. -/
theorem busyEngineAlwaysSteps : Obligations.BusyEngineAlwaysSteps := by
  unfold Obligations.BusyEngineAlwaysSteps
  refine ⟨fun s _ hturn => step_engine_exists hturn, fun s hended => ?_⟩
  obtain ⟨hs, hidle⟩ := s.runEnded_iff.1 hended
  exact step_host_done (State.turn_idle hidle).1 hs

/-! ### OVR is sticky (R345) -/

section
variable {s t : State} (hset : s.ovr = true)
include hset

theorem State.takeCommand_ovr (w : Word) : (s.takeCommand w).ovr = true := by
  rw [State.takeCommand]; split <;> exact hset

/-- A write of any register but STATUS leaves OVR set. -/
theorem State.writeReg_ovr (v : Word) {r : Reg} (hr : r ≠ .status) :
    (s.writeRegBusy v r).ovr = true ∧ (s.writeRegIdle v r).ovr = true := by
  cases r
  case status => exact absurd rfl hr
  case cmd => exact ⟨rfl, State.takeCommand_ovr hset v⟩
  case result0 | result1 | evtKind | evtOff | evtLen => exact ⟨hset, hset⟩
  all_goals exact ⟨rfl, hset⟩

/-- Of all host writes only one of STATUS with bit 3 set clears OVR (10_state.md R36, R38). -/
theorem State.writeTarget_ovr {v : Word} {τ : Target} (h : s.writeTarget v τ = some t) :
    t.ovr = true ∨ τ = .reg .status ∧ v.getLsbD 3 = true := by
  cases τ with
  | reg r =>
    obtain rfl := Option.some.inj h
    by_cases hr : r = .status
    · subst hr
      cases hbit : v.getLsbD 3 with
      | true => exact .inr ⟨rfl, rfl⟩
      | false =>
        refine .inl ?_
        rw [State.writeRegBusy, State.writeRegIdle, ite_self, State.writeStatus_eq, hbit]
        exact hset
    · obtain ⟨hbusy, hidle⟩ := State.writeReg_ovr hset v hr
      refine .inl ?_
      split
      · exact hbusy
      · exact hidle
  | nameByte k | frameByte k =>
    obtain rfl := Option.some.inj h
    refine .inl ?_
    split
    · rfl
    · exact hset
  | reserved => obtain rfl := Option.some.inj h; exact .inl hset
  | refused | outside => cases h

/-- Of all operations of the host only the reset event and such a write clear OVR. -/
theorem State.hostOp_ovr {op : HostOp} (h : s.hostOp op = .next t) :
    t.ovr = true ∨ op = .reset ∨ ∃ v : Word, op = .write 4 (s.cfg.engineBase + 4) v ∧ v.getLsbD 3 = true := by
  cases op with
  | write bytes addr v =>
    rcases State.writeTarget_ovr hset (State.hostWrite_next h) with hkept | ⟨hτ, hbit⟩
    · exact .inl hkept
    · obtain ⟨rfl, rfl⟩ := eq_of_target_reg hτ
      exact .inr (.inr ⟨v, rfl, hbit⟩)
  | read bytes addr =>
    obtain ⟨off, v, rfl⟩ := State.hostRead_next h
    exact .inl hset
  | writeLast addr off lsb =>
    simp only [State.hostOp, State.hostWriteLast] at h
    split at h
    · rcases State.writeTarget_ovr hset (State.hostWrite_next h) with hkept | ⟨hτ, -⟩
      · exact .inl hkept
      · exact absurd (eq_of_target_reg hτ).1 (by decide)
    · cases h
  | wait =>
    obtain rfl := Host.Outcome.next.inj h
    rw [State.waitStatus]
    split <;> exact .inl hset
  | expect off v =>
    obtain rfl := Host.Outcome.next.inj h
    exact .inl hset
  | reset => exact .inr (.inl rfl)

/-- A turn of the engine leaves OVR set: no command writes it. -/
theorem step_engine_ovr (hturn : s.turn = .engine) (h : step s = .next t) : t.ovr = true := by
  have hpass : s.passTurn.ovr = true := by rw [State.passTurn_eq]; exact hset
  rcases step_engine_next hturn h with ⟨i, hexec⟩ | rfl
  · obtain ⟨-, -, -, -, hovr, -⟩ := commandsKeepTheConfiguration i _ _ hexec
    exact hovr.trans hpass
  · exact hpass

end

/-- Settles O19: a step of the engine keeps OVR, and so does every operation of the host but the two named. -/
theorem overrunIsSticky : Obligations.OverrunIsSticky := by
  unfold Obligations.OverrunIsSticky
  intro s t h hset hclear
  have hcleared : t.ovr ≠ true := by rw [hclear]; decide
  rcases s.turn_eq_host_or_engine with hturn | hturn
  · refine ⟨hturn, ?_⟩
    cases hs : s.script with
    | nil =>
      rw [step_host_done hturn hs] at h
      obtain rfl := Host.Outcome.next.inj h
      exact absurd hset hcleared
    | cons op ops =>
      rw [step_host hturn hs] at h
      have hnext : (s.hostNext ops).ovr = true := by rw [State.hostNext_eq]; exact hset
      have hop := (State.hostOp_ovr hnext h).resolve_left hcleared
      rw [State.hostNext_cfg] at hop
      exact ⟨op, ops, rfl, hop⟩
  · exact absurd (step_engine_ovr hset hturn h) hcleared

end Sys2Proof.Machine
end

section
/-! SUPPORT. What the engine takes from the MAC (60_exceptions.md R346, R353): one receive, and the frames dropped before anything is
written. -/

namespace Sys2Proof.Machine

/-! ### One receive (R353, 10_state.md R51) -/

/-- What a receive leaves in `B` is one store of the frame at offset 0. -/
theorem State.macReceive_readB (s : State) (a n : Nat) : s.macReceive.readB a n = (s.writeB 0 s.nextFrame).readB a n := by
  obtain ⟨-, -, -, -, hrange⟩ := State.reads_congr (s := s.writeB 0 s.nextFrame) (t := s.macReceive) rfl rfl
  exact hrange a n

/-- Settles O42: the answer is cut to BUF_SIZE bytes and stored at the start of `B`. -/
theorem receiveKeepsTheContract : Obligations.ReceiveKeepsTheContract := by
  unfold Obligations.ReceiveKeepsTheContract
  refine fun s => ⟨s.nextFrame_length_le, rfl, ?_, fun x hx => ?_, fun f fs hin hfits => ?_⟩
  · rw [State.macReceive_readB, State.readB_writeB_same]
  · rw [State.byteB_macReceive, if_neg (Nat.not_lt.2 hx)]
  · rw [State.nextFrame_cons hin, List.take_of_length_le hfits]

/-! ### Frames dropped before anything is written (R346) -/

/-- The IPv4 packet in `B` fails a check of the validator that stands before the terminator (43_ipv4_icmp.md R230). -/
def State.failsValidation (s : State) : Prop :=
  s.rd8 14 ≠ 0x45 ∨ s.rd32 30 ≠ s.localIp ∨ (s.rd16 16).toNat < 20 ∨ s.cfg.bufSize < 14 + (s.rd16 16).toNat + 1

/-- The frame of `n` bytes in `B` is dropped before anything is written: it is too short (41_frame_dispatch.md R172), of an unknown
type, an ARP frame that is not admitted (R173), or an IPv4 packet that fails validation. -/
def State.dropsFrame (s : State) (n : Nat) : Prop :=
  n ≤ 14 ∨ (s.rd16 12 ≠ 0x0806 ∧ s.rd16 12 ≠ 0x0800) ∨
  (s.rd16 12 = 0x0806 ∧ ¬ (s.rd16 20 = 1 ∧ s.rd32 38 = s.localIp ∧ s.rd16 14 = 1 ∧ s.rd16 16 = 0x0800)) ∨
  (s.rd16 12 = 0x0800 ∧ s.failsValidation)

section
variable {s : State} (hwf : s.cfg.wf)
include hwf

theorem State.ipRead_dropped (h : s.failsValidation) : s.ipRead = s := by
  obtain ⟨-, -, -, -, -, -, hip, -⟩ := hwf
  simp only [State.ipRead, hip]
  by_cases hver : s.rd8 14 ≠ 0x45
  · exact if_pos hver
  refine (if_neg hver).trans ?_
  by_cases hdst : s.rd32 30 ≠ s.localIp
  · exact if_pos hdst
  refine (if_neg hdst).trans ?_
  by_cases hlen : (s.rd16 16).toNat < 20
  · exact if_pos hlen
  have hout := ((h.resolve_left hver).resolve_left hdst).resolve_left hlen
  exact (if_neg hlen).trans (if_neg fun hin => absurd ((s.inRange_iff _ _).1 hin) (by omega))

theorem State.classify_dropped {n : Nat} (h : s.dropsFrame n) : s.classify n = s := by
  obtain ⟨-, -, -, -, -, heth, -⟩ := id hwf
  by_cases hshort : n ≤ s.cfg.ethHlen
  · exact State.classify_short hshort
  rw [State.classify, if_neg hshort]
  rcases h with hn | ⟨harp, hip⟩ | ⟨harp, hadmit⟩ | ⟨hip, hinvalid⟩
  · exact absurd (heth ▸ hn) hshort
  · exact (if_neg harp).trans (if_neg hip)
  · exact (if_pos harp).trans (if_neg fun hadmitted => hadmit (s.arpAdmit_iff.1 hadmitted))
  · rw [if_neg (by rw [hip]; decide), if_pos (by rw [hip]; rfl), State.ipRead_dropped hwf hinvalid]

/-- RX_DISPATCH of a dropped frame ends normally with the event cleared. -/
theorem exec_rxDispatch_dropped (h : s.dropsFrame s.arg0.toNat) (hready : s.initialised = true)
    (hin : s.arg0.toNat ≤ s.cfg.bufSize) : exec .rxDispatch s = .next (s.clearEvent.finish 0 0) := by
  have hframe : s.rxFrame = s.clearEvent := State.classify_dropped (s := s.clearEvent) hwf h
  rw [exec_rxDispatch_ready hready hin, hframe]
  rfl

end

/-- A turn of POLL that receives a dropped frame only records it. -/
theorem State.pollTurn_dropped {s : State} (k : Word) (hwf : s.cfg.wf) (hevent : s.evtKind = 0) (hframe : s.nextFrame ≠ [])
    (h : s.macReceive.dropsFrame s.nextFrame.length) : s.pollTurn k = s.macReceive.setStage (.draining (k + 1)) := by
  have hdrop : s.macReceive.classify s.nextFrame.length = s.macReceive :=
    State.classify_dropped (s := s.macReceive) hwf h
  rw [State.pollTurn_noEvent k hframe (by rw [hdrop]; exact hevent), hdrop]

/-- Settles O31: no check that drops the frame has written anything, and a dropped frame leaves the event clear. -/
theorem droppedFrameHasNoEffect : Obligations.DroppedFrameHasNoEffect := by
  unfold Obligations.DroppedFrameHasNoEffect
  intro s n hwf h
  have hdrop : s.dropsFrame n := h
  refine ⟨State.classify_dropped hwf hdrop, ?_, ?_⟩
  · rintro hready rfl hin
    rw [exec_rxDispatch_dropped hwf hdrop hready hin]
    rfl
  · rintro r k hstage hevent rfl rfl hne
    rw [exec_poll_draining hstage, State.pollTurn_dropped (s := r) k hwf hevent (fun hnil => hne (by rw [hnil]; rfl)) hdrop]
    rfl

end Sys2Proof.Machine
end

section
/-! SUPPORT. The errors of the commands (60_exceptions.md R342 to R344): at its start a command ends with the error of the first of its
conditions that holds, and nothing else ends a command with an error. -/

namespace Sys2Proof.Machine

/-! ### The end of a command with an error (R344) -/

/-- The end of a command with error `c`; only a name error, which is DNS_RESOLVE's, leaves `N` unspecified (45_dns.md R318). -/
def State.endedBy (s : State) : CmdError → State
  | .name => s.scrambleN.raise .name
  | c => s.raise c

/-- A CmdError changes the results and STATUS only, and `N` where it is a name error. -/
theorem State.endedBy_rest (s : State) (c : CmdError) : s.endedBy c = { s with
    result0 := 0, result1 := 0, stage := .idle, done := true, err := true, errcode := c.code
    name := (s.endedBy c).name, nameGen := (s.endedBy c).nameGen } := by
  cases c <;> rfl

theorem State.endedBy_errcode (s : State) (c : CmdError) : (s.endedBy c).errcode = c.code := by
  cases c <;> rfl

theorem State.endedBy_name (s : State) {c : CmdError} (hc : c ≠ .name) :
    (s.endedBy c).name = s.name ∧ (s.endedBy c).nameGen = s.nameGen := by
  cases c
  case name => exact absurd rfl hc
  all_goals exact ⟨rfl, rfl⟩

/-! ### The flags a command leaves where it reports no error -/

/-- ERR and ERRCODE are the same in `t` as in `s`. -/
def State.SameError (s t : State) : Prop := t.err = s.err ∧ t.errcode = s.errcode

theorem State.ChangedBy.sameError {i : Instr} {s t : State} (h : s.ChangedBy i t) : s.SameError t := by
  rw [h.rest]; exact ⟨rfl, rfl⟩

theorem State.SameError.finish {s t : State} (h : s.SameError t) (r0 r1 : Word) : s.SameError (t.finish r0 r1) := h

/-! ### The error conditions in their order (R343) -/

/-- `t` is what the error conditions `l` of a command make of `s`: the end with the error of the first one that holds, or, where
none does, a state with the error flags of `s`. -/
inductive State.Checked (s t : State) : List (Bool × CmdError) → Prop where
  | passed (h : s.SameError t) : s.Checked t []
  | raises {b : Bool} {c : CmdError} {l : List (Bool × CmdError)} (hb : b = true) (h : t = s.endedBy c) :
    s.Checked t ((b, c) :: l)
  | clear {b : Bool} {c : CmdError} {l : List (Bool × CmdError)} (hb : b = false) (h : s.Checked t l) :
    s.Checked t ((b, c) :: l)

/-- The start of command `i` makes `t` of `s`, through its error conditions. -/
abbrev State.StartsTo (i : Instr) (s t : State) : Prop := s.Checked t (s.errorChecks i)

theorem State.Checked.first {s t : State} {l : List (Bool × CmdError)} (h : s.Checked t l) :
    (∀ c, (l.find? (·.1)).map (·.2) = some c → t = s.endedBy c) ∧ ((l.find? (·.1)).map (·.2) = none → s.SameError t) := by
  induction h with
  | passed h => exact ⟨nofun, fun _ => h⟩
  | raises hb h =>
    rw [List.find?_cons_of_pos (by exact hb)]
    exact ⟨fun c hc => h.trans (congrArg s.endedBy (Option.some.inj hc)), nofun⟩
  | clear hb _ ih =>
    rw [List.find?_cons_of_neg (by simp [hb])]
    exact ih

/-- What the first error of a command says of the command's start. -/
theorem State.StartsTo.firstError {i : Instr} {s t : State} (h : s.StartsTo i t) :
    (∀ c, s.firstError i = some c → t = s.endedBy c) ∧ (s.firstError i = none → s.SameError t) := h.first

/-! ### One lemma per command -/

section
variable {s t : State}

theorem State.Checked.ready {l : List (Bool × CmdError)} (hready : s.initialised = true) (h : s.Checked t l) :
    s.Checked t ((!s.initialised, .noinit) :: l) := .clear (by rw [hready]; rfl) h

theorem State.Checked.noinit {l : List (Bool × CmdError)} (hinit : ¬ s.initialised = true) (h : t = s.raise .noinit) :
    s.Checked t ((!s.initialised, .noinit) :: l) := .raises (by rw [Bool.not_eq_true] at hinit; rw [hinit]; rfl) h

theorem exec_csum_startsTo (h : exec .csum s = .next t) : s.StartsTo .csum t := by
  obtain rfl := Host.Outcome.next.inj h
  split
  · next hin =>
    rw [State.inRange_iff] at hin
    exact .clear (decide_eq_false (by omega)) (.passed ⟨rfl, rfl⟩)
  · next hout =>
    rw [State.inRange_iff] at hout
    exact .raises (decide_eq_true (by omega)) rfl

theorem exec_csumPseudo_startsTo (h : exec .csumPseudo s = .next t) : s.StartsTo .csumPseudo t := by
  obtain rfl := Host.Outcome.next.inj h
  simp only [State.inRange_iff]
  split
  · next hhead =>
    refine .clear (decide_eq_false (by omega)) ?_
    split
    · next hmin => exact .raises (decide_eq_true hmin) rfl
    · next hmin =>
      refine .clear (decide_eq_false hmin) ?_
      split
      · next hin => exact .clear (decide_eq_false (by omega)) (.passed ⟨rfl, rfl⟩)
      · next hout => exact .raises (decide_eq_true (by omega)) rfl
  · next hhead => exact .raises (decide_eq_true (by omega)) rfl

theorem exec_rxDispatch_startsTo (h : exec .rxDispatch s = .next t) : s.StartsTo .rxDispatch t := by
  obtain rfl := Host.Outcome.next.inj h
  simp only [State.inRange_iff]
  split
  · next hready =>
    refine .ready hready ?_
    split
    · next hin =>
      have hsame := ((State.ChangedBy.refl .rxDispatch s).clearEvent.classify s.opFrameLen).sameError
      exact .clear (decide_eq_false (by omega)) (.passed (hsame.finish _ _))
    · next hout => exact .raises (decide_eq_true (by omega)) rfl
  · next hinit => exact .noinit hinit rfl

theorem State.pollStart_startsTo (s : State) : s.StartsTo .poll s.pollStart := by
  rw [State.pollStart]
  split
  · next hready => exact .ready hready (.passed ⟨rfl, rfl⟩)
  · next hinit => exact .noinit hinit rfl

theorem State.arpAsked_sameError (s : State) : s.SameError s.arpAsked :=
  ((State.ChangedBy.refl .arpResolve s).arpStart s.opIp s.opBudget).sameError

theorem State.arpResolveStart_startsTo (s : State) : s.StartsTo .arpResolve s.arpResolveStart := by
  rw [State.arpResolveStart]
  split
  · next hready => exact .ready hready (.passed s.arpAsked_sameError)
  · next hinit => exact .noinit hinit rfl

theorem State.pingStart_startsTo (s : State) : s.StartsTo .ping s.pingStart := s.arpResolveStart_startsTo

theorem State.dnsStart_startsTo (s : State) : s.StartsTo .dnsResolve s.dnsStart := by
  rw [State.dnsStart]
  split
  · next hready =>
    refine .ready hready ?_
    split
    · next hname => exact .clear (by rw [hname]; rfl) (.passed s.arpAsked_sameError)
    · next hname =>
      rw [Bool.not_eq_true] at hname
      exact .raises (by rw [hname]; rfl) rfl
  · next hinit => exact .noinit hinit rfl

theorem exec_ipSend_startsTo (h : exec .ipSend s = .next t) : s.StartsTo .ipSend t := by
  rw [exec_ipSend_eq] at h
  obtain rfl := Host.Outcome.next.inj h
  split
  · next hready =>
    refine .ready hready ?_
    split
    · next hbits =>
      refine .clear (decide_eq_false (by rw [← not_and_or]; exact not_not_intro hbits)) ?_
      split
      · next hin =>
        have hsame := ((State.ChangedBy.refl .ipSend s).emits (s.ipSend_emits s.opPlen s.opProto)).sameError
        exact .clear (decide_eq_false (by omega)) (.passed (hsame.finish _ _))
      · next hout => exact .raises (decide_eq_true (by omega)) rfl
    · next hbits => exact .raises (decide_eq_true (not_and_or.1 hbits)) rfl
  · next hinit => exact .noinit hinit rfl

theorem exec_udpSend_startsTo (h : exec .udpSend s = .next t) : s.StartsTo .udpSend t := by
  rw [exec_udpSend_eq] at h
  obtain rfl := Host.Outcome.next.inj h
  split
  · next hready =>
    refine .ready hready ?_
    split
    · next hbits =>
      refine .clear (decide_eq_false (not_not_intro hbits)) ?_
      split
      · next hin =>
        have hsame := ((State.ChangedBy.refl .udpSend s).emits (s.udpSendBody_emits s.opSrc s.opSendLen)).sameError
        exact .clear (decide_eq_false (by omega)) (.clear (decide_eq_false (by omega)) (.passed (hsame.finish _ _)))
      · next hout =>
        by_cases hsrc : s.opSrc + s.opSendLen ≤ s.cfg.bufSize
        · exact .clear (decide_eq_false (by omega)) (.raises (decide_eq_true (by omega)) rfl)
        · exact .raises (decide_eq_true (by omega)) rfl
    · next hbits => exact .raises (decide_eq_true hbits) rfl
  · next hinit => exact .noinit hinit rfl

theorem exec_tcpSend_startsTo (h : exec .tcpSend s = .next t) : s.StartsTo .tcpSend t := by
  obtain rfl := Host.Outcome.next.inj h
  simp only [State.argBitsOk_tcpSend, Bool.and_eq_true, State.inRange_iff]
  split
  · next hready =>
    refine .ready hready ?_
    split
    · next hbits =>
      refine .clear (decide_eq_false (not_not_intro hbits)) ?_
      split
      · next hhead => exact .raises (decide_eq_true hhead) rfl
      · next hhead =>
        refine .clear (decide_eq_false hhead) ?_
        split
        · next hin =>
          have hsame := ((State.ChangedBy.refl .tcpSend s).tcpSendBody s.tcpHlen s.opSrc s.opSendLen).sameError
          exact .clear (decide_eq_false (by omega)) (.clear (decide_eq_false (by omega)) (.passed (hsame.finish _ _)))
        · next hout =>
          by_cases hsrc : s.opSrc + s.opSendLen ≤ s.cfg.bufSize
          · exact .clear (decide_eq_false (by omega)) (.raises (decide_eq_true (by omega)) rfl)
          · exact .raises (decide_eq_true (by omega)) rfl
    · next hbits => exact .raises (decide_eq_true hbits) rfl
  · next hinit => exact .noinit hinit rfl

end

/-! ### The turns of the loops report no error -/

theorem State.pollTurn_sameError (s : State) (k : Word) : s.SameError (s.pollTurn k) := by
  have hreceived := (State.ChangedBy.refl .poll s).macReceive
  simp only [State.pollTurn]
  split
  · exact hreceived.sameError.finish _ _
  · split
    · exact (hreceived.classify _).sameError.finish _ _
    · exact ((hreceived.classify _).setStage _).sameError

/-- A turn of a bounded wait (42_arp.md R205) reports no error where neither way out of the wait does. -/
theorem WaitsBy.sameError {i : Instr} {P : State → Prop} {isMatch : State → Bool} {hit miss : State → State}
    (w : WaitsBy i P isMatch hit miss) (hhit : ∀ u : State, u.SameError (hit u)) (hmiss : ∀ u : State, u.SameError (miss u))
    {s t : State} (hs : P s) (h : exec i s = .next t) : s.SameError t := by
  by_cases hcnt : s.cnt = 0
  · rw [w.failed hs hcnt] at h
    obtain rfl := Host.Outcome.next.inj h
    exact hmiss s
  by_cases hmatch : s.receivesMatch isMatch
  · rw [w.matched hs hcnt hmatch] at h
    obtain rfl := Host.Outcome.next.inj h
    exact hhit s.decCnt.macReceive
  · rw [w.again hs hcnt hmatch] at h
    obtain rfl := Host.Outcome.next.inj h
    exact ⟨rfl, rfl⟩

theorem State.echoAsked_sameError (ip budget : Word) (s : State) : s.SameError (s.echoAsked ip budget) := by
  rw [State.echoAsked_rest]; exact ⟨rfl, rfl⟩

theorem State.dnsAsked_sameError (ip budget : Word) (s : State) : s.SameError (s.dnsAsked ip budget) := by
  rw [State.dnsAsked_rest]; exact ⟨rfl, rfl⟩

theorem State.arpResolveTurn_sameError {s : State} (hg : s.stage = .arpWait) : s.SameError s.arpResolveTurn :=
  (arpResolve_waitsBy s.opIp).sameError (fun _ => ⟨rfl, rfl⟩) (fun _ => ⟨rfl, rfl⟩) ⟨hg, rfl⟩ (exec_arpResolve_wait hg)

theorem State.pingArpTurn_sameError {s : State} (hg : s.stage = .arpWait) : s.SameError s.pingArpTurn :=
  (ping_waitsBy_arp s.opIp s.opBudget).sameError (State.echoAsked_sameError _ _) (fun _ => ⟨rfl, rfl⟩) ⟨hg, rfl, rfl⟩
    (exec_ping_arpWait hg)

theorem State.pingEchoTurn_sameError {s : State} (hg : s.stage = .echoWait) : s.SameError s.pingEchoTurn :=
  (ping_waitsBy_echo s.opBudget).sameError (fun _ => ⟨rfl, rfl⟩) (fun _ => ⟨rfl, rfl⟩) ⟨hg, rfl⟩ (exec_ping_echoWait hg)

theorem State.dnsArpTurn_sameError {s : State} (hg : s.stage = .arpWait) : s.SameError s.dnsArpTurn :=
  (dnsResolve_waitsBy_arp s.opIp s.opBudget s.dnsId).sameError (State.dnsAsked_sameError _ _) (fun _ => ⟨rfl, rfl⟩)
    ⟨hg, rfl, rfl, rfl⟩ (exec_dnsResolve_arpWait hg)

theorem State.dnsReplyTurn_sameError {s : State} (hg : s.stage = .replyWait) : s.SameError s.dnsReplyTurn :=
  (dnsResolve_waitsBy_reply s.dnsId).sameError (fun _ => ⟨rfl, rfl⟩) (fun _ => ⟨rfl, rfl⟩) ⟨hg, rfl⟩
    (exec_dnsResolve_replyWait hg)

/-! ### Every command -/

/-- A step of a command is its start, through its error conditions, or a turn of one of its loops, which reports no error. -/
theorem exec_startsTo {i : Instr} {s t : State} (h : exec i s = .next t) :
    s.StartsTo i t ∨ (s.stage ≠ .start ∧ s.SameError t) := by
  cases i with
  | csum => exact .inl (exec_csum_startsTo h)
  | csumPseudo => exact .inl (exec_csumPseudo_startsTo h)
  | rxDispatch => exact .inl (exec_rxDispatch_startsTo h)
  | ipSend => exact .inl (exec_ipSend_startsTo h)
  | udpSend => exact .inl (exec_udpSend_startsTo h)
  | tcpSend => exact .inl (exec_tcpSend_startsTo h)
  | poll =>
    obtain rfl := Host.Outcome.next.inj h
    split
    · next hg => exact .inr ⟨by rw [hg]; nofun, s.pollTurn_sameError _⟩
    · exact .inl s.pollStart_startsTo
  | arpResolve =>
    obtain rfl := Host.Outcome.next.inj h
    split
    · next hg => exact .inr ⟨by rw [hg]; nofun, State.arpResolveTurn_sameError hg⟩
    · exact .inl s.arpResolveStart_startsTo
  | ping =>
    obtain rfl := Host.Outcome.next.inj h
    split
    · next hg => exact .inr ⟨by rw [hg]; nofun, State.pingArpTurn_sameError hg⟩
    · next hg => exact .inr ⟨by rw [hg]; nofun, State.pingEchoTurn_sameError hg⟩
    · exact .inl s.pingStart_startsTo
  | dnsResolve =>
    obtain rfl := Host.Outcome.next.inj h
    split
    · next hg => exact .inr ⟨by rw [hg]; nofun, State.dnsArpTurn_sameError hg⟩
    · next hg => exact .inr ⟨by rw [hg]; nofun, State.dnsReplyTurn_sameError hg⟩
    · exact .inl s.dnsStart_startsTo

/-- Only DNS_RESOLVE reports a name error. -/
theorem State.firstError_ne_name {i : Instr} (hi : i ≠ .dnsResolve) (s : State) : s.firstError i ≠ some .name := by
  intro h
  obtain ⟨check, hfind, hname⟩ := Option.map_eq_some_iff.1 h
  have hmem : CmdError.name ∈ (s.errorChecks i).map (·.2) :=
    List.mem_map.2 ⟨check, List.mem_of_find?_eq_some hfind, hname⟩
  cases i
  case dnsResolve => exact hi rfl
  all_goals simp [State.errorChecks] at hmem

/-- Settles O23: at its start a command goes through its error conditions in the order of the table. -/
theorem firstErrorIsReported : Obligations.FirstErrorIsReported := by
  unfold Obligations.FirstErrorIsReported
  refine ⟨fun s w hw => ?_, fun i s hstage => ?_, by decide, fun s => ?_, State.nameEnds_iff⟩
  · rw [State.takeCommand_of_illegal s hw]
    exact ⟨rfl, rfl, rfl⟩
  · obtain ⟨t, hexec⟩ := exec_next i s
    have hstart := (exec_startsTo hexec).resolve_right fun hturn => hturn.1 hstage
    obtain ⟨herror, hnone⟩ := hstart.firstError
    refine ⟨fun c hc => ?_, fun hno => ⟨t, hexec, hnone hno⟩⟩
    obtain rfl := herror c hc
    exact ⟨_, hexec, s.endedBy_rest c, s.endedBy_name⟩
  · simp [State.initialised, and_assoc]

/-- Settles O24: a step that sets ERR is the start of a command that ends with its first error. -/
theorem commandErrorIsPrecise : Obligations.CommandErrorIsPrecise := by
  unfold Obligations.CommandErrorIsPrecise
  intro i s t h hclear hset
  have hchanged : ¬ s.SameError t := fun hsame => by rw [hsame.1, hclear] at hset; cases hset
  have hstart := (exec_startsTo h).resolve_right fun hturn => hchanged hturn.2
  obtain ⟨herror, hnone⟩ := hstart.firstError
  obtain ⟨c, hc⟩ := Option.ne_none_iff_exists'.1 fun hno => hchanged (hnone hno)
  obtain rfl := herror c hc
  refine ⟨?_, fun hi => s.endedBy_name ?_⟩
  · rw [State.endedBy_errcode]; exact s.endedBy_rest c
  · rintro rfl
    exact s.firstError_ne_name hi hc

end Sys2Proof.Machine
end

section
/-! SUPPORT. The bounds on the commands that wait (60_exceptions.md R361): each wait receives at most its budget of frames. -/

namespace Sys2Proof.Machine

/-! ### Receives (60_exceptions.md R353) -/

theorem receiveCount_sent (h : List MacEvent) (bytes : List Byte) : receiveCount (h ++ [.sent bytes]) = receiveCount h := by
  rw [receiveCount, List.filter_append, List.length_append]; rfl

theorem State.arpAsked_receiveCount (s : State) : receiveCount s.arpAsked.history = receiveCount s.history := by
  rw [State.arpAsked, State.beginWait_history, (s.clearEvent.arpRequest_emits s.opIp).history_eq, receiveCount_sent,
    State.clearEvent_history]

theorem State.echoAsked_receiveCount (ip budget : Word) (s : State) :
    receiveCount (s.echoAsked ip budget).history = receiveCount s.history := by
  rw [State.echoAsked_rest]; exact receiveCount_sent _ _

theorem State.dnsAsked_receiveCount (ip budget : Word) (s : State) :
    receiveCount (s.dnsAsked ip budget).history = receiveCount s.history := by
  rw [State.dnsAsked_rest]; exact receiveCount_sent _ _

theorem State.macReceive_receiveCount (s : State) : receiveCount s.macReceive.history = receiveCount s.history + 1 := by
  rw [State.macReceive_history, receiveCount_received]

/-! ### Ends within a number of receives -/

/-- `t` is the end of a command, at most `n` receives after `s`. -/
structure State.EndsWithin (s : State) (n : Nat) (t : State) : Prop where
  idle : t.stage = .idle
  done : t.done = true
  receives : receiveCount t.history ≤ receiveCount s.history + n

namespace State.EndsWithin

variable {s t u : State} {m n : Nat}

theorem mono (h : s.EndsWithin m t) (hmn : m ≤ n) : s.EndsWithin n t :=
  { h with receives := h.receives.trans (Nat.add_le_add_left hmn _) }

/-- What is received before the wait begins does not count. -/
theorem of_same (h : u.EndsWithin n t) (hu : receiveCount u.history = receiveCount s.history) : s.EndsWithin n t :=
  { h with receives := hu ▸ h.receives }

theorem finish (s : State) (r0 r1 : Word) : s.EndsWithin 0 (s.finish r0 r1) := ⟨rfl, rfl, le_rfl⟩

theorem raise (s : State) (c : CmdError) : s.EndsWithin 0 (s.raise c) := ⟨rfl, rfl, le_rfl⟩

theorem finishDns (s : State) (r0 : Word) : s.EndsWithin 0 (s.finishDns r0) := ⟨rfl, rfl, le_rfl⟩

/-- A wait with `n` iterations left receives at most `n` frames before what follows it (42_arp.md R205). -/
theorem of_afterWait {hit miss : State → State} (hhit : ∀ t : State, t.EndsWithin m (hit t))
    (hmiss : ∀ t : State, t.EndsWithin 0 (miss t)) (isMatch : State → Bool) (s : State) (n : Nat) :
    s.EndsWithin (n + m) (afterWait hit miss (s.boundedWait isMatch n)) := by
  induction n generalizing s with
  | zero => exact (hmiss s).mono (Nat.zero_le _)
  | succ n ih =>
    have hreceived : receiveCount s.decCnt.macReceive.history = receiveCount s.history + 1 :=
      s.decCnt.macReceive_receiveCount
    have hcounted : ∀ t : State, s.decCnt.macReceive.EndsWithin (n + m) t → s.EndsWithin (n + 1 + m) t := by
      rintro t ⟨hidle, hdone, hcount⟩
      exact ⟨hidle, hdone, by omega⟩
    by_cases hmatch : s.receivesMatch isMatch
    · rw [State.boundedWait_matched n hmatch]
      exact hcounted _ ((hhit _).mono (Nat.le_add_left m n))
    · rw [State.boundedWait_again n hmatch]
      exact hcounted _ (ih _)

end State.EndsWithin

/-! ### The three commands that wait -/

theorem State.wholeArpResolve_endsWithin (s : State) : s.EndsWithin s.opBudget.toNat s.wholeArpResolve := by
  by_cases hready : s.initialised = true
  · rw [State.wholeArpResolve_ready hready]
    exact (State.EndsWithin.of_afterWait (m := 0) (fun t => .finish t _ _) (fun t => .finish t 0 0) _ _ _).of_same
      s.arpAsked_receiveCount
  · rw [State.wholeArpResolve_noinit hready]
    exact (State.EndsWithin.raise s _).mono (Nat.zero_le _)

/-- PING's second wait is that of the echo reply. -/
theorem State.wholePing_endsWithin (s : State) : s.EndsWithin (2 * s.opBudget.toNat) s.wholePing := by
  by_cases hready : s.initialised = true
  · rw [State.wholePing_ready hready, Nat.two_mul]
    refine (State.EndsWithin.of_afterWait (fun t => ?_) (fun t => .finish t 0 0) _ _ _).of_same s.arpAsked_receiveCount
    exact (State.EndsWithin.of_afterWait (m := 0) (fun u => .finish u _ 0) (fun u => .finish u 0 0) _ _ _).of_same
      (State.echoAsked_receiveCount _ _ t)
  · rw [State.wholePing_noinit hready]
    exact (State.EndsWithin.raise s _).mono (Nat.zero_le _)

/-- DNS_RESOLVE's second wait is that of the server's reply. -/
theorem State.wholeDnsResolve_endsWithin (s : State) : s.EndsWithin (2 * s.opBudget.toNat) s.wholeDnsResolve := by
  by_cases hready : s.initialised = true
  · by_cases hname : s.nameEnds = true
    · rw [State.wholeDnsResolve_ready hready hname, Nat.two_mul]
      refine (State.EndsWithin.of_afterWait (fun t => ?_) (fun t => .finishDns t 0) _ _ _).of_same s.arpAsked_receiveCount
      exact (State.EndsWithin.of_afterWait (m := 0) (fun u => .finishDns u _) (fun u => .finishDns u 0) _ _ _).of_same
        (State.dnsAsked_receiveCount _ _ t)
    · rw [State.wholeDnsResolve_noname hready hname]
      exact ((State.EndsWithin.raise s.scrambleN _).of_same (s := s) rfl).mono (Nat.zero_le _)
  · rw [State.wholeDnsResolve_noinit hready]
    exact (State.EndsWithin.raise s _).mono (Nat.zero_le _)

/-- Settles O47: each command runs to the end of its pseudocode, whose waits receive at most their budget. -/
theorem waitsAreBounded : Obligations.WaitsAreBounded := by
  unfold Obligations.WaitsAreBounded
  intro i s hi hstage
  simp only [List.mem_cons, List.not_mem_nil, or_false] at hi
  rcases hi with rfl | rfl | rfl
  · obtain ⟨hidle, hdone, hcount⟩ := s.wholeArpResolve_endsWithin
    exact ⟨_, arpResolveMeetsItsPseudocode s _ hstage (by omega), hidle, hdone, hcount⟩
  · obtain ⟨hidle, hdone, hcount⟩ := s.wholePing_endsWithin
    exact ⟨_, pingMeetsItsPseudocode s _ hstage le_rfl, hidle, hdone, hcount⟩
  · obtain ⟨hidle, hdone, hcount⟩ := s.wholeDnsResolve_endsWithin
    exact ⟨_, dnsResolveMeetsItsPseudocode s _ hstage le_rfl, hidle, hdone, hcount⟩

end Sys2Proof.Machine
end

section
/-! SUPPORT. Reset (70_reset_and_hazards.md R370): the state the machine starts in, and the step of the reset event. -/

namespace Sys2Proof.Machine

/-- With empty buffers, no event, no error and no command running, the invariant asks of the start state only its parameters. -/
theorem State.reset_inv {p : Params} (hp : p.wf) : ({ State.reset with cfg := p } : State).Inv where
  params := hp
  frameWf := reset_memories_wf.1
  frameWithin := List.forall_mem_nil _
  nameWf := reset_memories_wf.2
  nameWithin := List.forall_mem_nil _
  eventKind := Nat.zero_le _
  eventNone _ := ⟨rfl, rfl⟩
  eventInside := Nat.zero_le _
  errcode := Nat.zero_le _
  errAgrees := by simp [State.reset]
  errDone herr := absurd herr Bool.false_ne_true
  busyClear hbusy := absurd rfl hbusy
  busyCommand hbusy := absurd rfl hbusy
  busyReady hbusy := absurd rfl hbusy
  budget hwait := absurd hwait Bool.false_ne_true
  macCalls := List.forall_mem_nil _

theorem State.reset_statusWord : State.reset.statusWord = 0 := by decide

/-- STATUS shows nothing of what the reset event keeps. -/
theorem State.resetEvent_statusWord (s : State) : s.resetEvent.statusWord = 0 := State.reset_statusWord

/-- The step of the reset event: beside it, only the script and the choice of whose turn it is move on. -/
theorem step_reset {s : State} {ops : List HostOp} (hturn : s.turn = .host) (hs : s.script = .reset :: ops) :
    step s = .next { s.resetEvent with script := ops, sched := s.passTurn.sched, draws := s.passTurn.draws } := by
  rw [step_host hturn hs, State.hostNext_eq]; rfl

/-- Settles O15, whose one premise is the clause of the invariant on the parameters. -/
theorem resetMeetsTheInvariant : Obligations.ResetMeetsTheInvariant := by
  unfold Obligations.ResetMeetsTheInvariant
  exact fun _ => State.reset_inv

/-- Settles O14: the step of the reset event gives every register the value it has in the start state, and takes the record, the
parameters and the inputs from the state before. -/
theorem resetLeavesTheStatedValues : Obligations.ResetLeavesTheStatedValues := by
  unfold Obligations.ResetLeavesTheStatedValues
  refine ⟨by decide, fun s ops hturn hs => ⟨_, step_reset hturn hs, ?_⟩⟩
  exact ⟨rfl, rfl, rfl, rfl, rfl, rfl, rfl, rfl, rfl, rfl, s.resetEvent_statusWord, rfl, rfl, rfl, rfl, rfl, rfl, rfl, rfl, rfl,
    rfl, rfl, rfl, rfl, rfl, rfl, rfl, rfl⟩

end Sys2Proof.Machine
end
